-- ==== Sys2Proof/Word.lean ====
section
/-! DEFINITION. The words of the part: the byte of the serial lines (R178) and the 32-bit stamp of the
timebase (chapter 0, "Time"). Quantities that the manual only adds, compares and clamps are `Nat` or `Int`;
only what the manual treats as bits is a bit vector. -/

namespace Sys2Proof

/-- One byte of a frame (R178, R179). -/
abbrev Byte := BitVec 8

/-- A value of the timebase: a 32-bit count of milliseconds that wraps (chapter 0, "Time"). -/
abbrev Stamp := BitVec 32

end Sys2Proof
end

