-- ==== Sys2Proof/Config.lean ====
section
/-! DEFINITION. What the manual fixes once for the part and no CONFIG_WRITE can change: the fixed
periods and the constants of the formulae. The configuration ITEMS of R196 are state (they are written),
and stand in `Machine/Types.lean` and `Machine/Defaults.lean`. The manual leaves no result value open,
so this file declares no free value (see NOTES.md). -/

namespace Sys2Proof.Config

/-- Period of the settlement timer in ms (chapter 0, "Time"; R202). -/
def settlementPeriod : Nat := 10

/-- Length of the start window in ms (R205). -/
def startWindow : Nat := 2000

/-- Freshness limit of a motor link in ms (R59). -/
def linkLimit : Nat := 30

/-- Length of the combination hold timer in ms (R203). -/
def combinationHold : Nat := 100

/-- Length of a calibration in ms (R149). -/
def calibrationLength : Nat := 40

/-- Reference conversions of a calibration: sixteen for each of the 22 channels (R149). -/
def referenceConversions : Nat := 352

/-- Speed, in 0.1 km/h, at which the vehicle no longer stands (R99, R108, R197). -/
def standingSpeed : Nat := 5

/-- The constant that turns torque times speed into power (R9). -/
def torqueConstant : Nat := 9549

/-- The constant that relates deceleration, mass and speed to power (R12). -/
def decelConstant : Nat := 360000

/-- The largest deceleration a request can express (R12, R25). -/
def maxDecel : Nat := 500

/-- The factor of the LIMP reduction of stage 3, in permille (R10). -/
def limpFactor : Nat := 250

/-- The lining cap on d_trac, in permille (R133). -/
def liningCap : Nat := 750

/-- Places of the account history (R21). -/
def historyPlaces : Nat := 16

/-- The top of the account mismatch count (R23). -/
def mismatchTop : Nat := 50

/-- The top of a wear accumulator (R159). -/
def wearTop : Nat := 4294967295

/-- Replies that may wait in one port's reply queue (R182). -/
def replyPlaces : Nat := 4

/-- Content bytes that one part of a READ answer carries (R191). -/
def partBytes : Nat := 17

/-- The longest frame the receiver stores, in bytes (R178). -/
def maxFrameBytes : Nat := 28

/-- The top of a monitor's trip count (R154) and of the reset count (R204). -/
def countTop : Nat := 65535

end Sys2Proof.Config
end

