-- ==== Sys2Proof/Syntax.lean ====
section
/-! DEFINITION. The commands of the part: one constructor of `Instr` for each row of
spec/opcode_table.json, in the table's order, with the operands the rule of the row gives it.
Fields of received frames stand here as they lie in the frame (R194), before any clamping (R32). -/

namespace Sys2Proof

/-- The three discrete emergency input lines (R52). -/
inductive EmergencyLine where
  | el0 | el1 | el2
  deriving DecidableEq, Repr

/-- The four running partners, in the order of R193. -/
inductive Partner where
  | drive | storage | generator | brake
  deriving DecidableEq, Repr

/-- The two traction motors, each behind its motor link (chapter 0). -/
inductive Motor where
  | a | b
  deriving DecidableEq, Repr

/-- The four partner ports and the service port (chapter 0). -/
inductive Port where
  | pd | ps | pg | pb | sv
  deriving DecidableEq, Repr

/-- Every serial line of the part: a port or a motor link (R178). -/
inductive Line where
  | port (p : Port)
  | link (m : Motor)
  deriving DecidableEq, Repr

/-- The commands the part takes: one constructor for each row of the table. -/
inductive Instr where
  /-- RUN_DOMAIN_POWER_UP (R201): the run supply rises. -/
  | runDomainPowerUp
  /-- RESET_LINE_ASSERT (R201). -/
  | resetLineAssert
  /-- RESET_LINE_RELEASE (R201). -/
  | resetLineRelease
  /-- EMERGENCY_LINE_CHANGE (R52): `line` goes to its active level, or leaves it. -/
  | emergencyLineChange (line : EmergencyLine) (active : Bool)
  /-- COMBINATION_HOLD_EXPIRY (R203). -/
  | combinationHoldExpiry
  /-- DRIVE_STATUS (R33), its payload fields as received (R194). -/
  | driveStatus (pedal aDem : BitVec 16) (direction flags : Byte)
  /-- STORAGE_STATUS (R33). -/
  | storageStatus (soc pDisLim pChgLim : BitVec 16) (flags : Byte)
  /-- GEN_STATUS (R30). -/
  | genStatus (report : Byte) (pGenAvail : BitVec 16)
  /-- BRAKE_STATUS (R33). -/
  | brakeStatus (v m slipCapA slipCapB : BitVec 16) (flags : Byte)
  /-- INV_STATUS (R58), on the link of `motor`. -/
  | invStatus (motor : Motor) (n tMot tGen : BitVec 16) (flags : Byte)
  /-- FRAME_ERROR (R180): a frame received on `line` that the checks judge, its bytes from the kind byte
  to the CRC, and whether any byte of it had a framing fault. -/
  | frameError (line : Line) (framing : Bool) (bytes : List Byte)
  /-- READ (R191). -/
  | read (port : Port) (item : Byte) (index : BitVec 16) (part : Byte)
  /-- CONFIG_WRITE (R197): an item number and the bytes of its value. -/
  | configWrite (port : Port) (item : BitVec 16) (value : List Byte)
  /-- CLEAR_STATUS (R190). -/
  | clearStatus (port : Port) (mask : BitVec 16)
  /-- LOAD_BLEND (R78): each step is its two bytes (R194). -/
  | loadBlend (port : Port) (slot first : Byte) (steps : List (Byte × Byte))
  /-- ACK_WARNING (R175). -/
  | ackWarning (port : Port) (item : Byte)
  /-- FORCE_DERATE (R131). -/
  | forceDerate (port : Port) (value : Byte)
  /-- WEAR_WRITE (R170): the item, the presence byte and the bytes of the carried fields. -/
  | wearWrite (port : Port) (item presence : Byte) (fields : List Byte)
  /-- WEAR_RESET (R171). -/
  | wearReset (port : Port) (item : Byte)
  /-- CALIBRATE (R148). -/
  | calibrate (port : Port)
  /-- CLEAR_LOCKOUT (R121). -/
  | clearLockout (port : Port)
  /-- FRAME_SENT (R184): the transmitter of `line` completes its frame. -/
  | frameSent (line : Line)
  /-- SETTLEMENT_TIMER_EXPIRY (R142). -/
  | settlementTimerExpiry
  /-- CONVERSION_COMPLETE (R140): the conversion in flight completes with this raw code. -/
  | conversionComplete (raw : BitVec 12)
  /-- ROUTINE_TRIGGER (R144): the routine period timer expires. -/
  | routineTrigger
  /-- CALIBRATION_END (R149). -/
  | calibrationEnd
  /-- SETTLEMENT_BEGIN (R1). -/
  | settlementBegin
  /-- ACCOUNT_SETTLED (R22). -/
  | accountSettled
  /-- PROMOTION_TIMER_EXPIRY (R103). -/
  | promotionTimerExpiry
  /-- LAYOVER_TIMER_EXPIRY (R104). -/
  | layoverTimerExpiry
  /-- START_TIMEOUT (R114). -/
  | startTimeout
  /-- GEN_SETTLE_EXPIRY (R115). -/
  | genSettleExpiry
  /-- STOP_TIMEOUT (R119). -/
  | stopTimeout
  /-- RETRY_DELAY_EXPIRY (R120). -/
  | retryDelayExpiry
  /-- PARTNER_STALE (R34). -/
  | partnerStale (partner : Partner)
  /-- PARTNER_LOST (R34). -/
  | partnerLost (partner : Partner)
  /-- START_WINDOW_EXPIRY (R205). -/
  | startWindowExpiry
  /-- MOTOR_LINK_STALE (R59). -/
  | motorLinkStale (motor : Motor)
  /-- ARMING_TIMER_EXPIRY (R128). -/
  | armingTimerExpiry
  /-- CLEARING_TIMER_EXPIRY (R128). -/
  | clearingTimerExpiry
  /-- RUN_DOMAIN_POWER_DOWN (R199). -/
  | runDomainPowerDown
  /-- KEEP_ALIVE_SUPPLY_FAILURE (R199). -/
  | keepAliveSupplyFailure
  deriving DecidableEq, Repr

end Sys2Proof
end

