-- ==== Sys2Proof/WellFormed.lean ====
section
/-! DEFINITION. Which commands are well formed: those whose operands fit the payload length their frame
kind permits (R180 check 5, and the length column of R194). Everything else about an operand is judged
by the block that owns it (R183). -/

namespace Sys2Proof

/-- A CONFIG_WRITE carries 1 to 20 value bytes (R194). -/
def configLengthOk (value : List Byte) : Bool :=
  1 ≤ value.length && value.length ≤ 20

/-- A LOAD_BLEND carries 1 to 8 whole steps (R78, R194). -/
def stepsLengthOk (steps : List (Byte × Byte)) : Bool :=
  1 ≤ steps.length && steps.length ≤ 8

/-- A WEAR_WRITE carries at most 13 bytes after its item and presence bytes (R194). -/
def wearLengthOk (fields : List Byte) : Bool :=
  fields.length ≤ 13

/-- A received frame is a run of at least one byte (R178). -/
def frameLengthOk (bytes : List Byte) : Bool :=
  1 ≤ bytes.length

/-- Every operand fits the length its frame kind permits. -/
def Instr.wellFormed : Instr → Bool
  | .runDomainPowerUp => true
  | .resetLineAssert => true
  | .resetLineRelease => true
  | .emergencyLineChange _ _ => true
  | .combinationHoldExpiry => true
  | .driveStatus _ _ _ _ => true
  | .storageStatus _ _ _ _ => true
  | .genStatus _ _ => true
  | .brakeStatus _ _ _ _ _ => true
  | .invStatus _ _ _ _ _ => true
  | .frameError _ _ bytes => frameLengthOk bytes
  | .read _ _ _ _ => true
  | .configWrite _ _ value => configLengthOk value
  | .clearStatus _ _ => true
  | .loadBlend _ _ _ steps => stepsLengthOk steps
  | .ackWarning _ _ => true
  | .forceDerate _ _ => true
  | .wearWrite _ _ _ fields => wearLengthOk fields
  | .wearReset _ _ => true
  | .calibrate _ => true
  | .clearLockout _ => true
  | .frameSent _ => true
  | .settlementTimerExpiry => true
  | .conversionComplete _ => true
  | .routineTrigger => true
  | .calibrationEnd => true
  | .settlementBegin => true
  | .accountSettled => true
  | .promotionTimerExpiry => true
  | .layoverTimerExpiry => true
  | .startTimeout => true
  | .genSettleExpiry => true
  | .stopTimeout => true
  | .retryDelayExpiry => true
  | .partnerStale _ => true
  | .partnerLost _ => true
  | .startWindowExpiry => true
  | .motorLinkStale _ => true
  | .armingTimerExpiry => true
  | .clearingTimerExpiry => true
  | .runDomainPowerDown => true
  | .keepAliveSupplyFailure => true

end Sys2Proof
end

