-- ==== Sys2Proof/Decode.lean ====
section
/-! DEFINITION. The frame layer of the ports and motor links: the CRC of R179, the reception checks of
R180 and R181, the payload layouts of R194 for the frames the part receives, and the frame that spells
each such command. `decodeTableWord` reads the opcode table's bits; the table gives bits to no row. -/

namespace Sys2Proof

/-- The command a table word spells. No row of spec/opcode_table.json has `fixed` bits or fields
(98_reader.md: n_rows_with_fixed 0), so no word spells a command. -/
def decodeTableWord (_nbits _w : Nat) : Option Instr := none

/-! ### Bytes -/

/-- A two-byte number, most significant byte first (R179). -/
def beWord (hi lo : Byte) : BitVec 16 := hi ++ lo

/-- The high byte of a two-byte number. -/
def hiByte (w : BitVec 16) : Byte := w.extractLsb' 8 8

/-- The low byte of a two-byte number. -/
def loByte (w : BitVec 16) : Byte := w.extractLsb' 0 8

/-- A two-byte number as its bytes, most significant first (R179). -/
def bytes2 (w : BitVec 16) : List Byte := [hiByte w, loByte w]

/-! ### The CRC of R179 -/

/-- One shift of the CRC register by the generator x¹⁶ + x¹⁵ + x² + 1 (R179). -/
def crcShift (c : BitVec 16) : BitVec 16 :=
  if c.msb then (c <<< 1) ^^^ 0x8005#16 else c <<< 1

/-- The CRC register after one more byte, its most significant bit first (R179). -/
def crcByte (c : BitVec 16) (b : Byte) : BitVec 16 :=
  crcShift (crcShift (crcShift (crcShift (crcShift (crcShift (crcShift (crcShift
    (c ^^^ (b ++ 0#8)))))))))

/-- The CRC over a run of bytes: initial value 0, no final inversion (R179). -/
def crc (bytes : List Byte) : BitVec 16 := bytes.foldl crcByte 0#16

/-- A whole frame: kind, length, payload and the CRC, high byte first (R179). -/
def frameOf (kind : Byte) (payload : List Byte) : List Byte :=
  let body := kind :: BitVec.ofNat 8 payload.length :: payload
  body ++ bytes2 (crc body)

/-! ### Kinds -/

/-- The kinds of frame (R194). -/
inductive Kind where
  | driveStatus | storageStatus | genStatus | brakeStatus | invStatus
  | read | configWrite | clearStatus | loadBlend | ackWarning | forceDerate | wearWrite | wearReset
  | calibrate | clearLockout
  | storageGrant | genCommand | frictionDemand | driveReport | torqueSet | reply
  deriving DecidableEq, Repr

/-- The kind byte of a kind (R194). -/
def Kind.code : Kind → Byte
  | .driveStatus => 1 | .storageStatus => 2 | .genStatus => 3 | .brakeStatus => 4 | .invStatus => 5
  | .read => 16 | .configWrite => 17 | .clearStatus => 18 | .loadBlend => 19 | .ackWarning => 20
  | .forceDerate => 21 | .wearWrite => 22 | .wearReset => 23 | .calibrate => 24 | .clearLockout => 25
  | .storageGrant => 32 | .genCommand => 33 | .frictionDemand => 34 | .driveReport => 35
  | .torqueSet => 36 | .reply => 37

/-- The kind a kind byte names, if it is one of the defined kinds (R180 check 4). -/
def kindOfByte (b : Byte) : Option Kind :=
  match b.toNat with
  | 1 => some .driveStatus | 2 => some .storageStatus | 3 => some .genStatus | 4 => some .brakeStatus
  | 5 => some .invStatus
  | 16 => some .read | 17 => some .configWrite | 18 => some .clearStatus | 19 => some .loadBlend
  | 20 => some .ackWarning | 21 => some .forceDerate | 22 => some .wearWrite | 23 => some .wearReset
  | 24 => some .calibrate | 25 => some .clearLockout
  | 32 => some .storageGrant | 33 => some .genCommand | 34 => some .frictionDemand
  | 35 => some .driveReport | 36 => some .torqueSet | 37 => some .reply
  | _ => none

/-- The ten request kinds of R181, from READ to CLEAR_LOCKOUT. -/
def Kind.isRequest : Kind → Bool
  | .read | .configWrite | .clearStatus | .loadBlend | .ackWarning | .forceDerate | .wearWrite
  | .wearReset | .calibrate | .clearLockout => true
  | _ => false

/-- The payload lengths permitted for a kind (R180 check 5, R194). -/
def Kind.lengthOk (k : Kind) (n : Nat) : Bool :=
  match k with
  | .driveStatus => n = 6
  | .storageStatus => n = 7
  | .genStatus => n = 3
  | .brakeStatus => n = 9
  | .invStatus => n = 7
  | .read => n = 4
  | .configWrite => 3 ≤ n && n ≤ 22
  | .clearStatus => n = 2
  | .loadBlend => 4 ≤ n && n ≤ 18 && n % 2 = 0
  | .ackWarning => n = 1
  | .wearReset => n = 1
  | .forceDerate => n = 1
  | .wearWrite => 2 ≤ n && n ≤ 15
  | .calibrate => n = 0
  | .clearLockout => n = 0
  | .storageGrant => n = 11
  | .genCommand => n = 8
  | .frictionDemand => n = 11
  | .driveReport => n = 13
  | .torqueSet => n = 8
  | .reply => n = 2 || (7 ≤ n && n ≤ 24)

/-- The ports that take a request kind (R181). -/
def Kind.requestOn (k : Kind) (p : Port) : Bool :=
  match k with
  | .read | .configWrite | .clearStatus => true
  | .loadBlend => p = .pb || p = .sv
  | .ackWarning | .forceDerate => p = .pd || p = .sv
  | .wearWrite | .wearReset | .calibrate | .clearLockout => p = .sv
  | _ => false

/-- The kinds a line takes (R181). -/
def Kind.takenOn (k : Kind) (l : Line) : Bool :=
  match k, l with
  | .driveStatus, .port .pd => true
  | .storageStatus, .port .ps => true
  | .genStatus, .port .pg => true
  | .brakeStatus, .port .pb => true
  | .invStatus, .link _ => true
  | _, .port p => k.requestOn p
  | _, .link _ => false

/-! ### The reception checks of R180 -/

/-- The causes an error-cause set can hold (R180, R182). -/
inductive FrameCause where
  | framing | length | crc | kind | permission | overrun
  deriving DecidableEq, Repr

/-- What the checks of R180 make of a received frame. -/
inductive FrameVerdict where
  /-- It passes every check and is taken (R181). -/
  | taken (k : Kind)
  /-- A request kind that fails check 6 on a port: it is answered NOT_PERMITTED and is no frame error. -/
  | notPermitted (k : Kind)
  /-- It is discarded for this cause. -/
  | discarded (cause : FrameCause)
  deriving DecidableEq, Repr

/-- The checks of R180 in their order; the first that fails decides. A frame longer than the receiver's
28 bytes fails its length check (R178). -/
def checkFrame (line : Line) (framing : Bool) (bytes : List Byte) : FrameVerdict :=
  if framing then .discarded .framing
  else if bytes.length < 4 || Config.maxFrameBytes < bytes.length
      || bytes.length ≠ (bytes.getD 1 0).toNat + 4 then .discarded .length
  else
    let body := bytes.take (bytes.length - 2)
    if bytes.drop (bytes.length - 2) ≠ bytes2 (crc body) then .discarded .crc
    else match kindOfByte (bytes.getD 0 0) with
      | none => .discarded .kind
      | some k =>
        if !k.lengthOk (bytes.getD 1 0).toNat then .discarded .length
        else if k.takenOn line then .taken k
        else match line with
          | .port _ => if k.isRequest then .notPermitted k else .discarded .permission
          | .link _ => .discarded .permission

/-! ### Payloads of received frames (R194) -/

/-- The two-byte steps of a LOAD_BLEND payload. -/
def stepPairs : List Byte → List (Byte × Byte)
  | a :: b :: rest => (a, b) :: stepPairs rest
  | _ => []

/-- The bytes of LOAD_BLEND steps. -/
def stepBytes : List (Byte × Byte) → List Byte
  | [] => []
  | (a, b) :: rest => a :: b :: stepBytes rest

/-- The request command that a payload of the request kind `k` spells on `port` (R194). -/
def requestOf (k : Kind) (port : Port) (payload : List Byte) : Option Instr :=
  match k, payload with
  | .read, [item, i1, i0, part] => some (.read port item (beWord i1 i0) part)
  | .configWrite, n1 :: n0 :: value => some (.configWrite port (beWord n1 n0) value)
  | .clearStatus, [m1, m0] => some (.clearStatus port (beWord m1 m0))
  | .loadBlend, slot :: first :: steps => some (.loadBlend port slot first (stepPairs steps))
  | .ackWarning, [item] => some (.ackWarning port item)
  | .forceDerate, [value] => some (.forceDerate port value)
  | .wearWrite, item :: presence :: fields => some (.wearWrite port item presence fields)
  | .wearReset, [item] => some (.wearReset port item)
  | .calibrate, [] => some (.calibrate port)
  | .clearLockout, [] => some (.clearLockout port)
  | _, _ => none

/-- The command that a payload of kind `k` spells on `line` (R181, R194). -/
def commandOf (k : Kind) (line : Line) (payload : List Byte) : Option Instr :=
  match k, line, payload with
  | .driveStatus, .port .pd, [p1, p0, a1, a0, d, f] =>
    some (.driveStatus (beWord p1 p0) (beWord a1 a0) d f)
  | .storageStatus, .port .ps, [s1, s0, d1, d0, c1, c0, f] =>
    some (.storageStatus (beWord s1 s0) (beWord d1 d0) (beWord c1 c0) f)
  | .genStatus, .port .pg, [r, p1, p0] => some (.genStatus r (beWord p1 p0))
  | .brakeStatus, .port .pb, [v1, v0, m1, m0, a1, a0, b1, b0, f] =>
    some (.brakeStatus (beWord v1 v0) (beWord m1 m0) (beWord a1 a0) (beWord b1 b0) f)
  | .invStatus, .link m, [n1, n0, t1, t0, g1, g0, f] =>
    some (.invStatus m (beWord n1 n0) (beWord t1 t0) (beWord g1 g0) f)
  | k, .port p, payload => requestOf k p payload
  | _, .link _, _ => none

/-- The payload between the length byte and the CRC of a frame. -/
def framePayload (bytes : List Byte) : List Byte := (bytes.take (bytes.length - 2)).drop 2

/-- The command a received frame spells, if it passes the checks of R180 (or is a request kind that is
answered NOT_PERMITTED, which is a command too). -/
def decodeFrame (line : Line) (framing : Bool) (bytes : List Byte) : Option Instr :=
  match checkFrame line framing bytes with
  | .taken k => commandOf k line (framePayload bytes)
  | .notPermitted k => commandOf k line (framePayload bytes)
  | .discarded _ => none

/-- The line and the frame that spell a command that arrives as a frame (R194); none for the commands
that are no frame. -/
def encodeFrame : Instr → Option (Line × List Byte)
  | .driveStatus p a d f =>
    some (.port .pd, frameOf Kind.driveStatus.code (bytes2 p ++ bytes2 a ++ [d, f]))
  | .storageStatus s d c f =>
    some (.port .ps, frameOf Kind.storageStatus.code (bytes2 s ++ bytes2 d ++ bytes2 c ++ [f]))
  | .genStatus r p => some (.port .pg, frameOf Kind.genStatus.code (r :: bytes2 p))
  | .brakeStatus v m a b f =>
    some (.port .pb, frameOf Kind.brakeStatus.code (bytes2 v ++ bytes2 m ++ bytes2 a ++ bytes2 b ++ [f]))
  | .invStatus motor n t g f =>
    some (.link motor, frameOf Kind.invStatus.code (bytes2 n ++ bytes2 t ++ bytes2 g ++ [f]))
  | .read port item index part =>
    some (.port port, frameOf Kind.read.code (item :: bytes2 index ++ [part]))
  | .configWrite port item value =>
    some (.port port, frameOf Kind.configWrite.code (bytes2 item ++ value))
  | .clearStatus port mask => some (.port port, frameOf Kind.clearStatus.code (bytes2 mask))
  | .loadBlend port slot first steps =>
    some (.port port, frameOf Kind.loadBlend.code (slot :: first :: stepBytes steps))
  | .ackWarning port item => some (.port port, frameOf Kind.ackWarning.code [item])
  | .forceDerate port value => some (.port port, frameOf Kind.forceDerate.code [value])
  | .wearWrite port item presence fields =>
    some (.port port, frameOf Kind.wearWrite.code (item :: presence :: fields))
  | .wearReset port item => some (.port port, frameOf Kind.wearReset.code [item])
  | .calibrate port => some (.port port, frameOf Kind.calibrate.code [])
  | .clearLockout port => some (.port port, frameOf Kind.clearLockout.code [])
  | .runDomainPowerUp | .resetLineAssert | .resetLineRelease | .emergencyLineChange _ _
  | .combinationHoldExpiry | .frameError _ _ _ | .frameSent _ | .settlementTimerExpiry
  | .conversionComplete _ | .routineTrigger | .calibrationEnd | .settlementBegin | .accountSettled
  | .promotionTimerExpiry | .layoverTimerExpiry | .startTimeout | .genSettleExpiry | .stopTimeout
  | .retryDelayExpiry | .partnerStale _ | .partnerLost _ | .startWindowExpiry | .motorLinkStale _
  | .armingTimerExpiry | .clearingTimerExpiry | .runDomainPowerDown | .keepAliveSupplyFailure => none

end Sys2Proof
end

