-- ==== Sys2Proof/Machine/Types.lean ====
section
/-! DEFINITION. The plain data the part is made of: the named values of the manual, one structure per
block of chapter 0's block overview, and `Part`, which holds them all. No operation stands here. -/

namespace Sys2Proof.Machine

/-! ### Named values -/

/-- Direction selected by the drive partner, in the order of its codes (R194). -/
inductive Direction where
  | neutral | forward | reverse
  deriving DecidableEq, Repr

/-- Freshness of a partner (R27). -/
inductive Freshness where
  | never | fresh | stale | lost
  deriving DecidableEq, Repr

/-- Freshness of a motor link (R59). -/
inductive LinkFreshness where
  | never | fresh | stale
  deriving DecidableEq, Repr

/-- The engine report of a GEN_STATUS (R30). -/
inductive EngineReport where
  | stopped | cranking | running | fault
  deriving DecidableEq, Repr

/-- The six authority sources in index order (R43). -/
inductive Source where
  | safeStop | slip | blend | hold | limp | traction
  deriving DecidableEq, Repr

/-- The state of an authority source (R44). -/
inductive SourceState where
  | idle | pending | governing | suspended
  deriving DecidableEq, Repr

/-- The hold states (R98). -/
inductive HoldState where
  | drive | holdRun | holdQuiet | layover
  deriving DecidableEq, Repr

/-- The generator link states, in the order of the table of section 5.5. -/
inductive LinkState where
  | awaiting | off | startSent | cranking | settling | run | unloading | stopSent | failed | lockedOut
  deriving DecidableEq, Repr

/-- The request a GEN_COMMAND carries (R111), in the order of its codes. -/
inductive GenRequest where
  | stop | start | run
  deriving DecidableEq, Repr

/-- The sequencer's four timers, each named after the quantity that sets its length (section 5.5). -/
inductive GenTimerName where
  | startTimeout | genSettle | stopTimeout | retryDelay
  deriving DecidableEq, Repr

/-- The mode of a torque command, in the order of its codes (R194). -/
inductive TorqueMode where
  | disable | zero | motor | generate
  deriving DecidableEq, Repr

/-- The part state (R205). -/
inductive PartState where
  | starting | ready
  deriving DecidableEq, Repr

/-- The thermal override state (R128). -/
inductive ThermalState where
  | off | arming | active
  deriving DecidableEq, Repr

/-- The level of a wear item (R159). -/
inductive Level where
  | unknown | ok | warn | limit
  deriving DecidableEq, Repr

/-- The kind of a wear item (R158). -/
inductive WearKind where
  | energy | count | duration | statistic
  deriving DecidableEq, Repr

/-- The cause of a run reset (R204). -/
inductive ResetCause where
  | powerOn | resetLine | combination
  deriving DecidableEq, Repr

/-- The state of the combination watch (R203). -/
inductive WatchState where
  | disarmed | armed | timing
  deriving DecidableEq, Repr

/-- The outcome of the last calibration (R149). -/
inductive CalOutcome where
  | none | done | failed | abandoned
  deriving DecidableEq, Repr

/-- The state of a limit monitor (R154). -/
inductive MonitorState where
  | inside | counting | tripped
  deriving DecidableEq, Repr

/-- The action of a limit monitor (R152). -/
inductive MonitorAction where
  | statusOnly | thermalOverride | resistorInhibit | discHot
  deriving DecidableEq, Repr

/-- The verdict of a judgement (R153). -/
inductive Verdict where
  | outside | deepInside | inBand
  deriving DecidableEq, Repr

/-- The mark of a routine run or of a pending trigger (R141). -/
inductive RunKind where
  | ordinary | roundCompleting
  deriving DecidableEq, Repr

/-- The operators of a blend step, in the order of their codes (R75, R194). -/
inductive BlendOp where
  | floor | take | scale | fade | step | skipSlip | skipWorn | skipHot | skipFull | rest
  deriving DecidableEq, Repr

/-- The reply codes, in the order of R183. -/
inductive ReplyCode where
  | accepted | notPermitted | range | notStanding | locked | busy | unknownItem
  deriving DecidableEq, Repr

/-- The status events, in the numbering of R194. -/
inductive Event where
  | frameError | authorityChange | holdChange | derateChange | thermalOverride | gensetFault
  | warningNew | overdraw | overcharge | accountMismatch | liningLimit | programPromoted
  | wearSaturated | socLowQuiet | holdRoll
  deriving DecidableEq, Repr

/-- A sense channel (R139). -/
abbrev Channel := Fin 22

/-- A limit monitor's number (R152). -/
abbrev MonitorNo := Fin 8

/-- A wear item's number (R158). -/
abbrev WearNo := Fin 12

/-- A blend slot's number (R75). -/
abbrev SlotNo := Fin 4

/-- The scope of a limit monitor (R152). -/
inductive Scope where
  | none
  | channel (c : Channel)
  | disc
  | motor
  | inverter
  deriving DecidableEq, Repr

/-! ### Things held once per axle, motor or port -/

/-- One value for each of the three axles. -/
structure PerAxle (α : Type) where
  axle1 : α
  axle2 : α
  axle3 : α
  deriving DecidableEq, Repr

/-- One value for each motor. -/
structure PerMotor (α : Type) where
  a : α
  b : α
  deriving DecidableEq, Repr

/-- One value for each port. -/
structure PerPort (α : Type) where
  pd : α
  ps : α
  pg : α
  pb : α
  sv : α
  deriving DecidableEq, Repr

/-! ### Power, lines and time -/

/-- The supplies and the reset line. `held` is the cause that a run reset waiting for the release of the
reset line will record (R201). -/
structure Power where
  supply : Bool
  resetLine : Bool
  held : Option ResetCause
  deriving DecidableEq, Repr

/-- The present level of each emergency line: true while active (R52). -/
structure EmergencyLines where
  el0 : Bool
  el1 : Bool
  el2 : Bool
  deriving DecidableEq, Repr

/-- The timebase: the millisecond count, and the stamp of the settlement timer's start or latest expiry. -/
structure Timebase where
  now : Stamp
  settleMark : Stamp
  deriving DecidableEq, Repr

/-- A running timer of fixed length: its start and its length in ms. -/
structure RunTimer where
  start : Stamp
  length : Nat
  deriving DecidableEq, Repr

/-! ### Keep-alive domain (R199) -/

/-- The configuration items that hold one number or one on/off flag, in the order of section 10.1. -/
inductive NumItem where
  | pTracMax | pRevMax | tLimA | tLimB | shareA | nFloor | vMinRegen | resistorRegen
  | socFull | socLow | socHigh | socStart | socStop | socHold | socFloor
  | reserveOffset | chgBias | genRamp | genSettle | startTimeout | stopTimeout | retryDelay
  | qMax | mismatchTol | freshDrive | freshStorage | freshGenerator | freshBrake | storageDecay
  | breakPedal | auxQuietMax | deepPromotion | layoverAfter | layoverMax
  | economyEnable | economyCode | thermalArm | thermalClear
  | levelSlip | levelBlend | levelHold | levelLimp | levelTraction
  | runLength | routinePeriod | stopTrigger
  deriving DecidableEq, Repr

/-- The configuration of one limit monitor (R152). -/
structure MonitorCfg where
  scope : Scope
  low : Int
  high : Int
  hysteresis : Nat
  persistence : Nat
  action : MonitorAction
  deriving DecidableEq, Repr

/-- The configuration store's keep-alive items (R196): the number items in the order of `NumItem`, an
on/off item as 1 or 0, and the items of other forms. -/
structure ConfigStore where
  nums : Vector Nat 46
  axleShares : PerAxle Nat
  eventGroup : List Channel
  routineList : List Channel
  monitors : Vector MonitorCfg 8
  enables : PerPort (BitVec 16)
  resetMask : BitVec 3
  deriving DecidableEq, Repr

/-- One step of a blend program (R75). -/
structure BlendStep where
  op : BlendOp
  modifier : Nat
  last : Bool
  deriving DecidableEq, Repr

/-- One slot of the blend program store (R75). -/
structure Slot where
  active : List BlendStep
  pending : Option (List BlendStep)
  deriving DecidableEq, Repr

/-- The calibration offsets and the offset record (R149). -/
structure Calibration where
  offsets : Vector Int 22
  outcome : CalOutcome
  failedChannel : Option Channel
  deriving DecidableEq, Repr

/-- One record of the wear table (R159). The fields that an item's kind does not have (thresholds and
level of item 11, stage and disagree flag outside the linings, armed flag outside the cycle items) keep
their first value and are read by nothing. -/
structure WearItem where
  acc : Nat
  residual : Nat
  warn : Nat
  limit : Nat
  notice : Bool
  saturated : Bool
  level : Level
  changed : Stamp
  unknown : Option Nat
  stage : Nat
  disagree : Bool
  armed : Bool
  deriving DecidableEq, Repr

/-- One entry of the warning list (R173). -/
structure Warning where
  item : WearNo
  level : Level
  raised : Stamp
  acknowledged : Bool
  deriving DecidableEq, Repr

/-- The reset-cause record (R204). -/
structure ResetRecord where
  cause : ResetCause
  lost : Bool
  count : Nat
  deriving DecidableEq, Repr

/-! ### Partner data image (R27 to R31) -/

/-- The stored fields of DRIVE_STATUS (R28). -/
structure DriveData where
  pedal : Nat
  aDem : Nat
  direction : Direction
  holdRequest : Bool
  layoverRequest : Bool
  quietZone : Bool
  reserve : Bool
  deriving DecidableEq, Repr

/-- The stored fields of STORAGE_STATUS (R29). -/
structure StorageData where
  soc : Nat
  pDisLim : Nat
  pChgLim : Nat
  contactorOpen : Bool
  deriving DecidableEq, Repr

/-- The stored fields of GEN_STATUS (R30). -/
structure GenData where
  report : Option EngineReport
  pGenAvail : Nat
  deriving DecidableEq, Repr

/-- The stored fields of BRAKE_STATUS (R31). -/
structure BrakeData where
  v : Nat
  m : Nat
  slip2 : Bool
  slip3 : Bool
  slipCapA : Nat
  slipCapB : Nat
  lowAdhesion : Bool
  emergency : Bool
  deriving DecidableEq, Repr

/-- One partner record: stored fields, arrival stamp and freshness (R27). -/
structure PartnerRecord (α : Type) where
  data : α
  stamp : Stamp
  freshness : Freshness
  deriving DecidableEq, Repr

/-- The partner data image, with the two decaying copies of R38. -/
structure Image where
  drive : PartnerRecord DriveData
  storage : PartnerRecord StorageData
  disCopy : Nat
  chgCopy : Nat
  generator : PartnerRecord GenData
  brake : PartnerRecord BrakeData
  deriving DecidableEq, Repr

/-! ### Frames sent, and the transmitters -/

/-- The flags of an account record (R20). -/
structure AccountFlags where
  overdraw : Bool
  overcharge : Bool
  senseHeld : Bool
  episode : Bool
  dump : Bool
  deriving DecidableEq, Repr

/-- One part of a READ answer, as an accepted READ's REPLY carries it (R191, R194). -/
structure ReadPart where
  item : Byte
  index : BitVec 16
  part : Byte
  count : Byte
  content : List Byte
  deriving DecidableEq, Repr

/-- The frames the part sends (R181, R185). -/
inductive OutFrame where
  | storageGrant (seq : BitVec 32) (d c q : Nat) (flags : AccountFlags)
  | genCommand (seq : BitVec 32) (request : GenRequest) (g : Nat) (dump : Bool)
  | frictionDemand (seq : BitVec 32) (aDem friction regApplied : Nat) (liningLimit : PerAxle Bool)
  | driveReport (seq : BitVec 32) (t : Nat) (governing : Option Source) (hold : HoldState)
      (dTrac : Nat) (link : LinkState) (warnings : Nat) (auxShed : Bool)
  | torqueSet (seq : BitVec 32) (mode : TorqueMode) (torque : Nat) (direction : Direction)
  | reply (kind : Kind) (code : ReplyCode) (answer : Option ReadPart)
  deriving DecidableEq, Repr

/-- One transmitter: the frame it is sending and the frames queued behind it (R184). -/
structure Transmitter where
  sending : Option OutFrame
  queue : List OutFrame
  deriving DecidableEq, Repr

/-- A port's read snapshot (R191). -/
structure Snapshot where
  item : Byte
  index : BitVec 16
  content : List Byte
  deriving DecidableEq, Repr

/-- One partner port or the service port. Bit k of `status` is event k, bit k of `causes` is cause k
(R187, R180, R194). -/
structure PortState where
  status : BitVec 16
  causes : BitVec 8
  snapshot : Option Snapshot
  tx : Transmitter
  deriving DecidableEq, Repr

/-- The five ports and the drive port's report count (R186). -/
structure Ports where
  port : PerPort PortState
  reportCount : Nat
  deriving DecidableEq, Repr

/-! ### Motor links and torque stage -/

/-- The last TORQUE_SET sent to a motor, as far as it is kept (R67). -/
structure TorqueCommand where
  seq : BitVec 32
  mode : TorqueMode
  torque : Nat
  deriving DecidableEq, Repr

/-- One motor link: the fields of its last INV_STATUS, its freshness, the kept command and its
transmitter (R58, R59, R67, R184). -/
structure MotorLink where
  n : Nat
  tMot : Nat
  tGen : Nat
  ready : Bool
  fault : Bool
  stamp : Stamp
  freshness : LinkFreshness
  lastCommand : TorqueCommand
  tx : Transmitter
  deriving DecidableEq, Repr

/-! ### Settlement unit -/

/-- An account record (R20). -/
structure AccountRecord where
  seq : BitVec 32
  t : Nat
  x : Nat
  c : Nat
  q : Nat
  d : Nat
  g : Nat
  rg : Nat
  aDem : Nat
  regApplied : Nat
  flags : AccountFlags
  base : Option Source
  governing : Option Source
  hold : HoldState
  stamp : Stamp
  deriving DecidableEq, Repr

/-- The working values the current record carries until the next close (R22). -/
structure Working where
  pReq : Nat
  pDisEff : Nat
  pChgEff : Nat
  pGenEff : Nat
  qAvail : Nat
  cm : PerMotor Nat
  cg : PerMotor Nat
  aCap : Nat
  friction : Nat
  direction : Direction
  soc : Nat
  v : Nat
  m : Nat
  n : PerMotor Nat
  slip : PerMotor Bool
  slipCap : PerMotor Nat
  tl : PerMotor Nat
  dTrac : Nat
  link : LinkState
  lining : PerAxle Level
  linkVoltage : Int
  batteryCurrent : Int
  deriving DecidableEq, Repr

/-- A settlement between its beginning and its "account settled": the record and working values its
stages made, the n_floor its caps were made with (R62, R197), whether it took a DUMP request, whether the hold
controller has set the request anew since (R19), and whether it ended the brake episode (R91). -/
structure Settling where
  record : AccountRecord
  working : Working
  nFloor : Nat
  tookDump : Bool
  dumpAgain : Bool
  endedEpisode : Bool
  deriving DecidableEq, Repr

/-- The settlement unit. `beginning` is a beginning that has arrived and not been made, with its
SENSE_HELD mark (R1); `current` and `history` are R21, `gPrev` R16, `dump` R19, `mismatch` R23. -/
structure Account where
  current : Option (AccountRecord × Working)
  history : List AccountRecord
  nextSeq : BitVec 32
  gPrev : Nat
  dump : Bool
  mismatch : Nat
  beginning : Option Bool
  settling : Option Settling
  deriving DecidableEq, Repr

/-! ### Blend engine, arbiter, hold, generator sequencer, derate unit -/

/-- What the blend engine keeps of its latest pass (R89). -/
structure PassRecord where
  slot : SlotNo
  steps : Nat
  reg : Nat
  fri : Nat
  deriving DecidableEq, Repr

/-- An open load assembly: its slot and steps 1 to 8 (R78). -/
structure Assembly where
  slot : SlotNo
  steps : List BlendStep
  deriving DecidableEq, Repr

/-- The blend engine's run-domain state: `episode` is true while ACTIVE (R68), `regPrev` is
REG_applied_prev (R90). -/
structure BlendEngine where
  episode : Bool
  regPrev : Nat
  latest : Option PassRecord
  assemblyPB : Option Assembly
  assemblySV : Option Assembly
  deriving DecidableEq, Repr

/-- One request flag per source (R43). -/
structure SourceFlags where
  safeStop : Bool
  slip : Bool
  blend : Bool
  hold : Bool
  limp : Bool
  traction : Bool
  deriving DecidableEq, Repr

/-- An entry of the authority stack (R49). -/
structure StackEntry where
  source : Source
  level : Nat
  deriving DecidableEq, Repr

/-- The arbiter: the request flags and the authority stack, its top first. The offer is a function of
these, the levels and the part state (R46), and is computed (`offer`). -/
structure Arbiter where
  flags : SourceFlags
  stack : List StackEntry
  deriving DecidableEq, Repr

/-- The hold controller (R98). `promotion` and `layover` say whether the timer runs; both measure from
`entered`. -/
structure Hold where
  state : HoldState
  entered : Stamp
  rule : Option Nat
  latch : Bool
  promotion : Bool
  layover : Bool
  deriving DecidableEq, Repr

/-- The sequencer's running timer. -/
structure GenTimer where
  name : GenTimerName
  start : Stamp
  length : Nat
  deriving DecidableEq, Repr

/-- The generator sequencer (R111). -/
structure Sequencer where
  link : LinkState
  lastReport : Option EngineReport
  failures : Nat
  startRequest : Bool
  timer : Option GenTimer
  deriving DecidableEq, Repr

/-- The five derate factors in permille (chapter 6). -/
structure Factors where
  dTrac : Nat
  dRegen : Nat
  dBat : Nat
  kA : Nat
  kB : Nat
  deriving DecidableEq, Repr

/-- The derate unit (R124). The economy setting lives in the configuration store and the wear levels in
the wear table; bit k of `thermalSet` is monitor k (R127). -/
structure Derate where
  overrideCode : Nat
  locked : Bool
  forced : Bool
  thermal : ThermalState
  timer : Option RunTimer
  thermalSet : BitVec 8
  factors : Factors
  deriving DecidableEq, Repr

/-! ### Sense scanner -/

/-- The result of a channel (R139). -/
structure SenseResult where
  value : Int
  raw : BitVec 12
  stamp : Stamp
  valid : Bool
  deriving DecidableEq, Repr

/-- The run-domain state of a limit monitor (R154). -/
structure Monitor where
  state : MonitorState
  count : Nat
  trips : Nat
  tripStamp : Stamp
  deriving DecidableEq, Repr

/-- What holds the converter (R141): an event run with the channels still to convert, or a calibration
with its start stamp and the reference codes gathered so far, oldest first. -/
inductive ScanMode where
  | idle
  | routineRun
  | eventRun (left : List Channel)
  | calibrating (start : Stamp) (codes : List (BitVec 12))
  deriving DecidableEq, Repr

/-- A routine run: the entries still to convert, the one being converted included, and its mark. It
converts the entry at the routine position; it is suspended when the mode is not `routineRun` (R141). -/
structure RoutineRun where
  left : Nat
  kind : RunKind
  deriving DecidableEq, Repr

/-- The sense scanner (R139, R141, R154). `periodMark` is the stamp of the routine period timer's start
or of its latest expiry. -/
structure Scanner where
  mode : ScanMode
  run : Option RoutineRun
  pending : Option RunKind
  position : Nat
  calWaiting : Bool
  periodMark : Stamp
  results : Vector SenseResult 22
  monitors : Vector Monitor 8
  deriving DecidableEq, Repr

/-- The combination watch (R203): `since` is the start of the hold timer in TIMING. -/
structure Watch where
  state : WatchState
  since : Stamp
  deriving DecidableEq, Repr

/-! ### The part -/

/-- The whole part. The first group is the supplies and the pins, the second the keep-alive domain
(R199), the third the run domain (chapter 10). -/
structure Part where
  power : Power
  lines : EmergencyLines

  marker : Bool
  cfg : ConfigStore
  slots : Vector Slot 4
  cal : Calibration
  wear : Vector WearItem 12
  warnings : List Warning
  cause : ResetRecord

  time : Timebase
  partState : PartState
  watch : Watch
  image : Image
  links : PerMotor MotorLink
  account : Account
  blend : BlendEngine
  auth : Arbiter
  hold : Hold
  gen : Sequencer
  derate : Derate
  scan : Scanner
  ports : Ports
  deriving DecidableEq, Repr

end Sys2Proof.Machine
end

