-- ==== Sys2Proof/Machine/Defaults.lean ====
section
/-! DEFINITION. The table of configuration items (section 10.1) and the values of every block after a run
reset and after keep-alive loss (R26, R42, R56, R61, R67, R71, R97, R98, R111, R137, R139, R141, R157,
R169, R174, R195, R200, R202 to R205). -/

namespace Sys2Proof.Machine

/-! ### The configuration items -/

/-- A row of the table of section 10.1 for an item that holds one number or flag. -/
structure ItemRow where
  number : Nat
  dflt : Nat
  low : Nat
  high : Nat
  owner : Port
  standing : Bool
  deriving DecidableEq, Repr

/-- The rows of section 10.1 (on is 1 and off is 0). -/
def NumItem.row (i : NumItem) : ItemRow :=
  match i with
  | .pTracMax => ⟨1, 4000, 0, 5000, .sv, false⟩
  | .pRevMax => ⟨2, 500, 0, 1000, .sv, false⟩
  | .tLimA => ⟨3, 2600, 0, 2600, .sv, true⟩
  | .tLimB => ⟨4, 2600, 0, 2600, .sv, true⟩
  | .shareA => ⟨5, 500, 0, 1000, .sv, true⟩
  | .nFloor => ⟨6, 150, 50, 1000, .sv, false⟩
  | .vMinRegen => ⟨7, 20, 5, 100, .pb, false⟩
  | .resistorRegen => ⟨8, 0, 0, 1, .pb, false⟩
  | .socFull => ⟨10, 900, 0, 1000, .ps, false⟩
  | .socLow => ⟨11, 450, 0, 1000, .ps, false⟩
  | .socHigh => ⟨12, 700, 0, 1000, .ps, false⟩
  | .socStart => ⟨13, 400, 0, 1000, .ps, false⟩
  | .socStop => ⟨14, 750, 0, 1000, .ps, false⟩
  | .socHold => ⟨15, 500, 0, 1000, .ps, false⟩
  | .socFloor => ⟨16, 300, 0, 1000, .ps, false⟩
  | .reserveOffset => ⟨17, 150, 0, 1000, .pd, false⟩
  | .chgBias => ⟨18, 300, 0, 1000, .sv, false⟩
  | .genRamp => ⟨19, 10, 1, 100, .pg, false⟩
  | .genSettle => ⟨20, 3000, 500, 20000, .pg, false⟩
  | .startTimeout => ⟨21, 4000, 1000, 15000, .pg, false⟩
  | .stopTimeout => ⟨22, 5000, 1000, 20000, .pg, false⟩
  | .retryDelay => ⟨23, 10000, 1000, 60000, .pg, false⟩
  | .qMax => ⟨24, 1200, 0, 1500, .sv, false⟩
  | .mismatchTol => ⟨25, 300, 0, 4000, .sv, false⟩
  | .freshDrive => ⟨26, 50, 20, 500, .sv, false⟩
  | .freshStorage => ⟨27, 100, 20, 500, .sv, false⟩
  | .freshGenerator => ⟨28, 100, 20, 500, .sv, false⟩
  | .freshBrake => ⟨29, 30, 20, 500, .sv, false⟩
  | .storageDecay => ⟨30, 20, 1, 400, .sv, false⟩
  | .breakPedal => ⟨31, 30, 5, 500, .pd, false⟩
  | .auxQuietMax => ⟨32, 400, 0, 1500, .pd, false⟩
  | .deepPromotion => ⟨33, 0, 0, 1, .pd, false⟩
  | .layoverAfter => ⟨34, 90, 10, 3600, .pd, false⟩
  | .layoverMax => ⟨35, 1800, 60, 14400, .pd, false⟩
  | .economyEnable => ⟨36, 0, 0, 1, .pd, false⟩
  | .economyCode => ⟨37, 1, 0, 7, .pd, false⟩
  | .thermalArm => ⟨39, 2000, 500, 10000, .sv, false⟩
  | .thermalClear => ⟨40, 5000, 1000, 60000, .sv, false⟩
  | .levelSlip => ⟨41, 7, 0, 7, .sv, false⟩
  | .levelBlend => ⟨42, 6, 0, 7, .sv, false⟩
  | .levelHold => ⟨43, 5, 0, 7, .sv, false⟩
  | .levelLimp => ⟨44, 4, 0, 7, .sv, false⟩
  | .levelTraction => ⟨45, 3, 0, 7, .sv, false⟩
  | .runLength => ⟨48, 4, 1, 8, .sv, false⟩
  | .routinePeriod => ⟨49, 100, 20, 1000, .sv, false⟩
  | .stopTrigger => ⟨50, 1, 0, 1, .sv, false⟩

/-- The number item with a given item number. -/
def numItemOf (number : Nat) : Option NumItem :=
  match number with
  | 1 => some .pTracMax
  | 2 => some .pRevMax
  | 3 => some .tLimA
  | 4 => some .tLimB
  | 5 => some .shareA
  | 6 => some .nFloor
  | 7 => some .vMinRegen
  | 8 => some .resistorRegen
  | 10 => some .socFull
  | 11 => some .socLow
  | 12 => some .socHigh
  | 13 => some .socStart
  | 14 => some .socStop
  | 15 => some .socHold
  | 16 => some .socFloor
  | 17 => some .reserveOffset
  | 18 => some .chgBias
  | 19 => some .genRamp
  | 20 => some .genSettle
  | 21 => some .startTimeout
  | 22 => some .stopTimeout
  | 23 => some .retryDelay
  | 24 => some .qMax
  | 25 => some .mismatchTol
  | 26 => some .freshDrive
  | 27 => some .freshStorage
  | 28 => some .freshGenerator
  | 29 => some .freshBrake
  | 30 => some .storageDecay
  | 31 => some .breakPedal
  | 32 => some .auxQuietMax
  | 33 => some .deepPromotion
  | 34 => some .layoverAfter
  | 35 => some .layoverMax
  | 36 => some .economyEnable
  | 37 => some .economyCode
  | 39 => some .thermalArm
  | 40 => some .thermalClear
  | 41 => some .levelSlip
  | 42 => some .levelBlend
  | 43 => some .levelHold
  | 44 => some .levelLimp
  | 45 => some .levelTraction
  | 48 => some .runLength
  | 49 => some .routinePeriod
  | 50 => some .stopTrigger
  | _ => none

/-- The place of a number item in the store. -/
def NumItem.place (i : NumItem) : Fin 46 := ⟨i.ctorIdx, by cases i <;> decide⟩

/-- The stored value of a number item. -/
def ConfigStore.num (c : ConfigStore) (i : NumItem) : Nat := c.nums[i.place]

/-- Whether an on/off item is on. -/
def ConfigStore.on (c : ConfigStore) (i : NumItem) : Bool := c.num i ≠ 0

/-- The store with another value of a number item. -/
def ConfigStore.setNum (c : ConfigStore) (i : NumItem) (v : Nat) : ConfigStore :=
  { c with nums := c.nums.set i.place v }

/-- The defaults of the number items, in the order of `NumItem` (section 10.1). -/
def defaultNums : Vector Nat 46 :=
  #v[4000, 500, 2600, 2600, 500, 150, 20, 0,
     900, 450, 700, 400, 750, 500, 300,
     150, 300, 10, 3000, 4000, 5000, 10000,
     1200, 300, 50, 100, 100, 30, 20,
     30, 400, 0, 90, 1800,
     0, 1, 2000, 5000,
     7, 6, 5, 4, 3,
     4, 100, 1]

/-- The default monitor configurations (R152). -/
def defaultMonitors : Vector MonitorCfg 8 :=
  #v[⟨.disc, -40, 200, 20, 3, .discHot⟩,
     ⟨.motor, -40, 170, 10, 5, .thermalOverride⟩,
     ⟨.channel 14, -40, 95, 5, 5, .thermalOverride⟩,
     ⟨.channel 15, -40, 95, 5, 5, .thermalOverride⟩,
     ⟨.channel 20, -40, 200, 20, 2, .resistorInhibit⟩,
     ⟨.channel 21, -40, 125, 5, 3, .statusOnly⟩,
     ⟨.channel 16, 450, 800, 10, 3, .statusOnly⟩,
     ⟨.none, -40, 215, 0, 1, .statusOnly⟩]

/-! ### Status events of the ports -/

/-- The number of a status event (R194). -/
def Event.number (e : Event) : Nat := e.ctorIdx

/-- The mask that holds one status event (R194). -/
def Event.mask (e : Event) : BitVec 16 := 1#16 <<< e.number

/-- The events that belong to a port, as a mask (the table of R187). -/
def eventsOf : Port → BitVec 16
  | .pd => Event.frameError.mask ||| Event.authorityChange.mask ||| Event.holdChange.mask |||
      Event.derateChange.mask ||| Event.thermalOverride.mask ||| Event.gensetFault.mask |||
      Event.warningNew.mask ||| Event.socLowQuiet.mask ||| Event.holdRoll.mask
  | .ps => Event.frameError.mask ||| Event.overdraw.mask ||| Event.overcharge.mask |||
      Event.accountMismatch.mask
  | .pg => Event.frameError.mask ||| Event.gensetFault.mask
  | .pb => Event.frameError.mask ||| Event.liningLimit.mask ||| Event.programPromoted.mask
  | .sv => Event.frameError.mask ||| Event.gensetFault.mask ||| Event.warningNew.mask |||
      Event.overdraw.mask ||| Event.overcharge.mask ||| Event.accountMismatch.mask |||
      Event.wearSaturated.mask

/-- The configuration store after keep-alive loss: every item at its default (R200). -/
def defaultConfig : ConfigStore where
  nums := defaultNums
  axleShares := ⟨300, 350, 350⟩
  eventGroup := [16, 17, 18, 19]
  routineList := [0, 1, 2, 3, 4, 5, 6, 7, 8, 9, 10, 11, 12, 13, 14, 15]
  monitors := defaultMonitors
  enables := ⟨eventsOf .pd, eventsOf .ps, eventsOf .pg, eventsOf .pb, eventsOf .sv⟩
  resetMask := 0#3

/-! ### The keep-alive domain after keep-alive loss -/

/-- The built-in program: one REST step, the last (R75). -/
def builtInProgram : List BlendStep := [⟨.rest, 0, true⟩]

/-- A slot after keep-alive loss (R82, R200). -/
def defaultSlot : Slot := ⟨builtInProgram, none⟩

/-- The offset record after keep-alive loss (R149, R200). -/
def defaultCalibration : Calibration := ⟨Vector.replicate 22 0, .none, none⟩

/-- The default warn threshold of a wear item (R158); item 11 has none. -/
def defaultWarn (i : WearNo) : Nat :=
  match i.val with
  | 0 | 1 | 2 => 40000000
  | 3 | 4 | 5 | 6 => 200000
  | 7 => 2000000
  | 8 => 250000
  | 9 => 72000000
  | 10 => 5000
  | _ => 0

/-- The default limit threshold of a wear item (R158); item 11 has none. -/
def defaultLimit (i : WearNo) : Nat :=
  match i.val with
  | 0 | 1 | 2 => 50000000
  | 3 | 4 | 5 | 6 => 250000
  | 7 => 2400000
  | 8 => 300000
  | 9 => 90000000
  | 10 => 10000
  | _ => 0

/-- Whether an item has a level, thresholds and an unknown amount: items 0 to 10 (R158, R159). -/
def hasLevel (i : WearNo) : Bool := i.val ≠ 11

/-- A wear item as keep-alive loss leaves it (R169). -/
def lostWearItem (i : WearNo) : WearItem where
  acc := 0
  residual := 0
  warn := defaultWarn i
  limit := defaultLimit i
  notice := true
  saturated := false
  level := if hasLevel i then .unknown else .ok
  changed := 0#32
  unknown := if hasLevel i then some 0 else none
  stage := 0
  disagree := false
  armed := false

/-- The wear table as keep-alive loss leaves it (R169). -/
def lostWear : Vector WearItem 12 := Vector.ofFn lostWearItem

/-- The warning list rebuilt after keep-alive loss: eleven UNKNOWN entries in item order (R174). -/
def lostWarnings : List Warning :=
  [0, 1, 2, 3, 4, 5, 6, 7, 8, 9, 10].map fun i => ⟨i, .unknown, 0#32, false⟩

/-! ### The run domain after a run reset -/

/-- The image after a run reset (R42, with the defaults of R28 to R31). -/
def resetImage : Image where
  drive := ⟨⟨0, 0, .neutral, false, false, false, false⟩, 0#32, .never⟩
  storage := ⟨⟨0, 0, 0, false⟩, 0#32, .never⟩
  disCopy := 0
  chgCopy := 0
  generator := ⟨⟨none, 0⟩, 0#32, .never⟩
  brake := ⟨⟨0, 30000, false, false, 0, 0, false, false⟩, 0#32, .never⟩

/-- A transmitter after a run reset: stopped and empty (R184, R195). -/
def resetTransmitter : Transmitter := ⟨none, []⟩

/-- A motor link after a run reset (R61, R67, R195). -/
def resetLink : MotorLink where
  n := 0
  tMot := 0
  tGen := 0
  ready := false
  fault := false
  stamp := 0#32
  freshness := .never
  lastCommand := ⟨0#32, .disable, 0⟩
  tx := resetTransmitter

/-- The settlement unit after a run reset (R26). -/
def resetAccount : Account where
  current := none
  history := []
  nextSeq := 1#32
  gPrev := 0
  dump := false
  mismatch := 0
  beginning := none
  settling := none

/-- The blend engine after a run reset (R97). -/
def resetBlend : BlendEngine := ⟨false, 0, none, none, none⟩

/-- The arbiter after a run reset, before its flags are evaluated (R56). -/
def resetArbiter : Arbiter := ⟨⟨false, false, false, false, false, false⟩, []⟩

/-- The hold controller after a run reset (R98). -/
def resetHold : Hold := ⟨.drive, 0#32, none, false, false, false⟩

/-- The generator sequencer after a run reset (R111). -/
def resetSequencer : Sequencer := ⟨.awaiting, none, 0, false, none⟩

/-- The derate unit after a run reset, before its factors are formed (R137). -/
def resetDerate : Derate := ⟨4, false, false, .off, none, 0#8, ⟨1000, 1000, 1000, 1000, 1000⟩⟩

/-- A channel's result after a run reset (R139). -/
def resetResult : SenseResult := ⟨0, 0#12, 0#32, false⟩

/-- A monitor after a run reset (R157). -/
def resetMonitor : Monitor := ⟨.inside, 0, 0, 0#32⟩

/-- The scanner after a run reset (R139, R141, R157). -/
def resetScanner : Scanner where
  mode := .idle
  run := none
  pending := none
  position := 0
  calWaiting := false
  periodMark := 0#32
  results := Vector.replicate 22 resetResult
  monitors := Vector.replicate 8 resetMonitor

/-- A port after a run reset (R195). -/
def resetPort : PortState := ⟨0#16, 0#8, none, resetTransmitter⟩

/-- The ports after a run reset (R186, R195). -/
def resetPorts : Ports := ⟨⟨resetPort, resetPort, resetPort, resetPort, resetPort⟩, 0⟩

end Sys2Proof.Machine
end

