-- ==== Sys2Proof/Machine/State.lean ====
section
/-! DEFINITION. The state of the machine: the part and the queue of commands that wait for it; the two
ways a step can stop; one update per block of the part; and the state after reset. -/

namespace Sys2Proof.Machine

/-- The state: the commands that wait, first in first out, and the part. -/
structure State where
  pending : List Instr
  part : Part
  deriving DecidableEq, Repr

/-- The faults of a step. There are none: the manual gives no command that stops the part, and every
command of the model has an effect in every state (safe: no behaviour of the part is cut off). -/
inductive Fault where
  deriving DecidableEq, Repr

/-- The refusals of a step. -/
inductive Refusal where
  /-- Raised only by an arm of `exec` whose command has no meaning yet; no arm raises it (safe). -/
  | notModelled (mnemonic : String)
  deriving DecidableEq, Repr

/-- The run domain runs while the run supply is up and the reset line is released (R201). -/
def Part.running (p : Part) : Bool := p.power.supply && !p.power.resetLine

/-- The part with another value of the supplies and the reset line. -/
def Part.setPower (p : Part) (v : Power) : Part := { p with power := v }

/-- The part with another value of the emergency lines. -/
def Part.setLines (p : Part) (v : EmergencyLines) : Part := { p with lines := v }

/-- The part with another value of the keep-alive marker. -/
def Part.setMarker (p : Part) (v : Bool) : Part := { p with marker := v }

/-- The part with another value of the configuration store. -/
def Part.setCfg (p : Part) (v : ConfigStore) : Part := { p with cfg := v }

/-- The part with another value of the blend program store. -/
def Part.setSlots (p : Part) (v : Vector Slot 4) : Part := { p with slots := v }

/-- The part with another value of the calibration offsets and the offset record. -/
def Part.setCal (p : Part) (v : Calibration) : Part := { p with cal := v }

/-- The part with another value of the wear table. -/
def Part.setWear (p : Part) (v : Vector WearItem 12) : Part := { p with wear := v }

/-- The part with another value of the warning list. -/
def Part.setWarnings (p : Part) (v : List Warning) : Part := { p with warnings := v }

/-- The part with another value of the reset-cause record. -/
def Part.setCause (p : Part) (v : ResetRecord) : Part := { p with cause := v }

/-- The part with another value of the timebase. -/
def Part.setTime (p : Part) (v : Timebase) : Part := { p with time := v }

/-- The part with another value of the part state. -/
def Part.setPartState (p : Part) (v : PartState) : Part := { p with partState := v }

/-- The part with another value of the combination watch. -/
def Part.setWatch (p : Part) (v : Watch) : Part := { p with watch := v }

/-- The part with another value of the partner data image. -/
def Part.setImage (p : Part) (v : Image) : Part := { p with image := v }

/-- The part with another value of the motor links. -/
def Part.setLinks (p : Part) (v : PerMotor MotorLink) : Part := { p with links := v }

/-- The part with another value of the settlement unit. -/
def Part.setAccount (p : Part) (v : Account) : Part := { p with account := v }

/-- The part with another value of the blend engine. -/
def Part.setBlend (p : Part) (v : BlendEngine) : Part := { p with blend := v }

/-- The part with another value of the arbiter. -/
def Part.setAuth (p : Part) (v : Arbiter) : Part := { p with auth := v }

/-- The part with another value of the hold controller. -/
def Part.setHold (p : Part) (v : Hold) : Part := { p with hold := v }

/-- The part with another value of the generator sequencer. -/
def Part.setGen (p : Part) (v : Sequencer) : Part := { p with gen := v }

/-- The part with another value of the derate unit. -/
def Part.setDerate (p : Part) (v : Derate) : Part := { p with derate := v }

/-- The part with another value of the sense scanner. -/
def Part.setScan (p : Part) (v : Scanner) : Part := { p with scan := v }

/-- The part with another value of the ports. -/
def Part.setPorts (p : Part) (v : Ports) : Part := { p with ports := v }

/-- The state with an operation made on the part. -/
def State.on (f : Part → Part) (s : State) : State := { s with part := f s.part }

/-- The part right after the run reset of a run-domain power-up that found keep-alive loss, with the
reset line released and no emergency line active (R200, R204; notes/assumptions/1.md). -/
def resetPart : Part where
  power := ⟨true, false, none⟩
  lines := ⟨false, false, false⟩
  marker := true
  cfg := defaultConfig
  slots := Vector.replicate 4 defaultSlot
  cal := defaultCalibration
  wear := lostWear
  warnings := lostWarnings
  cause := ⟨.powerOn, true, 1⟩
  time := ⟨0#32, 0#32⟩
  partState := .starting
  watch := ⟨.disarmed, 0#32⟩
  image := resetImage
  links := ⟨resetLink, resetLink⟩
  account := resetAccount
  blend := resetBlend
  auth := resetArbiter
  hold := resetHold
  gen := resetSequencer
  derate := resetDerate
  scan := resetScanner
  ports :=
    { port :=
        { pd := { resetPort with status := Event.warningNew.mask }
          ps := resetPort
          pg := resetPort
          pb := resetPort
          sv := { resetPort with status := Event.warningNew.mask } }
      reportCount := 0 }

/-- The machine right after reset: the part as `resetPart` says, and no command waiting. -/
def State.reset : State := ⟨[], resetPart⟩

end Sys2Proof.Machine
end

