-- ==== Sys2Proof/Machine/Operands.lean ====
section
/-! DEFINITION. The operand forms: how a received field becomes a stored value (the clamping of R32 and
R58, the codes of R194), and how a value becomes the bytes of a frame or an answer (R179, R194). -/

namespace Sys2Proof.Machine

/-! ### Received fields -/

/-- A number clamped to `low..high` (chapter 0, "Arithmetic"; R32). -/
def clampNat (low high n : Nat) : Nat := max low (min n high)

/-- An integer clamped to `0..high`, as a number. -/
def clampInt (high : Nat) (z : Int) : Nat := min z.toNat high

/-- Bit `k` of a flags byte; the other bits are ignored (R194). -/
def flagBit (flags : Byte) (k : Nat) : Bool := flags.getLsbD k

/-- A direction code; an undefined one is NEUTRAL (R32, R194). -/
def directionOf (code : Byte) : Direction :=
  match code.toNat with
  | 1 => .forward
  | 2 => .reverse
  | _ => .neutral

/-- An engine report code; an undefined one is FAULT (R32, R194). -/
def reportOf (code : Byte) : EngineReport :=
  match code.toNat with
  | 0 => .stopped
  | 1 => .cranking
  | 2 => .running
  | _ => .fault

/-- The fields of a DRIVE_STATUS as the image stores them (R28, R32). -/
def driveDataOf (pedal aDem : BitVec 16) (direction flags : Byte) : DriveData where
  pedal := clampNat 0 1000 pedal.toNat
  aDem := clampNat 0 500 aDem.toNat
  direction := directionOf direction
  holdRequest := flagBit flags 0
  layoverRequest := flagBit flags 1
  quietZone := flagBit flags 2
  reserve := flagBit flags 3

/-- The fields of a STORAGE_STATUS as the image stores them (R29, R32). -/
def storageDataOf (soc pDisLim pChgLim : BitVec 16) (flags : Byte) : StorageData where
  soc := clampNat 0 1000 soc.toNat
  pDisLim := clampNat 0 4000 pDisLim.toNat
  pChgLim := clampNat 0 4000 pChgLim.toNat
  contactorOpen := flagBit flags 0

/-- The fields of a GEN_STATUS as the image stores them (R30, R32). -/
def genDataOf (report : Byte) (pGenAvail : BitVec 16) : GenData where
  report := some (reportOf report)
  pGenAvail := clampNat 0 2500 pGenAvail.toNat

/-- The fields of a BRAKE_STATUS as the image stores them (R31, R32). -/
def brakeDataOf (v m slipCapA slipCapB : BitVec 16) (flags : Byte) : BrakeData where
  v := clampNat 0 1000 v.toNat
  m := clampNat 12000 30000 m.toNat
  slip2 := flagBit flags 0
  slip3 := flagBit flags 1
  slipCapA := clampNat 0 2600 slipCapA.toNat
  slipCapB := clampNat 0 2600 slipCapB.toNat
  lowAdhesion := flagBit flags 2
  emergency := flagBit flags 3

/-! ### Bytes of numbers, flags and named values (R194) -/

/-- A one-byte number. -/
def enc1 (n : Nat) : List Byte := [BitVec.ofNat 8 n]

/-- A two-byte number, most significant byte first. -/
def enc2 (n : Nat) : List Byte := bytes2 (BitVec.ofNat 16 n)

/-- A two-byte signed number in two's complement. -/
def enc2i (z : Int) : List Byte := bytes2 (BitVec.ofInt 16 z)

/-- A four-byte number, most significant byte first. -/
def enc4 (w : BitVec 32) : List Byte := bytes2 (w.extractLsb' 16 16) ++ bytes2 (w.extractLsb' 0 16)

/-- A flag: one byte, 0 for clear and 1 for set. -/
def encFlag (b : Bool) : List Byte := enc1 b.toNat

/-- A field that may be absent: a presence byte and, when present, the value. -/
def encOption {α : Type} (enc : α → List Byte) : Option α → List Byte
  | none => [0#8]
  | some a => 1#8 :: enc a

/-- A list: a count byte and the entries. -/
def encList {α : Type} (enc : α → List Byte) (l : List α) : List Byte :=
  enc1 l.length ++ (l.map enc).flatten

/-- A set of flags as one byte: bit k is the k-th flag. -/
def encBits (l : List Bool) : List Byte :=
  enc1 (l.foldr (fun b n => b.toNat + 2 * n) 0)

/-- An authority source or NONE (R194: numbered by index, NONE is 255). -/
def encSource : Option Source → List Byte
  | none => [255#8]
  | some s => enc1 s.ctorIdx

/-- The code of a direction (R194). -/
def Direction.code (d : Direction) : Nat := d.ctorIdx

/-- An account record's flags as one byte (R194, STORAGE_GRANT). -/
def encAccountFlags (f : AccountFlags) : List Byte :=
  encBits [f.overdraw, f.overcharge, f.senseHeld, f.episode, f.dump]

/-- A blend step: operator code in the low four bits, last flag in the top bit, then the modifier (R194). -/
def encStep (s : BlendStep) : List Byte :=
  [BitVec.ofNat 8 (s.op.ctorIdx + 128 * s.last.toNat), BitVec.ofNat 8 s.modifier]

/-- A two-byte number as received. -/
def dec2 (hi lo : Byte) : Nat := (beWord hi lo).toNat

/-- A two-byte signed number as received. -/
def dec2i (hi lo : Byte) : Int := (beWord hi lo).toInt

/-- A four-byte number as received. -/
def dec4 (a b c d : Byte) : Nat := (beWord a b ++ beWord c d : BitVec 32).toNat

end Sys2Proof.Machine
end

