-- ==== Sys2Proof/Machine/Flags.lean ====
section
/-! DEFINITION. The status events of the ports, their error causes and the attention lines (R180, R187 to
R190). -/

namespace Sys2Proof.Machine

/-- What a port holds. -/
def PerPort.get {α : Type} (x : PerPort α) : Port → α
  | .pd => x.pd
  | .ps => x.ps
  | .pg => x.pg
  | .pb => x.pb
  | .sv => x.sv

/-- Another value at one port. -/
def PerPort.set {α : Type} (x : PerPort α) (port : Port) (v : α) : PerPort α :=
  match port with
  | .pd => { x with pd := v }
  | .ps => { x with ps := v }
  | .pg => { x with pg := v }
  | .pb => { x with pb := v }
  | .sv => { x with sv := v }

/-- What a motor has. -/
def PerMotor.get {α : Type} (x : PerMotor α) : Motor → α
  | .a => x.a
  | .b => x.b

/-- Another value at one motor. -/
def PerMotor.set {α : Type} (x : PerMotor α) (motor : Motor) (v : α) : PerMotor α :=
  match motor with
  | .a => { x with a := v }
  | .b => { x with b := v }

/-- One port of the part. -/
def Part.port (p : Part) (port : Port) : PortState := p.ports.port.get port

/-- The part with another state of one port. -/
def Part.setPort (p : Part) (port : Port) (s : PortState) : Part :=
  p.setPorts { p.ports with port := p.ports.port.set port s }

/-- A port's state with an event in its status set; an event already there stays (R187). -/
def PortState.addEvent (e : Event) (s : PortState) : PortState :=
  { s with status := s.status ||| e.mask }

/-- Whether an event belongs to a port (R187). -/
def Event.on (e : Event) (port : Port) : Bool := eventsOf port &&& e.mask ≠ 0#16

/-- The event added at one port, if it belongs there. -/
def addEventAt (e : Event) (port : Port) (s : PortState) : PortState :=
  if e.on port then s.addEvent e else s

/-- A block sets an event: it is added to the status set of every port that carries it (R187). -/
def setEvent (e : Event) (p : Part) : Part :=
  p.setPorts { p.ports with
    port :=
      { pd := addEventAt e .pd p.ports.port.pd
        ps := addEventAt e .ps p.ports.port.ps
        pg := addEventAt e .pg p.ports.port.pg
        pb := addEventAt e .pb p.ports.port.pb
        sv := addEventAt e .sv p.ports.port.sv } }

/-- The event is set when the condition holds. -/
def setEventIf (c : Bool) (e : Event) (p : Part) : Part := if c then setEvent e p else p

/-- The bit of a cause in an error-cause set (R180, R194). -/
def causeMask (c : FrameCause) : BitVec 8 := 1#8 <<< c.ctorIdx

/-- FRAME_ERROR is set on one port and the cause added to its error-cause set (R180, R182). -/
def portFrameError (port : Port) (c : FrameCause) (p : Part) : Part :=
  let s := p.port port
  p.setPort port { s.addEvent .frameError with causes := s.causes ||| causeMask c }

/-- The level of a port's attention line: asserted while an event is both set and enabled (R189). -/
def attention (p : Part) (port : Port) : Bool :=
  (p.port port).status &&& p.cfg.enables.get port ≠ 0#16

/-- The named events are removed from a port's status set; clearing FRAME_ERROR empties its error-cause
set (R190). -/
def clearEvents (port : Port) (mask : BitVec 16) (p : Part) : Part :=
  let s := p.port port
  p.setPort port { s with
    status := s.status &&& ~~~mask
    causes := if mask &&& Event.frameError.mask ≠ 0#16 then 0#8 else s.causes }

end Sys2Proof.Machine
end

