-- ==== Sys2Proof/Machine/Ops.lean ====
section
/-! DEFINITION. The operations every block shares: intervals of the timebase (chapter 0, "Time"), the
transmitters (R184) and the judgement of a request at its port (R180 to R183). -/

namespace Sys2Proof.Machine

/-! ### Time -/

/-- The timebase value. -/
def Part.now (p : Part) : Stamp := p.time.now

/-- The interval from a stamp to a timebase value, modulo 2³² (chapter 0, "Time"). -/
def elapsed (now stamp : Stamp) : Nat := (now - stamp).toNat

/-- The interval since a stamp. -/
def Part.since (p : Part) (stamp : Stamp) : Nat := elapsed p.now stamp

/-- A timer has expired when its interval has elapsed since its start (chapter 0, "Time"). -/
def Part.timerDue (p : Part) (t : RunTimer) : Bool := t.length ≤ p.since t.start

/-- What is left of an interval of `length` ms that began at `start`. -/
def Part.left (p : Part) (start : Stamp) (length : Nat) : Nat := length - p.since start

/-! ### Transmitters -/

/-- A transmitter that has just become free begins the first queued frame, if there is one (R184). -/
def beginNext : List OutFrame → Transmitter
  | [] => ⟨none, []⟩
  | f :: rest => ⟨some f, rest⟩

/-- A frame is queued the moment it is formed; a free transmitter begins it (R184). -/
def Transmitter.enqueue (t : Transmitter) (f : OutFrame) : Transmitter :=
  match t.sending with
  | some g => ⟨some g, t.queue ++ [f]⟩
  | none => beginNext (t.queue ++ [f])

/-- The frame being sent is complete and the next queued frame begins (R184). A transmitter that sends
nothing completes nothing. -/
def Transmitter.complete (t : Transmitter) : Transmitter :=
  match t.sending with
  | some _ => beginNext t.queue
  | none => t

/-- Whether a frame is a REPLY. -/
def OutFrame.isReply : OutFrame → Bool
  | .reply _ _ _ => true
  | .storageGrant _ _ _ _ _ => false
  | .genCommand _ _ _ _ => false
  | .frictionDemand _ _ _ _ _ => false
  | .driveReport _ _ _ _ _ _ _ _ => false
  | .torqueSet _ _ _ _ => false

/-- The replies of a port that have not begun to be sent: its reply queue (R182). -/
def PortState.waitingReplies (s : PortState) : Nat := s.tx.queue.countP OutFrame.isReply

/-- A frame is queued on a port. -/
def queueOn (port : Port) (f : OutFrame) (p : Part) : Part :=
  let s := p.port port
  p.setPort port { s with tx := s.tx.enqueue f }

/-- The part with another state of one motor link. -/
def Part.setLink (p : Part) (motor : Motor) (l : MotorLink) : Part :=
  p.setLinks (p.links.set motor l)

/-- A frame is queued on a motor link. -/
def queueOnLink (motor : Motor) (f : OutFrame) (p : Part) : Part :=
  let l := p.links.get motor
  p.setLink motor { l with tx := l.tx.enqueue f }

/-! ### Requests -/

/-- What the owner of a request answers: the part after it, the reply code, and the answer of an accepted
READ (R183, R191). -/
structure Answered where
  part : Part
  code : ReplyCode
  answer : Option ReadPart

/-- A request that is refused changes nothing (R183). -/
def refuse (code : ReplyCode) (p : Part) : Answered := ⟨p, code, none⟩

/-- A request that was carried out (R183). -/
def accept (p : Part) : Answered := ⟨p, .accepted, none⟩

/-- The reply to a request is queued on the port it came in on (R181). -/
def replyOn (port : Port) (kind : Kind) (a : Answered) : Part :=
  queueOn port (.reply kind a.code a.answer) a.part

/-- A request at its port. In reset or without the run supply no frame is taken (R201). A length that the
kind does not permit is a frame error (R180 check 5); a full reply queue discards the request with OVERRUN
(R182); a kind the port does not permit is answered NOT_PERMITTED (R180 check 6); else the owner carries it
out before the reply is formed (R181). -/
def request (port : Port) (kind : Kind) (lengthOk : Bool) (owner : Part → Answered) (p : Part) : Part :=
  if !p.running then p
  else if !lengthOk then portFrameError port .length p
  else if Config.replyPlaces ≤ (p.port port).waitingReplies then portFrameError port .overrun p
  else if !kind.requestOn port then replyOn port kind (refuse .notPermitted p)
  else replyOn port kind (owner p)

end Sys2Proof.Machine
end

