-- ==== Sys2Proof/Machine/Image.lean ====
section
/-! DEFINITION. The partner data image: the freshness of each partner (R34), its limits, and the effective
values that the other blocks read (R36 to R40); the standing test (R197). -/

namespace Sys2Proof.Machine

/-- The freshness of a partner. -/
def Image.freshness (im : Image) : Partner → Freshness
  | .drive => im.drive.freshness
  | .storage => im.storage.freshness
  | .generator => im.generator.freshness
  | .brake => im.brake.freshness

/-- The arrival stamp of a partner (R27). -/
def Image.stampOf (im : Image) : Partner → Stamp
  | .drive => im.drive.stamp
  | .storage => im.storage.stamp
  | .generator => im.generator.stamp
  | .brake => im.brake.stamp

/-- The image with another freshness of one partner. -/
def Image.setFreshness (im : Image) (partner : Partner) (f : Freshness) : Image :=
  match partner with
  | .drive => { im with drive := { im.drive with freshness := f } }
  | .storage => { im with storage := { im.storage with freshness := f } }
  | .generator => { im with generator := { im.generator with freshness := f } }
  | .brake => { im with brake := { im.brake with freshness := f } }

/-- The freshness of a partner. -/
def Part.fresh (p : Part) (partner : Partner) : Freshness := p.image.freshness partner

/-- The configuration item that holds a partner's freshness limit (section 2.4). -/
def freshItem : Partner → NumItem
  | .drive => .freshDrive
  | .storage => .freshStorage
  | .generator => .freshGenerator
  | .brake => .freshBrake

/-- The freshness limit of a partner in ms. -/
def Part.limitOf (p : Part) (partner : Partner) : Nat := p.cfg.num (freshItem partner)

/-- The time since a partner's arrival stamp (R34). -/
def Part.silence (p : Part) (partner : Partner) : Nat := p.since (p.image.stampOf partner)

/-- FRESH to STALE is due: the elapsed time has reached the limit (R34). -/
def staleDue (partner : Partner) (p : Part) : Bool :=
  p.fresh partner = .fresh && p.limitOf partner ≤ p.silence partner

/-- STALE to LOST is due: the elapsed time has reached 4 × the limit (R34). -/
def lostDue (partner : Partner) (p : Part) : Bool :=
  p.fresh partner = .stale && 4 * p.limitOf partner ≤ p.silence partner

/-! ### Effective values -/

/-- The effective pedal: 0 while the drive partner is STALE or LOST (R36). -/
def effPedal (p : Part) : Nat :=
  match p.image.drive.freshness with
  | .stale | .lost => 0
  | .never | .fresh => p.image.drive.data.pedal

/-- The effective brake request, held through STALE and LOST (R36). -/
def effADem (p : Part) : Nat := p.image.drive.data.aDem

/-- The effective direction (R36). -/
def effDirection (p : Part) : Direction := p.image.drive.data.direction

/-- The effective quiet-zone flag (R36). -/
def effQuietZone (p : Part) : Bool := p.image.drive.data.quietZone

/-- The effective reserve flag (R36). -/
def effReserve (p : Part) : Bool := p.image.drive.data.reserve

/-- The effective SoC, held (R37). -/
def effSoc (p : Part) : Nat := p.image.storage.data.soc

/-- The effective discharge limit (R37, R38). -/
def effDisLim (p : Part) : Nat :=
  if p.image.storage.data.contactorOpen then 0
  else match p.image.storage.freshness with
    | .lost => p.image.disCopy
    | .never | .fresh | .stale => p.image.storage.data.pDisLim

/-- The effective charge limit (R37, R38). -/
def effChgLim (p : Part) : Nat :=
  if p.image.storage.data.contactorOpen then 0
  else match p.image.storage.freshness with
    | .lost => p.image.chgCopy
    | .never | .fresh | .stale => p.image.storage.data.pChgLim

/-- The effective P_gen_avail: 0 while the generator partner is LOST (R39). -/
def effGenAvail (p : Part) : Nat :=
  match p.image.generator.freshness with
  | .lost => 0
  | .never | .fresh | .stale => p.image.generator.data.pGenAvail

/-- The effective speed, held (R40). -/
def effV (p : Part) : Nat := p.image.brake.data.v

/-- The effective mass, held (R40). -/
def effM (p : Part) : Nat := p.image.brake.data.m

/-- The effective slip flags of axle 2 (motor A) and axle 3 (motor B): clear while the brake partner is
LOST (R40; R4 gives the axle of each motor). -/
def effSlip (p : Part) : PerMotor Bool :=
  match p.image.brake.freshness with
  | .lost => ⟨false, false⟩
  | .never | .fresh | .stale => ⟨p.image.brake.data.slip2, p.image.brake.data.slip3⟩

/-- The effective slip caps (R40). -/
def effSlipCap (p : Part) : PerMotor Nat := ⟨p.image.brake.data.slipCapA, p.image.brake.data.slipCapB⟩

/-- The effective low-adhesion flag, held (R40). -/
def effLowAdhesion (p : Part) : Bool := p.image.brake.data.lowAdhesion

/-- The brake partner's effective emergency flag, held (R40). -/
def effEmergency (p : Part) : Bool := p.image.brake.data.emergency

/-- The vehicle is standing: v01 below 5 and no brake episode (R197). -/
def standing (p : Part) : Bool := effV p < Config.standingSpeed && !p.blend.episode

/-! ### Motor links -/

/-- A motor is in service while its link is FRESH, ready and without fault (R60). -/
def MotorLink.inService (l : MotorLink) : Bool := l.freshness = .fresh && l.ready && !l.fault

/-- FRESH to STALE is due on a motor link: 30 ms since the arrival stamp (R59). -/
def linkStaleDue (motor : Motor) (p : Part) : Bool :=
  (p.links.get motor).freshness = .fresh && Config.linkLimit ≤ p.since (p.links.get motor).stamp

/-! ### Arrivals -/

/-- The arrival of a DRIVE_STATUS in the image (R33 steps 1 to 3). -/
def storeDrive (d : DriveData) (p : Part) : Part :=
  p.setImage { p.image with drive := ⟨d, p.now, .fresh⟩ }

/-- The arrival of a STORAGE_STATUS in the image (R33 steps 1 to 4). -/
def storeStorage (d : StorageData) (p : Part) : Part :=
  p.setImage { p.image with
    storage := ⟨d, p.now, .fresh⟩
    disCopy := d.pDisLim
    chgCopy := d.pChgLim }

/-- The arrival of a GEN_STATUS in the image (R33 steps 1 to 3). -/
def storeGenerator (d : GenData) (p : Part) : Part :=
  p.setImage { p.image with generator := ⟨d, p.now, .fresh⟩ }

/-- The arrival of a BRAKE_STATUS in the image (R33 steps 1 to 3). -/
def storeBrake (d : BrakeData) (p : Part) : Part :=
  p.setImage { p.image with brake := ⟨d, p.now, .fresh⟩ }

/-- The part goes from STARTING to READY once no partner is NEVER (R205). -/
def readyCheck (p : Part) : Part :=
  if p.fresh .drive ≠ .never && p.fresh .storage ≠ .never && p.fresh .generator ≠ .never
      && p.fresh .brake ≠ .never then p.setPartState .ready
  else p

/-- At an "account settled" the decaying copies of a LOST storage partner fall by storage_decay (R38). -/
def decayStorage (p : Part) : Part :=
  if p.image.storage.freshness = .lost then
    p.setImage { p.image with
      disCopy := p.image.disCopy - p.cfg.num .storageDecay
      chgCopy := p.image.chgCopy - p.cfg.num .storageDecay }
  else p

end Sys2Proof.Machine
end

