-- ==== Sys2Proof/Machine/Derate.lean ====
section
/-! DEFINITION. The derate unit: codes and factors (R125, R126, R132 to R136) and the thermal override
machine (R127 to R129). -/

namespace Sys2Proof.Machine

/-- The factor a derate code stands for, in permille (the table of R125). -/
def codeFactor (code : Nat) : Nat := 1000 - 125 * code

/-- The override is in force: the thermal override is ACTIVE or forced derate is on (R131). -/
def overrideInForce (p : Part) : Bool := p.derate.thermal = .active || p.derate.forced

/-- Any lining item is at LIMIT (R133). -/
def liningAtLimit (p : Part) : Bool :=
  p.wear[0].level = .limit || p.wear[1].level = .limit || p.wear[2].level = .limit

/-- d_trac: the least of the caps in force (R133). -/
def formDTrac (p : Part) : Nat :=
  min 1000 (min (if p.cfg.on .economyEnable then codeFactor (p.cfg.num .economyCode) else 1000)
    (min (if overrideInForce p then codeFactor p.derate.overrideCode else 1000)
      (if liningAtLimit p then Config.liningCap else 1000)))

/-- d_regen (R134). -/
def formDRegen (p : Part) : Nat :=
  if overrideInForce p then codeFactor p.derate.overrideCode else 1000

/-- d_bat from the level of the battery-throughput item (R135). -/
def formDBat (p : Part) : Nat :=
  match p.wear[7].level with
  | .warn => 900
  | .limit => 750
  | .ok | .unknown => 1000

/-- k_i: 500 while the motor's or the inverter's cycle item is at LIMIT (R136). -/
def formK (motorCycles inverterCycles : Level) : Nat :=
  if motorCycles = .limit || inverterCycles = .limit then 500 else 1000

/-- The five factors from the whole state of the unit (R124). -/
def formFactors (p : Part) : Factors where
  dTrac := formDTrac p
  dRegen := formDRegen p
  dBat := formDBat p
  kA := formK p.wear[3].level p.wear[5].level
  kB := formK p.wear[4].level p.wear[6].level

/-- The unit forms its factors again; another d_trac sets DERATE_CHANGE (R124, R133). -/
def reformFactors (p : Part) : Part :=
  setEventIf ((formFactors p).dTrac ≠ p.derate.factors.dTrac) .derateChange
    (p.setDerate { p.derate with factors := formFactors p })

/-- The factors formed at a run reset, which is no change (R137). -/
def formFactorsAtReset (p : Part) : Part :=
  p.setDerate { p.derate with factors := formFactors p }

/-- The thermal set becomes non-empty (R128). -/
def thermalRises (p : Part) : Part :=
  match p.derate.thermal with
  | .off => p.setDerate { p.derate with
      thermal := .arming, timer := some ⟨p.now, p.cfg.num .thermalArm⟩ }
  | .arming => p
  | .active => p.setDerate { p.derate with timer := none }

/-- The thermal set becomes empty (R128). -/
def thermalEmpties (p : Part) : Part :=
  match p.derate.thermal with
  | .off => p
  | .arming => p.setDerate { p.derate with thermal := .off, timer := none }
  | .active => p.setDerate { p.derate with timer := some ⟨p.now, p.cfg.num .thermalClear⟩ }

/-- A change of the thermal set reaches the unit (R127, R128, R124). -/
def setThermalSet (set' : BitVec 8) (p : Part) : Part :=
  let before := p.derate.thermalSet
  let q := p.setDerate { p.derate with thermalSet := set' }
  reformFactors
    (if before = 0#8 && set' ≠ 0#8 then thermalRises q
     else if before ≠ 0#8 && set' = 0#8 then thermalEmpties q
     else q)

/-- The bit of a monitor in the thermal set (R194). -/
def monitorMask (k : MonitorNo) : BitVec 8 := 1#8 <<< k.val

/-- A monitor joins the thermal set (R127). -/
def joinThermal (k : MonitorNo) (p : Part) : Part :=
  setThermalSet (p.derate.thermalSet ||| monitorMask k) p

/-- A monitor leaves the thermal set (R127). -/
def leaveThermal (k : MonitorNo) (p : Part) : Part :=
  setThermalSet (p.derate.thermalSet &&& ~~~monitorMask k) p

/-- The arming timer's expiry is due (R128). -/
def armingDue (p : Part) : Bool :=
  p.derate.thermal = .arming && (p.derate.timer.elim false p.timerDue)

/-- The clearing timer's expiry is due (R128). -/
def clearingDue (p : Part) : Bool :=
  p.derate.thermal = .active && (p.derate.timer.elim false p.timerDue)

/-- ARMING to ACTIVE; THERMAL_OVERRIDE is set (R128). -/
def armingExpires (p : Part) : Part :=
  reformFactors (setEvent .thermalOverride
    (p.setDerate { p.derate with thermal := .active, timer := none }))

/-- ACTIVE to OFF (R128). -/
def clearingExpires (p : Part) : Part :=
  reformFactors (p.setDerate { p.derate with thermal := .off, timer := none })

/-- FORCE_DERATE sets the forced-derate setting (R131); a value other than 0 and 1 is refused. -/
def forceDerate (value : Byte) (p : Part) : Answered :=
  match value.toNat with
  | 0 => accept (reformFactors (p.setDerate { p.derate with forced := false }))
  | 1 => accept (reformFactors (p.setDerate { p.derate with forced := true }))
  | _ => refuse .range p

/-- A write of override_code from an owning port (R130). -/
def writeOverrideCode (value : List Byte) (p : Part) : Answered :=
  if p.derate.locked then refuse .locked p
  else match value with
    | [v] =>
      if v.toNat ≤ 7 then
        accept (reformFactors (p.setDerate { p.derate with overrideCode := v.toNat, locked := true }))
      else refuse .range p
    | _ => refuse .range p

end Sys2Proof.Machine
end

