-- ==== Sys2Proof/Machine/Wear.lean ====
section
/-! DEFINITION. The wear unit: levels (R166), the warning list (R173), integration and counting (R160 to
R165), saturation (R167), and the service writes (R170, R171, R175). -/

namespace Sys2Proof.Machine

/-- The part with another record of one wear item. -/
def Part.setWearItem (p : Part) (i : WearNo) (it : WearItem) : Part := p.setWear (p.wear.set i it)

/-! ### Levels -/

/-- The kind of an item (R158). -/
def wearKind (i : WearNo) : WearKind :=
  match i.val with
  | 0 | 1 | 2 | 7 => .energy
  | 9 => .duration
  | 11 => .statistic
  | _ => .count

/-- The lining items (R158). -/
def isLining (i : WearNo) : Bool := i.val ≤ 2

/-- The cycle items (R159). -/
def isCycle (i : WearNo) : Bool := 3 ≤ i.val && i.val ≤ 6

/-- The order OK, UNKNOWN, WARN, LIMIT (R166). -/
def Level.rank : Level → Nat
  | .ok => 0
  | .unknown => 1
  | .warn => 2
  | .limit => 3

/-- The higher of two levels (R166). -/
def higherLevel (a b : Level) : Level := if a.rank < b.rank then b else a

/-- The threshold level (R166). -/
def thresholdLevel (it : WearItem) : Level :=
  if it.unknown.isSome then .unknown
  else if it.limit ≠ 0 && it.limit ≤ it.acc then .limit
  else if it.warn ≠ 0 && it.warn ≤ it.acc then .warn
  else .ok

/-- The sensor level of a latched stage (R166). -/
def sensorLevel (stage : Nat) : Level :=
  match stage with
  | 0 | 1 => .ok
  | 2 => .warn
  | _ => .limit

/-- The level formed for an item (R166); item 11 has none and keeps its field as it is. -/
def formedLevel (i : WearNo) (it : WearItem) : Level :=
  if isLining i then higherLevel (thresholdLevel it) (sensorLevel it.stage)
  else if hasLevel i then thresholdLevel it
  else it.level

/-- The disagree flag of a lining item: one of its two parts is OK and the other LIMIT (R166). -/
def formedDisagree (i : WearNo) (it : WearItem) : Bool :=
  isLining i &&
    ((thresholdLevel it = .ok && sensorLevel it.stage = .limit) ||
     (thresholdLevel it = .limit && sensorLevel it.stage = .ok))

/-! ### The warning list -/

/-- The list without an item's entry. -/
def removeWarning (i : WearNo) (l : List Warning) : List Warning := l.filter (·.item ≠ i)

/-- Whether a change of level appends an entry: a rise to a level that is not OK (R173). -/
def appendsWarning (old new : Level) : Bool := new ≠ .ok && old.rank < new.rank

/-- The list after a change of an item's level (the table of R173). -/
def updateWarnings (i : WearNo) (old new : Level) (stamp : Stamp) (l : List Warning) : List Warning :=
  if new = .ok then removeWarning i l
  else if old.rank < new.rank then removeWarning i l ++ [⟨i, new, stamp, false⟩]
  else l.map fun w => if w.item = i then { w with level := new } else w

/-- A change of level is handed on: to the warning list, to the brake port for a lining that reaches
LIMIT, and to the derate unit for items 0 to 7 (R168). -/
def handOnLevel (i : WearNo) (old new : Level) (p : Part) : Part :=
  let listed := setEventIf (appendsWarning old new) .warningNew
    (p.setWarnings (updateWarnings i old new p.now p.warnings))
  let limited := setEventIf (isLining i && new = .limit) .liningLimit listed
  if i.val ≤ 7 then reformFactors limited else limited

/-- The record of an item with its level and disagree flag formed again; a change of level is stamped
(R166, R168). -/
def judgedItem (i : WearNo) (now : Stamp) (it : WearItem) : WearItem :=
  { it with
    disagree := formedDisagree i it
    level := formedLevel i it
    changed := if formedLevel i it = it.level then it.changed else now }

/-- The level of an item is formed again, and a change is handed on (R166, R168). -/
def judgeItem (i : WearNo) (p : Part) : Part :=
  let it := p.wear[i]
  let q := p.setWearItem i (judgedItem i p.now it)
  if formedLevel i it = it.level then q else handOnLevel i it.level (formedLevel i it) q

/-! ### Integration and counting -/

/-- An item's record after `k` more units: held at the maximum, the flag set at the event that first holds
it, the unknown amount raised alike (R167, R169). -/
def raisedItem (k : Nat) (it : WearItem) : WearItem :=
  { it with
    acc := min (it.acc + k) Config.wearTop
    unknown := it.unknown.map fun u => min (u + k) Config.wearTop
    saturated := it.saturated || Config.wearTop < it.acc + k }

/-- `k` more units on an item, with WEAR_SATURATED when this first holds the accumulator (R167). -/
def addUnits (i : WearNo) (k : Nat) (p : Part) : Part :=
  let it := p.wear[i]
  setEventIf (Config.wearTop < it.acc + k && !it.saturated && it.notice) .wearSaturated
    (p.setWearItem i (raisedItem k it))

/-- A quantity added to an item's residual; whole units move to the accumulator (R160 to R163). -/
def integrate (i : WearNo) (quantity unit : Nat) (p : Part) : Part :=
  let it := p.wear[i]
  let total := it.residual + quantity
  addUnits i (total / unit) (p.setWearItem i { it with residual := total % unit })

/-- One count on an item, judged at once (R164, R165). -/
def countOne (i : WearNo) (p : Part) : Part := judgeItem i (addUnits i 1 p)

/-- The friction work of a settlement on an axle (R160). -/
def liningWork (r : AccountRecord) (w : Working) (share : Nat) : Nat :=
  w.m * (r.aDem - r.regApplied) * w.v * share

/-- The lining quantity of one kJ (R160). -/
def liningUnit : Nat := 360000000000

/-- The joules of 0.1 kWh (R161). -/
def energyUnit : Nat := 360000

/-- The integration of a settled record: every item first, then the levels in item order (R160 to R163). -/
def integrateRecord (r : AccountRecord) (w : Working) (p : Part) : Part :=
  let p := integrate 0 (liningWork r w p.cfg.axleShares.axle1) liningUnit p
  let p := integrate 1 (liningWork r w p.cfg.axleShares.axle2) liningUnit p
  let p := integrate 2 (liningWork r w p.cfg.axleShares.axle3) liningUnit p
  let p := integrate 7 (r.d + r.c) energyUnit p
  let p := integrate 11 r.rg energyUnit p
  let p := if w.link = .run then integrate 9 10 1000 p else p
  judgeItem 9 (judgeItem 7 (judgeItem 2 (judgeItem 1 (judgeItem 0 p))))

/-- The thermal-cycle item of a channel (R164). -/
def cycleItem (ch : Channel) : Option WearNo :=
  match ch.val with
  | 12 => some 3
  | 13 => some 4
  | 14 => some 5
  | 15 => some 6
  | _ => none

/-- cyc_high of a cycle item (R164). -/
def cycHigh (i : WearNo) : Int := if i.val ≤ 4 then 150 else 90

/-- cyc_low of a cycle item (R164). -/
def cycLow (i : WearNo) : Int := if i.val ≤ 4 then 80 else 50

/-- A cycle item judges a new result (R164). -/
def judgeCycle (i : WearNo) (value : Int) (p : Part) : Part :=
  let it := p.wear[i]
  if !it.armed && cycHigh i < value then p.setWearItem i { it with armed := true }
  else if it.armed && value < cycLow i then countOne i (p.setWearItem i { it with armed := false })
  else p

/-- The wear unit receives a new result (R140, R164). -/
def wearResult (ch : Channel) (value : Int) (p : Part) : Part :=
  match cycleItem ch with
  | some i => judgeCycle i value p
  | none => p

/-- The stage a result gives, if it is valid (R167). -/
def stageOf (r : SenseResult) : Option Nat := if r.valid then some r.value.toNat else none

/-- The higher of the stages an axle's two sensors give, if any (R167). -/
def axleStage (left right : SenseResult) : Option Nat :=
  match stageOf left, stageOf right with
  | some a, some b => some (max a b)
  | some a, none => some a
  | none, some b => some b
  | none, none => none

/-- A lining item latches a higher stage, and its level is formed again (R167, R166). -/
def latchStage (i : WearNo) (found : Option Nat) (p : Part) : Part :=
  let it := p.wear[i]
  match found with
  | none => p
  | some s => if it.stage < s then judgeItem i (p.setWearItem i { it with stage := s }) else p

/-- ROUND_DONE: the lining stages are read from channels 6 to 11 (R167). -/
def roundDone (p : Part) : Part :=
  let r := p.scan.results
  latchStage 2 (axleStage r[10] r[11]) (latchStage 1 (axleStage r[8] r[9])
    (latchStage 0 (axleStage r[6] r[7]) p))

/-! ### Service writes -/

/-- A wear item's number as a request names it. -/
def wearNoOf (item : Byte) : Option WearNo :=
  if h : item.toNat < 12 then some ⟨item.toNat, h⟩ else none

/-- The optional fields of a WEAR_WRITE (R170). -/
structure WearFields where
  acc : Option Nat
  warn : Option Nat
  limit : Option Nat
  notice : Option Byte
  deriving DecidableEq, Repr

/-- A four-byte field taken from the front when its presence bit is set. -/
def take4 (present : Bool) (bytes : List Byte) : Option (Option Nat × List Byte) :=
  if present then
    match bytes with
    | a :: b :: c :: d :: rest => some (some (dec4 a b c d), rest)
    | _ => none
  else some (none, bytes)

/-- A one-byte field taken from the front when its presence bit is set. -/
def take1 (present : Bool) (bytes : List Byte) : Option (Option Byte × List Byte) :=
  if present then
    match bytes with
    | a :: rest => some (some a, rest)
    | _ => none
  else some (none, bytes)

/-- The carried fields of a WEAR_WRITE, in the order accumulator, warn, limit, notice; none when the length
does not match the presence byte (R194). -/
def wearFieldsOf (presence : Byte) (bytes : List Byte) : Option WearFields :=
  match take4 (flagBit presence 0) bytes with
  | none => none
  | some (acc, b1) =>
    match take4 (flagBit presence 1) b1 with
    | none => none
    | some (warn, b2) =>
      match take4 (flagBit presence 2) b2 with
      | none => none
      | some (limit, b3) =>
        match take1 (flagBit presence 3) b3 with
        | none => none
        | some (notice, b4) => if b4 = [] then some ⟨acc, warn, limit, notice⟩ else none

/-- The accumulator a WEAR_WRITE leaves: the written value plus the unknown amount, saturating (R170). -/
def mergedAcc (value : Nat) (it : WearItem) : Nat := min (value + it.unknown.getD 0) Config.wearTop

/-- A notice byte is 0 for off or 1 for on. -/
def noticeOk (n : Option Byte) : Bool := n.all fun b => b.toNat ≤ 1

/-- The fields are refused for this item: a threshold for item 11, or warn not below limit with both
non-zero, a threshold not carried at its stored value (R170). -/
def wearFieldsBad (i : WearNo) (f : WearFields) (it : WearItem) : Bool :=
  let warn := f.warn.getD it.warn
  let limit := f.limit.getD it.limit
  (!hasLevel i && (f.warn.isSome || f.limit.isSome)) || (warn ≠ 0 && limit ≠ 0 && limit ≤ warn)

/-- The record after the fields of a WEAR_WRITE are stored (R170 steps 1 and 2). -/
def writtenItem (f : WearFields) (it : WearItem) : WearItem :=
  let it := { it with
    warn := f.warn.getD it.warn
    limit := f.limit.getD it.limit
    notice := (f.notice.map fun b => decide (b.toNat = 1)).getD it.notice }
  match f.acc with
  | none => it
  | some v => { it with
      acc := mergedAcc v it
      unknown := none
      saturated := mergedAcc v it = Config.wearTop }

/-- The WEAR_WRITE brings the accumulator to the maximum with the notice on and the flag not yet set
(R167, R170). -/
def writeSaturates (f : WearFields) (it : WearItem) : Bool :=
  f.acc.isSome && (writtenItem f it).saturated && !it.saturated && (writtenItem f it).notice

/-- An accepted WEAR_WRITE (R170): the fields are stored, then the level is formed again. -/
def applyWearWrite (i : WearNo) (f : WearFields) (p : Part) : Part :=
  judgeItem i (setEventIf (writeSaturates f p.wear[i]) .wearSaturated
    (p.setWearItem i (writtenItem f p.wear[i])))

/-- WEAR_WRITE (R170). A length that does not match the presence byte, or a notice that is neither on nor
off, is RANGE whatever the item (R194; the order of R183); an item outside 0..11 is UNKNOWN_ITEM; fields
that break the item are RANGE. -/
def wearWrite (item presence : Byte) (bytes : List Byte) (p : Part) : Answered :=
  match wearFieldsOf presence bytes with
  | none => refuse .range p
  | some f =>
    if !noticeOk f.notice then refuse .range p
    else match wearNoOf item with
      | none => refuse .unknownItem p
      | some i =>
        if wearFieldsBad i f p.wear[i] then refuse .range p else accept (applyWearWrite i f p)

/-- The record after a WEAR_RESET (R171); the thresholds, the notice and, until it is formed again, the
level are kept. -/
def resetItem (it : WearItem) : WearItem :=
  { it with
    acc := 0, residual := 0, saturated := false, unknown := none, stage := 0, disagree := false
    armed := false }

/-- WEAR_RESET (R171): with nothing accumulated, unknown or latched, the level formed is OK. -/
def wearReset (item : Byte) (p : Part) : Answered :=
  match wearNoOf item with
  | none => refuse .unknownItem p
  | some i => accept (judgeItem i (p.setWearItem i (resetItem p.wear[i])))

/-- ACK_WARNING (R175). -/
def ackWarning (item : Byte) (p : Part) : Answered :=
  match wearNoOf item with
  | none => refuse .unknownItem p
  | some i =>
    if p.warnings.any (·.item = i) then
      accept (p.setWarnings (p.warnings.map fun w =>
        if w.item = i then { w with acknowledged := true } else w))
    else refuse .range p

/-- The warning count: entries not acknowledged (R176). -/
def warningCount (p : Part) : Nat := p.warnings.countP (!·.acknowledged)

end Sys2Proof.Machine
end

