-- ==== Sys2Proof/Machine/Arbiter.lean ====
section
/-! DEFINITION. The authority arbiter: the request flags (R43), the offer (R46, R47), the stack (R48 to R51)
and the state of each source (R44). -/

namespace Sys2Proof.Machine

/-- The request flag of a source. -/
def SourceFlags.get (f : SourceFlags) : Source → Bool
  | .safeStop => f.safeStop
  | .slip => f.slip
  | .blend => f.blend
  | .hold => f.hold
  | .limp => f.limp
  | .traction => f.traction

/-- Another request flag of one source. -/
def SourceFlags.set (f : SourceFlags) (src : Source) (b : Bool) : SourceFlags :=
  match src with
  | .safeStop => { f with safeStop := b }
  | .slip => { f with slip := b }
  | .blend => { f with blend := b }
  | .hold => { f with hold := b }
  | .limp => { f with limp := b }
  | .traction => { f with traction := b }

/-- The condition of each source's request flag (the table of R43). -/
def requested (src : Source) (p : Part) : Bool :=
  match src with
  | .safeStop => p.lines.el0 || p.lines.el1 || p.lines.el2 || effEmergency p
  | .slip => (effSlip p).a || (effSlip p).b
  | .blend =>
    p.blend.episode && effDirection p = .forward && p.cfg.num .vMinRegen ≤ effV p &&
      (p.fresh .brake = .fresh || p.fresh .brake = .stale)
  | .hold => p.hold.state ≠ .drive
  | .limp => p.fresh .brake = .lost
  | .traction => (effDirection p = .forward || effDirection p = .reverse) && p.fresh .drive = .fresh

/-- A source is in the stack. -/
def inStack (src : Source) (a : Arbiter) : Bool := a.stack.any (·.source = src)

/-- The stack after a source's release: its entry leaves and the others keep their order (R49, R50). -/
def released (src : Source) (stack : List StackEntry) : List StackEntry :=
  stack.filter (·.source ≠ src)

/-- The source is the top entry. -/
def isTop (src : Source) (stack : List StackEntry) : Bool :=
  match stack with
  | [] => false
  | e :: _ => e.source = src

/-- The arbiter evaluates a source's request flag (R43). A flag that falls releases the source; a removal
from the top sets AUTHORITY_CHANGE (R50). -/
def evalSource (src : Source) (p : Part) : Part :=
  if requested src p then
    p.setAuth { p.auth with flags := p.auth.flags.set src true }
  else
    setEventIf (isTop src p.auth.stack) .authorityChange
      (p.setAuth ⟨p.auth.flags.set src false, released src p.auth.stack⟩)

/-- The level of a source as configured; SAFE_STOP's is fixed at 8 (R45). -/
def levelOf (src : Source) (p : Part) : Nat :=
  match src with
  | .safeStop => 8
  | .slip => p.cfg.num .levelSlip
  | .blend => p.cfg.num .levelBlend
  | .hold => p.cfg.num .levelHold
  | .limp => p.cfg.num .levelLimp
  | .traction => p.cfg.num .levelTraction

/-- PENDING: the flag is set and the source is not in the stack (R44). -/
def pendingSource (src : Source) (p : Part) : Bool := p.auth.flags.get src && !inStack src p.auth

/-- A source that can be the offer: PENDING, of a level above 0, and while STARTING only SAFE_STOP (R46). -/
def offerable (src : Source) (p : Part) : Bool :=
  pendingSource src p && levelOf src p ≠ 0 && (p.partState = .ready || src = .safeStop)

/-- The six sources in index order (R43). -/
def allSources : List Source := [.safeStop, .slip, .blend, .hold, .limp, .traction]

/-- The better of the offer so far and a later source: a higher level wins, a tie stays with the lower
index (R46). -/
def betterOffer (p : Part) (best : Option Source) (src : Source) : Option Source :=
  if offerable src p then
    match best with
    | none => some src
    | some b => if levelOf b p < levelOf src p then some src else some b
  else best

/-- The offer (R46). It is a function of the flags, the stack, the levels and the part state, so it stands
formed again after every event (R47). -/
def offer (p : Part) : Option Source := allSources.foldl (betterOffer p) none

/-- The offer qualifies: the stack is empty or its level is above the level latched at the top (R48). -/
def qualifies (src : Source) (p : Part) : Bool :=
  match p.auth.stack with
  | [] => true
  | e :: _ => e.level < levelOf src p

/-- The source a settlement's beginning accepts, if any (R48). -/
def accepted (p : Part) : Option Source :=
  match offer p with
  | none => none
  | some src => if qualifies src p then some src else none

/-- The acceptance of a source: it is pushed with its level latched, and AUTHORITY_CHANGE is set (R48). -/
def pushSource (src : Source) (p : Part) : Part :=
  setEvent .authorityChange
    (p.setAuth { p.auth with stack := ⟨src, levelOf src p⟩ :: p.auth.stack })

/-- The arbiter's test at a settlement's beginning (R48). -/
def acceptOffer (p : Part) : Part :=
  match accepted p with
  | none => p
  | some src => pushSource src p

/-- The governing authority: the top entry, or none (R3). -/
def governing (p : Part) : Option Source := p.auth.stack.head?.map (·.source)

/-- The base authority: the highest entry that is not SLIP, or none (R3). -/
def baseAuthority (p : Part) : Option Source :=
  (p.auth.stack.find? (·.source ≠ .slip)).map (·.source)

/-- The state of a source (R44). -/
def sourceState (src : Source) (p : Part) : SourceState :=
  if isTop src p.auth.stack then .governing
  else if inStack src p.auth then .suspended
  else if p.auth.flags.get src then .pending
  else .idle

end Sys2Proof.Machine
end

