-- ==== Sys2Proof/Machine/Scanner.lean ====
section
/-! DEFINITION. The sense scanner: the conversion of a raw code (R139), the converter's runs (R142 to R147),
calibration (R148 to R150), and the limit monitors (R152 to R156). -/

namespace Sys2Proof.Machine

/-! ### Channels -/

/-- The base of a channel (the table of R139). -/
def channelBase (ch : Channel) : Int :=
  match ch.val with
  | 0 | 1 | 2 | 3 | 4 | 5 | 12 | 13 | 14 | 15 | 20 | 21 => -40
  | 17 => -600
  | _ => 0

/-- The span of a channel (the table of R139). -/
def channelSpan (ch : Channel) : Nat :=
  match ch.val with
  | 6 | 7 | 8 | 9 | 10 | 11 => 4
  | 16 => 901
  | 17 => 1201
  | 18 => 401
  | 19 => 151
  | _ => 256

/-- The corrected code: the raw code minus the offset, clamped to 0..4095 (R139). -/
def correctedCode (raw : BitVec 12) (offset : Int) : Nat := clampInt 4095 ((raw.toNat : Int) - offset)

/-- The engineering value of a raw code (R139). -/
def senseValue (ch : Channel) (raw : BitVec 12) (offset : Int) : Int :=
  channelBase ch + ((correctedCode raw offset * channelSpan ch / 4096 : Nat) : Int)

/-- The value of a channel's latest result, or 0 when it is invalid (R5). -/
def senseOr0 (p : Part) (ch : Channel) : Int :=
  if p.scan.results[ch].valid then p.scan.results[ch].value else 0

/-- The auxiliary power of a link voltage and an auxiliary current (R5). -/
def auxPower (volts amps : Int) : Nat := min (volts.toNat * amps.toNat / 100) 1500

/-- X from the latest results (R5). -/
def auxNow (p : Part) : Nat := auxPower (senseOr0 p 16) (senseOr0 p 19)

/-- The measured battery power of a link voltage and a battery current: the magnitude divided, then given
the sign (R23). -/
def batteryPower (volts amps : Int) : Int :=
  let magnitude : Int := ((volts.toNat * amps.natAbs / 100 : Nat) : Int)
  if amps < 0 then -magnitude else magnitude

/-- Pm from the latest results (R23, R151). -/
def batteryNow (p : Part) : Int := batteryPower (senseOr0 p 16) (senseOr0 p 17)

/-! ### Limit monitors -/

/-- The channels in a scope (R152). -/
def scopeChannels : Scope → List Channel
  | .none => []
  | .channel c => [c]
  | .disc => [0, 1, 2, 3, 4, 5]
  | .motor => [12, 13]
  | .inverter => [14, 15]

/-- The values a judgement reads: the latest valid results of the scope (R153). -/
def judgedValues (p : Part) (scope : Scope) : List Int :=
  ((scopeChannels scope).filter fun ch => p.scan.results[ch].valid).map fun ch => p.scan.results[ch].value

/-- The verdict on some values (R153). -/
def verdict (c : MonitorCfg) (values : List Int) : Verdict :=
  if values.any fun v => v < c.low || c.high < v then .outside
  else if values.all fun v => c.low + c.hysteresis ≤ v && v ≤ c.high - c.hysteresis then .deepInside
  else .inBand

/-- A monitor after an entry into TRIPPED (R154). -/
def tripMonitor (stamp : Stamp) (m : Monitor) : Monitor :=
  ⟨.tripped, 0, min (m.trips + 1) Config.countTop, stamp⟩

/-- A monitor after a judgement (the table of R154). -/
def monitorNext (persistence : Nat) (v : Verdict) (stamp : Stamp) (m : Monitor) : Monitor :=
  match m.state, v with
  | .inside, .outside =>
    if persistence = 1 then tripMonitor stamp m else { m with state := .counting, count := 1 }
  | .inside, _ => m
  | .counting, .outside =>
    if persistence ≤ m.count + 1 then tripMonitor stamp m else { m with count := m.count + 1 }
  | .counting, _ => { m with state := .inside, count := 0 }
  | .tripped, .deepInside =>
    if persistence ≤ m.count + 1 then { m with state := .inside, count := 0 }
    else { m with count := m.count + 1 }
  | .tripped, _ => { m with count := 0 }

/-- The part with another state of one monitor. -/
def Part.setMonitor (p : Part) (k : MonitorNo) (m : Monitor) : Part :=
  p.setScan { p.scan with monitors := p.scan.monitors.set k m }

/-- An entry into TRIPPED is handed on according to the action (R155). -/
def handTrip (k : MonitorNo) (a : MonitorAction) (p : Part) : Part :=
  match a with
  | .thermalOverride => joinThermal k p
  | .discHot => countOne 10 p
  | .resistorInhibit => p
  | .statusOnly => p

/-- A return to INSIDE is handed on according to the action (R155). -/
def handReturn (k : MonitorNo) (a : MonitorAction) (p : Part) : Part :=
  match a with
  | .thermalOverride => leaveThermal k p
  | .discHot => p
  | .resistorInhibit => p
  | .statusOnly => p

/-- A monitor judges (R153, R154), and an entry into or a return from TRIPPED is handed on (R155). -/
def judgeMonitor (ch : Channel) (k : MonitorNo) (p : Part) : Part :=
  let c := p.cfg.monitors[k]
  let m := p.scan.monitors[k]
  if ch ∈ scopeChannels c.scope then
    let m' := monitorNext c.persistence (verdict c (judgedValues p c.scope)) p.scan.results[ch].stamp m
    let q := p.setMonitor k m'
    if m.state ≠ .tripped && m'.state = .tripped then handTrip k c.action q
    else if m.state = .tripped && m'.state ≠ .tripped then handReturn k c.action q
    else q
  else p

/-- Every monitor whose scope holds the channel judges, each handing its change on before the next judges (R140,
R155). The number order is the model's choice: a completion that takes one monitor out of the thermal set and another
into it may pass through the empty set or not (R127; notes/assumptions/40.md). -/
def judgeMonitors (ch : Channel) (p : Part) : Part :=
  [0, 1, 2, 3, 4, 5, 6, 7].foldl (fun q k => judgeMonitor ch k q) p

/-- Any monitor with an action is TRIPPED (R7, R88). -/
def anyTripped (a : MonitorAction) (p : Part) : Bool :=
  (List.finRange 8).any fun k =>
    decide (p.cfg.monitors[k].action = a) && decide (p.scan.monitors[k].state = .tripped)

/-- The configuration changes more than the action (R156). -/
def rejudged (old new : MonitorCfg) : Bool :=
  old.scope ≠ new.scope || old.low ≠ new.low || old.high ≠ new.high ||
    old.hysteresis ≠ new.hysteresis || old.persistence ≠ new.persistence

/-- An accepted write of a monitor item (R156). -/
def reconfigureMonitor (k : MonitorNo) (new : MonitorCfg) (p : Part) : Part :=
  let old := p.cfg.monitors[k]
  let m := p.scan.monitors[k]
  let q := p.setCfg { p.cfg with monitors := p.cfg.monitors.set k new }
  if rejudged old new then
    let q := q.setMonitor k { m with state := .inside, count := 0 }
    if m.state = .tripped then handReturn k old.action q else q
  else if m.state = .tripped && old.action ≠ new.action then
    if new.action = .thermalOverride then joinThermal k q
    else if old.action = .thermalOverride then leaveThermal k q
    else q
  else q

/-! ### Runs of the converter -/

/-- The part with another scan mode. -/
def setMode (m : ScanMode) (p : Part) : Part := p.setScan { p.scan with mode := m }

/-- The entries a run of a kind has to convert when it starts (R144, R145). -/
def runEntries (kind : RunKind) (p : Part) : Nat :=
  match kind with
  | .ordinary => p.cfg.num .runLength
  | .roundCompleting => p.cfg.routineList.length - p.scan.position

/-- A routine run starts (R144, R145). -/
def startRun (kind : RunKind) (p : Part) : Part :=
  p.setScan { p.scan with mode := .routineRun, run := some ⟨runEntries kind p, kind⟩ }

/-- The converter is free for routine work: a pending trigger is taken, or the scanner is IDLE (R145). -/
def takePending (p : Part) : Part :=
  match p.scan.pending with
  | some kind => startRun kind (p.setScan { p.scan with pending := none })
  | none => setMode .idle p

/-- A suspended routine run resumes, before a pending trigger is taken (R145). -/
def resumeOrTake (p : Part) : Part :=
  match p.scan.run with
  | some _ => setMode .routineRun p
  | none => takePending p

/-- A calibration is entered (R148, R149). -/
def enterCalibrating (p : Part) : Part :=
  p.setScan { p.scan with mode := .calibrating p.now [], calWaiting := false }

/-- The scanner's next step after an event run (R142). -/
def afterEventRun (p : Part) : Part :=
  if p.scan.calWaiting then enterCalibrating p else resumeOrTake p

/-- A trigger merges into the pending one (R145). -/
def mergeTrigger (pending : Option RunKind) (kind : RunKind) : RunKind :=
  match pending with
  | some .roundCompleting => .roundCompleting
  | some .ordinary => kind
  | none => kind

/-- A routine trigger is taken at once in IDLE and waits in every other state (R144, R145). -/
def routineTrigger (kind : RunKind) (p : Part) : Part :=
  match p.scan.mode with
  | .idle => startRun kind p
  | .routineRun | .eventRun _ | .calibrating _ _ =>
    p.setScan { p.scan with pending := some (mergeTrigger p.scan.pending kind) }

/-- The routine period timer's expiry is due (R144). -/
def routineDue (p : Part) : Bool := p.cfg.num .routinePeriod ≤ p.since p.scan.periodMark

/-- The routine period timer expires and runs on from that multiple of its period (R144). -/
def routineExpires (p : Part) : Part :=
  routineTrigger .ordinary (p.setScan { p.scan with
    periodMark := p.scan.periodMark + BitVec.ofNat 32 (p.cfg.num .routinePeriod) })

/-- The settlement timer's expiry is due (R202). -/
def settlementDue (p : Part) : Bool := Config.settlementPeriod ≤ p.since p.time.settleMark

/-- A settlement's beginning arrives; one that arrives while another waits merges into it (R1). -/
def arriveBeginning (senseHeld : Bool) (p : Part) : Part :=
  match p.account.beginning with
  | some _ => p
  | none => p.setAccount { p.account with beginning := some senseHeld }

/-- What the scanner does at a settlement timer expiry (the table of R142). A routine run in flight stays
in `run`, suspended at its entry (R143). -/
def eventTrigger (p : Part) : Part :=
  match p.scan.mode with
  | .idle => setMode (.eventRun p.cfg.eventGroup) p
  | .routineRun => setMode (.eventRun p.cfg.eventGroup) p
  | .eventRun _ => p
  | .calibrating _ _ => arriveBeginning true p

/-- The settlement timer expires and runs on from that multiple of 10 ms (R142, R202). -/
def settlementExpires (p : Part) : Part :=
  eventTrigger (p.setTime { p.time with
    settleMark := p.time.settleMark + BitVec.ofNat 32 Config.settlementPeriod })

/-- A channel's result is replaced (R140). -/
def storeResult (ch : Channel) (raw : BitVec 12) (p : Part) : Part :=
  p.setScan { p.scan with
    results := p.scan.results.set ch ⟨senseValue ch raw p.cal.offsets[ch], raw, p.now, true⟩ }

/-- A stored result is handed on (R140): to the wear unit, whose cycle items are 3 to 6, and then to the
monitors, which can raise item 10; so the entries of one completion are appended in item order (R173). -/
def handResult (ch : Channel) (value : Int) (p : Part) : Part :=
  judgeMonitors ch (wearResult ch value p)

/-- A new result is stored and handed on (R140). -/
def newResult (ch : Channel) (raw : BitVec 12) (p : Part) : Part :=
  handResult ch (senseValue ch raw p.cal.offsets[ch]) (storeResult ch raw p)

/-- The routine position advances; past the last entry it returns to 0 and ROUND_DONE is raised (R144). -/
def advancePosition (p : Part) : Part :=
  if p.scan.position + 1 < p.cfg.routineList.length then
    p.setScan { p.scan with position := p.scan.position + 1 }
  else roundDone (p.setScan { p.scan with position := 0 })

/-- The count of a routine run falls by one; at 0 the run ends (R144). -/
def countEntry (run : RoutineRun) (p : Part) : Part :=
  if 1 < run.left then p.setScan { p.scan with run := some { run with left := run.left - 1 } }
  else takePending (p.setScan { p.scan with run := none })

/-- A routine conversion completes (R144). The position advances before the result is handed on: a ROUND_DONE of
this completion raises the lining items 0 to 2, whose entries stand first in the warning list (R173;
notes/assumptions/13.md). -/
def routineConversion (raw : BitVec 12) (p : Part) : Part :=
  match p.scan.run, p.cfg.routineList[p.scan.position]? with
  | some run, some ch =>
    countEntry run (handResult ch (senseValue ch raw p.cal.offsets[ch])
      (advancePosition (storeResult ch raw p)))
  | _, _ => p

/-- A conversion completes (R140, R142, R144); while CALIBRATING it is a reference conversion (R149). With
no conversion in flight nothing completes. -/
def conversionCompletes (raw : BitVec 12) (p : Part) : Part :=
  match p.scan.mode with
  | .idle => p
  | .routineRun => routineConversion raw p
  | .eventRun [] => p
  | .eventRun (ch :: rest) =>
    let q := newResult ch raw p
    if rest = [] then afterEventRun (arriveBeginning false q) else setMode (.eventRun rest) q
  | .calibrating start codes =>
    if codes.length < Config.referenceConversions then
      setMode (.calibrating start (codes ++ [raw])) p
    else p

/-! ### Calibration -/

/-- CALIBRATE on the service port (the table of R148). -/
def calibrate (p : Part) : Answered :=
  if !standing p then refuse .notStanding p
  else if p.scan.calWaiting then refuse .busy p
  else match p.scan.mode with
    | .calibrating _ _ => refuse .busy p
    | .idle => accept (enterCalibrating p)
    | .routineRun => accept (enterCalibrating p)
    | .eventRun _ => accept (p.setScan { p.scan with calWaiting := true })

/-- A channel's new offset: the sum of its sixteen reference codes / 16, minus 2048 (R149). -/
def newOffset (codes : List (BitVec 12)) (ch : Channel) : Int :=
  ((((codes.drop (16 * ch.val)).take 16).foldl (fun n c => n + c.toNat) 0 / 16 : Nat) : Int) - 2048

/-- An offset within −200..200 (R149). -/
def offsetOk (z : Int) : Bool := -200 ≤ z && z ≤ 200

/-- The offset record after a calibration's end (R149). -/
def calibrationResult (codes : List (BitVec 12)) (cal : Calibration) : Calibration :=
  match (List.finRange 22).find? fun ch => !offsetOk (newOffset codes ch) with
  | none => ⟨Vector.ofFn (newOffset codes), .done, none⟩
  | some ch => { cal with outcome := .failed, failedChannel := some ch }

/-- The calibration's end is due: 40 ms since its entry and all its reference conversions made (R149). -/
def calibrationDue (p : Part) : Bool :=
  match p.scan.mode with
  | .calibrating start codes =>
    Config.calibrationLength ≤ p.since start && codes.length = Config.referenceConversions
  | .idle | .routineRun | .eventRun _ => false

/-- The calibration ends: calibration waiting is clear and the scanner takes its next step (R149). -/
def calibrationEnds (p : Part) : Part :=
  match p.scan.mode with
  | .calibrating _ codes =>
    resumeOrTake ((p.setCal (calibrationResult codes p.cal)).setScan { p.scan with calWaiting := false })
  | .idle | .routineRun | .eventRun _ => p

/-- The offset record after an abandoned calibration: no offset replaced (R150). -/
def abandonedCal (cal : Calibration) : Calibration :=
  { cal with outcome := .abandoned, failedChannel := none }

/-- The vehicle ceases to stand: a calibration in progress is abandoned, and the scanner takes its next step as at
an ordinary end (`calibrationEnds`); a waiting one is abandoned before it begins (R150). -/
def ceaseStanding (p : Part) : Part :=
  match p.scan.mode with
  | .calibrating _ _ =>
    resumeOrTake ((p.setCal (abandonedCal p.cal)).setScan { p.scan with calWaiting := false })
  | .idle | .routineRun | .eventRun _ =>
    if p.scan.calWaiting then
      (p.setScan { p.scan with calWaiting := false }).setCal (abandonedCal p.cal)
    else p

/-- An accepted write of routine_list: any routine run ends, the position becomes 0, and a pending trigger
is taken at once when the state is then IDLE (R147). -/
def replaceRoutineList (l : List Channel) (p : Part) : Part :=
  let q := (p.setCfg { p.cfg with routineList := l }).setScan { p.scan with run := none, position := 0 }
  match p.scan.mode with
  | .routineRun => takePending q
  | .idle | .eventRun _ | .calibrating _ _ => q

end Sys2Proof.Machine
end

