-- ==== Sys2Proof/Machine/Sequencer.lean ====
section
/-! DEFINITION. The generator sequencer: the entries into the link states, the reports (R112, R114 to R119),
failure and lockout (R120 to R122), the hold start request (R106) and the decisions at "account settled"
(R113, R116, R117). -/

namespace Sys2Proof.Machine

/-- The request a link state sends in GEN_COMMAND (the table of section 5.5, R111). -/
def linkRequest : LinkState → GenRequest
  | .awaiting | .run | .unloading => .run
  | .startSent | .cranking | .settling => .start
  | .off | .stopSent | .failed | .lockedOut => .stop

/-- A sequencer timer started now with its configured length (R123). -/
def genTimer (name : GenTimerName) (item : NumItem) (p : Part) : Option GenTimer :=
  some ⟨name, p.now, p.cfg.num item⟩

/-- The sequencer in a link state with a timer. -/
def setGenLink (link : LinkState) (timer : Option GenTimer) (p : Part) : Part :=
  p.setGen { p.gen with link := link, timer := timer }

/-- The part with or without a hold start request. -/
def setStartRequest (b : Bool) (p : Part) : Part := p.setGen { p.gen with startRequest := b }

/-- START_SENT, with the start timer started (R114). -/
def enterStartSent (p : Part) : Part :=
  setGenLink .startSent (genTimer .startTimeout .startTimeout p) p

/-- The sequencer acts on a hold start request in the link state it stands in (the table of R106). -/
def actOnRequest (p : Part) : Part :=
  if p.gen.startRequest then
    match p.gen.link with
    | .off => setStartRequest false (enterStartSent p)
    | .startSent | .cranking | .settling | .run => setStartRequest false p
    | .lockedOut => setStartRequest false p
    | .awaiting | .unloading | .stopSent | .failed => p
  else p

/-- OFF, with no timer; a waiting hold start request turns it to START_SENT (R106, R119). -/
def enterOff (p : Part) : Part := actOnRequest (setGenLink .off none p)

/-- CRANKING from START_SENT: the start timer runs on, and one start is counted (R114, R165). -/
def enterCranking (p : Part) : Part :=
  countOne 8 (actOnRequest (setGenLink .cranking p.gen.timer p))

/-- CRANKING from the first report: the start timer starts, and one start is counted (R112, R165). -/
def enterCrankingFirst (p : Part) : Part :=
  countOne 8 (actOnRequest (setGenLink .cranking (genTimer .startTimeout .startTimeout p) p))

/-- SETTLING, with the settle timer started (R115). -/
def enterSettling (p : Part) : Part :=
  actOnRequest (setGenLink .settling (genTimer .genSettle .genSettle p) p)

/-- RUN from SETTLING: the consecutive-failure count becomes 0 (R115, R120). -/
def enterRun (p : Part) : Part :=
  actOnRequest (p.setGen { p.gen with link := .run, timer := none, failures := 0 })

/-- UNLOADING (R116, R101). -/
def enterUnloading (p : Part) : Part := setGenLink .unloading none p

/-- STOP_SENT, with the stop timer started (R119). -/
def enterStopSent (p : Part) : Part :=
  setGenLink .stopSent (genTimer .stopTimeout .stopTimeout p) p

/-- FAILED (R120): GENSET_FAULT, the count unless uncounted, then LOCKED_OUT at the third count with any
hold start request discarded, or the retry timer. -/
def enterFailed (counted : Bool) (p : Part) : Part :=
  let failures := if counted then p.gen.failures + 1 else p.gen.failures
  let q := setEvent .gensetFault p
  if failures = 3 then
    q.setGen { q.gen with link := .lockedOut, failures := failures, startRequest := false, timer := none }
  else
    q.setGen { q.gen with
      link := .failed, failures := failures, timer := genTimer .retryDelay .retryDelay q }

/-- The hold controller is in a quiet hold. -/
def quietHold (p : Part) : Bool := p.hold.state = .holdQuiet || p.hold.state = .layover

/-- The first report after a run reset gives the link its state (R112). -/
def firstReport (r : EngineReport) (p : Part) : Part :=
  match r with
  | .stopped => enterOff p
  | .cranking => if effQuietZone p || quietHold p then enterStopSent p else enterCrankingFirst p
  | .running => if effQuietZone p || quietHold p then enterStopSent p else enterSettling p
  | .fault => enterFailed false p

/-- A report moves the link as its state requires (R112, R114 to R117, R119 to R121). -/
def judgeReport (r : EngineReport) (p : Part) : Part :=
  match p.gen.link, r with
  | .awaiting, r => firstReport r p
  | .off, .fault => enterFailed true p
  | .off, _ => p
  | .startSent, .cranking => enterCranking p
  | .startSent, .running => enterSettling p
  | .startSent, _ => enterFailed true p
  | .cranking, .running => enterSettling p
  | .cranking, .cranking => p
  | .cranking, _ => enterFailed true p
  | .settling, .running => p
  | .settling, _ => enterFailed true p
  | .run, .running => p
  | .run, _ => enterFailed true p
  | .unloading, .running => p
  | .unloading, _ => enterFailed true p
  | .stopSent, .stopped => enterOff p
  | .stopSent, .fault => enterFailed true p
  | .stopSent, _ => p
  | .failed, _ => p
  | .lockedOut, _ => p

/-- A GEN_STATUS arrival hands its report to the sequencer (R30, R111). -/
def receiveReport (r : EngineReport) (p : Part) : Part :=
  judgeReport r (p.setGen { p.gen with lastReport := some r })

/-- The generator partner's entry into LOST (R122). -/
def generatorLost (p : Part) : Part :=
  match p.gen.link with
  | .failed | .lockedOut => p
  | .awaiting | .off | .startSent | .cranking | .settling | .run | .unloading | .stopSent =>
    enterFailed false p

/-- The quiet zone comes on (the table of R118). -/
def quietZoneStop (p : Part) : Part :=
  match p.gen.link with
  | .run | .unloading | .startSent | .cranking | .settling => enterStopSent p
  | .awaiting | .off | .stopSent | .failed | .lockedOut => p

/-- The sequencer's running timer, if it has the name and its interval has elapsed. -/
def genTimerDue (name : GenTimerName) (p : Part) : Bool :=
  match p.gen.timer with
  | some t => t.name = name && t.length ≤ p.since t.start
  | none => false

/-- The start timer's expiry is due (R114). -/
def startTimeoutDue (p : Part) : Bool :=
  (p.gen.link = .startSent || p.gen.link = .cranking) && genTimerDue .startTimeout p

/-- The settle timer's expiry is due (R115). -/
def genSettleDue (p : Part) : Bool := p.gen.link = .settling && genTimerDue .genSettle p

/-- The stop timer's expiry is due (R119). -/
def stopTimeoutDue (p : Part) : Bool := p.gen.link = .stopSent && genTimerDue .stopTimeout p

/-- The retry timer's expiry is due (R120). -/
def retryDue (p : Part) : Bool := p.gen.link = .failed && genTimerDue .retryDelay p

/-- The start decision of R113 on a settled record's values. -/
def startDecided (r : AccountRecord) (w : Working) (p : Part) : Bool :=
  !effQuietZone p && (p.hold.state = .drive || p.hold.state = .holdRun) &&
    (w.soc < p.cfg.num .socStart || w.pDisEff < w.pReq + r.x)

/-- The stop decision of R116 on a settled record's values. -/
def stopDecided (r : AccountRecord) (w : Working) (p : Part) : Bool :=
  p.cfg.num .socStop ≤ w.soc && r.t + r.x < w.pDisEff / 2

/-- The sequencer's decisions and transitions at "account settled" (R113, R116, R117). -/
def sequencerSettled (r : AccountRecord) (w : Working) (p : Part) : Part :=
  match p.gen.link with
  | .off => if startDecided r w p then enterStartSent p else p
  | .run => if stopDecided r w p then enterUnloading p else p
  | .unloading => if r.g = 0 then enterStopSent p else p
  | .awaiting | .startSent | .cranking | .settling | .stopSent | .failed | .lockedOut => p

/-- CLEAR_LOCKOUT (R121). -/
def clearLockout (p : Part) : Answered :=
  if p.gen.link = .lockedOut then accept (enterOff (p.setGen { p.gen with failures := 0 }))
  else accept (p.setGen { p.gen with failures := 0 })

end Sys2Proof.Machine
end

