-- ==== Sys2Proof/Machine/HoldControl.lean ====
section
/-! DEFINITION. The hold controller: entry and choice (R99 to R101), the moves inside the holds (R102 to
R106), the breaks (R107, R108) and the timers (R103, R104, R109). -/

namespace Sys2Proof.Machine

/-- Every change of hold state (R98, R108): entry stamp, rule, timers and latch; a hold start request is
cleared when HOLD_RUN is left (R106); HOLD_CHANGE is set, and the arbiter evaluates the HOLD flag. -/
def changeHold (new : HoldState) (rule : Option Nat) (p : Part) : Part :=
  let quiet := new = .holdQuiet || new = .layover
  let h : Hold :=
    { state := new
      entered := p.now
      rule := rule
      latch := p.hold.latch && quiet
      promotion := new = .holdQuiet && p.cfg.on .deepPromotion
      layover := new = .layover }
  let keep := p.gen.startRequest && new = .holdRun
  evalSource .hold (setEvent .holdChange (setStartRequest keep (p.setHold h)))

/-- A return to DRIVE; in DRIVE the break events have no effect (R108). -/
def breakHold (p : Part) : Part :=
  if p.hold.state = .drive then p else changeHold .drive none p

/-- A move to HOLD_RUN with a hold start request (R104, R105, R106). -/
def holdRunWithStart (p : Part) : Part :=
  actOnRequest (setStartRequest true (changeHold .holdRun none p))

/-- X of the current account record, or 0 when there is none (R100). -/
def recordX (p : Part) : Nat :=
  match p.account.current with
  | some (r, _) => r.x
  | none => 0

/-- The number of the choice rule of R100 that applies. -/
def choiceRule (p : Part) : Nat :=
  if effQuietZone p then 1
  else if p.wear[8].level = .limit && p.gen.link = .run then 2
  else if p.gen.link = .off || p.gen.link = .failed || p.gen.link = .lockedOut then 3
  else if p.cfg.num .socHold ≤ effSoc p && recordX p ≤ p.cfg.num .auxQuietMax then 4
  else 5

/-- The hold state a choice rule gives; HOLD_QUIET becomes LAYOVER with the layover-request flag (R100). -/
def chosenState (rule : Nat) (layoverRequest : Bool) : HoldState :=
  if rule = 2 || rule = 5 then .holdRun
  else if layoverRequest then .layover
  else .holdQuiet

/-- The DUMP request set by the hold controller; a settlement in progress leaves it to the next (R19). -/
def requestDump (p : Part) : Part :=
  p.setAccount { p.account with
    dump := true
    settling := p.account.settling.map fun s => { s with dumpAgain := true } }

/-- What an entry into HOLD_QUIET or LAYOVER does to the generator link (the table of R101). -/
def quietEntryLink (p : Part) : Part :=
  match p.gen.link with
  | .run => if effQuietZone p then p else requestDump (enterUnloading p)
  | .unloading => enterStopSent p
  | .startSent | .cranking | .settling => enterStopSent p
  | .awaiting | .off | .stopSent | .failed | .lockedOut => p

/-- The conditions of a hold entry (R99), the frame already in the image. -/
def entryConditions (p : Part) : Bool :=
  p.hold.state = .drive && p.image.drive.data.holdRequest && p.fresh .drive = .fresh &&
    effV p < Config.standingSpeed && effPedal p < p.cfg.num .breakPedal

/-- The entry into a hold (R100, R101): the state chosen, the routine trigger of R146 while the stop
trigger is on, and the action on the link. -/
def enterHold (p : Part) : Part :=
  let rule := choiceRule p
  let state := chosenState rule p.image.drive.data.layoverRequest
  let q := changeHold state (some rule) p
  let q := if p.cfg.on .stopTrigger then routineTrigger .roundCompleting q else q
  if state = .holdRun then q else quietEntryLink q

/-- The three break events of a DRIVE_STATUS arrival (R107): `before` is what was stored. -/
def breakEvent (before : DriveData) (p : Part) : Bool :=
  p.cfg.num .breakPedal ≤ effPedal p || !p.image.drive.data.holdRequest ||
    effDirection p ≠ before.direction

/-- The layover timer's interval has elapsed since the entry stamp (R104). -/
def layoverElapsed (p : Part) : Bool := 1000 * p.cfg.num .layoverMax ≤ p.since p.hold.entered

/-- The promotion timer's interval has elapsed since the entry stamp (R103). -/
def promotionElapsed (p : Part) : Bool := 1000 * p.cfg.num .layoverAfter ≤ p.since p.hold.entered

/-- A DRIVE_STATUS arrival in HOLD_RUN that sets the quiet zone (R102). -/
def holdRunArrival (before : DriveData) (p : Part) : Part :=
  if !before.quietZone && effQuietZone p then
    changeHold (if p.image.drive.data.layoverRequest then .layover else .holdQuiet) (some 1) p
  else p

/-- A DRIVE_STATUS arrival in HOLD_QUIET with the layover-request flag (R103). -/
def holdQuietArrival (p : Part) : Part :=
  if p.image.drive.data.layoverRequest then changeHold .layover p.hold.rule p else p

/-- A DRIVE_STATUS arrival in LAYOVER (R104): an overdue layover whose quiet zone clears, then a withdrawn
layover request. -/
def layoverArrival (before : DriveData) (p : Part) : Part :=
  if before.quietZone && !effQuietZone p && layoverElapsed p then holdRunWithStart p
  else if before.layoverRequest && !p.image.drive.data.layoverRequest then
    changeHold .holdQuiet p.hold.rule p
  else p

/-- The hold controller judges a DRIVE_STATUS arrival (R99, R102 to R104, R107). -/
def holdArrival (before : DriveData) (p : Part) : Part :=
  match p.hold.state with
  | .drive => if entryConditions p then enterHold p else p
  | .holdRun => if breakEvent before p then breakHold p else holdRunArrival before p
  | .holdQuiet => if breakEvent before p then breakHold p else holdQuietArrival p
  | .layover => if breakEvent before p then breakHold p else layoverArrival before p

/-- A BRAKE_STATUS whose effective v01 is 5 or more ends a hold and sets HOLD_ROLL (R108). -/
def holdRoll (p : Part) : Part :=
  if p.hold.state ≠ .drive && Config.standingSpeed ≤ effV p then breakHold (setEvent .holdRoll p) else p

/-- The promotion timer's expiry is due (R103). -/
def promotionDue (p : Part) : Bool := p.hold.promotion && promotionElapsed p

/-- The layover timer's expiry is due (R104). -/
def layoverDue (p : Part) : Bool := p.hold.layover && layoverElapsed p

/-- HOLD_QUIET becomes LAYOVER, the entry rule kept (R103). -/
def promote (p : Part) : Part := changeHold .layover p.hold.rule p

/-- The layover timer expires: HOLD_RUN with a hold start request, or in a quiet zone the state stays and
the timer has stopped (R104). That it stays stopped when a later write lengthens layover_max past the elapsed
time is the model's choice (R109; notes/assumptions/15.md). -/
def layoverExpires (p : Part) : Part :=
  if effQuietZone p then p.setHold { p.hold with layover := false } else holdRunWithStart p

/-- A hold timer whose expiry is due after a CONFIG_WRITE expires at the write (R109). -/
def expireHoldTimers (p : Part) : Part :=
  if promotionDue p then promote p else if layoverDue p then layoverExpires p else p

/-- A write of deep_promotion starts or stops the promotion timer in HOLD_QUIET (R109). -/
def deepPromotionWritten (p : Part) : Part :=
  expireHoldTimers
    (p.setHold { p.hold with promotion := p.hold.state = .holdQuiet && p.cfg.on .deepPromotion })

/-- The SoC floor at "account settled", with the SoC the settlement took (R105). -/
def socFloorJudged (soc : Nat) (p : Part) : Part :=
  if !quietHold p then p
  else if soc < p.cfg.num .socFloor then
    if effQuietZone p then
      if p.hold.latch then p else setEvent .socLowQuiet (p.setHold { p.hold with latch := true })
    else holdRunWithStart p
  else p.setHold { p.hold with latch := false }

/-- The drive partner's entry into STALE or LOST: the TRACTION flag, and the break of a hold (R36, R108). -/
def driveSilent (p : Part) : Part := breakHold (evalSource .traction p)

/-! ### Freshness changes handed on -/

/-- What follows a partner's entry into STALE (R34, R36, R39, R40, R43). -/
def handStale (partner : Partner) (p : Part) : Part :=
  match partner with
  | .drive => driveSilent p
  | .storage => p
  | .generator => p
  | .brake => evalSource .limp (evalSource .blend (evalSource .slip p))

/-- What follows a partner's entry into LOST (R34, R36, R38 to R40, R43, R122). -/
def handLost (partner : Partner) (p : Part) : Part :=
  match partner with
  | .drive => driveSilent p
  | .storage => p
  | .generator => generatorLost p
  | .brake => evalSource .limp (evalSource .blend (evalSource .slip p))

/-- The part with another freshness of one partner. -/
def setFreshness (partner : Partner) (f : Freshness) (p : Part) : Part :=
  p.setImage (p.image.setFreshness partner f)

/-- A partner becomes STALE (R34). -/
def becomeStale (partner : Partner) (p : Part) : Part :=
  handStale partner (setFreshness partner .stale p)

/-- A partner becomes LOST (R34). -/
def becomeLost (partner : Partner) (p : Part) : Part :=
  handLost partner (setFreshness partner .lost p)

/-- A written freshness limit applies to the timer already running: STALE and then LOST are entered at the
write when they are due (R35). -/
def freshnessLimitWritten (partner : Partner) (p : Part) : Part :=
  let q := if staleDue partner p then becomeStale partner p else p
  if lostDue partner q then becomeLost partner q else q

/-- A partner still NEVER at the start window's expiry becomes LOST (R205). -/
def lostIfNever (partner : Partner) (p : Part) : Part :=
  if p.fresh partner = .never then becomeLost partner p else p

/-- The start window's expiry is due (R205). -/
def startWindowDue (p : Part) : Bool :=
  p.partState = .starting && Config.startWindow ≤ elapsed p.now 0#32

/-- The start window expires: partners still NEVER become LOST, and the part becomes READY (R205). -/
def startWindowExpires (p : Part) : Part :=
  (lostIfNever .brake (lostIfNever .generator (lostIfNever .storage (lostIfNever .drive p)))).setPartState
    .ready

end Sys2Proof.Machine
end

