-- ==== Sys2Proof/Machine/Blend.lean ====
section
/-! DEFINITION. The blend engine: the pass and its operators (R83 to R89), the selection of a slot (R77), the
loading of programs (R75, R76, R78 to R81), and the episode's start and end (R68 to R70). -/

namespace Sys2Proof.Machine

/-! ### The pass -/

/-- The four working values of a pass (R83). -/
structure PassValues where
  rem : Nat
  reg : Nat
  fri : Nat
  cap : Nat
  deriving DecidableEq, Repr

/-- What a pass reads besides its working values (R83, R88). -/
structure PassInputs where
  v : Nat
  regPrev : Nat
  slip : Bool
  worn : Bool
  hot : Bool
  full : Bool
  deriving DecidableEq, Repr

/-- `x` moved from REM to FRI. -/
def PassValues.toFriction (w : PassValues) (x : Nat) : PassValues :=
  { w with rem := w.rem - x, fri := w.fri + x }

/-- `x` moved from REM to REG. -/
def PassValues.toRegen (w : PassValues) (x : Nat) : PassValues :=
  { w with rem := w.rem - x, reg := w.reg + x }

/-- What a TAKE places (R85). -/
def takeAmount (m : Nat) (w : PassValues) : Nat :=
  if m = 255 then min w.rem (w.cap - w.reg) else min w.rem (min (w.cap - w.reg) m)

/-- The ceiling after a FADE (R86). -/
def fadeCap (m v cap : Nat) : Nat := if v < 10 * m then cap * v / (10 * m) else cap

/-- The effect of one step on the working values (R84 to R88). -/
def stepEffect (i : PassInputs) (s : BlendStep) (w : PassValues) : PassValues :=
  match s.op with
  | .floor => w.toFriction (min w.rem s.modifier)
  | .take => w.toRegen (takeAmount s.modifier w)
  | .scale => { w with cap := w.cap * s.modifier / 128 }
  | .fade => { w with cap := fadeCap s.modifier i.v w.cap }
  | .step =>
    if i.regPrev + s.modifier < w.reg then
      { w with rem := w.rem + (w.reg - (i.regPrev + s.modifier)), reg := i.regPrev + s.modifier }
    else w
  | .skipSlip | .skipWorn | .skipHot | .skipFull => w
  | .rest => w.toFriction w.rem

/-- The steps a step skips after itself (R88). -/
def stepSkips (i : PassInputs) (s : BlendStep) : Nat :=
  match s.op with
  | .skipSlip => if i.slip then s.modifier else 0
  | .skipWorn => if i.worn then s.modifier else 0
  | .skipHot => if i.hot then s.modifier else 0
  | .skipFull => if i.full then s.modifier else 0
  | .floor | .take | .scale | .fade | .step | .rest => 0

/-- The steps of a program from the first; `skip` steps are passed over first. The pass ends after the step
with the last flag, or when the steps run out (R88, R89). It gives the values and the number of steps run. -/
def runSteps (i : PassInputs) : List BlendStep → Nat → PassValues → Nat → PassValues × Nat
  | [], _, w, n => (w, n)
  | _ :: rest, skip + 1, w, n => runSteps i rest skip w n
  | s :: rest, 0, w, n =>
    if s.last then (stepEffect i s w, n + 1)
    else runSteps i rest (stepSkips i s) (stepEffect i s w) (n + 1)

/-- The outcome of a pass: REG, FRI and the steps run (R89). -/
structure PassResult where
  reg : Nat
  fri : Nat
  steps : Nat
  deriving DecidableEq, Repr

/-- A pass over a program, with the implicit REST at its end (R83, R89). -/
def runPass (i : PassInputs) (program : List BlendStep) (aDem aCap : Nat) : PassResult :=
  let (w, n) := runSteps i program 0 ⟨aDem, 0, 0, aCap⟩ 0
  ⟨w.reg, w.fri + w.rem, n⟩

/-! ### Selecting a slot -/

/-- A lining level that counts as worn: WARN, LIMIT or UNKNOWN (R77). -/
def wornLevel (l : Level) : Bool := l ≠ .ok

/-- The levels of the three lining items. -/
def liningLevels (p : Part) : PerAxle Level := ⟨p.wear[0].level, p.wear[1].level, p.wear[2].level⟩

/-- Any lining item is worn (R77, R88). -/
def anyWorn (l : PerAxle Level) : Bool := wornLevel l.axle1 || wornLevel l.axle2 || wornLevel l.axle3

/-- The slot a pass selects (R77). -/
def selectSlot (lowAdhesion full worn : Bool) : SlotNo :=
  if lowAdhesion then 1
  else if full then 3
  else if worn then 2
  else 0

/-! ### Loading -/

/-- An operator code (R194). -/
def opOf (code : Nat) : Option BlendOp :=
  match code with
  | 0 => some .floor
  | 1 => some .take
  | 2 => some .scale
  | 3 => some .fade
  | 4 => some .step
  | 5 => some .skipSlip
  | 6 => some .skipWorn
  | 7 => some .skipHot
  | 8 => some .skipFull
  | 9 => some .rest
  | _ => none

/-- The modifiers an operator accepts (the table of R76). -/
def modifierOk (op : BlendOp) (m : Nat) : Bool :=
  match op with
  | .floor => m ≤ 255
  | .take => m ≤ 255
  | .scale => m ≤ 128
  | .fade => 1 ≤ m && m ≤ 80
  | .step => 1 ≤ m && m ≤ 255
  | .skipSlip => 1 ≤ m && m ≤ 15
  | .skipWorn => 1 ≤ m && m ≤ 15
  | .skipHot => 1 ≤ m && m ≤ 15
  | .skipFull => 1 ≤ m && m ≤ 15
  | .rest => m = 0

/-- A step from its two bytes; none when the operator code or the modifier is refused (R80, R194). -/
def stepOf (b : Byte × Byte) : Option BlendStep :=
  match opOf (b.1.toNat % 16) with
  | none => none
  | some op =>
    if modifierOk op b.2.toNat then some ⟨op, b.2.toNat, b.1.getLsbD 7⟩ else none

/-- The steps of a LOAD_BLEND frame; none when any of them is refused (R80). -/
def stepsOf : List (Byte × Byte) → Option (List BlendStep)
  | [] => some []
  | b :: rest =>
    match stepOf b, stepsOf rest with
    | some s, some l => some (s :: l)
    | _, _ => none

/-- No step but the final one carries the last flag (R80). -/
def lastFlagsOk : List BlendStep → Bool
  | [] => true
  | [_] => true
  | s :: rest => !s.last && lastFlagsOk rest

/-- The final step carries the last flag. -/
def endsLast (l : List BlendStep) : Bool :=
  match l.getLast? with
  | some s => s.last
  | none => false

/-- The load assembly of a port (R78); only the brake port and the service port have one. -/
def assemblyOf (port : Port) (b : BlendEngine) : Option Assembly :=
  match port with
  | .pb => b.assemblyPB
  | .sv => b.assemblySV
  | .pd | .ps | .pg => none

/-- Another load assembly of a port. -/
def setAssembly (port : Port) (a : Option Assembly) (p : Part) : Part :=
  match port with
  | .pb => p.setBlend { p.blend with assemblyPB := a }
  | .sv => p.setBlend { p.blend with assemblySV := a }
  | .pd | .ps | .pg => p

/-- The slot after a completed program is taken into it (R81). -/
def loadedSlot (episode : Bool) (program : List BlendStep) (s : Slot) : Slot :=
  if episode then { s with pending := some program } else ⟨program, none⟩

/-- A completed program is taken into its slot (R81). -/
def takeProgram (slot : SlotNo) (program : List BlendStep) (p : Part) : Part :=
  p.setSlots (p.slots.set slot (loadedSlot p.blend.episode program p.slots[slot]))

/-- A slot number as a request names it. -/
def slotOf (b : Byte) : Option SlotNo := if h : b.toNat < 4 then some ⟨b.toNat, h⟩ else none

/-- A refused LOAD_BLEND discards the assembly open on its port (R80). -/
def refuseLoad (port : Port) (p : Part) : Answered := refuse .range (setAssembly port none p)

/-- A first part (R78): a complete program, an assembly of eight steps, or a refusal. -/
def loadFirst (port : Port) (slot : SlotNo) (steps : List BlendStep) (p : Part) : Answered :=
  if endsLast steps then accept (takeProgram slot steps (setAssembly port none p))
  else if steps.length = 8 then accept (setAssembly port (some ⟨slot, steps⟩) p)
  else refuseLoad port p

/-- A continuation (R79): it completes the assembly open on its port for its slot, or is refused. -/
def loadNext (port : Port) (slot : SlotNo) (steps : List BlendStep) (p : Part) : Answered :=
  match assemblyOf port p.blend with
  | none => refuseLoad port p
  | some a =>
    if a.slot = slot && endsLast steps then
      accept (takeProgram slot (a.steps ++ steps) (setAssembly port none p))
    else refuseLoad port p

/-- LOAD_BLEND (R78 to R81). -/
def loadBlend (port : Port) (slot first : Byte) (steps : List (Byte × Byte)) (p : Part) : Answered :=
  match slotOf slot, stepsOf steps with
  | some k, some l =>
    if !lastFlagsOk l then refuseLoad port p
    else match first.toNat with
      | 1 => loadFirst port k l p
      | 9 => loadNext port k l p
      | _ => refuseLoad port p
  | _, _ => refuseLoad port p

/-! ### The episode -/

/-- A slot after an episode start: a pending program becomes the active one (R69). -/
def promotedSlot (s : Slot) : Slot :=
  match s.pending with
  | some program => ⟨program, none⟩
  | none => s

/-- Any slot holds a pending program (R69). -/
def anyPending (slots : Vector Slot 4) : Bool :=
  slots[0].pending.isSome || slots[1].pending.isSome || slots[2].pending.isSome ||
    slots[3].pending.isSome

/-- Every slot's pending program promoted (R69). -/
def promotedSlots (slots : Vector Slot 4) : Vector Slot 4 :=
  #v[promotedSlot slots[0], promotedSlot slots[1], promotedSlot slots[2], promotedSlot slots[3]]

/-- An episode start (R69): ACTIVE, the pending programs promoted, PROGRAM_PROMOTED; the change is handed to
the arbiter (R68), and the vehicle ceases to stand (R150). -/
def episodeStart (p : Part) : Part :=
  let q := p.setBlend { p.blend with episode := true }
  let q := setEventIf (anyPending p.slots) .programPromoted (q.setSlots (promotedSlots p.slots))
  ceaseStanding (evalSource .blend q)

/-- An episode end (R70): NONE, handed to the arbiter. -/
def episodeEnd (p : Part) : Part :=
  evalSource .blend (p.setBlend { p.blend with episode := false })

/-- Stage 4 judges the episode from the a_dem the settlement took (R68). -/
def judgeEpisode (aDem : Nat) (p : Part) : Part :=
  if p.blend.episode then (if aDem = 0 then episodeEnd p else p)
  else (if aDem = 0 then p else episodeStart p)

end Sys2Proof.Machine
end

