-- ==== Sys2Proof/Machine/Settlement.lean ====
section
/-! DEFINITION. A settlement: its inputs (R2, R4), its stages 0 to 7 (R5 to R18), the record (R20), and the
beginning that runs them (R1, R2). -/

namespace Sys2Proof.Machine

/-- The configured items a settlement reads at its beginning. -/
structure SettleItems where
  pTracMax : Nat
  pRevMax : Nat
  tLim : PerMotor Nat
  nFloor : Nat
  vMinRegen : Nat
  resistorRegen : Bool
  socLow : Nat
  socHigh : Nat
  reserveOffset : Nat
  chgBias : Nat
  genRamp : Nat
  qMax : Nat
  deriving DecidableEq, Repr

/-- What a settlement takes of one motor (R4). -/
structure MotorInputs where
  n : Nat
  tMot : Nat
  tGen : Nat
  inService : Bool
  deriving DecidableEq, Repr

/-- What a settlement takes at its beginning (R2, R4). -/
structure SettleInputs where
  base : Option Source
  governing : Option Source
  hold : HoldState
  link : LinkState
  pedal : Nat
  aDem : Nat
  direction : Direction
  reserve : Bool
  quietZone : Bool
  soc : Nat
  pDisLim : Nat
  pChgLim : Nat
  pGenAvail : Nat
  v : Nat
  m : Nat
  slip : PerMotor Bool
  slipCap : PerMotor Nat
  motors : PerMotor MotorInputs
  x : Nat
  factors : Factors
  resistorInhibited : Bool
  dump : Bool
  gPrev : Nat
  items : SettleItems
  /-- The program the pass runs, after any promotion (R69, R77). -/
  program : List BlendStep
  /-- What the pass reads (R77, R83). -/
  pass : PassInputs
  deriving DecidableEq, Repr

/-! ### Stage 0 and stage 1 -/

/-- soc_low as this settlement uses it (R6). -/
def SettleInputs.socLow (i : SettleInputs) : Nat :=
  if i.reserve then min (i.items.socLow + i.items.reserveOffset) 1000 else i.items.socLow

/-- soc_high as this settlement uses it (R6). -/
def SettleInputs.socHigh (i : SettleInputs) : Nat :=
  if i.reserve then min (i.items.socHigh + i.items.reserveOffset) 1000 else i.items.socHigh

/-- The brake episode is ACTIVE in this settlement (R4). -/
def SettleInputs.episode (i : SettleInputs) : Bool := i.aDem ≠ 0

/-- P_dis_eff (R7). -/
def SettleInputs.pDisEff (i : SettleInputs) : Nat := i.pDisLim * i.factors.dBat / 1000

/-- P_chg_eff (R7). -/
def SettleInputs.pChgEff (i : SettleInputs) : Nat := i.pChgLim

/-- P_gen_eff (R7). -/
def SettleInputs.pGenEff (i : SettleInputs) : Nat :=
  if (i.link = .run || i.link = .unloading) && !i.quietZone then i.pGenAvail else 0

/-- Q_avail (R7). -/
def SettleInputs.qAvail (i : SettleInputs) : Nat := if i.resistorInhibited then 0 else i.items.qMax

/-- The set-point is to be dropped at once (R8). -/
def SettleInputs.dropped (i : SettleInputs) : Bool := i.dump || i.base = some .safeStop

/-- The set-point is to be unloaded (R8). -/
def SettleInputs.unloaded (i : SettleInputs) : Bool := i.episode || i.link = .unloading

/-- G_low (R8). -/
def SettleInputs.gLow (i : SettleInputs) : Nat := if i.dropped then 0 else i.gPrev - i.items.genRamp

/-- G_reach (R8). -/
def SettleInputs.gReach (i : SettleInputs) : Nat :=
  if i.dropped then 0
  else if i.unloaded then min i.pGenEff i.gLow
  else min i.pGenEff (i.gPrev + i.items.genRamp)

/-! ### Stages 2 and 3 -/

/-- A power from a torque and a speed: N·m × rpm × 10 / 9549 (R9). -/
def powerOf (torque speed : Nat) : Nat := torque * speed * 10 / Config.torqueConstant

/-- TL_i (R9). -/
def SettleInputs.tl (i : SettleInputs) : PerMotor Nat :=
  ⟨i.items.tLim.a * i.factors.kA / 1000, i.items.tLim.b * i.factors.kB / 1000⟩

/-- SLIP governs (R54). -/
def SettleInputs.slipGoverns (i : SettleInputs) : Bool := i.governing = some .slip

/-- The base is TRACTION or LIMP. -/
def tractive (base : Option Source) : Bool := base = some .traction || base = some .limp

/-- The motoring cap of a motor before any slip cap (R9). -/
def motoringCap (nFloor tl : Nat) (m : MotorInputs) : Nat :=
  if m.inService then powerOf (min tl m.tMot) (max m.n nFloor) else 0

/-- The generating cap of a motor (R9). -/
def generatingCap (tl : Nat) (m : MotorInputs) : Nat :=
  if m.inService then powerOf (min tl m.tGen) m.n else 0

/-- A motoring cap lowered to the slip cap of a slipping axle (R11). -/
def slippedMotoring (nFloor : Nat) (slip : Bool) (slipCap : Nat) (m : MotorInputs) (cap : Nat) : Nat :=
  if slip then min cap (powerOf slipCap (max m.n nFloor)) else cap

/-- The motoring caps as lowered by R11. -/
def SettleInputs.cm (i : SettleInputs) : PerMotor Nat :=
  let a := motoringCap i.items.nFloor i.tl.a i.motors.a
  let b := motoringCap i.items.nFloor i.tl.b i.motors.b
  if i.slipGoverns && tractive i.base then
    ⟨slippedMotoring i.items.nFloor i.slip.a i.slipCap.a i.motors.a a,
     slippedMotoring i.items.nFloor i.slip.b i.slipCap.b i.motors.b b⟩
  else ⟨a, b⟩

/-- The generating caps (R9). -/
def SettleInputs.cg (i : SettleInputs) : PerMotor Nat :=
  ⟨generatingCap i.tl.a i.motors.a, generatingCap i.tl.b i.motors.b⟩

/-- The pedal's share of the configured power (R10 step 1). -/
def SettleInputs.pedalPower (i : SettleInputs) : Nat :=
  match i.direction with
  | .forward => i.pedal * i.items.pTracMax / 1000
  | .reverse => i.pedal * i.items.pRevMax / 1000
  | .neutral => 0

/-- P_req (R10). -/
def SettleInputs.pReq (i : SettleInputs) : Nat :=
  let derated := i.pedalPower * i.factors.dTrac / 1000
  if i.base = some .limp then derated * Config.limpFactor / 1000
  else if i.base = some .traction then derated
  else 0

/-! ### Stage 4 -/

/-- R of the regeneration ceiling, before d_regen (R12 step 1). -/
def SettleInputs.ceilingRoom (i : SettleInputs) : Nat :=
  i.pChgEff + i.x + (if i.items.resistorRegen then i.qAvail else 0) - i.gLow

/-- R_eff (R12 steps 2 and 3). -/
def SettleInputs.rEff (i : SettleInputs) : Nat :=
  min (i.ceilingRoom * i.factors.dRegen / 1000) (i.cg.a + i.cg.b)

/-- The deceleration whose regenerated power does not exceed a power (R12 step 4). -/
def SettleInputs.decelOf (i : SettleInputs) (power : Nat) : Nat :=
  if i.v < i.items.vMinRegen then 0
  else min (power * Config.decelConstant / (i.m * i.v)) Config.maxDecel

/-- a_cap (R12); 0 outside an episode. -/
def SettleInputs.aCap (i : SettleInputs) : Nat := if i.episode then i.decelOf i.rEff else 0

/-- A generating cap lowered to the slip cap of a slipping axle (R13, R65). -/
def slippedGenerating (slip : Bool) (slipCap n cap : Nat) : Nat :=
  if slip then min cap (powerOf slipCap n) else cap

/-- The generating caps under a governing SLIP (R13, R65). -/
def SettleInputs.cgSlipped (i : SettleInputs) : PerMotor Nat :=
  ⟨slippedGenerating i.slip.a i.slipCap.a i.motors.a.n i.cg.a,
   slippedGenerating i.slip.b i.slipCap.b i.motors.b.n i.cg.b⟩

/-- a_slip: formed as a_cap, from the lowered generating caps (R13). -/
def SettleInputs.aSlip (i : SettleInputs) : Nat := i.decelOf (i.cgSlipped.a + i.cgSlipped.b)

/-- The blend pass of this settlement (R13, R83). -/
def SettleInputs.passResult (i : SettleInputs) : PassResult := runPass i.pass i.program i.aDem i.aCap

/-- REG_applied (R13). -/
def SettleInputs.regApplied (i : SettleInputs) : Nat :=
  if i.episode && i.base = some .blend then
    if i.slipGoverns then min i.passResult.reg i.aSlip else i.passResult.reg
  else 0

/-- Rg (R13). -/
def SettleInputs.rg (i : SettleInputs) : Nat := i.regApplied * i.m * i.v / Config.decelConstant

/-! ### Stages 5 and 6 -/

/-- The available power A (R14). -/
def SettleInputs.available (i : SettleInputs) : Nat := i.pDisEff + i.gReach - i.x

/-- The traction grant T (R14). -/
def SettleInputs.t (i : SettleInputs) : Nat :=
  if 0 < i.rg then 0 else min i.pReq (min i.available (i.cm.a + i.cm.b))

/-- The charge-sustaining weight w (R15). -/
def SettleInputs.weight (i : SettleInputs) : Nat :=
  if i.soc ≤ i.socLow then 0
  else if i.socHigh ≤ i.soc then 1000
  else (i.soc - i.socLow) * 1000 / (i.socHigh - i.socLow)

/-- The generator target of the normal case (R16 steps 1 to 3). -/
def SettleInputs.target (i : SettleInputs) : Nat :=
  let raw : Int := ((i.t + i.x : Nat) : Int) - ((i.pDisEff * i.weight / 1000 : Nat) : Int)
    + (if i.soc < i.socLow then (i.items.chgBias : Int) else 0)
  clampInt i.pGenEff raw

/-- The generator set-point G (R16). -/
def SettleInputs.g (i : SettleInputs) : Nat :=
  if i.dropped then 0
  else if i.unloaded then min i.gReach (max 0 i.gLow)
  else min i.gReach (max i.target i.gLow)

/-! ### Stage 7 -/

/-- What the sinks draw beyond the sources: net when it is not negative (R17). -/
def SettleInputs.d (i : SettleInputs) : Nat := (i.t + i.x) - (i.g + i.rg)

/-- The surplus: −net when net is negative (R18). -/
def SettleInputs.surplus (i : SettleInputs) : Nat := (i.g + i.rg) - (i.t + i.x)

/-- The resistor's share Q (R18). -/
def SettleInputs.q (i : SettleInputs) : Nat := min (i.surplus - i.pChgEff) i.qAvail

/-- The battery charge C (R18). -/
def SettleInputs.c (i : SettleInputs) : Nat := i.surplus - i.q

/-- OVERDRAW (R17). -/
def SettleInputs.overdraw (i : SettleInputs) : Bool := i.pDisEff < i.d

/-- OVERCHARGE (R18). -/
def SettleInputs.overcharge (i : SettleInputs) : Bool := i.pChgEff < i.c

/-! ### The record (stage 8) -/

/-- The account record of a settlement (R20). -/
def SettleInputs.record (i : SettleInputs) (seq : BitVec 32) (senseHeld : Bool) (stamp : Stamp) :
    AccountRecord where
  seq := seq
  t := i.t
  x := i.x
  c := i.c
  q := i.q
  d := i.d
  g := i.g
  rg := i.rg
  aDem := i.aDem
  regApplied := i.regApplied
  flags := ⟨i.overdraw, i.overcharge, senseHeld, i.episode, i.dropped⟩
  base := i.base
  governing := i.governing
  hold := i.hold
  stamp := stamp

/-- The working values of a settlement (R22). -/
def SettleInputs.working (i : SettleInputs) (lining : PerAxle Level) (volts amps : Int) : Working where
  pReq := i.pReq
  pDisEff := i.pDisEff
  pChgEff := i.pChgEff
  pGenEff := i.pGenEff
  qAvail := i.qAvail
  cm := i.cm
  cg := i.cg
  aCap := i.aCap
  friction := i.aDem - i.regApplied
  direction := i.direction
  soc := i.soc
  v := i.v
  m := i.m
  n := ⟨i.motors.a.n, i.motors.b.n⟩
  slip := i.slip
  slipCap := i.slipCap
  tl := i.tl
  dTrac := i.factors.dTrac
  link := i.link
  lining := lining
  linkVoltage := volts
  batteryCurrent := amps

/-! ### The beginning -/

/-- The items a settlement reads. -/
def settleItems (c : ConfigStore) : SettleItems where
  pTracMax := c.num .pTracMax
  pRevMax := c.num .pRevMax
  tLim := ⟨c.num .tLimA, c.num .tLimB⟩
  nFloor := c.num .nFloor
  vMinRegen := c.num .vMinRegen
  resistorRegen := c.on .resistorRegen
  socLow := c.num .socLow
  socHigh := c.num .socHigh
  reserveOffset := c.num .reserveOffset
  chgBias := c.num .chgBias
  genRamp := c.num .genRamp
  qMax := c.num .qMax

/-- What a settlement takes of a motor link. -/
def motorInputs (l : MotorLink) : MotorInputs := ⟨l.n, l.tMot, l.tGen, l.inService⟩

/-- SoC is at or above soc_full (R77, R88). -/
def batteryFull (p : Part) : Bool := p.cfg.num .socFull ≤ effSoc p

/-- The slot this settlement's pass selects (R77). -/
def slotNow (p : Part) : SlotNo :=
  selectSlot (effLowAdhesion p) (batteryFull p) (anyWorn (liningLevels p))

/-- What the pass of a settlement reads; at an episode start REG_applied_prev is 0 (R69, R77, R83). -/
def passInputs (p : Part) : PassInputs where
  v := effV p
  regPrev := if p.blend.episode then p.blend.regPrev else 0
  slip := (effSlip p).a || (effSlip p).b
  worn := anyWorn (liningLevels p)
  hot := anyTripped .discHot p
  full := batteryFull p

/-- The program the pass runs: the selected slot's active program, after the promotion that an episode start
makes (R69, R83). -/
def passProgram (p : Part) : List BlendStep :=
  if p.blend.episode then p.slots[slotNow p].active else (promotedSlot p.slots[slotNow p]).active

/-- The inputs a settlement takes, from the part after the acceptance test and the hold state before it
(R2, R4, R51). -/
def settleInputs (hold : HoldState) (p : Part) : SettleInputs where
  base := baseAuthority p
  governing := governing p
  hold := hold
  link := p.gen.link
  pedal := effPedal p
  aDem := effADem p
  direction := effDirection p
  reserve := effReserve p
  quietZone := effQuietZone p
  soc := effSoc p
  pDisLim := effDisLim p
  pChgLim := effChgLim p
  pGenAvail := effGenAvail p
  v := effV p
  m := effM p
  slip := effSlip p
  slipCap := effSlipCap p
  motors := ⟨motorInputs p.links.a, motorInputs p.links.b⟩
  x := auxNow p
  factors := p.derate.factors
  resistorInhibited := anyTripped .resistorInhibit p
  dump := p.account.dump
  gPrev := p.account.gPrev
  items := settleItems p.cfg
  program := passProgram p
  pass := passInputs p

/-- The settlement that a part's values make at its beginning (R2, R20, R22). -/
def settlingOf (hold : HoldState) (senseHeld : Bool) (p : Part) : Settling :=
  let i := settleInputs hold p
  { record := i.record p.account.nextSeq senseHeld p.now
    working := i.working (liningLevels p) (senseOr0 p 16) (senseOr0 p 17)
    nFloor := i.items.nFloor
    tookDump := p.account.dump
    dumpAgain := false
    endedEpisode := p.blend.episode && !i.episode }

/-- The arbiter's acceptance, with SAFE_STOP's handed to the hold controller as a break event (R48, R51). -/
def acceptance (p : Part) : Part :=
  if accepted p = some .safeStop then breakHold (acceptOffer p) else acceptOffer p

/-- The blend engine keeps the latest pass of an episode settlement (R89). -/
def keepPass (i : SettleInputs) (slot : SlotNo) (p : Part) : Part :=
  if i.episode then
    p.setBlend { p.blend with
      latest := some ⟨slot, i.passResult.steps, i.passResult.reg, i.passResult.fri⟩ }
  else p

/-- A settlement begins (R1, R2): the hold state is taken, the offer tested, the inputs taken and stages 0
to 8 run; stage 4 judges the episode and keeps the pass. -/
def beginSettlement (senseHeld : Bool) (p : Part) : Part :=
  let hold := p.hold.state
  let q := acceptance p
  let i := settleInputs hold q
  let r := judgeEpisode i.aDem q
  let r := keepPass i (slotNow q) r
  r.setAccount { r.account with
    beginning := none
    settling := some (settlingOf hold senseHeld q) }

end Sys2Proof.Machine
end

