-- ==== Sys2Proof/Machine/Torque.lean ====
section
/-! DEFINITION. The torque stage: the modes and splits of the torque commands (R62 to R65), the check against
the motor link (R66), and the sending (R67). -/

namespace Sys2Proof.Machine

/-- A torque command for one motor before it is numbered: mode, torque and direction (R67). -/
structure TorqueOrder where
  mode : TorqueMode
  torque : Nat
  direction : Direction
  deriving DecidableEq, Repr

/-- A power split between the motors, each share within its cap (R64 steps 1 to 4). -/
def splitPower (total share : Nat) (caps : PerMotor Nat) : PerMotor Nat :=
  let a := total * share / 1000
  let b := total - a
  if caps.b < b then ⟨total - caps.b, caps.b⟩
  else if caps.a < a then ⟨caps.a, total - caps.a⟩
  else ⟨a, b⟩

/-- A torque from a power and a speed: P × 9549 / (10 × speed), rounded down (R64, R65). -/
def torqueOf (power speed : Nat) : Nat := power * Config.torqueConstant / (10 * speed)

/-- The generating caps of the regeneration split, lowered to the slip caps while SLIP governs (R65). -/
def regenCaps (r : AccountRecord) (w : Working) : PerMotor Nat :=
  if r.governing = some .slip then
    ⟨slippedGenerating w.slip.a w.slipCap.a w.n.a w.cg.a,
     slippedGenerating w.slip.b w.slipCap.b w.n.b w.cg.b⟩
  else w.cg

/-- ZERO with torque 0, in the direction the settlement took (R63). -/
def zeroOrder (w : Working) : TorqueOrder := ⟨.zero, 0, w.direction⟩

/-- DISABLE with torque 0, in the direction the settlement took (R63). -/
def disableOrder (w : Working) : TorqueOrder := ⟨.disable, 0, w.direction⟩

/-- A motor's command from its share of T (R64). -/
def motorOrder (w : Working) (power n nFloor : Nat) : TorqueOrder :=
  if power = 0 then zeroOrder w else ⟨.motor, torqueOf power (max n nFloor), w.direction⟩

/-- A motor's command from its share of Rg; regeneration carries FORWARD (R65). -/
def generateOrder (w : Working) (power n : Nat) : TorqueOrder :=
  if power = 0 then zeroOrder w else ⟨.generate, torqueOf power (max n 1), .forward⟩

/-- The commands from the motoring split (R64). -/
def motoringOrders (s : Settling) (shareA : Nat) : PerMotor TorqueOrder :=
  let w := s.working
  let power := splitPower s.record.t shareA w.cm
  ⟨motorOrder w power.a w.n.a s.nFloor, motorOrder w power.b w.n.b s.nFloor⟩

/-- The commands from the regeneration split (R65). -/
def regenOrders (s : Settling) (shareA : Nat) : PerMotor TorqueOrder :=
  let w := s.working
  let power := splitPower s.record.rg shareA (regenCaps s.record w)
  ⟨generateOrder w power.a w.n.a, generateOrder w power.b w.n.b⟩

/-- The commands of both motors, by the part state and the base, in the order of the table of R63. -/
def plannedOrders (state : PartState) (shareA : Nat) (s : Settling) : PerMotor TorqueOrder :=
  if state = .starting then ⟨disableOrder s.working, disableOrder s.working⟩
  else match s.record.base with
    | some .safeStop => ⟨disableOrder s.working, disableOrder s.working⟩
    | some .hold => ⟨zeroOrder s.working, zeroOrder s.working⟩
    | none => ⟨zeroOrder s.working, zeroOrder s.working⟩
    | some .slip => ⟨zeroOrder s.working, zeroOrder s.working⟩
    | some .traction => motoringOrders s shareA
    | some .limp => motoringOrders s shareA
    | some .blend => regenOrders s shareA

/-- The check of a command against its motor link as it stands (R66). -/
def checkedOrder (l : MotorLink) (w : Working) (o : TorqueOrder) : TorqueOrder :=
  match o.mode with
  | .disable => o
  | .zero => zeroOrder w
  | .motor => if l.inService then { o with torque := min o.torque l.tMot } else zeroOrder w
  | .generate => if l.inService then { o with torque := min o.torque l.tGen } else zeroOrder w

/-- A command is sent on its motor link and kept (R67). -/
def sendTorque (motor : Motor) (seq : BitVec 32) (o : TorqueOrder) (p : Part) : Part :=
  let q := queueOnLink motor (.torqueSet seq o.mode o.torque o.direction) p
  q.setLink motor { q.links.get motor with lastCommand := ⟨seq, o.mode, o.torque⟩ }

/-- The torque stage at "account settled" (R62 to R67). share_A is the configured item as it stands. -/
def torqueStage (s : Settling) (p : Part) : Part :=
  let orders := plannedOrders p.partState (p.cfg.num .shareA) s
  let a := checkedOrder p.links.a s.working orders.a
  let b := checkedOrder p.links.b s.working orders.b
  sendTorque .b s.record.seq b (sendTorque .a s.record.seq a p)

end Sys2Proof.Machine
end

