-- ==== Sys2Proof/Machine/Frames.lean ====
section
/-! DEFINITION. The frames the part sends as bytes: their kinds and payload layouts (R194) and the whole frame
with its CRC (R179). -/

namespace Sys2Proof.Machine

/-- The code of a generator request: STOP 0, START 1, RUN 2 (R194). -/
def GenRequest.code (r : GenRequest) : Nat := r.ctorIdx

/-- The code of a hold state: DRIVE 0 to LAYOVER 3 (R194). -/
def HoldState.code (h : HoldState) : Nat := h.ctorIdx

/-- The code of a link state: AWAITING 0 to LOCKED_OUT 9 (R194). -/
def LinkState.code (l : LinkState) : Nat := l.ctorIdx

/-- The code of a torque mode: DISABLE 0 to GENERATE 3 (R194). -/
def TorqueMode.code (m : TorqueMode) : Nat := m.ctorIdx

/-- The code of a reply: 0 to 6 in the order of R183. -/
def ReplyCode.code (c : ReplyCode) : Nat := c.ctorIdx

/-- The kind of a frame the part sends. -/
def OutFrame.kind : OutFrame → Kind
  | .storageGrant _ _ _ _ _ => .storageGrant
  | .genCommand _ _ _ _ => .genCommand
  | .frictionDemand _ _ _ _ _ => .frictionDemand
  | .driveReport _ _ _ _ _ _ _ _ => .driveReport
  | .torqueSet _ _ _ _ => .torqueSet
  | .reply _ _ _ => .reply

/-- The bytes that the answer of an accepted READ adds to its REPLY (R191, R194). -/
def readPartBytes : Option ReadPart → List Byte
  | none => []
  | some a => a.item :: bytes2 a.index ++ [a.part, a.count] ++ a.content

/-- The payload of a frame the part sends (R194). -/
def OutFrame.payload : OutFrame → List Byte
  | .storageGrant seq d c q flags => enc4 seq ++ enc2 d ++ enc2 c ++ enc2 q ++ encAccountFlags flags
  | .genCommand seq request g dump => enc4 seq ++ enc1 request.code ++ enc2 g ++ encBits [dump]
  | .frictionDemand seq aDem friction regApplied lining =>
    enc4 seq ++ enc2 aDem ++ enc2 friction ++ enc2 regApplied
      ++ encBits [lining.axle1, lining.axle2, lining.axle3]
  | .driveReport seq t governing hold dTrac link warnings auxShed =>
    enc4 seq ++ enc2 t ++ encSource governing ++ enc1 hold.code ++ enc2 dTrac ++ enc1 link.code
      ++ enc1 warnings ++ encBits [auxShed]
  | .torqueSet seq mode torque direction =>
    enc4 seq ++ enc1 mode.code ++ enc2 torque ++ enc1 direction.code
  | .reply kind code answer => kind.code :: enc1 code.code ++ readPartBytes answer

/-- The whole frame on the line (R179). -/
def OutFrame.bytes (f : OutFrame) : List Byte := frameOf f.kind.code f.payload

end Sys2Proof.Machine
end

