-- ==== Sys2Proof/Machine/Settled.lean ====
section
/-! DEFINITION. "Account settled": the record appended (R21, R22), the mismatch check (R23), the blocks that act
on the event (R22), and the settlement frames (R185, R186, R91). -/

namespace Sys2Proof.Machine

/-- The history with a record appended: at most sixteen, the oldest removed (R21). -/
def pushHistory (h : List AccountRecord) (r : AccountRecord) : List AccountRecord :=
  if h.length < Config.historyPlaces then h ++ [r] else h.drop 1 ++ [r]

/-- The DUMP request after a close (R18, R19). -/
def dumpAfter (s : Settling) (pending : Bool) : Bool :=
  s.record.flags.overcharge || (if s.tookDump then s.dumpAgain else pending)

/-- The measured battery power differs from the previous record's D − C by more than mismatch_tol (R23). -/
def mismatchFound (tol : Nat) (w : Working) (previous : AccountRecord) : Bool :=
  tol < (batteryPower w.linkVoltage w.batteryCurrent
    - ((previous.d : Int) - (previous.c : Int))).natAbs

/-- The mismatch count after the check (R23). -/
def mismatchAfter (tol count : Nat) (s : Settling) (previous : Option AccountRecord) : Nat :=
  match previous with
  | none => count
  | some r =>
    if s.record.flags.senseHeld then count
    else if mismatchFound tol s.working r then min (count + 1) Config.mismatchTop
    else 0

/-- The check finds a difference with the count at its top, and sets ACCOUNT_MISMATCH (R23). -/
def mismatchReported (tol count : Nat) (s : Settling) (previous : Option AccountRecord) : Bool :=
  match previous with
  | none => false
  | some r =>
    !s.record.flags.senseHeld && mismatchFound tol s.working r && Config.mismatchTop ≤ count + 1

/-- The settlement unit at a close: the record becomes the current one and is appended, the next record's
number, G_prev and the DUMP request are kept (R16, R19 to R22). -/
def closedAccount (tol : Nat) (s : Settling) (a : Account) : Account :=
  { a with
    current := some (s.record, s.working)
    history := pushHistory a.history s.record
    nextSeq := a.nextSeq + 1
    gPrev := s.record.g
    dump := dumpAfter s a.dump
    mismatch := mismatchAfter tol a.mismatch s (a.current.map (·.1))
    settling := none }

/-- The settlement unit closes a settlement (R20 to R23). -/
def closeAccount (s : Settling) (p : Part) : Part :=
  let tol := p.cfg.num .mismatchTol
  setEventIf (mismatchReported tol p.account.mismatch s (p.account.current.map (·.1))) .accountMismatch
    (p.setAccount (closedAccount tol s p.account))

/-- REG_applied_prev becomes the record's REG_applied (R90). -/
def keepRegPrev (r : AccountRecord) (p : Part) : Part :=
  p.setBlend { p.blend with regPrev := r.regApplied }

/-- The lining-limit flags of a settlement (R92). -/
def liningFlags (w : Working) : PerAxle Bool :=
  ⟨w.lining.axle1 = .limit, w.lining.axle2 = .limit, w.lining.axle3 = .limit⟩

/-- The STORAGE_GRANT of a record (R185). -/
def storageGrantOf (r : AccountRecord) : OutFrame := .storageGrant r.seq r.d r.c r.q r.flags

/-- The GEN_COMMAND of a record, with the request for the link state that stands (R111, R185). -/
def genCommandOf (r : AccountRecord) (p : Part) : OutFrame :=
  .genCommand r.seq (linkRequest p.gen.link) r.g r.flags.dump

/-- The FRICTION_DEMAND of a settlement, if it sends one: during an episode, and once at its end (R91). -/
def frictionDemandOf (s : Settling) : Option OutFrame :=
  let r := s.record
  if r.flags.episode then
    some (.frictionDemand r.seq r.aDem (r.aDem - r.regApplied) r.regApplied (liningFlags s.working))
  else if s.endedEpisode then some (.frictionDemand r.seq 0 0 0 (liningFlags s.working))
  else none

/-- The aux-shed request: set while the state is LAYOVER (R104). -/
def auxShed (p : Part) : Bool := p.hold.state = .layover

/-- The DRIVE_REPORT of a record as the blocks stand when it is formed (R185). -/
def driveReportOf (s : Settling) (p : Part) : OutFrame :=
  .driveReport s.record.seq s.record.t s.record.governing p.hold.state s.working.dTrac p.gen.link
    (warningCount p) (auxShed p)

/-- A frame is queued if there is one. -/
def queueSome (port : Port) (f : Option OutFrame) (p : Part) : Part :=
  match f with
  | none => p
  | some f => queueOn port f p

/-- The report count: DRIVE_REPORT on every fifth close (R186). -/
def driveReport (s : Settling) (p : Part) : Part :=
  if p.ports.reportCount < 4 then
    p.setPorts { p.ports with reportCount := p.ports.reportCount + 1 }
  else queueOn .pd (driveReportOf s p) (p.setPorts { p.ports with reportCount := 0 })

/-- The ports at "account settled" (R185, R186). -/
def settlementFrames (s : Settling) (p : Part) : Part :=
  let p := setEventIf s.record.flags.overdraw .overdraw p
  let p := setEventIf s.record.flags.overcharge .overcharge p
  let p := queueOn .ps (storageGrantOf s.record) p
  let p := queueOn .pg (genCommandOf s.record p) p
  let p := queueSome .pb (frictionDemandOf s) p
  driveReport s p

/-- "Account settled" (R22): every block that acts on the event; the sequencer and the hold controller before
the ports form their frames. -/
def settle (s : Settling) (p : Part) : Part :=
  let p := closeAccount s p
  let p := torqueStage s p
  let p := keepRegPrev s.record p
  let p := decayStorage p
  let p := integrateRecord s.record s.working p
  let p := sequencerSettled s.record s.working p
  let p := socFloorJudged s.working.soc p
  settlementFrames s p

end Sys2Proof.Machine
end

