-- ==== Sys2Proof/Machine/Startup.lean ====
section
/-! DEFINITION. The supplies and the reset line (R199, R201), the run reset of every block (R26, R42, R56, R61,
R67, R97, R98, R111, R137, R139, R141, R157, R195, R202), keep-alive loss (R200), the reset-cause record (R204)
and the combination watch (R203). -/

namespace Sys2Proof.Machine

/-! ### The combination watch -/

/-- The emergency lines as bits: EL0 is bit 0 (R196). -/
def EmergencyLines.bits (l : EmergencyLines) : BitVec 3 :=
  (if l.el0 then 1#3 else 0#3) ||| (if l.el1 then 2#3 else 0#3) ||| (if l.el2 then 4#3 else 0#3)

/-- Every line named in reset_mask is active (R203). -/
def allMaskedActive (p : Part) : Bool := p.lines.bits &&& p.cfg.resetMask = p.cfg.resetMask

/-- The watch as it stands after an event (R203). -/
def watchNext (mask : BitVec 3) (allActive : Bool) (now : Stamp) (w : Watch) : Watch :=
  match w.state with
  | .disarmed => if mask ≠ 0#3 && !allActive then { w with state := .armed } else w
  | .armed => if allActive then ⟨.timing, now⟩ else w
  | .timing => if allActive then w else { w with state := .armed }

/-- The watch judges an event (R203). -/
def moveWatch (p : Part) : Part :=
  p.setWatch (watchNext p.cfg.resetMask (allMaskedActive p) p.now p.watch)

/-- The combination hold timer's expiry is due (R203). -/
def combinationDue (p : Part) : Bool :=
  p.watch.state = .timing && Config.combinationHold ≤ p.since p.watch.since

/-! ### The run reset -/

/-- A calibration in progress is abandoned by a run reset (R150). -/
def abandonCalibration (p : Part) : Part :=
  match p.scan.mode with
  | .calibrating _ _ => p.setCal (abandonedCal p.cal)
  | .idle | .routineRun | .eventRun _ => p

/-- Every block of the run domain at its reset value, the timebase at 0. -/
def resetRunDomain (p : Part) : Part :=
  { p with
    time := ⟨0#32, 0#32⟩
    partState := .starting
    watch := ⟨.disarmed, 0#32⟩
    image := resetImage
    links := ⟨resetLink, resetLink⟩
    account := resetAccount
    blend := resetBlend
    auth := resetArbiter
    hold := resetHold
    gen := resetSequencer
    derate := resetDerate
    scan := resetScanner
    ports := resetPorts }

/-- The keep-alive domain after its loss, with the marker written valid and WARNING_NEW set (R200, R174). -/
def loseKeepAlive (p : Part) : Part :=
  setEvent .warningNew
    { p with
      marker := true
      cfg := defaultConfig
      slots := Vector.replicate 4 defaultSlot
      cal := defaultCalibration
      wear := lostWear
      warnings := lostWarnings
      cause := ⟨.powerOn, true, 1⟩ }

/-- The reset-cause record at a run reset that finds the domain whole (R204). -/
def recordReset (cause : ResetCause) (p : Part) : Part :=
  p.setCause ⟨cause, false, min (p.cause.count + 1) Config.countTop⟩

/-- What the blocks evaluate at once after the reset: the SAFE_STOP flag (R56), the factors (R137) and the
combination watch (R203). -/
def leaveReset (p : Part) : Part := moveWatch (formFactorsAtReset (evalSource .safeStop p))

/-- A run reset (R201): the run domain starts afresh, the keep-alive marker is checked (R199, R200), and the
cause is recorded (R204). -/
def runReset (cause : ResetCause) (p : Part) : Part :=
  let q := (resetRunDomain (abandonCalibration p)).setPower { p.power with held := none }
  leaveReset (if p.marker then recordReset cause q else loseKeepAlive q)

/-! ### The supplies and the reset line -/

/-- The run supply rises (R201): a run reset, or a wait for the release of an asserted reset line. A supply
that is up already does not rise. -/
def powerUp (p : Part) : Part :=
  if p.power.supply then p
  else if p.power.resetLine then p.setPower { p.power with supply := true, held := some .powerOn }
  else runReset .powerOn (p.setPower { p.power with supply := true })

/-- The reset line is asserted (R201): a running part abandons what it has in flight and is held in reset. -/
def assertReset (p : Part) : Part :=
  if p.running then
    (resetRunDomain (abandonCalibration p)).setPower ⟨true, true, some .resetLine⟩
  else p.setPower { p.power with resetLine := true }

/-- The reset line is released (R201): a part held in reset starts. -/
def releaseReset (p : Part) : Part :=
  let q := p.setPower { p.power with resetLine := false }
  match p.power.held with
  | some cause => runReset cause q
  | none => q

/-- The run supply falls (R199): the run domain stops where it stands, and the keep-alive domain keeps its
contents. -/
def powerDown (p : Part) : Part :=
  (resetRunDomain p).setPower { p.power with supply := false, held := none }

/-- The keep-alive supply fails (R199): the contents are lost only while the run domain is off. A failure while the run
supply is up leaves nothing behind, also where it lasts until a power-down: the model's choice
(notes/assumptions/39.md). -/
def keepAliveFails (p : Part) : Part := if p.power.supply then p else p.setMarker false

/-! ### The emergency lines -/

/-- The lines with another level of one of them (R52). -/
def EmergencyLines.set (l : EmergencyLines) (line : EmergencyLine) (active : Bool) : EmergencyLines :=
  match line with
  | .el0 => { l with el0 := active }
  | .el1 => { l with el1 := active }
  | .el2 => { l with el2 := active }

/-- A change of an emergency line: the arbiter evaluates SAFE_STOP (R52) and the combination watch judges
(R203). In reset or without the run supply only the level changes. -/
def lineChanges (line : EmergencyLine) (active : Bool) (p : Part) : Part :=
  let q := p.setLines (p.lines.set line active)
  if p.running then moveWatch (evalSource .safeStop q) else q

end Sys2Proof.Machine
end

