-- ==== Sys2Proof/Machine/ConfigItems.lean ====
section
/-! DEFINITION. The configuration store: the items, the forms of their values, and the judgement and effect of
CONFIG_WRITE (R196 to R198, with the effects of R35, R43, R109, R126, R147, R156, R188, R203). -/

namespace Sys2Proof.Machine

/-- A configuration item (section 10.1). -/
inductive ConfigItem where
  | num (i : NumItem)
  | axleShares
  | overrideCode
  | eventGroup
  | routineList
  | monitor (k : MonitorNo)
  | enables (port : Port)
  | resetMask
  deriving DecidableEq, Repr

/-- The monitor item with a given number: 51 to 58 (section 10.1). -/
def monitorItemOf (number : Nat) : Option ConfigItem :=
  if h : 51 ≤ number ∧ number ≤ 58 then some (.monitor ⟨number - 51, by omega⟩) else none

/-- The item a number names (section 10.1). -/
def configItemOf (number : Nat) : Option ConfigItem :=
  match number with
  | 9 => some .axleShares
  | 38 => some .overrideCode
  | 46 => some .eventGroup
  | 47 => some .routineList
  | 59 => some (.enables .pd)
  | 60 => some (.enables .ps)
  | 61 => some (.enables .pg)
  | 62 => some (.enables .pb)
  | 63 => some (.enables .sv)
  | 64 => some .resetMask
  | n =>
    match numItemOf n with
    | some i => some (.num i)
    | none => monitorItemOf n

/-- The owner port of an item (section 10.1). -/
def ConfigItem.owner : ConfigItem → Port
  | .num i => i.row.owner
  | .axleShares => .pb
  | .overrideCode => .pd
  | .eventGroup => .sv
  | .routineList => .sv
  | .monitor _ => .sv
  | .enables port => port
  | .resetMask => .sv

/-- Whether an item may be written only while the vehicle stands (section 10.1). -/
def ConfigItem.standing : ConfigItem → Bool
  | .num i => i.row.standing
  | .axleShares => true
  | .overrideCode | .eventGroup | .routineList | .monitor _ | .enables _ | .resetMask => false

/-! ### The forms of values (R196) -/

/-- A value of an item. -/
inductive ConfigValue where
  | num (v : Nat)
  | shares (s : PerAxle Nat)
  | channels (l : List Channel)
  | monitor (c : MonitorCfg)
  | events (m : BitVec 16)
  | lines (m : BitVec 3)
  deriving DecidableEq, Repr

/-- A number in the size its range needs (R194). -/
def encNum (high n : Nat) : List Byte := if high ≤ 255 then enc1 n else enc2 n

/-- The number that some value bytes carry, in the size its range needs (R194). -/
def numOfBytes (high : Nat) (bytes : List Byte) : Option Nat :=
  match bytes with
  | [a] => if high ≤ 255 then some a.toNat else none
  | [a, b] => if high ≤ 255 then none else some (dec2 a b)
  | _ => none

/-- A channel number (R139). -/
def channelOf (b : Byte) : Option Channel := if h : b.toNat < 22 then some ⟨b.toNat, h⟩ else none

/-- Channel numbers, each of which must be one. -/
def channelsOf : List Byte → Option (List Channel)
  | [] => some []
  | b :: rest =>
    match channelOf b, channelsOf rest with
    | some c, some l => some (c :: l)
    | _, _ => none

/-- A list of channels: a count byte and one byte per channel (R196). -/
def channelListOf (bytes : List Byte) : Option (List Channel) :=
  match bytes with
  | [] => none
  | n :: rest => if n.toNat = rest.length then channelsOf rest else none

/-- A scope byte: 0 to 21 for a channel, 22 DISC, 23 MOTOR, 24 INVERTER, 255 NONE (R196). -/
def scopeOf (b : Byte) : Option Scope :=
  if b.toNat = 22 then some .disc
  else if b.toNat = 23 then some .motor
  else if b.toNat = 24 then some .inverter
  else if b.toNat = 255 then some .none
  else (channelOf b).map Scope.channel

/-- The byte of a scope (R196). -/
def Scope.code : Scope → Nat
  | .channel c => c.val
  | .disc => 22
  | .motor => 23
  | .inverter => 24
  | .none => 255

/-- An action code, in the order of R152. -/
def actionOf (b : Byte) : Option MonitorAction :=
  match b.toNat with
  | 0 => some .statusOnly
  | 1 => some .thermalOverride
  | 2 => some .resistorInhibit
  | 3 => some .discHot
  | _ => none

/-- A threshold lies within the range of every channel in the scope (R152); a scope of NONE has no channel
and sets no range. -/
def thresholdOk (scope : Scope) (z : Int) : Bool :=
  (scopeChannels scope).all fun ch => channelBase ch ≤ z && z < channelBase ch + channelSpan ch

/-- The conditions on a monitor item (R152). -/
def monitorOk (c : MonitorCfg) : Bool :=
  thresholdOk c.scope c.low && thresholdOk c.scope c.high && c.low < c.high &&
    c.hysteresis ≤ (c.high - c.low).toNat / 2 && 1 ≤ c.persistence && c.persistence ≤ 15

/-- A monitor item's value: its fields in the order of R152 (R196). -/
def monitorOf (bytes : List Byte) : Option MonitorCfg :=
  match bytes with
  | [s, l1, l0, h1, h0, y1, y0, per, act] =>
    match scopeOf s, actionOf act with
    | some scope, some action =>
      some ⟨scope, dec2i l1 l0, dec2i h1 h0, dec2 y1 y0, per.toNat, action⟩
    | _, _ => none
  | _ => none

/-- The number of an item's value lies in its range (section 10.1). -/
def inRange (i : NumItem) (v : Nat) : Bool := i.row.low ≤ v && v ≤ i.row.high

/-- An unused bit of a received mask is ignored (R194). -/
def eventMaskOf (m : BitVec 16) : BitVec 16 := m &&& 0x7FFF#16

/-- The value that some bytes carry for an item: none when the length does not fit the item's form or a field
lies outside its range (R197 test 3). -/
def valueOf (it : ConfigItem) (bytes : List Byte) : Option ConfigValue :=
  match it with
  | .num i =>
    match numOfBytes i.row.high bytes with
    | some v => if inRange i v then some (.num v) else none
    | none => none
  | .axleShares =>
    match bytes with
    | [a, b, c, d, e, f] => some (.shares ⟨dec2 a b, dec2 c d, dec2 e f⟩)
    | _ => none
  | .overrideCode =>
    match bytes with
    | [a] => if a.toNat ≤ 7 then some (.num a.toNat) else none
    | _ => none
  | .eventGroup =>
    match channelListOf bytes with
    | some l => if 1 ≤ l.length && l.length ≤ 4 && l.Nodup then some (.channels l) else none
    | none => none
  | .routineList =>
    match channelListOf bytes with
    | some l => if 1 ≤ l.length && l.length ≤ 16 then some (.channels l) else none
    | none => none
  | .monitor _ =>
    match monitorOf bytes with
    | some c => if monitorOk c then some (.monitor c) else none
    | none => none
  | .enables _ =>
    match bytes with
    | [a, b] => some (.events (eventMaskOf (beWord a b)))
    | _ => none
  | .resetMask =>
    match bytes with
    | [a] => some (.lines (a.extractLsb' 0 3))
    | _ => none

/-- A monitor item's fields in the order of R152 (R196). -/
def encMonitorCfg (c : MonitorCfg) : List Byte :=
  enc1 c.scope.code ++ enc2i c.low ++ enc2i c.high ++ enc2 c.hysteresis ++ enc1 c.persistence
    ++ enc1 c.action.ctorIdx

/-- A channel number as one byte. -/
def encChannel (c : Channel) : List Byte := enc1 c.val

/-- The answer of READ CONFIG: the value as it stands (R196). -/
def configBytes (it : ConfigItem) (p : Part) : List Byte :=
  match it with
  | .num i => encNum i.row.high (p.cfg.num i)
  | .axleShares => enc2 p.cfg.axleShares.axle1 ++ enc2 p.cfg.axleShares.axle2 ++ enc2 p.cfg.axleShares.axle3
  | .overrideCode => enc1 p.derate.overrideCode
  | .eventGroup => encList encChannel p.cfg.eventGroup
  | .routineList => encList encChannel p.cfg.routineList
  | .monitor k => encMonitorCfg p.cfg.monitors[k]
  | .enables port => bytes2 (p.cfg.enables.get port)
  | .resetMask => enc1 p.cfg.resetMask.toNat

/-! ### Combinations (R198) -/

/-- The SoC conditions of R198, on the values that would stand after the write. -/
def socOk (c : ConfigStore) : Bool :=
  c.num .socLow + 50 ≤ c.num .socHigh && c.num .socFloor < c.num .socStart &&
    c.num .socStart < c.num .socStop

/-- reset_mask names none of the lines, or two or three of them (R198). -/
def resetMaskOk (m : BitVec 3) : Bool := m ≠ 1#3 && m ≠ 2#3 && m ≠ 4#3

/-- The items the SoC conditions test (R198). -/
def inSocWindow (i : NumItem) : Bool :=
  match i with
  | .socLow | .socHigh | .socStart | .socStop | .socFloor => true
  | _ => false

/-- The combination conditions of R198 on a write. -/
def combinationOk (it : ConfigItem) (v : ConfigValue) (c : ConfigStore) : Bool :=
  match it, v with
  | .num i, .num n => !inSocWindow i || socOk (c.setNum i n)
  | .axleShares, .shares s => s.axle1 + s.axle2 + s.axle3 = 1000
  | .enables port, .events m => m &&& ~~~eventsOf port = 0#16
  | .resetMask, .lines m => resetMaskOk m
  | _, _ => true

/-! ### The effect of a write -/

/-- What a write of a number item does in the block that reads the item (R197). -/
def numWritten (i : NumItem) (p : Part) : Part :=
  match i with
  | .vMinRegen => evalSource .blend p
  | .freshDrive => freshnessLimitWritten .drive p
  | .freshStorage => freshnessLimitWritten .storage p
  | .freshGenerator => freshnessLimitWritten .generator p
  | .freshBrake => freshnessLimitWritten .brake p
  | .deepPromotion => deepPromotionWritten p
  | .layoverAfter => expireHoldTimers p
  | .layoverMax => expireHoldTimers p
  | .economyEnable => reformFactors p
  | .economyCode => reformFactors p
  | .routinePeriod => p.setScan { p.scan with periodMark := p.now }
  | .pTracMax | .pRevMax | .tLimA | .tLimB | .shareA | .nFloor | .resistorRegen
  | .socFull | .socLow | .socHigh | .socStart | .socStop | .socHold | .socFloor
  | .reserveOffset | .chgBias | .genRamp | .genSettle | .startTimeout | .stopTimeout | .retryDelay
  | .qMax | .mismatchTol | .storageDecay | .breakPedal | .auxQuietMax | .thermalArm | .thermalClear
  | .levelSlip | .levelBlend | .levelHold | .levelLimp | .levelTraction | .runLength | .stopTrigger => p

/-- A write of reset_mask disarms the combination watch, which then judges afresh (R203). -/
def resetMaskWritten (m : BitVec 3) (p : Part) : Part :=
  moveWatch ((p.setCfg { p.cfg with resetMask := m }).setWatch { p.watch with state := .disarmed })

/-- An accepted write: the value is stored and handed to the block that reads the item (R197). -/
def applyWrite (it : ConfigItem) (v : ConfigValue) (p : Part) : Part :=
  match it, v with
  | .num i, .num n => numWritten i (p.setCfg (p.cfg.setNum i n))
  | .axleShares, .shares s => p.setCfg { p.cfg with axleShares := s }
  | .eventGroup, .channels l => p.setCfg { p.cfg with eventGroup := l }
  | .routineList, .channels l => replaceRoutineList l p
  | .monitor k, .monitor c => reconfigureMonitor k c p
  | .enables port, .events m => p.setCfg { p.cfg with enables := p.cfg.enables.set port m }
  | .resetMask, .lines m => resetMaskWritten m p
  | _, _ => p

/-- The tests 3 and 4 of R197, and the effect of a write that passes them. -/
def writeValue (it : ConfigItem) (bytes : List Byte) (p : Part) : Answered :=
  match valueOf it bytes with
  | none => refuse .range p
  | some v =>
    if !combinationOk it v p.cfg then refuse .range p
    else if it.standing && !standing p then refuse .notStanding p
    else accept (applyWrite it v p)

/-- CONFIG_WRITE (R197): the tests in their order, with the exception of override_code. -/
def configWrite (port : Port) (number : BitVec 16) (bytes : List Byte) (p : Part) : Answered :=
  match configItemOf number.toNat with
  | none => refuse .unknownItem p
  | some it =>
    if port ≠ it.owner && port ≠ .sv then refuse .notPermitted p
    else if it = .overrideCode then writeOverrideCode bytes p
    else writeValue it bytes p

/-- CLEAR_STATUS (R190): a mask that names an event of another port is refused. -/
def clearStatus (port : Port) (mask : BitVec 16) (p : Part) : Answered :=
  if eventMaskOf mask &&& ~~~eventsOf port = 0#16 then accept (clearEvents port (eventMaskOf mask) p)
  else refuse .range p

end Sys2Proof.Machine
end

