-- ==== Sys2Proof/Machine/Answers.lean ====
section
/-! DEFINITION. READ: the content of each item's answer (R20, R21, R57, R96, R110, R123, R138, R157, R176, R192,
R193, R204) in the encoding of R194, and the judgement and parts of R191. -/

namespace Sys2Proof.Machine

/-! ### The account -/

/-- The seven flows of a record, in the order of R20. -/
def AccountRecord.flows (r : AccountRecord) : List Nat := [r.t, r.x, r.c, r.q, r.d, r.g, r.rg]

/-- An account record (R20). -/
def encRecord (r : AccountRecord) : List Byte :=
  enc4 r.seq ++ (r.flows.map enc2).flatten ++ enc2 r.aDem ++ enc2 r.regApplied ++ encAccountFlags r.flags
    ++ encSource r.base ++ encSource r.governing ++ enc1 r.hold.code ++ enc4 r.stamp

/-- READ ACCOUNT_LAST (R21). -/
def accountLast (p : Part) : List Byte := encOption encRecord (p.account.current.map (·.1))

/-- READ ACCOUNT_HISTORY (R21). -/
def accountHistory (p : Part) : List Byte := encList encRecord p.account.history

/-! ### Authority, hold and generator link -/

/-- A stack entry (R57). -/
def encEntry (e : StackEntry) : List Byte := enc1 e.source.ctorIdx ++ enc1 e.level

/-- A source's state, flag and level (R57). -/
def encSourceState (p : Part) (src : Source) : List Byte :=
  enc1 (sourceState src p).ctorIdx ++ encFlag (p.auth.flags.get src) ++ enc1 (levelOf src p)

/-- A motor's link freshness, service state and last command (R57). -/
def encMotor (l : MotorLink) : List Byte :=
  enc1 l.freshness.ctorIdx ++ encFlag l.inService ++ enc4 l.lastCommand.seq
    ++ enc1 l.lastCommand.mode.code ++ enc2 l.lastCommand.torque

/-- READ AUTHORITY_STACK (R57); the stack from bottom to top. The level of a line is a flag, 1 for active: the
model's choice (notes/assumptions/23.md). -/
def authorityAnswer (p : Part) : List Byte :=
  encList encEntry p.auth.stack.reverse ++ (allSources.map (encSourceState p)).flatten
    ++ encSource (offer p) ++ encFlag p.lines.el0 ++ encFlag p.lines.el1 ++ encFlag p.lines.el2
    ++ encFlag (effEmergency p) ++ enc1 p.partState.ctorIdx ++ encMotor p.links.a ++ encMotor p.links.b

/-- A remaining time of up to 32 bits. -/
def encLeft4 (ms : Nat) : List Byte := enc4 (BitVec.ofNat 32 ms)

/-- READ HOLD (R110). That an entry rule of none is an absent field, a presence byte of 0, and a rule a presence byte of
1 and its number, is the model's choice, and so are the four bytes of the two times (notes/assumptions/23.md). -/
def holdAnswer (p : Part) : List Byte :=
  enc1 p.hold.state.code ++ enc4 p.hold.entered ++ encOption enc1 p.hold.rule
    ++ encOption encLeft4 (if p.hold.promotion then
        some (p.left p.hold.entered (1000 * p.cfg.num .layoverAfter)) else none)
    ++ encOption encLeft4 (if p.hold.layover then
        some (p.left p.hold.entered (1000 * p.cfg.num .layoverMax)) else none)
    ++ encFlag p.hold.latch ++ encFlag p.gen.startRequest
    ++ encFlag p.image.drive.data.holdRequest ++ encFlag p.image.drive.data.layoverRequest

/-- The sequencer's running timer: its name and what is left (R123). -/
def encGenTimer (p : Part) (t : GenTimer) : List Byte := enc1 t.name.ctorIdx ++ enc2 (p.left t.start t.length)

/-- G, P_gen_eff and the DUMP flag of a record (R123). -/
def encRecordGen (r : AccountRecord × Working) : List Byte :=
  enc2 r.1.g ++ enc2 r.2.pGenEff ++ encFlag r.1.flags.dump

/-- READ GEN_LINK (R123). -/
def genLinkAnswer (p : Part) : List Byte :=
  enc1 p.gen.link.code ++ encOption (fun r : EngineReport => enc1 r.ctorIdx) p.gen.lastReport
    ++ enc1 p.gen.failures ++ encFlag p.gen.startRequest ++ encOption (encGenTimer p) p.gen.timer
    ++ encOption encRecordGen p.account.current

/-! ### Derate, sense and monitors -/

/-- The running thermal timer: arming 0 or clearing 1, and what is left (R138). -/
def encThermalTimer (p : Part) (t : RunTimer) : List Byte :=
  enc1 (if p.derate.thermal = .active then 1 else 0) ++ enc2 (p.left t.start t.length)

/-- READ DERATE (R138). -/
def derateAnswer (p : Part) : List Byte :=
  let f := p.derate.factors
  enc2 f.dTrac ++ enc2 f.dRegen ++ enc2 f.dBat ++ enc2 f.kA ++ enc2 f.kB
    ++ encBits [p.cfg.on .economyEnable, overrideInForce p, liningAtLimit p]
    ++ encFlag (p.cfg.on .economyEnable) ++ enc1 (p.cfg.num .economyCode)
    ++ enc1 p.derate.overrideCode ++ encFlag p.derate.locked ++ encFlag p.derate.forced
    ++ enc1 p.derate.thermal.ctorIdx ++ encOption (encThermalTimer p) p.derate.timer
    ++ [p.derate.thermalSet]

/-- A channel's value in the size its range needs (R139, R194). -/
def encSense (ch : Channel) (z : Int) : List Byte :=
  match ch.val with
  | 6 | 7 | 8 | 9 | 10 | 11 | 19 => enc1 z.toNat
  | _ => enc2i z

/-- The scanner's state (R141). -/
def ScanMode.code : ScanMode → Nat
  | .idle => 0
  | .routineRun => 1
  | .eventRun _ => 2
  | .calibrating _ _ => 3

/-- A pending trigger: none, ordinary or round-completing (R141). -/
def pendingCode : Option RunKind → Nat
  | none => 0
  | some .ordinary => 1
  | some .roundCompleting => 2

/-- READ SENSE (R157). -/
def senseAnswer (ch : Channel) (p : Part) : List Byte :=
  let r := p.scan.results[ch]
  encSense ch r.value ++ enc2 r.raw.toNat ++ enc4 r.stamp ++ encFlag r.valid ++ enc2i p.cal.offsets[ch]
    ++ encFlag (ch ∈ p.cfg.eventGroup) ++ enc1 (p.cfg.routineList.count ch)
    ++ enc1 p.scan.mode.code ++ enc1 p.scan.position ++ enc1 (pendingCode p.scan.pending)
    ++ encFlag p.scan.calWaiting ++ enc1 p.cal.outcome.ctorIdx ++ encOption encChannel p.cal.failedChannel
    ++ enc2 (auxNow p) ++ enc2i (batteryNow p)

/-- READ MONITOR (R157). -/
def monitorAnswer (k : MonitorNo) (p : Part) : List Byte :=
  let m := p.scan.monitors[k]
  encMonitorCfg p.cfg.monitors[k] ++ enc1 m.state.ctorIdx ++ enc1 m.count ++ enc2 m.trips ++ enc4 m.tripStamp

/-! ### Wear -/

/-- A four-byte number. -/
def enc4n (n : Nat) : List Byte := enc4 (BitVec.ofNat 32 n)

/-- A field that is present for some items only (R159). -/
def encWhen (present : Bool) (bytes : List Byte) : List Byte := if present then 1#8 :: bytes else [0#8]

/-- READ WEAR (R176): the record of R159 without the residual. -/
def wearAnswer (i : WearNo) (p : Part) : List Byte :=
  let it := p.wear[i]
  enc1 i.val ++ enc1 (wearKind i).ctorIdx ++ enc4n it.acc
    ++ encWhen (hasLevel i) (enc4n it.warn) ++ encWhen (hasLevel i) (enc4n it.limit)
    ++ encFlag it.notice ++ encFlag it.saturated
    ++ encWhen (hasLevel i) (enc1 it.level.ctorIdx) ++ encWhen (hasLevel i) (enc4 it.changed)
    ++ encOption enc4n it.unknown
    ++ encWhen (isLining i) (enc1 it.stage) ++ encWhen (isLining i) (encFlag it.disagree)
    ++ encWhen (isCycle i) (encFlag it.armed)

/-- A warning (R176). -/
def encWarning (w : Warning) : List Byte :=
  enc1 w.item.val ++ enc1 w.level.ctorIdx ++ enc4 w.raised ++ encFlag w.acknowledged

/-- READ WARNING_LIST (R176). -/
def warningAnswer (p : Part) : List Byte := encList encWarning p.warnings

/-! ### Blend, ports and reset cause -/

/-- A program (R96). -/
def encProgram (l : List BlendStep) : List Byte := encList encStep l

/-- A port's assembly, if it is open for this slot (R96). -/
def assemblyFor (slot : SlotNo) (a : Option Assembly) : Option (List BlendStep) :=
  match a with
  | some a => if a.slot = slot then some a.steps else none
  | none => none

/-- The latest pass (R96). -/
def encPass (r : PassRecord) : List Byte := enc1 r.slot.val ++ enc1 r.steps ++ enc2 r.reg ++ enc2 r.fri

/-- READ BLEND (R96). The model's choices (notes/assumptions/23.md): for each port one presence byte says whether its
assembly is open for the slot, followed by the steps as a counted list; slot, steps, REG and FRI of the latest pass are
one group under one presence byte, absent before the first pass. -/
def blendAnswer (slot : SlotNo) (p : Part) : List Byte :=
  let s := p.slots[slot]
  encProgram s.active ++ encFlag (s.active = builtInProgram) ++ encOption encProgram s.pending
    ++ encOption encProgram (assemblyFor slot p.blend.assemblyPB)
    ++ encOption encProgram (assemblyFor slot p.blend.assemblySV)
    ++ encFlag p.blend.episode ++ enc2 p.blend.regPrev ++ encOption encPass p.blend.latest

/-- READ PORT_STATUS of the port it arrives on (R193). The level of the attention line is a flag, 1 for asserted: the
model's choice (notes/assumptions/23.md). -/
def portAnswer (port : Port) (p : Part) : List Byte :=
  let s := p.port port
  bytes2 s.status ++ bytes2 (p.cfg.enables.get port) ++ encFlag (attention p port) ++ [s.causes]
    ++ enc1 s.waitingReplies
    ++ enc1 (p.fresh .drive).ctorIdx ++ enc1 (p.fresh .storage).ctorIdx
    ++ enc1 (p.fresh .generator).ctorIdx ++ enc1 (p.fresh .brake).ctorIdx
    ++ enc1 p.links.a.freshness.ctorIdx ++ enc1 p.links.b.freshness.ctorIdx ++ enc1 p.partState.ctorIdx

/-- READ RESET_CAUSE (R204). -/
def resetAnswer (p : Part) : List Byte :=
  enc1 p.cause.cause.ctorIdx ++ encFlag p.cause.lost ++ enc2 p.cause.count
    ++ enc1 p.partState.ctorIdx
    ++ encOption enc2 (if p.partState = .starting then some (p.left 0#32 Config.startWindow) else none)
    ++ enc1 p.watch.state.ctorIdx ++ enc1 p.cfg.resetMask.toNat
    ++ encOption enc1 (if p.watch.state = .timing then
        some (p.left p.watch.since Config.combinationHold) else none)

/-! ### READ -/

/-- What a READ's item code and index name (R191, R192). -/
inductive ReadTarget where
  | unknownItem
  | badIndex
  | accountLast | accountHistory | authority | hold | genLink | derate
  | sense (ch : Channel)
  | monitor (k : MonitorNo)
  | wear (i : WearNo)
  | warnings
  | blend (slot : SlotNo)
  | config (it : ConfigItem)
  | portStatus | resetCause
  deriving DecidableEq, Repr

/-- The target of an item code and an index (R192). -/
def readTarget (item : Byte) (index : BitVec 16) : ReadTarget :=
  match item.toNat with
  | 0 => .accountLast
  | 1 => .accountHistory
  | 2 => .authority
  | 3 => .hold
  | 4 => .genLink
  | 5 => .derate
  | 6 => if h : index.toNat < 22 then .sense ⟨index.toNat, h⟩ else .badIndex
  | 7 => if h : index.toNat < 8 then .monitor ⟨index.toNat, h⟩ else .badIndex
  | 8 => if h : index.toNat < 12 then .wear ⟨index.toNat, h⟩ else .badIndex
  | 9 => .warnings
  | 10 => if h : index.toNat < 4 then .blend ⟨index.toNat, h⟩ else .badIndex
  | 11 =>
    match configItemOf index.toNat with
    | some it => .config it
    | none => .unknownItem
  | 12 => .portStatus
  | 13 => .resetCause
  | _ => .unknownItem

/-- The content of a target's answer (R192). -/
def readContent (port : Port) (t : ReadTarget) (p : Part) : List Byte :=
  match t with
  | .unknownItem => []
  | .badIndex => []
  | .accountLast => Sys2Proof.Machine.accountLast p
  | .accountHistory => Sys2Proof.Machine.accountHistory p
  | .authority => authorityAnswer p
  | .hold => holdAnswer p
  | .genLink => genLinkAnswer p
  | .derate => derateAnswer p
  | .sense ch => senseAnswer ch p
  | .monitor k => monitorAnswer k p
  | .wear i => wearAnswer i p
  | .warnings => warningAnswer p
  | .blend slot => blendAnswer slot p
  | .config it => configBytes it p
  | .portStatus => portAnswer port p
  | .resetCause => resetAnswer p

/-- Whether an item's index has a range; of every other item the index is ignored (R192). -/
def indexUsed (item : Byte) : Bool :=
  item = 6#8 || item = 7#8 || item = 8#8 || item = 10#8 || item = 11#8

/-- The index as far as it names something (R192). -/
def usedIndex (item : Byte) (index : BitVec 16) : BitVec 16 := if indexUsed item then index else 0#16

/-- The number of parts of an answer: an empty content is one part (R191). -/
def partCount (content : List Byte) : Nat :=
  max 1 ((content.length + Config.partBytes - 1) / Config.partBytes)

/-- One part of an answer (R191). -/
def partOf (item : Byte) (index : BitVec 16) (part : Byte) (content : List Byte) : ReadPart where
  item := item
  index := index
  part := part
  count := BitVec.ofNat 8 (partCount content)
  content := (content.drop (Config.partBytes * part.toNat)).take Config.partBytes

/-- A later part is answered from the snapshot (R191). -/
def readLater (port : Port) (item : Byte) (index : BitVec 16) (part : Byte) (p : Part) : Answered :=
  match (p.port port).snapshot with
  | none => refuse .range p
  | some s =>
    if s.item = item && s.index = usedIndex item index && part.toNat < partCount s.content then
      ⟨p, .accepted, some (partOf item index part s.content)⟩
    else refuse .range p

/-- Part 0: the content is made now and kept in the port's snapshot (R191). -/
def readFirst (port : Port) (item : Byte) (index : BitVec 16) (content : List Byte) (p : Part) : Answered :=
  ⟨p.setPort port { p.port port with snapshot := some ⟨item, usedIndex item index, content⟩ }, .accepted,
    some (partOf item index 0#8 content)⟩

/-- READ (R191). -/
def readItem (port : Port) (item : Byte) (index : BitVec 16) (part : Byte) (p : Part) : Answered :=
  match readTarget item index with
  | .unknownItem => refuse .unknownItem p
  | .badIndex => refuse .range p
  | t =>
    if part = 0#8 then readFirst port item index (readContent port t p) p
    else readLater port item index part p

end Sys2Proof.Machine
end

