-- ==== Sys2Proof/Machine/PowerCommands.lean ====
section
/-! DEFINITION. The meanings of the commands of the supplies, the reset line and the emergency lines. -/

namespace Sys2Proof.Machine

/-- An operation that only a part whose run domain runs makes: in reset, or without the run supply, nothing
happens (R201). -/
def whenRunning (f : Part → Part) (p : Part) : Part := if p.running then f p else p

/-- An event of the part's own that happens only when it is due; at any other moment nothing happens
(chapter 0, "Time"; notes/assumptions/4.md). -/
def whenDue (due : Part → Bool) (f : Part → Part) (p : Part) : Part := if p.running && due p then f p else p

/-- RUN_DOMAIN_POWER_UP (R201). -/
def execRunDomainPowerUp (s : State) : Host.Outcome State Fault Refusal :=
  .next (s.on powerUp)

/-- RESET_LINE_ASSERT (R201). -/
def execResetLineAssert (s : State) : Host.Outcome State Fault Refusal :=
  .next (s.on assertReset)

/-- RESET_LINE_RELEASE (R201). -/
def execResetLineRelease (s : State) : Host.Outcome State Fault Refusal :=
  .next (s.on releaseReset)

/-- EMERGENCY_LINE_CHANGE (R52, R203). -/
def execEmergencyLineChange (line : EmergencyLine) (active : Bool) (s : State) : Host.Outcome State Fault Refusal :=
  .next (s.on (lineChanges line active))

/-- COMBINATION_HOLD_EXPIRY: a run reset with the cause COMBINATION (R203). -/
def execCombinationHoldExpiry (s : State) : Host.Outcome State Fault Refusal :=
  .next (s.on (whenDue combinationDue (runReset .combination)))

/-- RUN_DOMAIN_POWER_DOWN (R199). -/
def execRunDomainPowerDown (s : State) : Host.Outcome State Fault Refusal :=
  .next (s.on powerDown)

/-- KEEP_ALIVE_SUPPLY_FAILURE (R199). -/
def execKeepAliveSupplyFailure (s : State) : Host.Outcome State Fault Refusal :=
  .next (s.on keepAliveFails)

end Sys2Proof.Machine
end

