-- ==== Sys2Proof/Machine/FrameCommands.lean ====
section
/-! DEFINITION. The meanings of the status frames and of a frame that fails its checks. -/

namespace Sys2Proof.Machine

/-- The emergency flag, the slip flags, the speed or the freshness of the brake partner may have changed: the
arbiter evaluates the four sources that read them (R43). -/
def evalBrakeSources (p : Part) : Part :=
  evalSource .limp (evalSource .blend (evalSource .slip (evalSource .safeStop p)))

/-- A quiet-zone change from clear to set reaches the sequencer (R28, R118). -/
def quietZoneArrival (before : DriveData) (p : Part) : Part :=
  if !before.quietZone && effQuietZone p then quietZoneStop p else p

/-- The arrival of a DRIVE_STATUS: the image, then the part state, the hold controller, the sequencer and the
arbiter (R33). -/
def driveArrival (d : DriveData) (p : Part) : Part :=
  let before := p.image.drive.data
  evalSource .traction (evalSource .blend (quietZoneArrival before (holdArrival before
    (readyCheck (storeDrive d p)))))

/-- The arrival of a STORAGE_STATUS (R33). -/
def storageArrival (d : StorageData) (p : Part) : Part := readyCheck (storeStorage d p)

/-- The arrival of a GEN_STATUS: the report is handed to the sequencer (R30, R33). -/
def genArrival (report : EngineReport) (d : GenData) (p : Part) : Part :=
  receiveReport report (readyCheck (storeGenerator d p))

/-- The scanner learns that the vehicle ceases to stand (R150). -/
def speedArrival (p : Part) : Part := if Config.standingSpeed ≤ effV p then ceaseStanding p else p

/-- The arrival of a BRAKE_STATUS: the image, then the part state, the arbiter, the hold controller and the
scanner (R33, R150). -/
def brakeArrival (d : BrakeData) (p : Part) : Part :=
  speedArrival (holdRoll (evalBrakeSources (readyCheck (storeBrake d p))))

/-- The fields of an INV_STATUS as a motor link stores them, clamped, with the arrival (R58, R59). -/
def invArrival (motor : Motor) (n tMot tGen : BitVec 16) (flags : Byte) (p : Part) : Part :=
  p.setLink motor { p.links.get motor with
    n := clampNat 0 8000 n.toNat
    tMot := clampNat 0 2600 tMot.toNat
    tGen := clampNat 0 2600 tGen.toNat
    ready := flagBit flags 0
    fault := flagBit flags 1
    stamp := p.now
    freshness := .fresh }

/-- A received frame that fails the checks of R180: a frame error on a port, nothing on a motor link. A frame
that passes them is no frame error: it is the command it spells, or is answered NOT_PERMITTED. -/
def frameJudged (line : Line) (framing : Bool) (bytes : List Byte) (p : Part) : Part :=
  match checkFrame line framing bytes, line with
  | .discarded cause, .port port => portFrameError port cause p
  | .discarded _, .link _ => p
  | .taken _, _ => p
  | .notPermitted _, _ => p

/-- DRIVE_STATUS (R28, R32, R33). -/
def execDriveStatus (pedal aDem : BitVec 16) (direction flags : Byte) (s : State) : Host.Outcome State Fault Refusal :=
  .next (s.on (whenRunning (driveArrival (driveDataOf pedal aDem direction flags))))

/-- STORAGE_STATUS (R29, R32, R33). -/
def execStorageStatus (soc pDisLim pChgLim : BitVec 16) (flags : Byte)
    (s : State) : Host.Outcome State Fault Refusal :=
  .next (s.on (whenRunning (storageArrival (storageDataOf soc pDisLim pChgLim flags))))

/-- GEN_STATUS (R30, R32, R33). -/
def execGenStatus (report : Byte) (pGenAvail : BitVec 16) (s : State) : Host.Outcome State Fault Refusal :=
  .next (s.on (whenRunning (genArrival (reportOf report) (genDataOf report pGenAvail))))

/-- BRAKE_STATUS (R31, R32, R33). -/
def execBrakeStatus (v m slipCapA slipCapB : BitVec 16) (flags : Byte)
    (s : State) : Host.Outcome State Fault Refusal :=
  .next (s.on (whenRunning (brakeArrival (brakeDataOf v m slipCapA slipCapB flags))))

/-- INV_STATUS (R58). -/
def execInvStatus (motor : Motor) (n tMot tGen : BitVec 16) (flags : Byte)
    (s : State) : Host.Outcome State Fault Refusal :=
  .next (s.on (whenRunning (invArrival motor n tMot tGen flags)))

/-- FRAME_ERROR (R180). -/
def execFrameError (line : Line) (framing : Bool) (bytes : List Byte)
    (s : State) : Host.Outcome State Fault Refusal :=
  .next (s.on (whenRunning (frameJudged line framing bytes)))

end Sys2Proof.Machine
end

