-- ==== Sys2Proof/Machine/RequestCommands.lean ====
section
/-! DEFINITION. The meanings of the ten request kinds and of a completed transmission. -/

namespace Sys2Proof.Machine

/-- The transmitter of a line completes its frame (R184). -/
def frameSent (line : Line) (p : Part) : Part :=
  match line with
  | .port port => p.setPort port { p.port port with tx := (p.port port).tx.complete }
  | .link motor => p.setLink motor { p.links.get motor with tx := (p.links.get motor).tx.complete }

/-- READ (R191). -/
def execRead (port : Port) (item : Byte) (index : BitVec 16) (part : Byte)
    (s : State) : Host.Outcome State Fault Refusal :=
  .next (s.on (request port .read true (readItem port item index part)))

/-- CONFIG_WRITE (R197). -/
def execConfigWrite (port : Port) (item : BitVec 16) (value : List Byte)
    (s : State) : Host.Outcome State Fault Refusal :=
  .next (s.on (request port .configWrite (configLengthOk value) (configWrite port item value)))

/-- CLEAR_STATUS (R190). -/
def execClearStatus (port : Port) (mask : BitVec 16) (s : State) : Host.Outcome State Fault Refusal :=
  .next (s.on (request port .clearStatus true (clearStatus port mask)))

/-- LOAD_BLEND (R78 to R81). -/
def execLoadBlend (port : Port) (slot first : Byte) (steps : List (Byte × Byte))
    (s : State) : Host.Outcome State Fault Refusal :=
  .next (s.on (request port .loadBlend (stepsLengthOk steps) (loadBlend port slot first steps)))

/-- ACK_WARNING (R175). -/
def execAckWarning (port : Port) (item : Byte) (s : State) : Host.Outcome State Fault Refusal :=
  .next (s.on (request port .ackWarning true (ackWarning item)))

/-- FORCE_DERATE (R131). -/
def execForceDerate (port : Port) (value : Byte) (s : State) : Host.Outcome State Fault Refusal :=
  .next (s.on (request port .forceDerate true (forceDerate value)))

/-- WEAR_WRITE (R170). -/
def execWearWrite (port : Port) (item presence : Byte) (fields : List Byte)
    (s : State) : Host.Outcome State Fault Refusal :=
  .next (s.on (request port .wearWrite (wearLengthOk fields) (wearWrite item presence fields)))

/-- WEAR_RESET (R171). -/
def execWearReset (port : Port) (item : Byte) (s : State) : Host.Outcome State Fault Refusal :=
  .next (s.on (request port .wearReset true (wearReset item)))

/-- CALIBRATE (R148). -/
def execCalibrate (port : Port) (s : State) : Host.Outcome State Fault Refusal :=
  .next (s.on (request port .calibrate true calibrate))

/-- CLEAR_LOCKOUT (R121). -/
def execClearLockout (port : Port) (s : State) : Host.Outcome State Fault Refusal :=
  .next (s.on (request port .clearLockout true clearLockout))

/-- FRAME_SENT (R184). -/
def execFrameSent (line : Line) (s : State) : Host.Outcome State Fault Refusal :=
  .next (s.on (whenRunning (frameSent line)))

end Sys2Proof.Machine
end

