-- ==== Sys2Proof/Machine/CycleCommands.lean ====
section
/-! DEFINITION. The meanings of the events of the sense scanner and of the settlement. -/

namespace Sys2Proof.Machine

/-- A beginning waits and no settlement is in progress (R1). -/
def beginDue (p : Part) : Bool := p.account.beginning.isSome && p.account.settling.isNone

/-- The settlement whose beginning waits begins (R1). -/
def beginWaiting (p : Part) : Part :=
  match p.account.beginning with
  | some senseHeld => beginSettlement senseHeld p
  | none => p

/-- The settlement in progress closes (R22). -/
def settleCurrent (p : Part) : Part :=
  match p.account.settling with
  | some s => settle s p
  | none => p

/-- SETTLEMENT_TIMER_EXPIRY (R142, R150). -/
def execSettlementTimerExpiry (s : State) : Host.Outcome State Fault Refusal :=
  .next (s.on (whenDue settlementDue settlementExpires))

/-- CONVERSION_COMPLETE (R140, R142, R144, R149). -/
def execConversionComplete (raw : BitVec 12) (s : State) : Host.Outcome State Fault Refusal :=
  .next (s.on (whenRunning (conversionCompletes raw)))

/-- ROUTINE_TRIGGER (R144, R145). -/
def execRoutineTrigger (s : State) : Host.Outcome State Fault Refusal :=
  .next (s.on (whenDue routineDue routineExpires))

/-- CALIBRATION_END (R149). -/
def execCalibrationEnd (s : State) : Host.Outcome State Fault Refusal :=
  .next (s.on (whenDue calibrationDue calibrationEnds))

/-- SETTLEMENT_BEGIN (R1, R2, stages 0 to 8). -/
def execSettlementBegin (s : State) : Host.Outcome State Fault Refusal :=
  .next (s.on (whenDue beginDue beginWaiting))

/-- ACCOUNT_SETTLED (R22). With no settlement in progress nothing settles. -/
def execAccountSettled (s : State) : Host.Outcome State Fault Refusal :=
  .next (s.on (whenRunning settleCurrent))

end Sys2Proof.Machine
end

