-- ==== Sys2Proof/Machine/TimerCommands.lean ====
section
/-! DEFINITION. The meanings of the expiries of the hold controller's, the sequencer's, the image's, the motor links' and the
derate unit's timers. -/

namespace Sys2Proof.Machine

/-- The start timer expires: FAILED, counted (R114). -/
def startTimeoutExpires (p : Part) : Part := enterFailed true p

/-- The settle timer expires: RUN (R115). -/
def genSettleExpires (p : Part) : Part := enterRun p

/-- The stop timer expires: FAILED, counted (R119). -/
def stopTimeoutExpires (p : Part) : Part := enterFailed true p

/-- The retry timer expires: OFF (R120). -/
def retryExpires (p : Part) : Part := enterOff p

/-- A motor link becomes STALE (R59). -/
def linkBecomesStale (motor : Motor) (p : Part) : Part :=
  p.setLink motor { p.links.get motor with freshness := .stale }

/-- PROMOTION_TIMER_EXPIRY (R103). -/
def execPromotionTimerExpiry (s : State) : Host.Outcome State Fault Refusal :=
  .next (s.on (whenDue promotionDue promote))

/-- LAYOVER_TIMER_EXPIRY (R104). -/
def execLayoverTimerExpiry (s : State) : Host.Outcome State Fault Refusal :=
  .next (s.on (whenDue layoverDue layoverExpires))

/-- START_TIMEOUT (R114). -/
def execStartTimeout (s : State) : Host.Outcome State Fault Refusal :=
  .next (s.on (whenDue startTimeoutDue startTimeoutExpires))

/-- GEN_SETTLE_EXPIRY (R115). -/
def execGenSettleExpiry (s : State) : Host.Outcome State Fault Refusal :=
  .next (s.on (whenDue genSettleDue genSettleExpires))

/-- STOP_TIMEOUT (R119). -/
def execStopTimeout (s : State) : Host.Outcome State Fault Refusal :=
  .next (s.on (whenDue stopTimeoutDue stopTimeoutExpires))

/-- RETRY_DELAY_EXPIRY (R120). -/
def execRetryDelayExpiry (s : State) : Host.Outcome State Fault Refusal :=
  .next (s.on (whenDue retryDue retryExpires))

/-- PARTNER_STALE (R34). -/
def execPartnerStale (partner : Partner) (s : State) : Host.Outcome State Fault Refusal :=
  .next (s.on (whenDue (staleDue partner) (becomeStale partner)))

/-- PARTNER_LOST (R34). -/
def execPartnerLost (partner : Partner) (s : State) : Host.Outcome State Fault Refusal :=
  .next (s.on (whenDue (lostDue partner) (becomeLost partner)))

/-- START_WINDOW_EXPIRY (R205). -/
def execStartWindowExpiry (s : State) : Host.Outcome State Fault Refusal :=
  .next (s.on (whenDue startWindowDue startWindowExpires))

/-- MOTOR_LINK_STALE (R59). -/
def execMotorLinkStale (motor : Motor) (s : State) : Host.Outcome State Fault Refusal :=
  .next (s.on (whenDue (linkStaleDue motor) (linkBecomesStale motor)))

/-- ARMING_TIMER_EXPIRY (R128). -/
def execArmingTimerExpiry (s : State) : Host.Outcome State Fault Refusal :=
  .next (s.on (whenDue armingDue armingExpires))

/-- CLEARING_TIMER_EXPIRY (R128). -/
def execClearingTimerExpiry (s : State) : Host.Outcome State Fault Refusal :=
  .next (s.on (whenDue clearingDue clearingExpires))

end Sys2Proof.Machine
end

