-- ==== Sys2Proof/Machine/Dispatch.lean ====
section
/-! DEFINITION. The effect of each command on everything but the queue: one arm per constructor of `Instr`. -/

namespace Sys2Proof.Machine

def exec (i : Instr) (s : State) : Host.Outcome State Fault Refusal :=
  match i with
  | .runDomainPowerUp => Sys2Proof.Machine.execRunDomainPowerUp s
  | .resetLineAssert => Sys2Proof.Machine.execResetLineAssert s
  | .resetLineRelease => Sys2Proof.Machine.execResetLineRelease s
  | .emergencyLineChange line active => Sys2Proof.Machine.execEmergencyLineChange line active s
  | .combinationHoldExpiry => Sys2Proof.Machine.execCombinationHoldExpiry s
  | .driveStatus pedal aDem direction flags => Sys2Proof.Machine.execDriveStatus pedal aDem direction flags s
  | .storageStatus soc pDisLim pChgLim flags => Sys2Proof.Machine.execStorageStatus soc pDisLim pChgLim flags s
  | .genStatus report pGenAvail => Sys2Proof.Machine.execGenStatus report pGenAvail s
  | .brakeStatus v m slipCapA slipCapB flags => Sys2Proof.Machine.execBrakeStatus v m slipCapA slipCapB flags s
  | .invStatus motor n tMot tGen flags => Sys2Proof.Machine.execInvStatus motor n tMot tGen flags s
  | .frameError line framing bytes => Sys2Proof.Machine.execFrameError line framing bytes s
  | .read port item index part => Sys2Proof.Machine.execRead port item index part s
  | .configWrite port item value => Sys2Proof.Machine.execConfigWrite port item value s
  | .clearStatus port mask => Sys2Proof.Machine.execClearStatus port mask s
  | .loadBlend port slot first steps => Sys2Proof.Machine.execLoadBlend port slot first steps s
  | .ackWarning port item => Sys2Proof.Machine.execAckWarning port item s
  | .forceDerate port value => Sys2Proof.Machine.execForceDerate port value s
  | .wearWrite port item presence fields => Sys2Proof.Machine.execWearWrite port item presence fields s
  | .wearReset port item => Sys2Proof.Machine.execWearReset port item s
  | .calibrate port => Sys2Proof.Machine.execCalibrate port s
  | .clearLockout port => Sys2Proof.Machine.execClearLockout port s
  | .frameSent line => Sys2Proof.Machine.execFrameSent line s
  | .settlementTimerExpiry => Sys2Proof.Machine.execSettlementTimerExpiry s
  | .conversionComplete raw => Sys2Proof.Machine.execConversionComplete raw s
  | .routineTrigger => Sys2Proof.Machine.execRoutineTrigger s
  | .calibrationEnd => Sys2Proof.Machine.execCalibrationEnd s
  | .settlementBegin => Sys2Proof.Machine.execSettlementBegin s
  | .accountSettled => Sys2Proof.Machine.execAccountSettled s
  | .promotionTimerExpiry => Sys2Proof.Machine.execPromotionTimerExpiry s
  | .layoverTimerExpiry => Sys2Proof.Machine.execLayoverTimerExpiry s
  | .startTimeout => Sys2Proof.Machine.execStartTimeout s
  | .genSettleExpiry => Sys2Proof.Machine.execGenSettleExpiry s
  | .stopTimeout => Sys2Proof.Machine.execStopTimeout s
  | .retryDelayExpiry => Sys2Proof.Machine.execRetryDelayExpiry s
  | .partnerStale partner => Sys2Proof.Machine.execPartnerStale partner s
  | .partnerLost partner => Sys2Proof.Machine.execPartnerLost partner s
  | .startWindowExpiry => Sys2Proof.Machine.execStartWindowExpiry s
  | .motorLinkStale motor => Sys2Proof.Machine.execMotorLinkStale motor s
  | .armingTimerExpiry => Sys2Proof.Machine.execArmingTimerExpiry s
  | .clearingTimerExpiry => Sys2Proof.Machine.execClearingTimerExpiry s
  | .runDomainPowerDown => Sys2Proof.Machine.execRunDomainPowerDown s
  | .keepAliveSupplyFailure => Sys2Proof.Machine.execKeepAliveSupplyFailure s

end Sys2Proof.Machine
end

