-- ==== Sys2Proof/Machine/Tick.lean ====
section
/-! DEFINITION. What the part does of its own accord when no command waits: it raises the events that are due,
and when none is, a millisecond passes (chapter 0, "Time"; notes/assumptions/2.md). -/

namespace Sys2Proof.Machine

/-- A transmitter is sending. -/
def Transmitter.busy (t : Transmitter) : Bool := t.sending.isSome

/-- The command is listed when the condition holds. -/
def dueIf (c : Bool) (i : Instr) : List Instr := if c then [i] else []

/-- The settlement's own events that take no time of the model: a waiting beginning, and the close (R1, R22). -/
def settlementEvents (p : Part) : List Instr :=
  dueIf (beginDue p) .settlementBegin ++ dueIf p.account.settling.isSome .accountSettled

/-- The completions of the frames being sent (R184). -/
def transmissionEvents (p : Part) : List Instr :=
  dueIf (p.port .pd).tx.busy (.frameSent (.port .pd)) ++ dueIf (p.port .ps).tx.busy (.frameSent (.port .ps))
    ++ dueIf (p.port .pg).tx.busy (.frameSent (.port .pg)) ++ dueIf (p.port .pb).tx.busy (.frameSent (.port .pb))
    ++ dueIf (p.port .sv).tx.busy (.frameSent (.port .sv))
    ++ dueIf p.links.a.tx.busy (.frameSent (.link .a)) ++ dueIf p.links.b.tx.busy (.frameSent (.link .b))

/-- The expiries that are due on the timebase. -/
def timerEvents (p : Part) : List Instr :=
  dueIf (combinationDue p) .combinationHoldExpiry ++ dueIf (startWindowDue p) .startWindowExpiry
    ++ dueIf (staleDue .drive p) (.partnerStale .drive) ++ dueIf (staleDue .storage p) (.partnerStale .storage)
    ++ dueIf (staleDue .generator p) (.partnerStale .generator)
    ++ dueIf (staleDue .brake p) (.partnerStale .brake)
    ++ dueIf (lostDue .drive p) (.partnerLost .drive) ++ dueIf (lostDue .storage p) (.partnerLost .storage)
    ++ dueIf (lostDue .generator p) (.partnerLost .generator) ++ dueIf (lostDue .brake p) (.partnerLost .brake)
    ++ dueIf (linkStaleDue .a p) (.motorLinkStale .a) ++ dueIf (linkStaleDue .b p) (.motorLinkStale .b)
    ++ dueIf (armingDue p) .armingTimerExpiry ++ dueIf (clearingDue p) .clearingTimerExpiry
    ++ dueIf (promotionDue p) .promotionTimerExpiry ++ dueIf (layoverDue p) .layoverTimerExpiry
    ++ dueIf (startTimeoutDue p) .startTimeout ++ dueIf (genSettleDue p) .genSettleExpiry
    ++ dueIf (stopTimeoutDue p) .stopTimeout ++ dueIf (retryDue p) .retryDelayExpiry
    ++ dueIf (calibrationDue p) .calibrationEnd ++ dueIf (settlementDue p) .settlementTimerExpiry
    ++ dueIf (routineDue p) .routineTrigger

/-- The events that are due now. -/
def dueEvents (p : Part) : List Instr := settlementEvents p ++ transmissionEvents p ++ timerEvents p

/-- One millisecond of the timebase (chapter 0, "Time"). -/
def advanceTime (p : Part) : Part := p.setTime { p.time with now := p.time.now + 1#32 }

/-- A part with no command waiting: in reset or without the run supply nothing happens; else the due events
join the queue, or, when there are none, a millisecond passes. -/
def idle (s : State) : State :=
  if s.part.running then
    match dueEvents s.part with
    | [] => { s with part := advanceTime s.part }
    | events => { s with pending := events }
  else s

end Sys2Proof.Machine
end

