-- ==== Sys2Proof/Safety.lean ====
section
/-! DEFINITION. The terms in which claims are stated: what an operation leaves alone, block by block; when a
request is taken and how it is replied to; values as bytes on the line; and the properties of a state that every step
keeps. -/

namespace Sys2Proof.Machine

/-! ### Frames -/

/-- The blocks of the part, one for each of its fields. -/
inductive Block where
  | power | lines | marker | cfg | slots | cal | wear | warnings | cause
  | time | partState | watch | image | links | account | blend | auth | hold | gen | derate | scan | ports
  deriving DecidableEq, Repr

/-- Two parts agree on a block. -/
def Block.same (b : Block) (p q : Part) : Prop :=
  match b with
  | .power => q.power = p.power
  | .lines => q.lines = p.lines
  | .marker => q.marker = p.marker
  | .cfg => q.cfg = p.cfg
  | .slots => q.slots = p.slots
  | .cal => q.cal = p.cal
  | .wear => q.wear = p.wear
  | .warnings => q.warnings = p.warnings
  | .cause => q.cause = p.cause
  | .time => q.time = p.time
  | .partState => q.partState = p.partState
  | .watch => q.watch = p.watch
  | .image => q.image = p.image
  | .links => q.links = p.links
  | .account => q.account = p.account
  | .blend => q.blend = p.blend
  | .auth => q.auth = p.auth
  | .hold => q.hold = p.hold
  | .gen => q.gen = p.gen
  | .derate => q.derate = p.derate
  | .scan => q.scan = p.scan
  | .ports => q.ports = p.ports

/-- From `p` to `q` at most the named blocks change. -/
structure changesOnly (blocks : List Block) (p q : Part) : Prop where
  same : ∀ b, b ∉ blocks → b.same p q

/-- The blocks of the run domain (chapter 10): everything but the supplies, the pins and the keep-alive
domain. -/
def runBlocks : List Block :=
  [.time, .partState, .watch, .image, .links, .account, .blend, .auth, .hold, .gen, .derate, .scan, .ports]

/-- From `p` to `q` the ports gain at most status events: causes, snapshots, transmitters and the report count
stay, and no event leaves. -/
def portsOnlyGainEvents (p q : Part) : Prop :=
  q.ports.reportCount = p.ports.reportCount ∧
    ∀ port, (q.port port).causes = (p.port port).causes ∧ (q.port port).snapshot = (p.port port).snapshot ∧
      (q.port port).tx = (p.port port).tx ∧
      (p.port port).status &&& (q.port port).status = (p.port port).status

/-- An event stands in a port's status set. -/
def hasEvent (e : Event) (port : Port) (p : Part) : Prop := (p.port port).status &&& e.mask = e.mask

/-! ### Requests -/

/-- A request on this port is taken: the part runs, and fewer than four replies wait (R182, R201). -/
def takesRequest (port : Port) (p : Part) : Prop :=
  p.running = true ∧ (p.port port).waitingReplies < Config.replyPlaces

/-- From `p` to `q` exactly one reply was queued, on this port (R181), and no other port's transmitter
changed. -/
def replied (port : Port) (kind : Kind) (code : ReplyCode) (answer : Option ReadPart) (p q : Part) : Prop :=
  (q.port port).tx = (p.port port).tx.enqueue (.reply kind code answer) ∧
    ∀ other, other ≠ port → (q.port other).tx = (p.port other).tx

/-- The port a request command came in on and its kind (R181); none for every other command. -/
def requestKind : Instr → Option (Port × Kind)
  | .read port _ _ _ => some (port, .read)
  | .configWrite port _ _ => some (port, .configWrite)
  | .clearStatus port _ => some (port, .clearStatus)
  | .loadBlend port _ _ _ => some (port, .loadBlend)
  | .ackWarning port _ => some (port, .ackWarning)
  | .forceDerate port _ => some (port, .forceDerate)
  | .wearWrite port _ _ _ => some (port, .wearWrite)
  | .wearReset port _ => some (port, .wearReset)
  | .calibrate port => some (port, .calibrate)
  | .clearLockout port => some (port, .clearLockout)
  | .runDomainPowerUp | .resetLineAssert | .resetLineRelease | .emergencyLineChange _ _
  | .combinationHoldExpiry | .driveStatus _ _ _ _ | .storageStatus _ _ _ _ | .genStatus _ _
  | .brakeStatus _ _ _ _ _ | .invStatus _ _ _ _ _ | .frameError _ _ _ | .frameSent _
  | .settlementTimerExpiry | .conversionComplete _ | .routineTrigger | .calibrationEnd
  | .settlementBegin | .accountSettled | .promotionTimerExpiry | .layoverTimerExpiry | .startTimeout
  | .genSettleExpiry | .stopTimeout | .retryDelayExpiry | .partnerStale _ | .partnerLost _
  | .startWindowExpiry | .motorLinkStale _ | .armingTimerExpiry | .clearingTimerExpiry
  | .runDomainPowerDown | .keepAliveSupplyFailure => none

/-- From `p` to `q` a frame error was recorded on this port with this cause, and nothing else changed (R180,
R182). -/
def frameErrorRecorded (port : Port) (cause : FrameCause) (p q : Part) : Prop :=
  q.port port = { p.port port with
    status := (p.port port).status ||| Event.frameError.mask
    causes := (p.port port).causes ||| (1#8 <<< cause.ctorIdx) } ∧
  (∀ other, other ≠ port → q.port other = p.port other) ∧
  q.ports.reportCount = p.ports.reportCount ∧ changesOnly [.ports] p q

/-- A request was answered with this code and changed nothing (R183): only the reply was queued. -/
def refusedWith (port : Port) (kind : Kind) (code : ReplyCode) (p q : Part) : Prop :=
  q = queueOn port (.reply kind code none) p

/-! ### The account -/

/-- The sinks of a record equal its sources (R18). -/
def recordBalanced (r : AccountRecord) : Prop := r.t + r.x + r.c + r.q = r.d + r.g + r.rg

/-- A record never has both T and Rg above zero, T only under TRACTION or LIMP, Rg only under BLEND (R14). -/
def grantsApart (r : AccountRecord) : Prop :=
  ¬ (0 < r.t ∧ 0 < r.rg) ∧ (0 < r.t → r.base = some .traction ∨ r.base = some .limp) ∧
    (0 < r.rg → r.base = some .blend)

/-- What holds of every account record. -/
def recordSound (r : AccountRecord) : Prop := recordBalanced r ∧ grantsApart r

/-- Each record of a list is numbered one more than the record before it, modulo 2³² (R21). -/
def successive : List AccountRecord → Prop
  | [] => True
  | [_] => True
  | a :: b :: rest => b.seq = a.seq + 1 ∧ successive (b :: rest)

/-- The settlement unit in order: every record it holds is sound, the history holds at most sixteen successive
records and ends with the current one, and the next record's number follows (R14, R18, R20, R21). -/
def accountSound (p : Part) : Prop :=
  (∀ r ∈ p.account.history, recordSound r) ∧
  (∀ s, p.account.settling = some s → recordSound s.record ∧ s.record.seq = p.account.nextSeq) ∧
  p.account.history.length ≤ Config.historyPlaces ∧
  successive p.account.history ∧
  p.account.history.getLast? = p.account.current.map (·.1) ∧
  (∀ r, p.account.history.getLast? = some r → p.account.nextSeq = r.seq + 1)

/-! ### The authority stack -/

/-- The levels of a stack, its top first, strictly fall. -/
def levelsFall : List StackEntry → Prop
  | [] => True
  | [_] => True
  | a :: b :: rest => b.level < a.level ∧ levelsFall (b :: rest)

/-- SAFE_STOP's level is 8 and every other latched level is 1 to 7 (R45, R46). -/
def levelLegal (e : StackEntry) : Prop :=
  (e.source = .safeStop → e.level = 8) ∧ (e.source ≠ .safeStop → 1 ≤ e.level ∧ e.level ≤ 7)

/-- The five configured levels are 0 to 7 (R45). -/
def levelsConfigured (c : ConfigStore) : Prop :=
  c.num .levelSlip ≤ 7 ∧ c.num .levelBlend ≤ 7 ∧ c.num .levelHold ≤ 7 ∧ c.num .levelLimp ≤ 7 ∧
    c.num .levelTraction ≤ 7

/-- The authority stack in order (the law of R49, and R44): one entry per source, levels strictly rising from
bottom to top, and the flag set of every source in the stack. -/
def stackSound (p : Part) : Prop :=
  levelsConfigured p.cfg ∧ (p.auth.stack.map (·.source)).Nodup ∧ levelsFall p.auth.stack ∧
    (∀ e ∈ p.auth.stack, levelLegal e ∧ p.auth.flags.get e.source = true)

/-- From `p` to `q` the entries of the sources that fell leave the stack, and the others keep their order;
AUTHORITY_CHANGE is set when the top leaves, and a removal in place sets nothing (R49 to R51). -/
def entriesReleased (fell : Source → Bool) (p q : Part) : Prop :=
  let top := p.auth.stack.head?
  q.auth.stack = p.auth.stack.filter (fun e => !fell e.source) ∧
    (∀ e, top = some e → fell e.source = true → hasEvent .authorityChange .pd q) ∧
    ((∀ e, top = some e → fell e.source = false) → hasEvent .authorityChange .pd q →
      hasEvent .authorityChange .pd p)

/-- From `p` to `q` a status frame of this partner arrived: the part is READY when it was, or when the frame leaves the
last of the four partners out of NEVER (R205). -/
def readyAfter (partner : Partner) (p q : Part) : Prop :=
  q.partState = .ready ↔ p.partState = .ready ∨ ∀ other, other ≠ partner → p.fresh other ≠ .never

/-! ### Hold and generator link -/

/-- The link states the law of R101 excludes in a quiet hold. -/
def LinkState.starting (l : LinkState) : Bool := l = .startSent || l = .cranking || l = .settling

/-- A record made in a quiet hold has G zero (the law of R101). -/
def quietRecord (r : AccountRecord) : Prop := r.hold = .holdQuiet ∨ r.hold = .layover → r.g = 0

/-- G is zero in a quiet hold (the law of R101): in every record made in one; in the settlement in progress, whose
set-point is also zero when it took a DUMP request; and in the next one, for which the request is pending while the
link still unloads (R19). -/
def quietSetPoint (p : Part) : Prop :=
  (∀ r ∈ p.account.history, quietRecord r) ∧ (∀ c, p.account.current = some c → quietRecord c.1) ∧
    (∀ st, p.account.settling = some st →
      quietRecord st.record ∧ (st.tookDump = true → st.record.g = 0)) ∧
    (quietHold p = true → p.gen.link = .unloading → p.account.dump = true)

/-- The hold controller and the link in order: in HOLD_QUIET and LAYOVER the link is not starting and not in RUN, and
G is zero (the law of R101); no engine starts or runs in a quiet zone, and the state is then not HOLD_RUN (R100, R102,
R104, R118); a hold start request stands only in HOLD_RUN (R106); the promotion timer runs only in HOLD_QUIET, the
layover timer only in LAYOVER, and the latch is set only in a quiet hold (R103 to R105); the link is LOCKED_OUT
exactly while three failures are counted, and a locked-out link holds no start request (R111, R120, R121). -/
def holdSound (p : Part) : Prop :=
  (quietHold p = true → p.gen.link.starting = false ∧ p.gen.link ≠ .run) ∧ quietSetPoint p ∧
    (effQuietZone p = true → p.gen.link.starting = false ∧ p.gen.link ≠ .run ∧ p.gen.link ≠ .unloading ∧
      p.hold.state ≠ .holdRun) ∧
    (p.gen.startRequest = true → p.hold.state = .holdRun) ∧
    (p.hold.promotion = true → p.hold.state = .holdQuiet) ∧
    (p.hold.layover = true → p.hold.state = .layover) ∧
    (p.hold.latch = true → quietHold p = true) ∧
    p.gen.failures ≤ 3 ∧ (p.gen.failures = 3 ↔ p.gen.link = .lockedOut) ∧
    (p.gen.link = .lockedOut → p.gen.startRequest = false)

/-! ### Wear and derating -/

/-- The warning list holds exactly one entry for each item whose level is not OK, at the item's level, and
none for the others; item 11 has no level (the law of R173). -/
def warningsSound (p : Part) : Prop :=
  p.wear[11].level = .ok ∧
    ∀ i : WearNo, (p.warnings.filter (·.item = i)).map (·.level) =
      if p.wear[i].level = .ok then [] else [p.wear[i].level]

/-- The override factor is in force (R131, R133, R134). -/
def overriding (p : Part) : Prop := p.derate.thermal = .active ∨ p.derate.forced = true

/-- Any lining item is at LIMIT (R133). -/
def liningLimited (p : Part) : Prop := p.wear[0].level = .limit ∨ p.wear[1].level = .limit ∨ p.wear[2].level = .limit

/-- The value is the least of 1000 and the caps in force: the economy factor, the override factor and the lining
cap (R125, R133). -/
def leastCap (p : Part) (d : Nat) : Prop :=
  d ≤ 1000 ∧ (p.cfg.on .economyEnable = true → d ≤ 1000 - 125 * p.cfg.num .economyCode) ∧
    (overriding p → d ≤ 1000 - 125 * p.derate.overrideCode) ∧ (liningLimited p → d ≤ 750) ∧
    (d = 1000 ∨ (p.cfg.on .economyEnable = true ∧ d = 1000 - 125 * p.cfg.num .economyCode) ∨
      (overriding p ∧ d = 1000 - 125 * p.derate.overrideCode) ∨ (liningLimited p ∧ d = 750))

/-- An item's level is the one R166 forms: the threshold level for items 3 to 10; for a lining item the higher of the
threshold level and the sensor level, in the order OK, UNKNOWN, WARN, LIMIT, and its disagree flag is set while one of
the two is OK and the other LIMIT. -/
def levelFormed (i : WearNo) (it : WearItem) : Prop :=
  let threshold : Level :=
    if it.unknown.isSome then .unknown
    else if it.limit ≠ 0 ∧ it.limit ≤ it.acc then .limit
    else if it.warn ≠ 0 ∧ it.warn ≤ it.acc then .warn
    else .ok
  let sensor : Level := if it.stage ≤ 1 then .ok else if it.stage = 2 then .warn else .limit
  (3 ≤ i.val → i.val ≤ 10 → it.level = threshold) ∧
    (i.val ≤ 2 →
      (it.level = if threshold = .limit ∨ sensor = .limit then .limit
        else if threshold = .warn ∨ sensor = .warn then .warn else threshold) ∧
      (it.disagree = true ↔ (threshold = .ok ∧ sensor = .limit) ∨ (threshold = .limit ∧ sensor = .ok)))

/-- A change from one level to a higher one that is not OK, in the order OK, UNKNOWN, WARN, LIMIT (R166, R173). -/
def levelRises (old new : Level) : Prop :=
  new ≠ old ∧ new ≠ .ok ∧ (old = .ok ∨ new = .limit ∨ (old = .unknown ∧ new = .warn))

/-- From `p` to `q` a change of the item's level was stamped and handed on: a rise appends an unacknowledged entry and
sets WARNING_NEW, a fall to OK leaves no entry, and a lining item that reaches LIMIT sets LINING_LIMIT (R168, R173).
-/
def levelHandedOn (i : WearNo) (p q : Part) : Prop :=
  let old := p.wear[i].level
  let new := q.wear[i].level
  (new = old → q.wear[i].changed = p.wear[i].changed) ∧
    (new ≠ old → q.wear[i].changed = p.time.now) ∧
    (levelRises old new → ⟨i, new, p.time.now, false⟩ ∈ q.warnings ∧ hasEvent .warningNew .pd q ∧
      hasEvent .warningNew .sv q) ∧
    (new ≠ old → new = .ok → ∀ w ∈ q.warnings, w.item ≠ i) ∧
    (i.val ≤ 2 → new ≠ old → new = .limit → hasEvent .liningLimit .pb q)

/-- From `p` to `q` the item gained `k` units: its accumulator and its unknown amount rise alike, each held at its
maximum; the event that first holds the accumulator sets the saturated flag and, with the notice on, WEAR_SATURATED
(R167, R169). The thresholds, the notice and the stage stay. -/
def unitsAdded (i : WearNo) (k : Nat) (p q : Part) : Prop :=
  let before := p.wear[i]
  let after := q.wear[i]
  after.acc = min (before.acc + k) 4294967295 ∧
    after.unknown = before.unknown.map (fun u => min (u + k) 4294967295) ∧
    (after.saturated = true ↔ before.saturated = true ∨ 4294967295 < before.acc + k) ∧
    (4294967295 < before.acc + k → before.saturated = false → before.notice = true →
      hasEvent .wearSaturated .sv q) ∧
    after.warn = before.warn ∧ after.limit = before.limit ∧ after.notice = before.notice ∧
    after.stage = before.stage

/-- From `p` to `q` one unit was counted on the item, and its level judged at once (R164 to R166). -/
def countedOnce (i : WearNo) (p q : Part) : Prop :=
  unitsAdded i 1 p q ∧ q.wear[i].residual = p.wear[i].residual ∧ levelFormed i q.wear[i] ∧ levelHandedOn i p q

/-- From `p` to `q` the cycle items judged a new result of the channel: item 3 channel 12, item 4 channel 13, item 5
channel 14, item 6 channel 15. Above cyc_high a clear armed flag is set; below cyc_low a set one clears and one cycle
is counted; else nothing changes (R164). -/
def cycleJudged (ch : Channel) (value : Int) (p q : Part) : Prop :=
  ∀ i : WearNo, 3 ≤ i.val → i.val ≤ 6 →
    let high : Int := if i.val ≤ 4 then 150 else 90
    let low : Int := if i.val ≤ 4 then 80 else 50
    let before := p.wear[i]
    (ch.val = i.val + 9 →
      (before.armed = false → high < value → q.wear[i] = { before with armed := true }) ∧
      (before.armed = true → value < low → q.wear[i].armed = false ∧ countedOnce i p q) ∧
      (before.armed = false → value ≤ high → q.wear[i] = before) ∧
      (before.armed = true → low ≤ value → q.wear[i] = before)) ∧
    (ch.val ≠ i.val + 9 → q.wear[i] = before)

/-- From `p` to `q` the lining item latched the higher of the stages its two sensors give, where that is above the
latched one; an invalid result gives none. Its level is then formed again (R166, R167). -/
def stageLatched (i : WearNo) (left right : SenseResult) (p q : Part) : Prop :=
  let stage (r : SenseResult) : Nat := if r.valid then r.value.toNat else 0
  let found := max (stage left) (stage right)
  let before := p.wear[i]
  let after := q.wear[i]
  (found ≤ before.stage → after = before) ∧
    (before.stage < found → levelFormed i after ∧ levelHandedOn i p q ∧
      after = { before with
        stage := found, level := after.level, changed := after.changed, disagree := after.disagree })

/-- While the run supply is up, an asserted reset line holds the part in a reset that waits with its cause (R201,
R204). -/
def heldSound (p : Part) : Prop :=
  p.power.supply = true → p.power.resetLine = true → p.power.held.isSome = true

/-- The five factors are the ones the unit's causes give (R124, R132 to R136). -/
def factorsFormed (p : Part) : Prop :=
  leastCap p p.derate.factors.dTrac ∧
  (overriding p → p.derate.factors.dRegen = 1000 - 125 * p.derate.overrideCode) ∧
  (¬ overriding p → p.derate.factors.dRegen = 1000) ∧
  (p.derate.factors.dBat =
    if p.wear[7].level = .warn then 900 else if p.wear[7].level = .limit then 750 else 1000) ∧
  (p.derate.factors.kA = if p.wear[3].level = .limit ∨ p.wear[5].level = .limit then 500 else 1000) ∧
  (p.derate.factors.kB = if p.wear[4].level = .limit ∨ p.wear[6].level = .limit then 500 else 1000)

/-- While the part runs its factors are current; and a part that is up but held in reset waits with a cause, so that
its release forms them (R124, R137, R201). -/
def factorsCurrent (p : Part) : Prop := heldSound p ∧ (p.running = true → factorsFormed p)

/-- A d_trac other than the one before sets DERATE_CHANGE (R133). -/
def derateChangeSet (p q : Part) : Prop :=
  q.derate.factors.dTrac ≠ p.derate.factors.dTrac → hasEvent .derateChange .pd q

/-- From `p` to `q` the factors were formed again, once: DERATE_CHANGE is set exactly when d_trac changed
(R124, R133). -/
def factorsReformed (p q : Part) : Prop :=
  factorsFormed q ∧ derateChangeSet p q ∧
    (q.derate.factors.dTrac = p.derate.factors.dTrac → hasEvent .derateChange .pd q → hasEvent .derateChange .pd p)

/-- From `p` to `q` the thermal set became `set`: from empty, OFF goes to ARMING with the arming timer and the
clearing timer of ACTIVE stops; to empty, ARMING goes to OFF and ACTIVE starts its clearing timer; any other change
moves no state and no timer. The factors are formed again (R124, R127, R128). -/
def thermalSetBecomes (set : BitVec 8) (p q : Part) : Prop :=
  let before := p.derate
  let after := q.derate
  after = { before with
    thermalSet := set, thermal := after.thermal, timer := after.timer, factors := after.factors } ∧
    (before.thermalSet = 0#8 → set ≠ 0#8 →
      (before.thermal = .off → after.thermal = .arming ∧
        after.timer = some ⟨p.time.now, p.cfg.num .thermalArm⟩) ∧
      (before.thermal = .arming → after.thermal = .arming ∧ after.timer = before.timer) ∧
      (before.thermal = .active → after.thermal = .active ∧ after.timer = none)) ∧
    (before.thermalSet ≠ 0#8 → set = 0#8 →
      (before.thermal = .off → after.thermal = .off ∧ after.timer = before.timer) ∧
      (before.thermal = .arming → after.thermal = .off ∧ after.timer = none) ∧
      (before.thermal = .active → after.thermal = .active ∧
        after.timer = some ⟨p.time.now, p.cfg.num .thermalClear⟩)) ∧
    ((before.thermalSet = 0#8 ↔ set = 0#8) → after.thermal = before.thermal ∧ after.timer = before.timer) ∧
    factorsReformed p q

/-- The thermal set with a monitor in it (R127, R194). -/
def thermalSetWith (k : MonitorNo) (p : Part) : BitVec 8 := p.derate.thermalSet ||| (1#8 <<< k.val)

/-- The thermal set without a monitor (R127, R194). -/
def thermalSetWithout (k : MonitorNo) (p : Part) : BitVec 8 := p.derate.thermalSet &&& ~~~(1#8 <<< k.val)

/-! ### The scanner -/

/-- A routine run as it starts: an ordinary one of run_length entries, a round-completing one of the entries from the
position to the end of the list (R144, R145). -/
def startingRun (kind : RunKind) (p : Part) : RoutineRun :=
  ⟨if kind = .ordinary then p.cfg.num .runLength else p.cfg.routineList.length - p.scan.position, kind⟩

/-- From `p` to `q` the scanner took its next step after a calibration: a suspended routine run resumes, else a
pending trigger is taken, else the scanner is IDLE; calibration waiting is clear (R145, R149). -/
def nextStepTaken (p q : Part) : Prop :=
  (p.scan.run.isSome = true → q.scan = { p.scan with mode := .routineRun, calWaiting := false }) ∧
    (p.scan.run = none → p.scan.pending = none → q.scan = { p.scan with mode := .idle, calWaiting := false }) ∧
    (∀ kind, p.scan.run = none → p.scan.pending = some kind → q.scan = { p.scan with
      mode := .routineRun, calWaiting := false, pending := none, run := some (startingRun kind p) })

/-- From `p` to `q` the vehicle ceased to stand: a calibration in progress is abandoned and the scanner takes its next
step; a waiting one is abandoned before it begins; else nothing changes. No offset is replaced (R150). -/
def standingCeased (p q : Part) : Prop :=
  (p.scan.mode.code = 3 → q.cal = ⟨p.cal.offsets, .abandoned, none⟩ ∧ nextStepTaken p q) ∧
    (p.scan.mode.code ≠ 3 → p.scan.calWaiting = true → q.cal = ⟨p.cal.offsets, .abandoned, none⟩ ∧
      q.scan = { p.scan with calWaiting := false }) ∧
    (p.scan.mode.code ≠ 3 → p.scan.calWaiting = false → q.cal = p.cal ∧ q.scan = p.scan)

/-- From `p` to `q` a monitor took a written configuration: one that changes more than the action returns the monitor
to INSIDE with count 0, its trips kept; its place in the thermal set follows its state and its action (R127, R156). -/
def monitorRewritten (k : MonitorNo) (new : MonitorCfg) (p q : Part) : Prop :=
  let old := p.cfg.monitors[k]
  let m := p.scan.monitors[k]
  let action := { old with action := new.action } = new
  let before := m.state = .tripped ∧ old.action = .thermalOverride
  let after := m.state = .tripped ∧ new.action = .thermalOverride ∧ action
  (action → q.scan = p.scan) ∧
    (¬ action → q.scan = { p.scan with
      monitors := p.scan.monitors.set k { m with state := .inside, count := 0 } }) ∧
    (before ∧ ¬ after → thermalSetBecomes (thermalSetWithout k p) p q) ∧
    (¬ before ∧ after → thermalSetBecomes (thermalSetWith k p) p q) ∧
    ((before ↔ after) → q.derate = p.derate)

/-! ### Values on the line -/

/-- One byte of a number. -/
def byteOf (n : Nat) : Byte := BitVec.ofNat 8 n

/-- A number in two bytes, most significant first (R179). -/
def twoBytes (n : Nat) : List Byte := [byteOf (n / 256), byteOf n]

/-- A number in four bytes, most significant first (R179). -/
def fourBytes (n : Nat) : List Byte := twoBytes (n / 65536) ++ twoBytes n

/-- A signed number in two bytes, two's complement (R194). -/
def twoSigned (z : Int) : List Byte := twoBytes (z % 65536).toNat

/-- The number that bytes spell, most significant first (R179). -/
def numberOf (bytes : List Byte) : Nat := bytes.foldl (fun n b => 256 * n + b.toNat) 0

/-- The signed number that two bytes spell (R194). -/
def signedOf (bytes : List Byte) : Int :=
  if numberOf bytes < 32768 then (numberOf bytes : Int) else (numberOf bytes : Int) - 65536

/-- The byte of a scope: 0 to 21 for a channel, 22 DISC, 23 MOTOR, 24 INVERTER, 255 NONE (R196). -/
def scopeByte : Scope → Byte
  | .channel ch => byteOf ch.val
  | .disc => 22#8
  | .motor => 23#8
  | .inverter => 24#8
  | .none => 255#8

/-- The byte of a monitor's action, in the order of R152 (R194). -/
def actionByte : MonitorAction → Byte
  | .statusOnly => 0#8
  | .thermalOverride => 1#8
  | .resistorInhibit => 2#8
  | .discHot => 3#8

/-- A monitor item's bytes: its fields in the order of R152 (R196). -/
def monitorForm (c : MonitorCfg) : List Byte :=
  [scopeByte c.scope] ++ twoSigned c.low ++ twoSigned c.high ++ twoBytes c.hysteresis ++
    [byteOf c.persistence, actionByte c.action]

/-- The form in which CONFIG_WRITE carries an item's value and READ CONFIG answers it (R196). -/
def configForm (it : ConfigItem) (p : Part) : List Byte :=
  match it with
  | .num i => if i.row.high ≤ 255 then [byteOf (p.cfg.num i)] else twoBytes (p.cfg.num i)
  | .axleShares =>
    twoBytes p.cfg.axleShares.axle1 ++ twoBytes p.cfg.axleShares.axle2 ++ twoBytes p.cfg.axleShares.axle3
  | .overrideCode => [byteOf p.derate.overrideCode]
  | .eventGroup => byteOf p.cfg.eventGroup.length :: p.cfg.eventGroup.map (byteOf ·.val)
  | .routineList => byteOf p.cfg.routineList.length :: p.cfg.routineList.map (byteOf ·.val)
  | .monitor k => monitorForm p.cfg.monitors[k]
  | .enables port => twoBytes (p.cfg.enables.get port).toNat
  | .resetMask => [byteOf p.cfg.resetMask.toNat]

/-- The range of a channel's values (the table of R139). -/
def channelRange (ch : Nat) : Int × Int :=
  if 6 ≤ ch ∧ ch ≤ 11 then (0, 3)
  else if ch = 16 then (0, 900)
  else if ch = 17 then (-600, 600)
  else if ch = 18 then (0, 400)
  else if ch = 19 then (0, 150)
  else (-40, 215)

/-- The channels that a scope byte names (R152, R196). -/
def scopeBytes (scope : Nat) : List Nat :=
  if scope ≤ 21 then [scope]
  else if scope = 22 then [0, 1, 2, 3, 4, 5]
  else if scope = 23 then [12, 13]
  else if scope = 24 then [14, 15]
  else []

/-- The bytes are no count byte and as many channels, one to a maximum (R142, R144, R196). -/
def listIll (most : Nat) (bytes : List Byte) : Prop :=
  bytes.length < 2 ∨ most + 1 < bytes.length ∨ numberOf (bytes.take 1) ≠ bytes.length - 1 ∨
    ∃ b ∈ bytes.drop 1, 22 ≤ b.toNat

/-- The bytes are no monitor item: another length, a scope or an action that is none, thresholds not in order or outside
the range of the scope's channels, a hysteresis above half the window, or a persistence outside 1 to 15 (R152). -/
def monitorIll (bytes : List Byte) : Prop :=
  let scope := numberOf (bytes.take 1)
  let low := signedOf ((bytes.drop 1).take 2)
  let high := signedOf ((bytes.drop 3).take 2)
  let hysteresis := numberOf ((bytes.drop 5).take 2)
  let persistence := numberOf ((bytes.drop 7).take 1)
  bytes.length ≠ 9 ∨ (24 < scope ∧ scope ≠ 255) ∨ 3 < numberOf (bytes.drop 8) ∨ high ≤ low ∨
    (high - low) / 2 < (hysteresis : Int) ∨ persistence = 0 ∨ 15 < persistence ∨
    ∃ ch ∈ scopeBytes scope, low < (channelRange ch).1 ∨ (channelRange ch).2 < low ∨
      high < (channelRange ch).1 ∨ (channelRange ch).2 < high

/-- The third test of R197 refuses the value: its length does not fit the item's form, a field lies outside its range
(section 10.1, R142, R144, R152), or it breaks a combination condition of R198. -/
def valueIll (it : ConfigItem) (bytes : List Byte) (c : ConfigStore) : Prop :=
  let n := numberOf bytes
  match it with
  | .num i =>
    let d := c.setNum i n
    bytes.length ≠ (if i.row.high ≤ 255 then 1 else 2) ∨ n < i.row.low ∨ i.row.high < n ∨
      (i ∈ [NumItem.socLow, .socHigh, .socStart, .socStop, .socFloor] ∧
        (d.num .socHigh < d.num .socLow + 50 ∨ d.num .socStart ≤ d.num .socFloor ∨
          d.num .socStop ≤ d.num .socStart))
  | .axleShares =>
    bytes.length ≠ 6 ∨
      numberOf (bytes.take 2) + numberOf ((bytes.drop 2).take 2) + numberOf (bytes.drop 4) ≠ 1000
  | .overrideCode => bytes.length ≠ 1 ∨ 7 < n
  | .eventGroup => listIll 4 bytes ∨ ¬ (bytes.drop 1).Nodup
  | .routineList => listIll 16 bytes
  | .monitor _ => monitorIll bytes
  | .enables port =>
    bytes.length ≠ 2 ∨ ∃ k ∈ List.range 15, n.testBit k = true ∧ (eventsOf port).getLsbD k = false
  | .resetMask => bytes.length ≠ 1 ∨ n % 8 = 1 ∨ n % 8 = 2 ∨ n % 8 = 4

/-- What a READ is refused with for the item and the index it names (R191, R192). -/
def readRefusal (item : Byte) (index : BitVec 16) : Option ReplyCode :=
  let i := item.toNat
  let x := index.toNat
  if 14 ≤ i ∨ (i = 11 ∧ (x = 0 ∨ 64 < x)) then some .unknownItem
  else if (i = 6 ∧ 22 ≤ x) ∨ (i = 7 ∧ 8 ≤ x) ∨ (i = 8 ∧ 12 ≤ x) ∨ (i = 10 ∧ 4 ≤ x) then some .range
  else none

/-- An account record as READ answers it, in the order of R20: seq, the seven flows, a_dem, REG_applied, flags, base,
governing, hold state and stamp, 30 bytes (R194, section 9.8). -/
def recordForm (r : AccountRecord) : List Byte :=
  let source (o : Option Source) : Byte := match o with
    | none => 255#8
    | some src => byteOf src.ctorIdx
  fourBytes r.seq.toNat ++
    [r.t, r.x, r.c, r.q, r.d, r.g, r.rg, r.aDem, r.regApplied].flatMap twoBytes ++
    [byteOf (r.flags.overdraw.toNat + 2 * r.flags.overcharge.toNat + 4 * r.flags.senseHeld.toNat +
      8 * r.flags.episode.toNat + 16 * r.flags.dump.toNat), source r.base, source r.governing,
      byteOf r.hold.ctorIdx] ++ fourBytes r.stamp.toNat

/-- The content of an answer to READ, for the account, the monitors, the warning list, the configuration, the port's
status and the reset cause (R21, R157, R176, R193, R196, R204), in the encoding of R194. -/
def answerContent (port : Port) (item : Byte) (index : BitVec 16) (p : Part) (content : List Byte) : Prop :=
  let status := p.port port
  (item = 0#8 → p.account.current = none → content = [0#8]) ∧
  (∀ r w, item = 0#8 → p.account.current = some (r, w) → content = 1#8 :: recordForm r) ∧
  (item = 1#8 → content = byteOf p.account.history.length :: p.account.history.flatMap recordForm) ∧
  (∀ k : MonitorNo, item = 7#8 → index.toNat = k.val → content = monitorForm p.cfg.monitors[k] ++
    [byteOf p.scan.monitors[k].state.ctorIdx, byteOf p.scan.monitors[k].count] ++
    twoBytes p.scan.monitors[k].trips ++ fourBytes p.scan.monitors[k].tripStamp.toNat) ∧
  (item = 9#8 → content = byteOf p.warnings.length :: p.warnings.flatMap fun w =>
    [byteOf w.item.val, byteOf w.level.ctorIdx] ++ fourBytes w.raised.toNat ++ [byteOf w.acknowledged.toNat]) ∧
  (∀ it, item = 11#8 → configItemOf index.toNat = some it → content = configForm it p) ∧
  (item = 12#8 → content = twoBytes status.status.toNat ++ twoBytes (p.cfg.enables.get port).toNat ++
    [byteOf (attention p port).toNat, status.causes, byteOf status.waitingReplies] ++
    [Partner.drive, .storage, .generator, .brake].map (fun partner => byteOf (p.fresh partner).ctorIdx) ++
    [byteOf p.links.a.freshness.ctorIdx, byteOf p.links.b.freshness.ctorIdx, byteOf p.partState.ctorIdx]) ∧
  (item = 13#8 → content =
    [byteOf p.cause.cause.ctorIdx, byteOf p.cause.lost.toNat] ++ twoBytes p.cause.count ++
    [byteOf p.partState.ctorIdx] ++
    (if p.partState = .starting then 1#8 :: twoBytes (2000 - p.time.now.toNat) else [0#8]) ++
    [byteOf p.watch.state.ctorIdx, byteOf p.cfg.resetMask.toNat] ++
    (if p.watch.state = .timing then [1#8, byteOf (100 - (p.time.now - p.watch.since).toNat)] else [0#8]))

/-! ### Transmitters -/

/-- A transmitter that sends nothing has nothing queued (R184). -/
def txSound (t : Transmitter) : Prop := t.sending = none → t.queue = []

/-- Every transmitter of the part is in order (R184), and no port holds more than four waiting replies
(R182). -/
def transmittersSound (p : Part) : Prop :=
  (∀ port, txSound (p.port port).tx ∧ (p.port port).waitingReplies ≤ Config.replyPlaces) ∧
    txSound p.links.a.tx ∧ txSound p.links.b.tx

/-! ### Resets -/

/-- The commands of the supplies, the reset line and the emergency lines, which act whether or not the run
domain runs (R199, R201). -/
def ofSupplies : Instr → Bool
  | .runDomainPowerUp | .resetLineAssert | .resetLineRelease | .emergencyLineChange _ _
  | .runDomainPowerDown | .keepAliveSupplyFailure => true
  | .combinationHoldExpiry | .driveStatus _ _ _ _ | .storageStatus _ _ _ _ | .genStatus _ _
  | .brakeStatus _ _ _ _ _ | .invStatus _ _ _ _ _ | .frameError _ _ _ | .read _ _ _ _
  | .configWrite _ _ _ | .clearStatus _ _ | .loadBlend _ _ _ _ | .ackWarning _ _ | .forceDerate _ _
  | .wearWrite _ _ _ _ | .wearReset _ _ | .calibrate _ | .clearLockout _ | .frameSent _
  | .settlementTimerExpiry | .conversionComplete _ | .routineTrigger | .calibrationEnd
  | .settlementBegin | .accountSettled | .promotionTimerExpiry | .layoverTimerExpiry | .startTimeout
  | .genSettleExpiry | .stopTimeout | .retryDelayExpiry | .partnerStale _ | .partnerLost _
  | .startWindowExpiry | .motorLinkStale _ | .armingTimerExpiry | .clearingTimerExpiry => false

/-- The commands that can make a run reset or hold the part in one (R201). -/
def resetsPart (i : Instr) : Bool := ofSupplies i || i = .combinationHoldExpiry

/-- Any emergency line is active (R52). -/
def anyLineActive (p : Part) : Bool := p.lines.el0 || p.lines.el1 || p.lines.el2

/-- The run domain as a run reset leaves it (R26, R42, R56, R61, R97, R98, R111, R137, R139, R141, R157, R195,
R202, R205); what the blocks evaluate at once after the reset stands as its conditions give it. -/
def runDomainReset (q : Part) : Prop :=
  q.time = ⟨0#32, 0#32⟩ ∧ q.partState = .starting ∧ q.image = resetImage ∧ q.links = ⟨resetLink, resetLink⟩ ∧
    q.account = resetAccount ∧ q.blend = resetBlend ∧ q.hold = resetHold ∧ q.gen = resetSequencer ∧
    q.scan = resetScanner ∧ q.ports.reportCount = 0 ∧
    (∀ port, (q.port port).causes = 0#8 ∧ (q.port port).snapshot = none ∧ (q.port port).tx = ⟨none, []⟩) ∧
    q.auth = ⟨⟨anyLineActive q, false, false, false, false, false⟩, []⟩ ∧
    q.derate = { resetDerate with factors := formFactors q } ∧
    q.watch.state = (if q.cfg.resetMask ≠ 0#3 ∧ q.lines.bits &&& q.cfg.resetMask ≠ q.cfg.resetMask
      then .armed else .disarmed)

/-- The keep-alive domain as a run reset leaves it that finds it whole: every content kept, the cause recorded,
a calibration in progress abandoned (R150, R199, R204). -/
def keepAliveKept (cause : ResetCause) (p q : Part) : Prop :=
  q.cfg = p.cfg ∧ q.slots = p.slots ∧ q.wear = p.wear ∧ q.warnings = p.warnings ∧
    q.cal.offsets = p.cal.offsets ∧
    (p.scan.mode.code ≠ 3 → q.cal = p.cal) ∧ (p.scan.mode.code = 3 → q.cal.outcome = .abandoned) ∧
    q.cause = ⟨cause, false, min (p.cause.count + 1) 65535⟩ ∧ ∀ port, (q.port port).status = 0#16

/-- The keep-alive domain as a run reset leaves it that finds keep-alive loss (R200, R204). -/
def keepAliveLost (q : Part) : Prop :=
  q.cfg = defaultConfig ∧ q.slots = Vector.replicate 4 defaultSlot ∧ q.cal = defaultCalibration ∧
    q.wear = lostWear ∧ q.warnings = lostWarnings ∧ q.cause = ⟨.powerOn, true, 1⟩ ∧
    (∀ port, (q.port port).status = if port = .pd ∨ port = .sv then Event.warningNew.mask else 0#16)

/-- From `p` to `q` a run reset with this cause was made (R200, R201, R204). -/
def runResetMade (cause : ResetCause) (p q : Part) : Prop :=
  runDomainReset q ∧ q.marker = true ∧ q.lines = p.lines ∧ q.running = true ∧ q.power.held = none ∧
    (p.marker = true → keepAliveKept cause p q) ∧ (p.marker = false → keepAliveLost q)

/-- The keep-alive domain is the same (R199). -/
def keepAliveSame (p q : Part) : Prop :=
  q.marker = p.marker ∧ q.cfg = p.cfg ∧ q.slots = p.slots ∧ q.cal = p.cal ∧ q.wear = p.wear ∧
    q.warnings = p.warnings ∧ q.cause = p.cause

/-! ### Blend programs -/

/-- Every step's modifier lies in its operator's range (R76). -/
def programLegal (program : List BlendStep) : Prop := ∀ s ∈ program, modifierOk s.op s.modifier = true

/-- A program as the store holds it: one to sixteen legal steps, the last flag on the final one and nowhere else
(R75, R76). -/
def programWhole (program : List BlendStep) : Prop :=
  1 ≤ program.length ∧ program.length ≤ 16 ∧ programLegal program ∧ lastFlagsOk program = true ∧
    endsLast program = true

/-- A load assembly holds eight legal steps, none of them the last (R78). -/
def assemblySound (a : Assembly) : Prop :=
  a.steps.length = 8 ∧ programLegal a.steps ∧ ∀ s ∈ a.steps, s.last = false

/-- The program store in order: every active and every pending program is whole, and every open assembly holds
legal steps (R75, R76, R78). -/
def programsSound (p : Part) : Prop :=
  (∀ slot : SlotNo, programWhole p.slots[slot].active ∧
    ∀ program, p.slots[slot].pending = some program → programWhole program) ∧
  ∀ port a, assemblyOf port p.blend = some a → assemblySound a

end Sys2Proof.Machine
end

