-- ==== Sys2Proof/Certificates/Slice0/Obligations.lean ====
section
/-! DEFINITION. The statements for the provers. A statement about a request assumes that it is taken
(`takesRequest`): the part runs and fewer than four replies wait (R181, R182). -/

open Sys2Proof Sys2Proof.Machine

/-! ### The queue -/

/-- A step takes the command at the front of the queue and runs it with the queue's rest. -/
def Obligations.StepRunsFrontCommand : Prop :=
  ∀ (c : Instr) (rest : List Instr) (p : Part), step ⟨c :: rest, p⟩ = exec c ⟨rest, p⟩

/-- With no command waiting a part that does not run stays as it is; a running part queues the events that are
due, and when none is, a millisecond of the timebase passes and nothing else changes. That time passes so is the
model's choice (notes/assumptions/2.md). -/
def Obligations.IdleStepIsTheTick : Prop :=
  ∀ p : Part,
    (p.running = false → step ⟨[], p⟩ = .next ⟨[], p⟩) ∧
    (p.running = true → dueEvents p = [] → ∃ t, step ⟨[], p⟩ = .next t ∧ t.pending = [] ∧
      t.part.time.now = p.time.now + 1 ∧ t.part.time.settleMark = p.time.settleMark ∧
      changesOnly [.time] p t.part) ∧
    (p.running = true → dueEvents p ≠ [] → step ⟨[], p⟩ = .next ⟨dueEvents p, p⟩)

/-- In reset, and without the run supply, every command but those of the supplies, the reset line and the
emergency lines changes nothing. R201 says it of frames and of sending; that timers, conversions and the settlement's
events change nothing either is the model's inference (notes/assumptions/3.md). -/
def Obligations.NothingHappensInReset : Prop :=
  ∀ (i : Instr) (s : State), s.part.running = false → ofSupplies i = false → exec i s = .next s

/-! ### Frames on the line -/

/-- Every well-formed command that arrives as a frame is the command that its frame spells (R179 to R181,
R194). That a received frame is one command is the model's choice (notes/assumptions/10.md). -/
def Obligations.FrameRoundTrip : Prop :=
  ∀ (i : Instr) (line : Line) (bytes : List Byte), i.wellFormed = true →
    encodeFrame i = some (line, bytes) → decodeFrame line false bytes = some i

/-- The checks of a received frame, made in their order, the first that fails deciding: framing, length, CRC, kind,
the kind's length, and the line it came in on, where a request kind on a port is answered NOT_PERMITTED (R178, R180);
on a motor link INV_STATUS alone passes. A discarded frame sets FRAME_ERROR and adds its cause on a port and changes
nothing else; on a motor link it changes nothing. -/
def Obligations.BadFrameIsRecorded : Prop :=
  ∀ (line : Line) (framing : Bool) (bytes : List Byte) (s : State), s.part.running = true →
    let n := bytes.length
    let lengthByte := (bytes.getD 1 0#8).toNat
    let verdict := checkFrame line framing bytes
    (framing = true → verdict = .discarded .framing) ∧
    (framing = false →
      (n < 4 ∨ 28 < n ∨ n ≠ lengthByte + 4 → verdict = .discarded .length) ∧
      (4 ≤ n → n ≤ 28 → n = lengthByte + 4 →
        (bytes.drop (n - 2) ≠ bytes2 (crc (bytes.take (n - 2))) → verdict = .discarded .crc) ∧
        (bytes.drop (n - 2) = bytes2 (crc (bytes.take (n - 2))) →
          ((∀ k : Kind, k.code ≠ bytes.getD 0 0#8) → verdict = .discarded .kind) ∧
          (∀ k : Kind, k.code = bytes.getD 0 0#8 →
            (k.lengthOk lengthByte = false → verdict = .discarded .length) ∧
            (k.lengthOk lengthByte = true →
              (k.takenOn line = true → verdict = .taken k) ∧
              (k.takenOn line = false → (∃ port, line = .port port) → k.isRequest = true →
                verdict = .notPermitted k) ∧
              (k.takenOn line = false → (∃ motor, line = .link motor) ∨ k.isRequest = false →
                verdict = .discarded .permission)))))) ∧
    (∀ k motor, line = .link motor → verdict = .taken k → k = .invStatus) ∧
    (∀ cause, verdict = .discarded cause →
      (∀ motor, line = .link motor → exec (.frameError line framing bytes) s = .next s) ∧
      (∀ port, line = .port port → ∃ t, exec (.frameError line framing bytes) s = .next t ∧
        frameErrorRecorded port cause s.part t.part))

/-! ### Status frames -/

/-- DRIVE_STATUS: every field clamped and stored, the partner FRESH with the arrival stamp, the part READY when no
partner is NEVER any more, the TRACTION and BLEND flags as their conditions give them, a flag that falls releasing its
entry, from the top with AUTHORITY_CHANGE; a quiet zone that comes on takes a starting or working link to STOP_SENT; in
DRIVE without a hold request or a rising quiet zone no hold state, link or account changes (R28, R32, R33, R43, R50,
R99, R118, R205). -/
def Obligations.DriveStatusTaken : Prop :=
  ∀ (pedal aDem : BitVec 16) (direction flags : Byte) (s : State), s.part.running = true →
    ∃ t, exec (.driveStatus pedal aDem direction flags) s = .next t ∧ t.pending = s.pending ∧
      t.part.image = { s.part.image with
        drive :=
          { data :=
              { pedal := min pedal.toNat 1000
                aDem := min aDem.toNat 500
                direction := if direction = 1#8 then .forward else if direction = 2#8 then .reverse
                  else .neutral
                holdRequest := flags.getLsbD 0
                layoverRequest := flags.getLsbD 1
                quietZone := flags.getLsbD 2
                reserve := flags.getLsbD 3 }
            stamp := s.part.time.now
            freshness := .fresh } } ∧
      readyAfter .drive s.part t.part ∧
      t.part.auth.flags = { s.part.auth.flags with
        traction := direction = 1#8 || direction = 2#8
        blend := s.part.blend.episode && direction = 1#8 &&
          decide (s.part.cfg.num .vMinRegen ≤ s.part.image.brake.data.v) &&
          (s.part.image.brake.freshness = .fresh || s.part.image.brake.freshness = .stale)
        hold := if t.part.hold.state = s.part.hold.state then s.part.auth.flags.hold
          else decide (t.part.hold.state ≠ .drive) } ∧
      entriesReleased (fun src =>
        (src = .traction && !t.part.auth.flags.traction) || (src = .blend && !t.part.auth.flags.blend) ||
        (src = .hold && s.part.hold.state ≠ .drive && t.part.hold.state = .drive)) s.part t.part ∧
      (s.part.image.drive.data.quietZone = false → flags.getLsbD 2 = true →
        (s.part.gen.link = .run ∨ s.part.gen.link = .unloading ∨ s.part.gen.link.starting = true →
          t.part.gen.link = .stopSent ∧
          t.part.gen.timer = some ⟨.stopTimeout, s.part.time.now, s.part.cfg.num .stopTimeout⟩) ∧
        (s.part.gen.link ≠ .run → s.part.gen.link ≠ .unloading → s.part.gen.link.starting = false →
          t.part.gen.link = s.part.gen.link ∧ t.part.gen.timer = s.part.gen.timer)) ∧
      portsOnlyGainEvents s.part t.part ∧
      changesOnly [.image, .partState, .auth, .hold, .gen, .account, .scan, .ports] s.part t.part ∧
      (s.part.hold.state = .drive → flags.getLsbD 0 = false →
        flags.getLsbD 2 = false ∨ s.part.image.drive.data.quietZone = true →
        changesOnly [.image, .partState, .auth, .ports] s.part t.part)

/-- STORAGE_STATUS and GEN_STATUS: every field clamped and stored, the partner FRESH with its arrival stamp; the
storage limits reset the decaying copies, and the engine report is handed to the sequencer; the part is READY when no
partner is NEVER any more (R29, R30, R32, R33, R38, R205). -/
def Obligations.StorageAndGenStatusTaken : Prop :=
  (∀ (soc pDisLim pChgLim : BitVec 16) (flags : Byte) (s : State), s.part.running = true →
    ∃ t, exec (.storageStatus soc pDisLim pChgLim flags) s = .next t ∧ t.pending = s.pending ∧
      t.part.image = { s.part.image with
        storage :=
          { data := ⟨min soc.toNat 1000, min pDisLim.toNat 4000, min pChgLim.toNat 4000, flags.getLsbD 0⟩
            stamp := s.part.time.now
            freshness := .fresh }
        disCopy := min pDisLim.toNat 4000
        chgCopy := min pChgLim.toNat 4000 } ∧
      readyAfter .storage s.part t.part ∧ changesOnly [.image, .partState] s.part t.part) ∧
  (∀ (report : Byte) (pGenAvail : BitVec 16) (s : State), s.part.running = true →
    ∃ t, exec (.genStatus report pGenAvail) s = .next t ∧ t.pending = s.pending ∧
      t.part.gen.lastReport = some (if report = 0#8 then .stopped else if report = 1#8 then .cranking
        else if report = 2#8 then .running else .fault) ∧
      t.part.image = { s.part.image with
        generator :=
          { data := ⟨t.part.gen.lastReport, min pGenAvail.toNat 2500⟩
            stamp := s.part.time.now
            freshness := .fresh } } ∧
      readyAfter .generator s.part t.part ∧ portsOnlyGainEvents s.part t.part ∧
      changesOnly [.image, .partState, .gen, .wear, .warnings, .ports] s.part t.part)

/-- BRAKE_STATUS: every field clamped and stored, the partner FRESH, the part READY when no partner is NEVER any more,
and the SAFE_STOP, SLIP, BLEND and LIMP flags as their conditions give them, a flag that falls releasing its entry, from
the top with AUTHORITY_CHANGE; below 0.5 km/h no hold and no calibration changes, at or above it the vehicle ceases to
stand, which abandons a calibration in progress or waiting (R31, R32, R33, R43, R50, R108, R150, R205). That calibration waiting
is clear while a calibration is in progress is the model's inference (notes/assumptions/16.md). -/
def Obligations.BrakeStatusTaken : Prop :=
  ∀ (v m slipCapA slipCapB : BitVec 16) (flags : Byte) (s : State), s.part.running = true →
    ∃ t, exec (.brakeStatus v m slipCapA slipCapB flags) s = .next t ∧ t.pending = s.pending ∧
      t.part.image = { s.part.image with
        brake :=
          { data :=
              { v := min v.toNat 1000
                m := max 12000 (min m.toNat 30000)
                slip2 := flags.getLsbD 0
                slip3 := flags.getLsbD 1
                slipCapA := min slipCapA.toNat 2600
                slipCapB := min slipCapB.toNat 2600
                lowAdhesion := flags.getLsbD 2
                emergency := flags.getLsbD 3 }
            stamp := s.part.time.now
            freshness := .fresh } } ∧
      readyAfter .brake s.part t.part ∧
      (let rolls := 5 ≤ v.toNat ∧ s.part.hold.state ≠ .drive
      t.part.auth.flags = { s.part.auth.flags with
        safeStop := anyLineActive s.part || flags.getLsbD 3
        slip := flags.getLsbD 0 || flags.getLsbD 1
        blend := s.part.blend.episode && decide (s.part.image.drive.data.direction = .forward) &&
          decide (s.part.cfg.num .vMinRegen ≤ min v.toNat 1000)
        limp := false
        hold := if rolls then false else s.part.auth.flags.hold } ∧
      entriesReleased (fun src => (src ≠ .traction && src ≠ .hold && !t.part.auth.flags.get src) ||
        (src = .hold && decide rolls)) s.part t.part) ∧
      portsOnlyGainEvents s.part t.part ∧
      changesOnly [.image, .partState, .auth, .hold, .gen, .cal, .scan, .ports] s.part t.part ∧
      (min v.toNat 1000 < 5 → changesOnly [.image, .partState, .auth, .ports] s.part t.part) ∧
      (5 ≤ v.toNat → standingCeased s.part t.part)

/-- The motor links: INV_STATUS clamps and stores every field in the link of its motor and makes it FRESH; 30 ms
without one make it STALE, its fields kept and its motor out of service; the other link, the kept command and the
transmitter stay (R58 to R60). -/
def Obligations.MotorLinkFollowsReports : Prop :=
  ∀ (motor : Motor) (s : State), s.part.running = true →
    (∀ (n tMot tGen : BitVec 16) (flags : Byte),
      ∃ t, exec (.invStatus motor n tMot tGen flags) s = .next t ∧ t.pending = s.pending ∧
        t.part.links.get motor = { s.part.links.get motor with
          n := min n.toNat 8000
          tMot := min tMot.toNat 2600
          tGen := min tGen.toNat 2600
          ready := flags.getLsbD 0
          fault := flags.getLsbD 1
          stamp := s.part.time.now
          freshness := .fresh } ∧
        ((t.part.links.get motor).inService = true ↔ flags.getLsbD 0 = true ∧ flags.getLsbD 1 = false) ∧
        (∀ other, other ≠ motor → t.part.links.get other = s.part.links.get other) ∧
        changesOnly [.links] s.part t.part) ∧
    ((s.part.links.get motor).freshness = .fresh →
      30 ≤ (s.part.time.now - (s.part.links.get motor).stamp).toNat →
      ∃ t, exec (.motorLinkStale motor) s = .next t ∧ t.pending = s.pending ∧
        t.part.links.get motor = { s.part.links.get motor with freshness := .stale } ∧
        (t.part.links.get motor).inService = false ∧
        (∀ other, other ≠ motor → t.part.links.get other = s.part.links.get other) ∧
        changesOnly [.links] s.part t.part)

/-! ### Hold and generator link -/

/-- Hold entry: at a DRIVE_STATUS whose hold request stands, in DRIVE, below 0.5 km/h and below break_pedal, the hold
state is chosen by the first rule that applies, and a quiet hold acts on the link: in a clear zone an engine in RUN
unloads with a DUMP request, and a quiet zone that comes on stops it; with the stop trigger on, the entry is a
round-completing routine trigger, taken at once in IDLE and pending in every other state (R99 to R101, R118, R144 to
R146). -/
def Obligations.HoldEntryChooses : Prop :=
  ∀ (pedal aDem : BitVec 16) (direction flags : Byte) (s : State), s.part.running = true →
    s.part.hold.state = .drive → flags.getLsbD 0 = true →
    s.part.image.brake.data.v < 5 → min pedal.toNat 1000 < s.part.cfg.num .breakPedal →
    ∃ t, exec (.driveStatus pedal aDem direction flags) s = .next t ∧
      let rule := (if flags.getLsbD 2 = true then 1
        else if s.part.wear[8].level = .limit ∧ s.part.gen.link = .run then 2
        else if s.part.gen.link = .off ∨ s.part.gen.link = .failed ∨ s.part.gen.link = .lockedOut then 3
        else if s.part.cfg.num .socHold ≤ s.part.image.storage.data.soc ∧
          ((s.part.account.current.map fun c => c.1.x).getD 0) ≤ s.part.cfg.num .auxQuietMax then 4
        else 5)
      t.part.hold.rule = some rule ∧ t.part.hold.entered = s.part.time.now ∧
      t.part.hold.state = (if rule = 2 ∨ rule = 5 then .holdRun
        else if flags.getLsbD 1 = true then .layover else .holdQuiet) ∧
      t.part.hold.promotion = (decide (t.part.hold.state = .holdQuiet) && s.part.cfg.on .deepPromotion) ∧
      t.part.hold.layover = decide (t.part.hold.state = .layover) ∧
      t.part.auth.flags.hold = true ∧ hasEvent .holdChange .pd t.part ∧
      (t.part.hold.state = .holdRun → t.part.gen.link = s.part.gen.link ∧ t.part.account = s.part.account) ∧
      (t.part.hold.state ≠ .holdRun → s.part.gen.link = .run →
        (flags.getLsbD 2 = false → t.part.gen.link = .unloading ∧ t.part.account.dump = true) ∧
        (flags.getLsbD 2 = true → s.part.image.drive.data.quietZone = false →
          t.part.gen.link = .stopSent ∧ t.part.account = s.part.account)) ∧
      (t.part.hold.state ≠ .holdRun → s.part.gen.link = .unloading ∨ s.part.gen.link.starting = true →
        t.part.gen.link = .stopSent ∧ t.part.account = s.part.account) ∧
      (s.part.gen.link ≠ .run → s.part.gen.link ≠ .unloading → s.part.gen.link.starting = false →
        t.part.gen.link = s.part.gen.link ∧ t.part.account = s.part.account) ∧
      (s.part.cfg.on .stopTrigger = false → t.part.scan = s.part.scan) ∧
      (s.part.cfg.on .stopTrigger = true → s.part.scan.mode = .idle → t.part.scan = { s.part.scan with
        mode := .routineRun, run := some (startingRun .roundCompleting s.part) }) ∧
      (s.part.cfg.on .stopTrigger = true → s.part.scan.mode ≠ .idle → t.part.scan = { s.part.scan with
        pending := some .roundCompleting })

/-- Break events: a DRIVE_STATUS with a pedal at or above break_pedal, a withdrawn hold request or another direction
ends every hold, and so does a BRAKE_STATUS at 0.5 km/h or more, which also sets HOLD_ROLL; with the effects of
R108 (R107, R108). -/
def Obligations.HoldBreaks : Prop :=
  ∀ s : State, s.part.running = true → s.part.hold.state ≠ .drive →
    (∀ (pedal aDem : BitVec 16) (direction flags : Byte),
      s.part.cfg.num .breakPedal ≤ min pedal.toNat 1000 ∨ flags.getLsbD 0 = false ∨
        directionOf direction ≠ s.part.image.drive.data.direction →
      ∃ t, exec (.driveStatus pedal aDem direction flags) s = .next t ∧
        t.part.hold = ⟨.drive, s.part.time.now, none, false, false, false⟩ ∧
        t.part.gen.startRequest = false ∧ t.part.auth.flags.hold = false ∧
        (∀ e ∈ t.part.auth.stack, e.source ≠ .hold) ∧ hasEvent .holdChange .pd t.part) ∧
    (∀ (v m slipCapA slipCapB : BitVec 16) (flags : Byte), 5 ≤ v.toNat →
      ∃ t, exec (.brakeStatus v m slipCapA slipCapB flags) s = .next t ∧
        t.part.hold = ⟨.drive, s.part.time.now, none, false, false, false⟩ ∧
        t.part.gen.startRequest = false ∧ t.part.auth.flags.hold = false ∧
        (∀ e ∈ t.part.auth.stack, e.source ≠ .hold) ∧ hasEvent .holdChange .pd t.part ∧
        hasEvent .holdRoll .pd t.part)

/-- Engine reports move the link, in every link state and for every report (R112, R114 to R117, R119 to R121, R165).
The first report after a run reset gives the link its state, a running engine being stopped in a quiet zone or a quiet
hold; an entry into CRANKING counts one engine start; a failure sets GENSET_FAULT, and the third counted one locks the
link out; in FAILED and LOCKED_OUT a report is only kept. -/
def Obligations.EngineReportsMoveTheLink : Prop :=
  ∀ (report : Byte) (avail : BitVec 16) (s : State), s.part.running = true →
    let r := reportOf report
    let link := s.part.gen.link
    let silent := s.part.image.drive.data.quietZone = true ∨ quietHold s.part = true
    let timer (name : GenTimerName) (length : NumItem) : Option GenTimer :=
      some ⟨name, s.part.time.now, s.part.cfg.num length⟩
    let failed (counted : Nat) (t : State) : Prop :=
      hasEvent .gensetFault .pd t.part ∧ hasEvent .gensetFault .pg t.part ∧ hasEvent .gensetFault .sv t.part ∧
      t.part.gen.failures = s.part.gen.failures + counted ∧
      (t.part.gen.failures = 3 → t.part.gen.link = .lockedOut ∧ t.part.gen.startRequest = false ∧
        t.part.gen.timer = none) ∧
      (t.part.gen.failures ≠ 3 → t.part.gen.link = .failed ∧ t.part.gen.timer = timer .retryDelay .retryDelay)
    let counted (t : State) : Prop := countedOnce 8 s.part t.part
    ∃ t, exec (.genStatus report avail) s = .next t ∧ t.part.gen.lastReport = some r ∧
      (link = .awaiting → r = .stopped → t.part.gen.link = if s.part.gen.startRequest then .startSent else .off) ∧
      (link = .awaiting → r = .cranking ∨ r = .running → silent →
        t.part.gen.link = .stopSent ∧ t.part.gen.timer = timer .stopTimeout .stopTimeout ∧
        t.part.wear = s.part.wear) ∧
      (link = .awaiting → r = .cranking → ¬ silent →
        t.part.gen.link = .cranking ∧ t.part.gen.timer = timer .startTimeout .startTimeout ∧ counted t) ∧
      (link = .awaiting → r = .running → ¬ silent →
        t.part.gen.link = .settling ∧ t.part.gen.timer = timer .genSettle .genSettle ∧ t.part.wear = s.part.wear) ∧
      (link = .awaiting → r = .fault → failed 0 t) ∧
      (link = .off → r = .fault → failed 1 t) ∧
      (link = .off → r ≠ .fault → t.part.gen = { s.part.gen with lastReport := some r }) ∧
      (link = .startSent → r = .cranking →
        t.part.gen.link = .cranking ∧ t.part.gen.timer = s.part.gen.timer ∧ counted t) ∧
      (link = .startSent ∨ link = .cranking → r = .running →
        t.part.gen.link = .settling ∧ t.part.gen.timer = timer .genSettle .genSettle ∧ t.part.wear = s.part.wear) ∧
      (link = .startSent ∨ link = .cranking → r = .stopped ∨ r = .fault → failed 1 t) ∧
      (link = .cranking → r = .cranking → t.part.gen = { s.part.gen with lastReport := some r } ∧
        t.part.wear = s.part.wear) ∧
      (link = .settling ∨ link = .run ∨ link = .unloading → r = .running →
        t.part.gen = { s.part.gen with lastReport := some r }) ∧
      (link = .settling ∨ link = .run ∨ link = .unloading → r ≠ .running → failed 1 t) ∧
      (link = .stopSent → r = .stopped → t.part.gen.link = if s.part.gen.startRequest then .startSent else .off) ∧
      (link = .stopSent → r = .fault → failed 1 t) ∧
      (link = .stopSent → r = .cranking ∨ r = .running →
        t.part.gen = { s.part.gen with lastReport := some r } ∧ t.part.wear = s.part.wear) ∧
      (link = .failed ∨ link = .lockedOut → t.part.gen = { s.part.gen with lastReport := some r } ∧
        t.part.wear = s.part.wear)

/-! ### Requests -/

/-- READ: an item that is none, and a CONFIG number that is no item, is UNKNOWN_ITEM, an index outside its item's range
RANGE, whatever part is named (R191, R192). Of every other READ, for part 0 the content is made from the state at the
arrival, kept in the port's snapshot, and its first 17 bytes are answered with the number of parts; a later part is
answered from the snapshot of the same item and index, or refused with RANGE (R191). The content is spelled out for the
account, the monitors, the warning list, the configuration, the port's status and the reset cause (`answerContent`;
R21, R157, R176, R193, R196, R204). That a later part of an item without an index matches whatever index it names
(`usedIndex`), that an authority of a record is 255 for NONE without a presence byte, and that the level of the
attention line is a flag, are the model's choices (notes/assumptions/23.md). -/
def Obligations.ReadAnswersInParts : Prop :=
  ∀ (port : Port) (item : Byte) (index : BitVec 16) (s : State), takesRequest port s.part →
    (∀ (code : ReplyCode) (part : Byte), readRefusal item index = some code →
      ∃ t, exec (.read port item index part) s = .next t ∧ refusedWith port .read code s.part t.part) ∧
    (readRefusal item index = none →
    (∃ (t : State) (content : List Byte), exec (.read port item index 0#8) s = .next t ∧
      content = readContent port (readTarget item index) s.part ∧ answerContent port item index s.part content ∧
      (t.part.port port).snapshot = some ⟨item, usedIndex item index, content⟩ ∧
      replied port .read .accepted
        (some ⟨item, index, 0#8, BitVec.ofNat 8 (partCount content), content.take 17⟩) s.part t.part ∧
      (t.part.port port).status = (s.part.port port).status ∧
      (t.part.port port).causes = (s.part.port port).causes ∧
      (∀ other, other ≠ port → t.part.port other = s.part.port other) ∧
      changesOnly [.ports] s.part t.part) ∧
    (∀ part : Byte, part ≠ 0#8 → ∃ t, exec (.read port item index part) s = .next t ∧
      (∀ content, (s.part.port port).snapshot = some ⟨item, usedIndex item index, content⟩ →
        part.toNat < partCount content →
        t.part = queueOn port (.reply .read .accepted (some ⟨item, index, part,
          BitVec.ofNat 8 (partCount content), (content.drop (17 * part.toNat)).take 17⟩)) s.part) ∧
      ((∀ snap, (s.part.port port).snapshot = some snap → snap.item = item →
        snap.index = usedIndex item index → partCount snap.content ≤ part.toNat) →
        refusedWith port .read .range s.part t.part)))

/-- CONFIG_WRITE of a number in its range, in its form, from the owner or the service port, is stored, and every other
item keeps its value; so is an item of another form whose value no test refuses (`valueIll`): the axle shares, the two
channel lists, a monitor, an enable set, the reset mask, each with the value that its bytes spell (R196 to R198;
override_code is R130's). A write of an item of another form acts at once: routine_list
ends any routine run, takes the position to 0 and lets a pending trigger be taken when the state is then IDLE; a
monitor follows R156; the reset mask disarms the combination watch, which then judges afresh; the others change
nothing else (R147, R203). What a write of a number does beside is `ConfigWriteActs`. That a monitor of scope NONE
takes any thresholds of two signed bytes is the model's choice (notes/assumptions/24.md); that the unused bits of the
masks are ignored is its inference (notes/assumptions/25.md). -/
def Obligations.ConfigWriteStores : Prop :=
  ∀ (port : Port) (number : BitVec 16) (s : State), takesRequest port s.part →
    (∀ (i : NumItem) (v : Nat),
      configItemOf number.toNat = some (.num i) → port = i.row.owner ∨ port = .sv →
      i.row.low ≤ v → v ≤ i.row.high → (inSocWindow i = true → socOk (s.part.cfg.setNum i v) = true) →
      (i.row.standing = true → standing s.part = true) →
      ∃ t, exec (.configWrite port number (if i.row.high ≤ 255 then [BitVec.ofNat 8 v]
          else bytes2 (BitVec.ofNat 16 v))) s = .next t ∧
        t.part.cfg.num i = v ∧ (∀ j, j ≠ i → t.part.cfg.num j = s.part.cfg.num j) ∧
        t.part.cfg.enables = s.part.cfg.enables ∧ t.part.cfg.monitors = s.part.cfg.monitors ∧
        t.part.cfg.axleShares = s.part.cfg.axleShares ∧ t.part.cfg.eventGroup = s.part.cfg.eventGroup ∧
        t.part.cfg.routineList = s.part.cfg.routineList ∧ t.part.cfg.resetMask = s.part.cfg.resetMask ∧
        replied port .configWrite .accepted none s.part t.part ∧
        changesOnly [.cfg, .image, .auth, .hold, .gen, .derate, .scan, .ports] s.part t.part) ∧
    (∀ (it : ConfigItem) (bytes : List Byte),
      configItemOf number.toNat = some it → (∀ i, it ≠ .num i) → it ≠ .overrideCode →
      port = it.owner ∨ port = .sv → 1 ≤ bytes.length → bytes.length ≤ 20 → ¬ valueIll it bytes s.part.cfg →
      (it.standing = true → standing s.part = true) →
      ∃ t, exec (.configWrite port number bytes) s = .next t ∧
        let p := s.part
        let q := t.part
        let listed (l : List Channel) : Prop := l.map (byteOf ·.val) = bytes.drop 1
        (it = .axleShares → q.cfg = { p.cfg with axleShares :=
            ⟨numberOf (bytes.take 2), numberOf ((bytes.drop 2).take 2), numberOf (bytes.drop 4)⟩ } ∧
          changesOnly [.cfg, .ports] p q) ∧
        (it = .eventGroup → q.cfg = { p.cfg with eventGroup := q.cfg.eventGroup } ∧ listed q.cfg.eventGroup ∧
          changesOnly [.cfg, .ports] p q) ∧
        (it = .routineList → q.cfg = { p.cfg with routineList := q.cfg.routineList } ∧ listed q.cfg.routineList ∧
          (p.scan.mode ≠ .routineRun → q.scan = { p.scan with run := none, position := 0 }) ∧
          (p.scan.mode = .routineRun → p.scan.pending = none →
            q.scan = { p.scan with mode := .idle, run := none, position := 0 }) ∧
          (∀ kind, p.scan.mode = .routineRun → p.scan.pending = some kind →
            q.scan = { p.scan with
              mode := .routineRun
              pending := none
              position := 0
              run := some ⟨if kind = .ordinary then p.cfg.num .runLength else bytes.length - 1, kind⟩ }) ∧
          changesOnly [.cfg, .scan, .ports] p q) ∧
        (∀ k, it = .monitor k →
          let c := q.cfg.monitors[k]
          q.cfg = { p.cfg with monitors := p.cfg.monitors.set k c } ∧
          scopeByte c.scope = bytes.getD 0 0#8 ∧ c.low = signedOf ((bytes.drop 1).take 2) ∧
          c.high = signedOf ((bytes.drop 3).take 2) ∧ c.hysteresis = numberOf ((bytes.drop 5).take 2) ∧
          c.persistence = (bytes.getD 7 0#8).toNat ∧ actionByte c.action = bytes.getD 8 0#8 ∧
          monitorRewritten k c p q ∧ changesOnly [.cfg, .derate, .scan, .ports] p q) ∧
        (∀ other, it = .enables other → q.cfg = { p.cfg with
            enables := p.cfg.enables.set other (BitVec.ofNat 16 (numberOf bytes % 32768)) } ∧
          changesOnly [.cfg, .ports] p q) ∧
        (it = .resetMask →
          let m := BitVec.ofNat 3 (numberOf bytes)
          q.cfg = { p.cfg with resetMask := m } ∧
          q.watch = { p.watch with
            state := if m ≠ 0#3 ∧ p.lines.bits &&& m ≠ m then .armed else .disarmed } ∧
          changesOnly [.cfg, .watch, .ports] p q) ∧
        replied port .configWrite .accepted none p q ∧
        changesOnly [.cfg, .watch, .derate, .scan, .ports] p q)

/-- What a CONFIG_WRITE of a number does at the write in the block that reads the item. A freshness limit judges the
partner by the new limit, FRESH to STALE and to LOST at four times the limit, with the effects of each entry (R35);
the write of v_min_regen evaluates the BLEND flag, and a flag that falls releases BLEND (R43, R74); layover_after,
layover_max and deep_promotion apply to a running hold timer, which expires at the write when it is due (R109); an
economy item forms the factors again (R126); routine_period restarts its timer (R147); every other number is only
stored. That a layover timer which has expired in a quiet zone is no running one, so that a shortened layover_max finds
none to expire, is the model's inference (notes/assumptions/15.md). -/
def Obligations.ConfigWriteActs : Prop :=
  ∀ (port : Port) (number : BitVec 16) (i : NumItem) (v : Nat) (s : State), takesRequest port s.part →
    configItemOf number.toNat = some (.num i) → port = i.row.owner ∨ port = .sv →
    i.row.low ≤ v → v ≤ i.row.high → (inSocWindow i = true → socOk (s.part.cfg.setNum i v) = true) →
    (i.row.standing = true → standing s.part = true) →
    let p := s.part
    let held := (p.time.now - p.hold.entered).toNat
    let promotes := p.hold.promotion = true ∧
      1000 * (if i = .layoverAfter then v else p.cfg.num .layoverAfter) ≤ held
    let overdue := p.hold.layover = true ∧
      1000 * (if i = .layoverMax then v else p.cfg.num .layoverMax) ≤ held
    ∃ t, exec (.configWrite port number (if i.row.high ≤ 255 then [BitVec.ofNat 8 v]
        else bytes2 (BitVec.ofNat 16 v))) s = .next t ∧
      let q := t.part
      (∀ partner, i = freshItem partner →
        let silence := (p.time.now - p.image.stampOf partner).toNat
        let before := p.fresh partner
        let next : Freshness :=
          if before = .fresh ∧ v ≤ silence then (if 4 * v ≤ silence then .lost else .stale)
          else if before = .stale ∧ 4 * v ≤ silence then .lost
          else before
        q.image = p.image.setFreshness partner next ∧
        (next = before ∨ partner = .storage → changesOnly [.cfg, .image, .ports] p q) ∧
        (next ≠ before → partner = .drive → q.auth.flags.traction = false ∧ q.hold.state = .drive ∧
          (∀ e ∈ q.auth.stack, e.source ≠ .traction) ∧ (p.hold.state ≠ .drive → hasEvent .holdChange .pd q)) ∧
        (next ≠ before → partner = .brake → changesOnly [.cfg, .image, .auth, .ports] p q ∧
          q.auth.flags.limp = decide (next = .lost) ∧
          (next = .lost → q.auth.flags.slip = false ∧ q.auth.flags.blend = false)) ∧
        (next = .stale → partner = .generator → q.gen = p.gen) ∧
        (next ≠ before → next = .lost → partner = .generator →
          (p.gen.link = .failed ∨ p.gen.link = .lockedOut → q.gen = p.gen) ∧
          (p.gen.link ≠ .failed → p.gen.link ≠ .lockedOut → p.gen.failures ≠ 3 →
            q.gen = { p.gen with
              link := .failed
              timer := some ⟨.retryDelay, p.time.now, p.cfg.num .retryDelay⟩ } ∧
            hasEvent .gensetFault .pg q))) ∧
      (i = .vMinRegen →
        let allowed := p.blend.episode = true ∧ p.image.drive.data.direction = .forward ∧
          v ≤ p.image.brake.data.v ∧ (p.image.brake.freshness = .fresh ∨ p.image.brake.freshness = .stale)
        (allowed → q.auth = { p.auth with flags := { p.auth.flags with blend := true } }) ∧
        (¬ allowed → q.auth = ⟨{ p.auth.flags with blend := false },
            p.auth.stack.filter (·.source ≠ .blend)⟩ ∧
          (∀ e, p.auth.stack.head? = some e → e.source = .blend → hasEvent .authorityChange .pd q)) ∧
        changesOnly [.cfg, .auth, .ports] p q) ∧
      (i = .layoverAfter ∨ i = .layoverMax →
        (promotes → q.hold = ⟨.layover, p.time.now, p.hold.rule, p.hold.latch, false, true⟩ ∧
          hasEvent .holdChange .pd q) ∧
        (¬ promotes → overdue → p.image.drive.data.quietZone = true →
          q.hold = { p.hold with layover := false } ∧ changesOnly [.cfg, .hold, .ports] p q) ∧
        (¬ promotes → overdue → p.image.drive.data.quietZone = false →
          q.hold = ⟨.holdRun, p.time.now, none, false, false, false⟩ ∧ hasEvent .holdChange .pd q ∧
          (p.gen.link = .off → q.gen.link = .startSent ∧ q.gen.startRequest = false) ∧
          (p.gen.link ≠ .off → q.gen.link = p.gen.link) ∧
          (p.gen.link = .stopSent → q.gen.startRequest = true)) ∧
        (¬ promotes → ¬ overdue → changesOnly [.cfg, .ports] p q)) ∧
      (i = .deepPromotion → ¬ overdue →
        (v = 0 ∨ p.hold.state ≠ .holdQuiet →
          q.hold = { p.hold with promotion := false } ∧ changesOnly [.cfg, .hold, .ports] p q) ∧
        (v = 1 → p.hold.state = .holdQuiet → 1000 * p.cfg.num .layoverAfter ≤ held →
          q.hold = ⟨.layover, p.time.now, p.hold.rule, p.hold.latch, false, true⟩ ∧
          hasEvent .holdChange .pd q) ∧
        (v = 1 → p.hold.state = .holdQuiet → held < 1000 * p.cfg.num .layoverAfter →
          q.hold = { p.hold with promotion := true } ∧ changesOnly [.cfg, .hold, .ports] p q)) ∧
      (i = .economyEnable ∨ i = .economyCode → factorsReformed p q ∧
        q.derate = { p.derate with factors := q.derate.factors } ∧ changesOnly [.cfg, .derate, .ports] p q) ∧
      (i = .routinePeriod → q.scan = { p.scan with periodMark := p.time.now } ∧
        changesOnly [.cfg, .scan, .ports] p q) ∧
      ((∀ partner, i ≠ freshItem partner) → i ∉ [NumItem.vMinRegen, .layoverAfter, .layoverMax, .deepPromotion,
        .economyEnable, .economyCode, .routinePeriod] → changesOnly [.cfg, .ports] p q)

/-- CONFIG_WRITE is judged in the order item, port, range, standing; a refused write changes nothing (R197). The items
are the numbers 1 to 64. RANGE is a value of another length than its form, a number outside its item's range, a list of
no channel, of too many, of one that is none, or an event group with one twice (R142, R144), a monitor item against R152,
and a combination against R198 (`valueIll`); for override_code a written lock is tested first. That the three SoC
conditions are tested at a write of any of five items, where R198 says these four (notes/assumptions/36.md), and that
the unused bits of the masks are ignored (notes/assumptions/25.md), are the model's inferences; that a monitor of scope
NONE takes any thresholds of two signed bytes in order is its choice (notes/assumptions/24.md). -/
def Obligations.ConfigWriteRefusals : Prop :=
  ∀ (port : Port) (number : BitVec 16) (bytes : List Byte) (s : State), takesRequest port s.part →
    1 ≤ bytes.length → bytes.length ≤ 20 →
    (configItemOf number.toNat = none ↔ number.toNat = 0 ∨ 64 < number.toNat) ∧
    ∃ t, exec (.configWrite port number bytes) s = .next t ∧
      (configItemOf number.toNat = none → refusedWith port .configWrite .unknownItem s.part t.part) ∧
      (∀ it, configItemOf number.toNat = some it → port ≠ it.owner → port ≠ .sv →
        refusedWith port .configWrite .notPermitted s.part t.part) ∧
      (∀ it, configItemOf number.toNat = some it → port = it.owner ∨ port = .sv →
        (it = .overrideCode → s.part.derate.locked = true →
          refusedWith port .configWrite .locked s.part t.part) ∧
        (it ≠ .overrideCode ∨ s.part.derate.locked = false → valueIll it bytes s.part.cfg →
          refusedWith port .configWrite .range s.part t.part) ∧
        (it ≠ .overrideCode → ¬ valueIll it bytes s.part.cfg → it.standing = true →
          5 ≤ s.part.image.brake.data.v ∨ s.part.blend.episode = true →
          refusedWith port .configWrite .notStanding s.part t.part))

/-- override_code: an open lock takes a code 0 to 7 and locks, refuses another with RANGE, and a written lock refuses
every code with LOCKED; once written, the code stands until a run reset: no other command changes it or opens its lock
(R130 and its law). -/
def Obligations.OverrideCodeWrittenOnce : Prop :=
  (∀ (port : Port) (code : Byte) (s : State), takesRequest port s.part → port = .pd ∨ port = .sv →
    ∃ t, exec (.configWrite port 38#16 [code]) s = .next t ∧
      (s.part.derate.locked = false → code.toNat ≤ 7 →
        t.part.derate.overrideCode = code.toNat ∧ t.part.derate.locked = true ∧
        factorsReformed s.part t.part ∧
        replied port .configWrite .accepted none s.part t.part ∧
        changesOnly [.derate, .ports] s.part t.part) ∧
      (s.part.derate.locked = false → 7 < code.toNat →
        refusedWith port .configWrite .range s.part t.part) ∧
      (s.part.derate.locked = true → refusedWith port .configWrite .locked s.part t.part)) ∧
  (∀ (i : Instr) (s t : State), exec i s = .next t → resetsPart i = false → s.part.derate.locked = true →
    t.part.derate.locked = true ∧ t.part.derate.overrideCode = s.part.derate.overrideCode)

/-- CLEAR_STATUS removes the named events of its own port and, with FRAME_ERROR, empties its causes; a mask that
names another event clears nothing (R190). -/
def Obligations.ClearStatusClears : Prop :=
  ∀ (port : Port) (mask : BitVec 16) (s : State), takesRequest port s.part →
    ∃ t, exec (.clearStatus port mask) s = .next t ∧
      (mask &&& ~~~eventsOf port = 0#16 →
        (t.part.port port).status = (s.part.port port).status &&& ~~~mask ∧
        (t.part.port port).causes = (if mask.getLsbD 0 then 0#8 else (s.part.port port).causes) ∧
        (t.part.port port).snapshot = (s.part.port port).snapshot ∧
        (∀ other, other ≠ port → t.part.port other = s.part.port other) ∧
        replied port .clearStatus .accepted none s.part t.part ∧ changesOnly [.ports] s.part t.part) ∧
      ((∃ e : Event, mask &&& e.mask ≠ 0#16 ∧ eventsOf port &&& e.mask = 0#16) →
        refusedWith port .clearStatus .range s.part t.part)

/-- LOAD_BLEND: a whole program of one to eight legal steps is taken into its slot; a longer one in two parts, of
which the first opens the port's assembly and the continuation completes it for the same slot. A completed program is
active at once outside an episode and pending within one (R78, R79, R81). A frame that fails a test of R80 is answered
RANGE, changes no slot, and leaves its port's assembly empty. That bits 4 to 6 of a step's first byte are ignored is
the model's inference (notes/assumptions/25.md). -/
def Obligations.LoadBlendTakesOrRefuses : Prop :=
  (∀ (port : Port) (slot : SlotNo) (bytes : List (Byte × Byte)) (steps : List BlendStep) (s : State),
    takesRequest port s.part → port = .pb ∨ port = .sv → 1 ≤ bytes.length → bytes.length ≤ 8 →
    stepsOf bytes = some steps → lastFlagsOk steps = true →
    (endsLast steps = true →
      ∃ t, exec (.loadBlend port (BitVec.ofNat 8 slot.val) 1#8 bytes) s = .next t ∧
        t.part.slots[slot] = (if s.part.blend.episode then { s.part.slots[slot] with pending := some steps }
          else ⟨steps, none⟩) ∧
        (∀ other : SlotNo, other ≠ slot → t.part.slots[other] = s.part.slots[other]) ∧
        assemblyOf port t.part.blend = none ∧
        (∀ other, other ≠ port → assemblyOf other t.part.blend = assemblyOf other s.part.blend) ∧
        t.part.blend.episode = s.part.blend.episode ∧ t.part.blend.regPrev = s.part.blend.regPrev ∧
        replied port .loadBlend .accepted none s.part t.part ∧
        changesOnly [.slots, .blend, .ports] s.part t.part) ∧
    (bytes.length = 8 → endsLast steps = false →
      ∃ t, exec (.loadBlend port (BitVec.ofNat 8 slot.val) 1#8 bytes) s = .next t ∧
        assemblyOf port t.part.blend = some ⟨slot, steps⟩ ∧
        (∀ other, other ≠ port → assemblyOf other t.part.blend = assemblyOf other s.part.blend) ∧
        replied port .loadBlend .accepted none s.part t.part ∧ changesOnly [.blend, .ports] s.part t.part) ∧
    (∀ held, assemblyOf port s.part.blend = some ⟨slot, held⟩ → endsLast steps = true →
      ∃ t, exec (.loadBlend port (BitVec.ofNat 8 slot.val) 9#8 bytes) s = .next t ∧
        t.part.slots[slot] = (if s.part.blend.episode then
          { s.part.slots[slot] with pending := some (held ++ steps) } else ⟨held ++ steps, none⟩) ∧
        (∀ other : SlotNo, other ≠ slot → t.part.slots[other] = s.part.slots[other]) ∧
        assemblyOf port t.part.blend = none ∧
        replied port .loadBlend .accepted none s.part t.part ∧
        changesOnly [.slots, .blend, .ports] s.part t.part)) ∧
  (∀ (port : Port) (slot first : Byte) (bytes : List (Byte × Byte)) (s : State), takesRequest port s.part →
    port = .pb ∨ port = .sv → 1 ≤ bytes.length → bytes.length ≤ 8 →
    (4 ≤ slot.toNat ∨ (first ≠ 1#8 ∧ first ≠ 9#8) ∨ stepsOf bytes = none ∨
      (∃ steps, stepsOf bytes = some steps ∧ (lastFlagsOk steps = false ∨
        (first = 9#8 ∧ endsLast steps = false) ∨
        (first = 1#8 ∧ endsLast steps = false ∧ steps.length < 8))) ∨
      (first = 9#8 ∧ ∀ a, assemblyOf port s.part.blend = some a → a.slot.val ≠ slot.toNat)) →
    ∃ t, exec (.loadBlend port slot first bytes) s = .next t ∧
      assemblyOf port t.part.blend = none ∧
      (∀ other, other ≠ port → assemblyOf other t.part.blend = assemblyOf other s.part.blend) ∧
      replied port .loadBlend .range none s.part t.part ∧ changesOnly [.blend, .ports] s.part t.part)

/-- ACK_WARNING marks the item's entry and no other; an item without an entry is RANGE, a number outside 0 to 11
UNKNOWN_ITEM (R175). FORCE_DERATE sets the forced-derate setting, and the factors are formed again at the request,
with DERATE_CHANGE when d_trac changed; another value is RANGE (R131, R133). -/
def Obligations.AckWarningAndForceDerate : Prop :=
  (∀ (port : Port) (item : Byte) (s : State), takesRequest port s.part → port = .pd ∨ port = .sv →
    ∃ t, exec (.ackWarning port item) s = .next t ∧
      (12 ≤ item.toNat → refusedWith port .ackWarning .unknownItem s.part t.part) ∧
      (∀ h : item.toNat < 12, (∀ w ∈ s.part.warnings, w.item ≠ ⟨item.toNat, h⟩) →
        refusedWith port .ackWarning .range s.part t.part) ∧
      (∀ h : item.toNat < 12, (∃ w ∈ s.part.warnings, w.item = ⟨item.toNat, h⟩) →
        t.part.warnings = s.part.warnings.map (fun w =>
          if w.item = ⟨item.toNat, h⟩ then { w with acknowledged := true } else w) ∧
        replied port .ackWarning .accepted none s.part t.part ∧
        changesOnly [.warnings, .ports] s.part t.part)) ∧
  (∀ (port : Port) (value : Byte) (s : State), takesRequest port s.part → port = .pd ∨ port = .sv →
    ∃ t, exec (.forceDerate port value) s = .next t ∧
      (value.toNat ≤ 1 →
        t.part.derate = { s.part.derate with forced := value = 1#8, factors := t.part.derate.factors } ∧
        factorsReformed s.part t.part ∧
        (value = 1#8 → t.part.derate.factors.dRegen = 1000 - 125 * s.part.derate.overrideCode) ∧
        replied port .forceDerate .accepted none s.part t.part ∧
        changesOnly [.derate, .ports] s.part t.part) ∧
      (1 < value.toNat → refusedWith port .forceDerate .range s.part t.part))

/-- WEAR_WRITE: a length that does not match the presence byte, or a notice byte above 1, is RANGE whatever the item;
an item outside 0 to 11 is UNKNOWN_ITEM; a threshold for item 11, or a warn threshold that would not stay below the limit, is RANGE; else the
carried thresholds and notice are stored, a carried accumulator value merges the unknown amount and removes it, the
residual and every field not carried are kept, and no other item changes (R170). WEAR_RESET clears the item's
accumulator, residual, unknown amount, stage and flags, keeps its thresholds and notice, and makes its level OK; item
11 keeps having none (R171). Either forms the level again by R166 and hands a change on (R168, R173). That bits 4 to 7
of the presence byte are ignored is the model's inference (notes/assumptions/25.md); the fields that an item does not
have are the model's own (notes/assumptions/33.md). That a wrong length or notice byte is RANGE before the item is looked
at is its inference (notes/assumptions/21.md). -/
def Obligations.WearServiceWrites : Prop :=
  (∀ (item : WearNo) (presence : Byte) (bytes : List Byte) (f : WearFields) (s : State),
    takesRequest .sv s.part → bytes.length ≤ 13 → wearFieldsOf presence bytes = some f →
    noticeOk f.notice = true →
    let before := s.part.wear[item]
    let warn := f.warn.getD before.warn
    let limit := f.limit.getD before.limit
    let refused := (item.val = 11 ∧ (f.warn.isSome = true ∨ f.limit.isSome = true)) ∨
      (warn ≠ 0 ∧ limit ≠ 0 ∧ limit ≤ warn)
    ∃ t, exec (.wearWrite .sv (BitVec.ofNat 8 item.val) presence bytes) s = .next t ∧
      (refused → refusedWith .sv .wearWrite .range s.part t.part) ∧
      (¬ refused →
        (∀ v, f.acc = some v →
          t.part.wear[item].acc = min (v + before.unknown.getD 0) 4294967295 ∧
          t.part.wear[item].unknown = none ∧
          t.part.wear[item].saturated = decide (t.part.wear[item].acc = 4294967295)) ∧
        (f.acc = none → t.part.wear[item].acc = before.acc ∧ t.part.wear[item].unknown = before.unknown ∧
          t.part.wear[item].saturated = before.saturated) ∧
        t.part.wear[item].warn = warn ∧ t.part.wear[item].limit = limit ∧
        t.part.wear[item].notice = ((f.notice.map fun b => decide (b = 1#8)).getD before.notice) ∧
        t.part.wear[item].residual = before.residual ∧ t.part.wear[item].stage = before.stage ∧
        t.part.wear[item].armed = before.armed ∧
        levelFormed item t.part.wear[item] ∧ levelHandedOn item s.part t.part ∧
        (item.val = 11 → t.part.wear[item].level = before.level) ∧ derateChangeSet s.part t.part ∧
        (∀ v, f.acc = some v → 4294967295 ≤ v + before.unknown.getD 0 → before.saturated = false →
          t.part.wear[item].notice = true → hasEvent .wearSaturated .sv t.part) ∧
        (∀ other : WearNo, other ≠ item → t.part.wear[other] = s.part.wear[other]) ∧
        replied .sv .wearWrite .accepted none s.part t.part ∧
        changesOnly [.wear, .warnings, .derate, .ports] s.part t.part)) ∧
  (∀ (item presence : Byte) (bytes : List Byte) (s : State), takesRequest .sv s.part → bytes.length ≤ 13 →
    let carried (k : Nat) : Nat := (presence.getLsbD k).toNat
    let fits := bytes.length = 4 * carried 0 + 4 * carried 1 + 4 * carried 2 + carried 3
    let noticeIll := presence.getLsbD 3 = true ∧ ∃ b, bytes.getLast? = some b ∧ 1 < b.toNat
    ∃ t, exec (.wearWrite .sv item presence bytes) s = .next t ∧
      (¬ fits ∨ noticeIll → refusedWith .sv .wearWrite .range s.part t.part) ∧
      (fits → ¬ noticeIll → 12 ≤ item.toNat → refusedWith .sv .wearWrite .unknownItem s.part t.part)) ∧
  (∀ (item : Byte) (s : State), takesRequest .sv s.part →
    ∃ t, exec (.wearReset .sv item) s = .next t ∧
      (12 ≤ item.toNat → refusedWith .sv .wearReset .unknownItem s.part t.part) ∧
      (∀ h : item.toNat < 12, let i : WearNo := ⟨item.toNat, h⟩
        t.part.wear[i] = { s.part.wear[i] with
          acc := 0, residual := 0, saturated := false, unknown := none, stage := 0, disagree := false
          armed := false
          level := if item.toNat = 11 then s.part.wear[i].level else .ok
          changed := if item.toNat = 11 ∨ s.part.wear[i].level = .ok then s.part.wear[i].changed
            else s.part.time.now } ∧
        (∀ other : WearNo, other ≠ i → t.part.wear[other] = s.part.wear[other]) ∧
        (item.toNat ≠ 11 → s.part.wear[i].level ≠ .ok →
          t.part.warnings = s.part.warnings.filter (·.item ≠ i)) ∧
        derateChangeSet s.part t.part ∧
        replied .sv .wearReset .accepted none s.part t.part ∧
        changesOnly [.wear, .warnings, .derate, .ports] s.part t.part))

/-- CALIBRATE: refused while the vehicle moves, then while a calibration runs or waits; else entered at once, or made
to wait for the event run (R148). CLEAR_LOCKOUT sets the failure count to 0; a LOCKED_OUT link goes to OFF, another
stays (R121). The hold start request is assumed clear in LOCKED_OUT, where R120 has discarded it
(`StepKeepsHoldSound`). -/
def Obligations.CalibrateAndClearLockout : Prop :=
  (∀ s : State, takesRequest .sv s.part →
    ∃ t, exec (.calibrate .sv) s = .next t ∧
      (standing s.part = false → refusedWith .sv .calibrate .notStanding s.part t.part) ∧
      (standing s.part = true → s.part.scan.calWaiting = true ∨ s.part.scan.mode.code = 3 →
        refusedWith .sv .calibrate .busy s.part t.part) ∧
      (standing s.part = true → s.part.scan.calWaiting = false →
        s.part.scan.mode = .idle ∨ s.part.scan.mode = .routineRun →
        t.part.scan = { s.part.scan with mode := .calibrating s.part.time.now [] } ∧
        replied .sv .calibrate .accepted none s.part t.part ∧ changesOnly [.scan, .ports] s.part t.part) ∧
      (standing s.part = true → s.part.scan.calWaiting = false → s.part.scan.mode.code = 2 →
        t.part.scan = { s.part.scan with calWaiting := true } ∧
        replied .sv .calibrate .accepted none s.part t.part ∧ changesOnly [.scan, .ports] s.part t.part)) ∧
  (∀ s : State, takesRequest .sv s.part →
    ∃ t, exec (.clearLockout .sv) s = .next t ∧
      (s.part.gen.link = .lockedOut → s.part.gen.startRequest = false →
        t.part.gen = { s.part.gen with link := .off, failures := 0, timer := none }) ∧
      (s.part.gen.link ≠ .lockedOut → t.part.gen = { s.part.gen with failures := 0 }) ∧
      replied .sv .clearLockout .accepted none s.part t.part ∧ changesOnly [.gen, .ports] s.part t.part)

/-- Requests turned away: one on a port that does not permit its kind is answered NOT_PERMITTED and changes nothing
(R180 check 6, R181); a permitted one that finds four replies waiting is not carried out and not answered, and
FRAME_ERROR and OVERRUN are set on its port (R182). -/
def Obligations.RequestsTurnedAway : Prop :=
  (∀ (port : Port) (item presence value slot first : Byte) (fields : List Byte)
    (steps : List (Byte × Byte)) (s : State), takesRequest port s.part → fields.length ≤ 13 →
    1 ≤ steps.length → steps.length ≤ 8 →
    (port ≠ .sv → ∃ t, exec (.wearWrite port item presence fields) s = .next t ∧
      refusedWith port .wearWrite .notPermitted s.part t.part) ∧
    (port ≠ .sv → ∃ t, exec (.wearReset port item) s = .next t ∧
      refusedWith port .wearReset .notPermitted s.part t.part) ∧
    (port ≠ .sv → ∃ t, exec (.calibrate port) s = .next t ∧
      refusedWith port .calibrate .notPermitted s.part t.part) ∧
    (port ≠ .sv → ∃ t, exec (.clearLockout port) s = .next t ∧
      refusedWith port .clearLockout .notPermitted s.part t.part) ∧
    (port ≠ .pd → port ≠ .sv → ∃ t, exec (.ackWarning port item) s = .next t ∧
      refusedWith port .ackWarning .notPermitted s.part t.part) ∧
    (port ≠ .pd → port ≠ .sv → ∃ t, exec (.forceDerate port value) s = .next t ∧
      refusedWith port .forceDerate .notPermitted s.part t.part) ∧
    (port ≠ .pb → port ≠ .sv → ∃ t, exec (.loadBlend port slot first steps) s = .next t ∧
      refusedWith port .loadBlend .notPermitted s.part t.part)) ∧
  (∀ (i : Instr) (port : Port) (kind : Kind) (s : State), requestKind i = some (port, kind) →
    i.wellFormed = true → kind.requestOn port = true → s.part.running = true →
    4 ≤ (s.part.port port).waitingReplies →
    ∃ t, exec i s = .next t ∧ frameErrorRecorded port .overrun s.part t.part)

/-- FRAME_SENT: the frame being sent is done and the first queued frame begins; every other transmitter stays
(R184). That it begins at once, without the idle gap of R178, is the model's choice (notes/assumptions/9.md). -/
def Obligations.FrameSentBeginsNext : Prop :=
  ∀ (f : OutFrame) (s : State), s.part.running = true →
    (∀ port, (s.part.port port).tx.sending = some f → ∃ t, exec (.frameSent (.port port)) s = .next t ∧
      t.part.port port = { s.part.port port with
        tx := ⟨(s.part.port port).tx.queue.head?, (s.part.port port).tx.queue.tail⟩ } ∧
      (∀ other, other ≠ port → t.part.port other = s.part.port other) ∧
      t.part.ports.reportCount = s.part.ports.reportCount ∧ changesOnly [.ports] s.part t.part) ∧
    (∀ motor, (s.part.links.get motor).tx.sending = some f →
      ∃ t, exec (.frameSent (.link motor)) s = .next t ∧
      t.part.links.get motor = { s.part.links.get motor with
        tx := ⟨(s.part.links.get motor).tx.queue.head?, (s.part.links.get motor).tx.queue.tail⟩ } ∧
      (∀ other, other ≠ motor → t.part.links.get other = s.part.links.get other) ∧
      changesOnly [.links] s.part t.part)

/-! ### Scanner -/

/-- The scanner's two timers. SETTLEMENT_TIMER_EXPIRY by the scanner's state: an event run begins, suspending a
routine run; it merges into an event run in flight; while CALIBRATING a settlement's beginning arrives with SENSE_HELD
(R142, R143, R1). ROUTINE_TRIGGER: in IDLE an ordinary run of run_length entries starts; in every other state the
trigger waits, and a waiting round-completing trigger stays one (R144, R145). That a merged beginning keeps the mark
of the first is the model's choice (notes/assumptions/6.md); that a timer's next expiry is one period after this one,
also where the timebase wraps, is its inference (notes/assumptions/5.md). -/
def Obligations.ScannerTimersExpire : Prop :=
  (∀ s : State, s.part.running = true → 10 ≤ (s.part.time.now - s.part.time.settleMark).toNat →
    ∃ t, exec .settlementTimerExpiry s = .next t ∧
      t.part.time = { s.part.time with settleMark := s.part.time.settleMark + 10#32 } ∧
      (s.part.scan.mode = .idle ∨ s.part.scan.mode = .routineRun →
        t.part.scan = { s.part.scan with mode := .eventRun s.part.cfg.eventGroup } ∧
        t.part.account = s.part.account) ∧
      (s.part.scan.mode.code = 2 → t.part.scan = s.part.scan ∧ t.part.account = s.part.account) ∧
      (s.part.scan.mode.code = 3 → t.part.scan = s.part.scan ∧
        t.part.account = { s.part.account with
          beginning := some (s.part.account.beginning.getD true) }) ∧
      changesOnly [.time, .scan, .account] s.part t.part) ∧
  (∀ s : State, s.part.running = true →
    s.part.cfg.num .routinePeriod ≤ (s.part.time.now - s.part.scan.periodMark).toNat →
    ∃ t, exec .routineTrigger s = .next t ∧
      (s.part.scan.mode = .idle → t.part.scan.mode = .routineRun ∧
        t.part.scan.run = some ⟨s.part.cfg.num .runLength, .ordinary⟩ ∧
        t.part.scan.pending = s.part.scan.pending) ∧
      (s.part.scan.mode ≠ .idle → t.part.scan.mode = s.part.scan.mode ∧
        t.part.scan.run = s.part.scan.run ∧
        t.part.scan.pending = some (s.part.scan.pending.getD .ordinary)) ∧
      t.part.scan.periodMark = s.part.scan.periodMark + BitVec.ofNat 32 (s.part.cfg.num .routinePeriod) ∧
      t.part.scan.position = s.part.scan.position ∧ t.part.scan.results = s.part.scan.results ∧
      changesOnly [.scan] s.part t.part)

/-- CONVERSION_COMPLETE in an event run: the channel's result is replaced, converted with its offset; the last
conversion hands a beginning to the settlement unit, and the scanner enters a waiting calibration, resumes a suspended
routine run, takes a pending trigger or goes to IDLE (R139, R140, R142, R145). That a merged beginning keeps the
SENSE_HELD mark of the first is the model's choice (notes/assumptions/6.md). -/
def Obligations.EventConversionCompletes : Prop :=
  ∀ (raw : BitVec 12) (ch : Channel) (rest : List Channel) (s : State), s.part.running = true →
    s.part.scan.mode = .eventRun (ch :: rest) →
    ∃ t, exec (.conversionComplete raw) s = .next t ∧
      t.part.scan.results[ch] = ⟨channelBase ch +
          (((((raw.toNat : Int) - s.part.cal.offsets[ch]).toNat.min 4095) * channelSpan ch / 4096 : Nat) : Int),
        raw, s.part.time.now, true⟩ ∧
      (∀ other : Channel, other ≠ ch → t.part.scan.results[other] = s.part.scan.results[other]) ∧
      (rest ≠ [] → t.part.scan.mode = .eventRun rest ∧ t.part.account = s.part.account) ∧
      (rest = [] → t.part.account.beginning = some (s.part.account.beginning.getD false)) ∧
      (rest = [] → s.part.scan.calWaiting = true → t.part.scan.mode = .calibrating s.part.time.now []) ∧
      (rest = [] → s.part.scan.calWaiting = false → s.part.scan.run.isSome = true →
        t.part.scan.mode = .routineRun ∧ t.part.scan.run = s.part.scan.run) ∧
      (rest = [] → s.part.scan.calWaiting = false → s.part.scan.run = none → s.part.scan.pending = none →
        t.part.scan.mode = .idle) ∧
      (∀ kind, rest = [] → s.part.scan.calWaiting = false → s.part.scan.run = none →
        s.part.scan.pending = some kind → t.part.scan.mode = .routineRun ∧ t.part.scan.pending = none ∧
        t.part.scan.run = some (startingRun kind s.part)) ∧
      changesOnly [.scan, .account, .wear, .warnings, .derate, .ports] s.part t.part

/-- CONVERSION_COMPLETE in a routine run: the result of the entry at the position is replaced and no other, the
position advances and wraps, and the run ends when its count is done, a pending trigger then being taken (R144, R145).
While CALIBRATING the code is gathered: that the reference codes of R149 arrive as CONVERSION_COMPLETE is the model's
inference (notes/assumptions/7.md). -/
def Obligations.RoutineConversionCompletes : Prop :=
  ∀ (raw : BitVec 12) (s : State), s.part.running = true →
    (∀ (run : RoutineRun) (ch : Channel), s.part.scan.mode = .routineRun → s.part.scan.run = some run →
      s.part.cfg.routineList[s.part.scan.position]? = some ch →
      ∃ t, exec (.conversionComplete raw) s = .next t ∧
        t.part.scan.results[ch] = ⟨channelBase ch +
            (((((raw.toNat : Int) - s.part.cal.offsets[ch]).toNat.min 4095) * channelSpan ch / 4096 : Nat) : Int),
          raw, s.part.time.now, true⟩ ∧
        (∀ other : Channel, other ≠ ch → t.part.scan.results[other] = s.part.scan.results[other]) ∧
        t.part.scan.position = (if s.part.scan.position + 1 < s.part.cfg.routineList.length
          then s.part.scan.position + 1 else 0) ∧
        (1 < run.left → t.part.scan.mode = .routineRun ∧
          t.part.scan.run = some { run with left := run.left - 1 }) ∧
        (run.left ≤ 1 → s.part.scan.pending = none → t.part.scan.mode = .idle ∧ t.part.scan.run = none) ∧
        (∀ kind, run.left ≤ 1 → s.part.scan.pending = some kind →
          t.part.scan.mode = .routineRun ∧ t.part.scan.pending = none ∧
          t.part.scan.run = some ⟨if kind = .ordinary then s.part.cfg.num .runLength
            else s.part.cfg.routineList.length - t.part.scan.position, kind⟩) ∧
        changesOnly [.scan, .wear, .warnings, .derate, .ports] s.part t.part) ∧
    (∀ (start : Stamp) (codes : List (BitVec 12)), s.part.scan.mode = .calibrating start codes →
      codes.length < 352 → ∃ t, exec (.conversionComplete raw) s = .next t ∧
        t.part.scan = { s.part.scan with mode := .calibrating start (codes ++ [raw]) } ∧
        changesOnly [.scan] s.part t.part)

/-- What a new result does in the wear unit and at the monitors, in an event run and in a routine run: the cycle item
of its channel arms above cyc_high and counts below cyc_low (R140, R164); at the wrap of the routine list ROUND_DONE
latches for each lining item the higher stage of its two sensors, channels 6 to 11, where that is above the latched
one (R144, R166, R167); each monitor judges by its own rule (`MonitorJudges`), and item 10 stays while no monitor has
the action DISC_HOT (R165); the items of the account never change. -/
def Obligations.ConversionsCountWear : Prop :=
  ∀ (raw : BitVec 12) (s : State), s.part.running = true →
    let common (ch : Channel) (t : State) : Prop :=
      cycleJudged ch t.part.scan.results[ch].value s.part t.part ∧
      (∀ k : MonitorNo, t.part.scan.monitors[k] = (judgeMonitor ch k
        (s.part.setScan { s.part.scan with results := t.part.scan.results })).scan.monitors[k]) ∧
      ((∀ k : MonitorNo, s.part.cfg.monitors[k].action ≠ .discHot) → t.part.wear[10] = s.part.wear[10]) ∧
      (∀ i : WearNo, i ∈ [(7 : WearNo), 8, 9, 11] → t.part.wear[i] = s.part.wear[i]) ∧
      derateChangeSet s.part t.part
    let linings := [((0 : WearNo), (6 : Channel), (7 : Channel)), (1, 8, 9), (2, 10, 11)]
    (∀ (ch : Channel) (rest : List Channel), s.part.scan.mode = .eventRun (ch :: rest) →
      ∃ t, exec (.conversionComplete raw) s = .next t ∧ common ch t ∧
        ∀ i l r, (i, l, r) ∈ linings → t.part.wear[i] = s.part.wear[i]) ∧
    (∀ (run : RoutineRun) (ch : Channel), s.part.scan.mode = .routineRun → s.part.scan.run = some run →
      s.part.cfg.routineList[s.part.scan.position]? = some ch →
      ∃ t, exec (.conversionComplete raw) s = .next t ∧ common ch t ∧
        (s.part.scan.position + 1 < s.part.cfg.routineList.length →
          ∀ i l r, (i, l, r) ∈ linings → t.part.wear[i] = s.part.wear[i]) ∧
        (s.part.cfg.routineList.length = s.part.scan.position + 1 → ∀ i l r, (i, l, r) ∈ linings →
          stageLatched i t.part.scan.results[l] t.part.scan.results[r] s.part t.part))

/-- A limit monitor judges a new result of a channel in its scope by the table of R154: outside, deep inside or in the
band of its window (R153); no other monitor and no result changes. An entry into TRIPPED or a return is handed on by
the monitor's action: THERMAL_OVERRIDE joins or leaves the thermal set, a DISC_HOT entry counts one disc overheat
episode on item 10, and nothing else of the derate unit or the wear table changes (R127, R128, R155, R165). -/
def Obligations.MonitorJudges : Prop :=
  ∀ (ch : Channel) (k : MonitorNo) (p : Part),
    let c := p.cfg.monitors[k]
    let m := p.scan.monitors[k]
    let q := judgeMonitor ch k p
    let next := q.scan.monitors[k]
    let enters := m.state ≠ .tripped ∧ next.state = .tripped
    let returns := m.state = .tripped ∧ next.state ≠ .tripped
    let outside := ∃ d ∈ scopeChannels c.scope, p.scan.results[d].valid = true ∧
      (p.scan.results[d].value < c.low ∨ c.high < p.scan.results[d].value)
    let deep := ∀ d ∈ scopeChannels c.scope, p.scan.results[d].valid = true →
      c.low + c.hysteresis ≤ p.scan.results[d].value ∧ p.scan.results[d].value ≤ c.high - c.hysteresis
    let tripped : Monitor := ⟨.tripped, 0, min (m.trips + 1) 65535, p.scan.results[ch].stamp⟩
    ch ∈ scopeChannels c.scope →
      (m.state = .inside → outside →
        next = if c.persistence = 1 then tripped else { m with state := .counting, count := 1 }) ∧
      (m.state = .inside → ¬ outside → next = m) ∧
      (m.state = .counting → outside →
        next = if c.persistence ≤ m.count + 1 then tripped else { m with count := m.count + 1 }) ∧
      (m.state = .counting → ¬ outside → next = { m with state := .inside, count := 0 }) ∧
      (m.state = .tripped → ¬ outside → deep →
        next = if c.persistence ≤ m.count + 1 then { m with state := .inside, count := 0 }
          else { m with count := m.count + 1 }) ∧
      (m.state = .tripped → outside ∨ ¬ deep → next = { m with count := 0 }) ∧
      (∀ other : MonitorNo, other ≠ k →
        q.scan.monitors[other] = p.scan.monitors[other]) ∧
      q.scan.results = p.scan.results ∧
      (enters → c.action = .thermalOverride → thermalSetBecomes (thermalSetWith k p) p q) ∧
      (returns → c.action = .thermalOverride → thermalSetBecomes (thermalSetWithout k p) p q) ∧
      (¬ (enters ∨ returns) ∨ c.action ≠ .thermalOverride → q.derate = p.derate) ∧
      (enters → c.action = .discHot → countedOnce 10 p q ∧
        ∀ other : WearNo, other ≠ 10 → q.wear[other] = p.wear[other]) ∧
      (¬ enters ∨ c.action ≠ .discHot → q.wear = p.wear ∧ q.warnings = p.warnings) ∧
      changesOnly [.scan, .wear, .warnings, .derate, .ports] p q

/-- CALIBRATION_END: a channel's new offset is the sum of its sixteen reference codes / 16, less 2048; with every new
offset in −200..200 all are replaced and the outcome is DONE; else none is, and
the lowest channel outside is recorded with FAILED; calibration waiting is clear, and a suspended routine run resumes,
else a pending trigger is taken (R145, R149). That it is clear from the entry into CALIBRATING on
(notes/assumptions/16.md) and that the reference codes are gathered as commands, all 352 of them
(notes/assumptions/7.md), are the model's inferences. -/
def Obligations.CalibrationEndJudges : Prop :=
  ∀ (start : Stamp) (codes : List (BitVec 12)) (s : State), s.part.running = true →
    s.part.scan.mode = .calibrating start codes → codes.length = 352 →
    40 ≤ (s.part.time.now - start).toNat →
    let sum (ch : Channel) : Nat := (((codes.drop (16 * ch.val)).take 16).map (·.toNat)).sum
    let offset (ch : Channel) : Int := ((sum ch / 16 : Nat) : Int) - 2048
    ∃ t, exec .calibrationEnd s = .next t ∧
      ((∀ ch : Channel, -200 ≤ offset ch ∧ offset ch ≤ 200) →
        t.part.cal.outcome = .done ∧ t.part.cal.failedChannel = none ∧
        ∀ ch : Channel, t.part.cal.offsets[ch] = offset ch) ∧
      (∀ ch : Channel, (offset ch < -200 ∨ 200 < offset ch) →
        (∀ lower : Channel, lower < ch → -200 ≤ offset lower ∧ offset lower ≤ 200) →
        t.part.cal = ⟨s.part.cal.offsets, .failed, some ch⟩) ∧
      nextStepTaken s.part t.part ∧
      changesOnly [.cal, .scan] s.part t.part

/-! ### Settlement -/

/-- SETTLEMENT_BEGIN: the offer is tested, and the whole record and its working values are the ones `settlingOf` makes
of what stands then (R1, R2, R4, R20, R48): its number, stamp, flags, authority, hold state, auxiliary power and brake
request. The accepted source stays on the stack (`OfferAccepted`); the acceptance of SAFE_STOP ends a hold, whose entry
leaves (R51, R108); the BLEND flag is evaluated at the episode's start and end, and one that falls releases its entry,
from the top with AUTHORITY_CHANGE (R43, R50, R70). An episode start promotes every pending program with
PROGRAM_PROMOTED and lets the pass read 0 as REG_applied_prev (R69); the pass of an episode settlement is kept as the
latest (R89). An episode start also ends the vehicle's standing, which abandons a calibration in progress or waiting
(R150). That stages 0 to 8 come with this command is the model's choice (notes/assumptions/37.md). That the
stages take their configuration items, n_floor among them, at the beginning, and that calibration waiting is clear
while a calibration is in progress, are its inferences (notes/assumptions/26.md, notes/assumptions/16.md). -/
def Obligations.SettlementBeginsOnWhatStands : Prop :=
  ∀ (senseHeld : Bool) (s : State), s.part.running = true →
    s.part.account.beginning = some senseHeld → s.part.account.settling = none →
    let q := acceptance s.part
    let i := settleInputs s.part.hold.state q
    let st := settlingOf s.part.hold.state senseHeld q
    let aDem := s.part.image.drive.data.aDem
    ∃ t : State, exec .settlementBegin s = .next t ∧
      t.part.account = { s.part.account with beginning := none, settling := some st } ∧
      st.record = i.record s.part.account.nextSeq senseHeld s.part.time.now ∧
      st.record.flags.episode = decide (aDem ≠ 0) ∧
      st.record.aDem = aDem ∧ st.record.x = auxNow s.part ∧
      st.record.base = baseAuthority (acceptOffer s.part) ∧
      st.record.governing = governing (acceptOffer s.part) ∧
      st.record.hold = s.part.hold.state ∧ st.working.link = s.part.gen.link ∧
      st.tookDump = s.part.account.dump ∧ st.dumpAgain = false ∧ st.nFloor = s.part.cfg.num .nFloor ∧
      st.endedEpisode = (s.part.blend.episode && decide (aDem = 0)) ∧
      st.working = i.working ⟨s.part.wear[0].level, s.part.wear[1].level, s.part.wear[2].level⟩
        (if s.part.scan.results[16].valid then s.part.scan.results[16].value else 0)
        (if s.part.scan.results[17].valid then s.part.scan.results[17].value else 0) ∧
      (aDem ≠ 0 → s.part.blend.episode = false → standingCeased s.part t.part) ∧
      (aDem = 0 ∨ s.part.blend.episode = true → t.part.cal = s.part.cal ∧ t.part.scan = s.part.scan) ∧
      (accepted s.part = some .safeStop → s.part.hold.state ≠ .drive →
        t.part.hold = ⟨.drive, s.part.time.now, none, false, false, false⟩ ∧ t.part.gen.startRequest = false ∧
        t.part.auth.flags.hold = false ∧ hasEvent .holdChange .pd t.part) ∧
      (accepted s.part ≠ some .safeStop → t.part.hold = s.part.hold ∧ t.part.gen = s.part.gen) ∧
      t.part.blend.episode = decide (aDem ≠ 0) ∧ t.part.blend.regPrev = s.part.blend.regPrev ∧
      i.pass.regPrev = (if s.part.blend.episode then s.part.blend.regPrev else 0) ∧
      (aDem ≠ 0 → s.part.blend.episode = false → ∀ slot : SlotNo,
        (∀ program, s.part.slots[slot].pending = some program →
          t.part.slots[slot] = ⟨program, none⟩ ∧ hasEvent .programPromoted .pb t.part) ∧
        (s.part.slots[slot].pending = none → t.part.slots[slot] = s.part.slots[slot])) ∧
      (aDem = 0 ∨ s.part.blend.episode = true → t.part.slots = s.part.slots) ∧
      (aDem ≠ 0 → i.program = t.part.slots[slotNow s.part].active ∧
        t.part.blend.latest = some ⟨slotNow s.part, (runPass i.pass i.program aDem i.aCap).steps,
          (runPass i.pass i.program aDem i.aCap).reg, (runPass i.pass i.program aDem i.aCap).fri⟩) ∧
      (aDem = 0 → t.part.blend.latest = s.part.blend.latest) ∧
      (let turns := s.part.blend.episode ≠ decide (aDem ≠ 0)
      let allowed := aDem ≠ 0 ∧ s.part.image.drive.data.direction = .forward ∧
        s.part.cfg.num .vMinRegen ≤ s.part.image.brake.data.v ∧
        (s.part.image.brake.freshness = .fresh ∨ s.part.image.brake.freshness = .stale)
      let breaks := accepted s.part = some .safeStop ∧ s.part.hold.state ≠ .drive
      t.part.auth.flags = { s.part.auth.flags with
        hold := if breaks then false else s.part.auth.flags.hold
        blend := if turns then decide allowed else s.part.auth.flags.blend } ∧
      entriesReleased (fun src => (src = .hold && decide breaks) ||
        (src = .blend && decide (turns ∧ ¬ allowed))) (acceptOffer s.part) t.part) ∧
      portsOnlyGainEvents s.part t.part ∧
      changesOnly [.account, .auth, .hold, .gen, .slots, .blend, .scan, .cal, .ports] s.part t.part

/-- What a settlement takes at its beginning, field by field (R2 to R5): base and governing authority from the stack;
the partners' effective values by their freshness (R36 to R40); each motor's last report and whether it is in service
(R60); X from channels 16 and 19; the factors, the DUMP request, G_prev, whether a RESISTOR_INHIBIT monitor is TRIPPED
(R7), the configured items; and what the pass reads, with the slot it selects (R69, R77, R83, R88). That the
configured items are those of the beginning is the model's inference (notes/assumptions/26.md). -/
def Obligations.SettlementInputsTaken : Prop :=
  ∀ (hold : HoldState) (p : Part),
    let i := settleInputs hold p
    let drive := p.image.drive
    let storage := p.image.storage
    let brake := p.image.brake
    let sensed (ch : Channel) : Int := if p.scan.results[ch].valid then p.scan.results[ch].value else 0
    let worn := p.wear[0].level ≠ .ok ∨ p.wear[1].level ≠ .ok ∨ p.wear[2].level ≠ .ok
    let slipping := brake.freshness ≠ .lost ∧ (brake.data.slip2 = true ∨ brake.data.slip3 = true)
    let full := p.cfg.num .socFull ≤ storage.data.soc
    let slot : SlotNo := if brake.data.lowAdhesion then 1 else if full then 3 else if worn then 2 else 0
    i.governing = p.auth.stack.head?.map (·.source) ∧
    i.base = (p.auth.stack.find? (·.source ≠ .slip)).map (·.source) ∧
    i.hold = hold ∧ i.link = p.gen.link ∧
    i.pedal = (if drive.freshness = .stale ∨ drive.freshness = .lost then 0 else drive.data.pedal) ∧
    i.aDem = drive.data.aDem ∧ i.direction = drive.data.direction ∧ i.reserve = drive.data.reserve ∧
    i.quietZone = drive.data.quietZone ∧ i.soc = storage.data.soc ∧
    i.pDisLim = (if storage.data.contactorOpen then 0
      else if storage.freshness = .lost then p.image.disCopy else storage.data.pDisLim) ∧
    i.pChgLim = (if storage.data.contactorOpen then 0
      else if storage.freshness = .lost then p.image.chgCopy else storage.data.pChgLim) ∧
    i.pGenAvail = (if p.image.generator.freshness = .lost then 0 else p.image.generator.data.pGenAvail) ∧
    i.v = brake.data.v ∧ i.m = brake.data.m ∧ i.slipCap = ⟨brake.data.slipCapA, brake.data.slipCapB⟩ ∧
    i.slip = (if brake.freshness = .lost then ⟨false, false⟩ else ⟨brake.data.slip2, brake.data.slip3⟩) ∧
    (∀ motor, (i.motors.get motor).n = (p.links.get motor).n ∧
      (i.motors.get motor).tMot = (p.links.get motor).tMot ∧
      (i.motors.get motor).tGen = (p.links.get motor).tGen ∧
      ((i.motors.get motor).inService = true ↔ (p.links.get motor).freshness = .fresh ∧
        (p.links.get motor).ready = true ∧ (p.links.get motor).fault = false)) ∧
    i.x = min ((sensed 16).toNat * (sensed 19).toNat / 100) 1500 ∧ i.factors = p.derate.factors ∧
    (i.resistorInhibited = true ↔ ∃ k : MonitorNo,
      p.cfg.monitors[k].action = .resistorInhibit ∧ p.scan.monitors[k].state = .tripped) ∧
    i.dump = p.account.dump ∧ i.gPrev = p.account.gPrev ∧
    i.items = ⟨p.cfg.num .pTracMax, p.cfg.num .pRevMax, ⟨p.cfg.num .tLimA, p.cfg.num .tLimB⟩,
      p.cfg.num .nFloor, p.cfg.num .vMinRegen, p.cfg.on .resistorRegen, p.cfg.num .socLow, p.cfg.num .socHigh,
      p.cfg.num .reserveOffset, p.cfg.num .chgBias, p.cfg.num .genRamp, p.cfg.num .qMax⟩ ∧
    slotNow p = slot ∧
    i.program = (if p.blend.episode then p.slots[slot].active
      else p.slots[slot].pending.getD p.slots[slot].active) ∧
    i.pass.v = brake.data.v ∧ i.pass.regPrev = (if p.blend.episode then p.blend.regPrev else 0) ∧
    (i.pass.slip = true ↔ slipping) ∧ (i.pass.worn = true ↔ worn) ∧ (i.pass.full = true ↔ full) ∧
    (i.pass.hot = true ↔ ∃ k : MonitorNo,
      p.cfg.monitors[k].action = .discHot ∧ p.scan.monitors[k].state = .tripped)

/-- Stages 1 to 3 and the weight of stage 6, in the values of the inputs: the window raised by the reserve flag (R6),
the limits (R7), the torque limits and the caps of each motor, out of service and under a governing SLIP (R9, R11),
the traction request (R10) and the weight w (R15); the working values carry them (R22). -/
def Obligations.SettlementTermsFormed : Prop :=
  ∀ i : SettleInputs,
    let low := if i.reserve then min (i.items.socLow + i.items.reserveOffset) 1000 else i.items.socLow
    let high := if i.reserve then min (i.items.socHigh + i.items.reserveOffset) 1000 else i.items.socHigh
    let pedalPower := match i.direction with
      | .forward => i.pedal * i.items.pTracMax / 1000
      | .reverse => i.pedal * i.items.pRevMax / 1000
      | .neutral => 0
    let derated := pedalPower * i.factors.dTrac / 1000
    let lowers := i.governing = some .slip ∧ (i.base = some .traction ∨ i.base = some .limp)
    i.socLow = low ∧ i.socHigh = high ∧
    i.weight = (if i.soc ≤ low then 0 else if high ≤ i.soc then 1000
      else (i.soc - low) * 1000 / (high - low)) ∧
    i.pDisEff = i.pDisLim * i.factors.dBat / 1000 ∧ i.pChgEff = i.pChgLim ∧
    i.pGenEff = (if (i.link = .run ∨ i.link = .unloading) ∧ i.quietZone = false then i.pGenAvail else 0) ∧
    i.qAvail = (if i.resistorInhibited then 0 else i.items.qMax) ∧
    i.pReq = (if i.base = some .limp then derated * 250 / 1000
      else if i.base = some .traction then derated else 0) ∧
    (∀ motor : Motor,
      let m := i.motors.get motor
      let tl := i.items.tLim.get motor * (if motor = .a then i.factors.kA else i.factors.kB) / 1000
      let cap := min tl m.tMot * max m.n i.items.nFloor * 10 / 9549
      let slipCap := i.slipCap.get motor * max m.n i.items.nFloor * 10 / 9549
      i.tl.get motor = tl ∧
      (m.inService = false → i.cm.get motor = 0 ∧ i.cg.get motor = 0) ∧
      (m.inService = true → i.cg.get motor = min tl m.tGen * m.n * 10 / 9549 ∧
        i.cm.get motor = if lowers ∧ i.slip.get motor = true then min cap slipCap else cap)) ∧
    ∀ (lining : PerAxle Level) (volts amps : Int), i.working lining volts amps =
      { pReq := i.pReq, pDisEff := i.pDisEff, pChgEff := i.pChgEff, pGenEff := i.pGenEff, qAvail := i.qAvail
        cm := i.cm, cg := i.cg, aCap := i.aCap, friction := i.aDem - i.regApplied, direction := i.direction
        soc := i.soc, v := i.v, m := i.m, n := ⟨i.motors.a.n, i.motors.b.n⟩, slip := i.slip
        slipCap := i.slipCap, tl := i.tl, dTrac := i.factors.dTrac, link := i.link, lining := lining
        linkVoltage := volts, batteryCurrent := amps }

/-- The arbiter's acceptance: the offer is pushed with its level latched when the stack is empty or its level is
above the top's, and governs, the entry that was the top being suspended, with AUTHORITY_CHANGE; otherwise, and without
an offer, nothing changes (R44, R48). The level of SAFE_STOP is 8, and those of the others are configured (R45). -/
def Obligations.OfferAccepted : Prop :=
  ∀ p : Part,
    (levelOf .safeStop p = 8 ∧ levelOf .slip p = p.cfg.num .levelSlip ∧ levelOf .blend p = p.cfg.num .levelBlend ∧
      levelOf .hold p = p.cfg.num .levelHold ∧ levelOf .limp p = p.cfg.num .levelLimp ∧
      levelOf .traction p = p.cfg.num .levelTraction) ∧
    (∀ src, sourceState src p =
      if p.auth.stack.head?.map (·.source) = some src then .governing
      else if src ∈ p.auth.stack.map (·.source) then .suspended
      else if p.auth.flags.get src = true then .pending else .idle) ∧
    (offer p = none → accepted p = none ∧ acceptOffer p = p) ∧
    ∀ src, offer p = some src →
      ((∀ e, p.auth.stack.head? = some e → e.level < levelOf src p) → accepted p = some src ∧
        (acceptOffer p).auth = { p.auth with stack := ⟨src, levelOf src p⟩ :: p.auth.stack } ∧
        sourceState src (acceptOffer p) = .governing ∧
        (∀ e, p.auth.stack.head? = some e → sourceState e.source (acceptOffer p) = .suspended) ∧
        hasEvent .authorityChange .pd (acceptOffer p) ∧ changesOnly [.auth, .ports] p (acceptOffer p)) ∧
      (∀ e, p.auth.stack.head? = some e → levelOf src p ≤ e.level → accepted p = none ∧ acceptOffer p = p)

/-- The offer: a PENDING source of a level above 0, SAFE_STOP alone while STARTING, of the highest level, and of the
lowest index among equals (R46). -/
def Obligations.OfferIsStrongestWaiting : Prop :=
  ∀ (src : Source) (p : Part), offer p = some src ↔
    (sourceState src p = .pending ∧ levelOf src p ≠ 0 ∧ (p.partState = .starting → src = .safeStop) ∧
      ∀ other, sourceState other p = .pending → levelOf other p ≠ 0 →
        (p.partState = .starting → other = .safeStop) →
        levelOf other p < levelOf src p ∨ (levelOf other p = levelOf src p ∧ src.ctorIdx ≤ other.ctorIdx))

/-- ACCOUNT_SETTLED: the record becomes current and joins the history, the number of the next record, G_prev, the DUMP
request and REG_applied_prev follow, and the settlement frames and torque commands are queued: FRICTION_DEMAND in an
episode and once at its end, DRIVE_REPORT at every fifth close, and to each motor the planned command as its link lets
it stand; GEN_COMMAND asks for what the table of section 5.5 gives the link state, and FRICTION_DEMAND carries which
linings the settlement found at LIMIT; an OVERDRAW or OVERCHARGE in the record's flags sets that event (R17, R18, R21,
R22, R62 to R67, R90, R91, R111, R185, R186). That DRIVE_REPORT counts the warnings after the integration is the model's choice (notes/assumptions/22.md);
that a DUMP request made anew during the settlement is kept is its inference (notes/assumptions/31.md). That share_A
is read at the close and n_floor at the beginning (notes/assumptions/26.md), and that a command lowered to torque 0
keeps its mode (notes/assumptions/32.md), are its inferences too. -/
def Obligations.AccountSettledCloses : Prop :=
  ∀ (st : Settling) (s : State), s.part.running = true → s.part.account.settling = some st →
    let request (link : LinkState) : GenRequest :=
      if link = .awaiting ∨ link = .run ∨ link = .unloading then .run
      else if link = .startSent ∨ link = .cranking ∨ link = .settling then .start
      else .stop
    let lining := st.working.lining
    let worn : PerAxle Bool := ⟨lining.axle1 = .limit, lining.axle2 = .limit, lining.axle3 = .limit⟩
    ∃ t, exec .accountSettled s = .next t ∧
      t.part.account.current = some (st.record, st.working) ∧
      t.part.account.history = pushHistory s.part.account.history st.record ∧
      t.part.account.nextSeq = s.part.account.nextSeq + 1#32 ∧
      t.part.account.gPrev = st.record.g ∧ t.part.account.settling = none ∧
      t.part.account.beginning = s.part.account.beginning ∧
      t.part.account.dump = (st.record.flags.overcharge ||
        (if st.tookDump then st.dumpAgain else s.part.account.dump)) ∧
      t.part.blend = { s.part.blend with regPrev := st.record.regApplied } ∧
      (t.part.port .ps).tx = (s.part.port .ps).tx.enqueue (.storageGrant st.record.seq st.record.d
        st.record.c st.record.q st.record.flags) ∧
      (t.part.port .pg).tx = (s.part.port .pg).tx.enqueue (.genCommand st.record.seq
        (request t.part.gen.link) st.record.g st.record.flags.dump) ∧
      (st.record.flags.episode = true → (t.part.port .pb).tx = (s.part.port .pb).tx.enqueue
        (.frictionDemand st.record.seq st.record.aDem (st.record.aDem - st.record.regApplied)
          st.record.regApplied worn)) ∧
      (st.record.flags.episode = false → st.endedEpisode = true → (t.part.port .pb).tx =
        (s.part.port .pb).tx.enqueue (.frictionDemand st.record.seq 0 0 0 worn)) ∧
      (st.record.flags.episode = false → st.endedEpisode = false →
        (t.part.port .pb).tx = (s.part.port .pb).tx) ∧
      (s.part.ports.reportCount < 4 → t.part.ports.reportCount = s.part.ports.reportCount + 1 ∧
        (t.part.port .pd).tx = (s.part.port .pd).tx) ∧
      (s.part.ports.reportCount = 4 → t.part.ports.reportCount = 0 ∧
        (t.part.port .pd).tx = (s.part.port .pd).tx.enqueue (.driveReport st.record.seq st.record.t
          st.record.governing t.part.hold.state st.working.dTrac t.part.gen.link
          (t.part.warnings.countP (!·.acknowledged)) (t.part.hold.state = .layover))) ∧
      (t.part.port .sv).tx = (s.part.port .sv).tx ∧
      (st.record.flags.overdraw = true → hasEvent .overdraw .ps t.part ∧ hasEvent .overdraw .sv t.part) ∧
      (st.record.flags.overcharge = true → hasEvent .overcharge .ps t.part ∧ hasEvent .overcharge .sv t.part) ∧
      (∀ motor,
        let l := s.part.links.get motor
        let o := checkedOrder l st.working
          ((plannedOrders s.part.partState (s.part.cfg.num .shareA) st).get motor)
        t.part.links.get motor = { l with
          lastCommand := ⟨st.record.seq, o.mode, o.torque⟩
          tx := l.tx.enqueue (.torqueSet st.record.seq o.mode o.torque o.direction) }) ∧
      changesOnly [.account, .links, .blend, .image, .wear, .warnings, .derate, .gen, .hold, .auth, .ports]
        s.part t.part

/-- What the blocks make of the settled record. The mismatch check compares the measured battery power with the
previous record's D − C and reports at the count of 50 (R23); the copies of a LOST storage partner decay (R38); a link
in OFF is started, one in RUN unloaded, one unloaded to G 0 stopped (R113, R116, R117); below soc_floor a quiet hold
ends with a hold start request, or in a quiet zone sets the low-quiet latch (R105, R106). That the configured values
are those that stand at the close is the model's inference (notes/assumptions/26.md). -/
def Obligations.SettledRecordMovesBlocks : Prop :=
  ∀ (st : Settling) (s : State), s.part.running = true → s.part.account.settling = some st →
    let p := s.part
    let r := st.record
    let w := st.working
    let below := quietHold p = true ∧ w.soc < p.cfg.num .socFloor
    let leaves := below ∧ p.image.drive.data.quietZone = false
    ∃ t, exec .accountSettled s = .next t ∧
      (p.account.current = none ∨ r.flags.senseHeld = true →
        t.part.account.mismatch = p.account.mismatch ∧
        (hasEvent .accountMismatch .ps t.part → hasEvent .accountMismatch .ps p)) ∧
      (∀ (c : AccountRecord × Working) (volts : Nat), p.account.current = some c →
        r.flags.senseHeld = false → w.linkVoltage = (volts : Int) →
        let magnitude : Int := ((volts * w.batteryCurrent.natAbs / 100 : Nat) : Int)
        let measured := if w.batteryCurrent < 0 then -magnitude else magnitude
        let difference := (measured - ((c.1.d : Int) - (c.1.c : Int))).natAbs
        (difference ≤ p.cfg.num .mismatchTol → t.part.account.mismatch = 0 ∧
          (hasEvent .accountMismatch .ps t.part → hasEvent .accountMismatch .ps p)) ∧
        (p.cfg.num .mismatchTol < difference →
          t.part.account.mismatch = min (p.account.mismatch + 1) 50 ∧
          (49 ≤ p.account.mismatch → hasEvent .accountMismatch .ps t.part ∧
            hasEvent .accountMismatch .sv t.part) ∧
          (p.account.mismatch < 49 → hasEvent .accountMismatch .ps t.part →
            hasEvent .accountMismatch .ps p))) ∧
      t.part.image = (if p.image.storage.freshness = .lost then { p.image with
        disCopy := p.image.disCopy - p.cfg.num .storageDecay
        chgCopy := p.image.chgCopy - p.cfg.num .storageDecay } else p.image) ∧
      (¬ leaves →
        (p.gen.link = .off → t.part.gen =
          if p.image.drive.data.quietZone = false ∧ quietHold p = false ∧
            (w.soc < p.cfg.num .socStart ∨ w.pDisEff < w.pReq + r.x)
          then { p.gen with
            link := .startSent
            timer := some ⟨.startTimeout, p.time.now, p.cfg.num .startTimeout⟩ }
          else p.gen) ∧
        (p.gen.link = .run → t.part.gen =
          if p.cfg.num .socStop ≤ w.soc ∧ r.t + r.x < w.pDisEff / 2
          then { p.gen with link := .unloading, timer := none } else p.gen) ∧
        (p.gen.link = .unloading → t.part.gen =
          if r.g = 0 then { p.gen with
            link := .stopSent
            timer := some ⟨.stopTimeout, p.time.now, p.cfg.num .stopTimeout⟩ }
          else p.gen) ∧
        (p.gen.link ≠ .off → p.gen.link ≠ .run → p.gen.link ≠ .unloading → t.part.gen = p.gen)) ∧
      (leaves → t.part.hold = ⟨.holdRun, p.time.now, none, false, false, false⟩ ∧
        hasEvent .holdChange .pd t.part ∧
        (p.gen.link = .off → t.part.gen.link = .startSent ∧ t.part.gen.startRequest = false) ∧
        (p.gen.link = .unloading → r.g = 0 → t.part.gen.link = .stopSent ∧ t.part.gen.startRequest = true) ∧
        (p.gen.link = .awaiting ∨ p.gen.link = .stopSent ∨ p.gen.link = .failed →
          t.part.gen = { p.gen with startRequest := true }) ∧
        (p.gen.link = .lockedOut → t.part.gen = { p.gen with startRequest := false })) ∧
      (below → p.image.drive.data.quietZone = true → t.part.hold = { p.hold with latch := true } ∧
        (p.hold.latch = false → hasEvent .socLowQuiet .pd t.part)) ∧
      (quietHold p = true → p.cfg.num .socFloor ≤ w.soc → t.part.hold = { p.hold with latch := false }) ∧
      (quietHold p = false → t.part.hold = p.hold)

/-- Stages 5 and 7 of every settlement: the traction grant and the law of R14; the net demand served by the battery
alone with OVERDRAW beyond P_dis_eff, which an uncoverable X alone can cause (R17); the surplus split between battery
and resistor, OVERCHARGE with its DUMP request, and the balance of sinks and sources (R18). -/
def Obligations.SettlementBalances : Prop :=
  ∀ (i : SettleInputs) (seq : BitVec 32) (senseHeld : Bool) (stamp : Stamp),
    let r := i.record seq senseHeld stamp
    let net : Int := ((r.t + r.x : Nat) : Int) - ((r.g + r.rg : Nat) : Int)
    r.t = (if 0 < r.rg then 0
      else min i.pReq (min (i.pDisEff + i.gReach - r.x) (i.cm.a + i.cm.b))) ∧
    (r.t = 0 ∨ r.rg = 0) ∧ (r.t ≠ 0 → r.base = some .traction ∨ r.base = some .limp) ∧
    (r.rg ≠ 0 → r.base = some .blend) ∧
    (0 ≤ net → (r.d : Int) = net ∧ r.c = 0 ∧ r.q = 0) ∧
    (r.flags.overdraw = true ↔ i.pDisEff < r.d) ∧
    (r.flags.overdraw = true → i.pDisEff + i.gReach < r.x) ∧
    (net < 0 → r.d = 0 ∧ (r.c : Int) = -net - (r.q : Int) ∧
      (r.q : Int) = if (i.pChgEff : Int) < -net then min (-net - (i.pChgEff : Int)) (i.qAvail : Int) else 0) ∧
    (r.flags.overcharge = true ↔ i.pChgEff < r.c) ∧
    (∀ (tol : Nat) (st : Settling) (a : Account), st.record = r → r.flags.overcharge = true →
      (closedAccount tol st a).dump = true) ∧
    r.t + r.x + r.c + r.q = r.d + r.g + r.rg ∧ r.q ≤ i.qAvail

/-- The generator's reach and set-point in the dropped, the unloaded and the normal case, dropped before unloaded (R8,
R16), with the law that G never exceeds P_gen_eff, nor the previous G by more than gen_ramp, and that P_gen_eff is 0
outside RUN and UNLOADING and in a quiet zone; G_prev becomes G at the close (R16). -/
def Obligations.GeneratorSetPointBounded : Prop :=
  ∀ i : SettleInputs,
    (i.dump = true ∨ i.base = some .safeStop → i.gReach = 0 ∧ i.gLow = 0 ∧ i.g = 0) ∧
    (i.dump = false → i.base ≠ some .safeStop →
      i.gLow = i.gPrev - i.items.genRamp ∧
      (i.aDem ≠ 0 ∨ i.link = .unloading →
        i.gReach = min i.pGenEff i.gLow ∧ i.g = min i.gReach (max 0 i.gLow)) ∧
      (i.aDem = 0 → i.link ≠ .unloading →
        i.gReach = min i.pGenEff (i.gPrev + i.items.genRamp) ∧
        ∃ target : Int,
          target = ((i.t + i.x : Nat) : Int) - ((i.pDisEff * i.weight / 1000 : Nat) : Int) +
            (if i.soc < i.socLow then (i.items.chgBias : Int) else 0) ∧
          (i.g : Int) = min (i.gReach : Int) (max (max 0 (min target i.pGenEff)) i.gLow))) ∧
    i.gReach ≤ i.gPrev + i.items.genRamp ∧
    i.g ≤ i.pGenEff ∧ i.g ≤ i.gPrev + i.items.genRamp ∧
    (i.link ≠ .run → i.link ≠ .unloading → i.pGenEff = 0) ∧ (i.quietZone = true → i.pGenEff = 0) ∧
    ∀ (tol : Nat) (st : Settling) (a : Account), (closedAccount tol st a).gPrev = st.record.g

/-- The regeneration ceiling and what comes of it. Stage 4 of an episode: R from P_chg_eff, X, the resistor when
resistor_regen is on, and G_low; R_eff by d_regen and the generating caps; a_cap by R12, 0 below v_min_regen and
outside an episode. REG_applied is the pass's REG under BLEND, at most a_slip while SLIP governs, and 0 under any
other base; Rg by R13. With every step of the program legal a pass places the whole demand, REG + FRI = a_dem with REG
at most a_cap, runs each step at most once, and Rg is at most R_eff (R83, R89). -/
def Obligations.RegenerationWithinCeiling : Prop :=
  ∀ i : SettleInputs,
    let room := (i.pChgEff + i.x + if i.items.resistorRegen then i.qAvail else 0) - i.gLow
    let decel (power : Nat) : Nat :=
      if i.v < i.items.vMinRegen then 0 else min (power * 360000 / (i.m * i.v)) 500
    let lowered (motor : Motor) : Nat :=
      if i.slip.get motor then min (i.cg.get motor) (i.slipCap.get motor * (i.motors.get motor).n * 10 / 9549)
      else i.cg.get motor
    let pass := runPass i.pass i.program i.aDem i.aCap
    i.rEff = min (room * i.factors.dRegen / 1000) (i.cg.a + i.cg.b) ∧
    i.aCap = (if i.aDem = 0 then 0 else decel i.rEff) ∧
    i.regApplied = (if i.aDem = 0 ∨ i.base ≠ some .blend then 0
      else if i.governing = some .slip then min pass.reg (decel (lowered .a + lowered .b)) else pass.reg) ∧
    i.rg = i.regApplied * i.m * i.v / 360000 ∧
    (programLegal i.program →
      (∀ aDem aCap : Nat,
        (runPass i.pass i.program aDem aCap).reg + (runPass i.pass i.program aDem aCap).fri = aDem ∧
        (runPass i.pass i.program aDem aCap).reg ≤ aCap ∧
        (runPass i.pass i.program aDem aCap).steps ≤ i.program.length) ∧
      i.regApplied ≤ i.aCap ∧ i.regApplied ≤ i.aDem ∧ i.rg ≤ i.rEff)

/-- The pass, step by step. Each operator acts on REM, REG, FRI and CAP as R84 to R87 say and a skip operator on none
of them; decel is moved, never made or lost, and CAP does not rise (R83). Steps run from the first, a skip whose
condition holds passes over its modifier's number of steps, and the pass ends after the last step or when the steps
run out (R88, R89). It starts with REM a_dem and CAP a_cap, and what is left in REM goes to friction. -/
def Obligations.BlendOperatorsAct : Prop :=
  (∀ (i : PassInputs) (m : Nat) (last : Bool) (w : PassValues),
    let after (op : BlendOp) := stepEffect i ⟨op, m, last⟩ w
    let room := min w.rem (w.cap - w.reg)
    let taken := if m = 255 then room else min room m
    let limit := i.regPrev + m
    after .floor = { w with rem := w.rem - min w.rem m, fri := w.fri + min w.rem m } ∧
    after .take = { w with rem := w.rem - taken, reg := w.reg + taken } ∧
    after .scale = { w with cap := w.cap * m / 128 } ∧
    after .fade = { w with cap := if i.v < 10 * m then w.cap * i.v / (10 * m) else w.cap } ∧
    after .step = { w with rem := w.rem + (w.reg - limit), reg := min w.reg limit } ∧
    after .rest = { w with rem := 0, fri := w.fri + w.rem } ∧
    after .skipSlip = w ∧ after .skipWorn = w ∧ after .skipHot = w ∧ after .skipFull = w) ∧
  (∀ (i : PassInputs) (s : BlendStep) (w : PassValues), modifierOk s.op s.modifier = true →
    let after := stepEffect i s w
    after.rem + after.reg + after.fri = w.rem + w.reg + w.fri ∧ after.cap ≤ w.cap ∧
    after.reg ≤ max w.reg w.cap) ∧
  (∀ (i : PassInputs) (s : BlendStep) (rest : List BlendStep) (w : PassValues) (n : Nat),
    let skips := (s.op = .skipSlip ∧ i.slip = true) ∨ (s.op = .skipWorn ∧ i.worn = true) ∨
      (s.op = .skipHot ∧ i.hot = true) ∨ (s.op = .skipFull ∧ i.full = true)
    runSteps i (s :: rest) 0 w n =
      if s.last then (stepEffect i s w, n + 1)
      else if skips then runSteps i (rest.drop s.modifier) 0 (stepEffect i s w) (n + 1)
      else runSteps i rest 0 (stepEffect i s w) (n + 1)) ∧
  (∀ (i : PassInputs) (program : List BlendStep) (aDem aCap : Nat) (w : PassValues) (n : Nat),
    runSteps i [] 0 w n = (w, n) ∧
    (runSteps i program 0 ⟨aDem, 0, 0, aCap⟩ 0 = (w, n) →
      runPass i program aDem aCap = ⟨w.reg, w.fri + w.rem, n⟩))

/-- The torque commands. Under TRACTION or LIMP each motor gets its share of T, split by share_A with each motor's
excess over its cap moved to the other, as MOTOR torque at the settlement's speed, no lower than n_floor (R64); under
BLEND its share of Rg, within the generating caps as SLIP lowers them, as GENERATE torque with FORWARD (R65); ZERO for
a share of 0, under HOLD and with no base; DISABLE while STARTING or under SAFE_STOP (R63). A command is lowered to
what its inverter reports and is ZERO for an inverter out of service (R66). In every settlement the shares add up to T
or Rg and lie within the caps, and every torque is at most TL and at most the report of its mode. That share_A is read
at the close and n_floor at the beginning (notes/assumptions/26.md), and that a command lowered to torque 0 keeps its
mode (notes/assumptions/32.md), are the model's inferences. -/
def Obligations.TorqueCommandsBounded : Prop :=
  ∀ (state : PartState) (shareA : Nat) (motor : Motor) (link : MotorLink),
    let split (total : Nat) (caps : PerMotor Nat) : PerMotor Nat :=
      let a := total * shareA / 1000
      let b := total - a
      if caps.b < b then ⟨total - caps.b, caps.b⟩
      else if caps.a < a then ⟨caps.a, total - caps.a⟩
      else ⟨a, b⟩
    let regenCap (st : Settling) (k : Motor) : Nat :=
      let w := st.working
      if st.record.governing = some .slip ∧ w.slip.get k = true then
        min (w.cg.get k) (w.slipCap.get k * w.n.get k * 10 / 9549)
      else w.cg.get k
    let regenCaps (st : Settling) : PerMotor Nat := ⟨regenCap st .a, regenCap st .b⟩
    (∀ st : Settling,
      let w := st.working
      let planned := (plannedOrders state shareA st).get motor
      let motoring := (split st.record.t w.cm).get motor
      let generating := (split st.record.rg (regenCaps st)).get motor
      (state = .starting ∨ st.record.base = some .safeStop → planned = ⟨.disable, 0, w.direction⟩) ∧
      (state = .ready →
        (st.record.base = none ∨ st.record.base = some .hold → planned = ⟨.zero, 0, w.direction⟩) ∧
        (st.record.base = some .traction ∨ st.record.base = some .limp → planned =
          if motoring = 0 then ⟨.zero, 0, w.direction⟩
          else ⟨.motor, motoring * 9549 / (10 * max (w.n.get motor) st.nFloor), w.direction⟩) ∧
        (st.record.base = some .blend → planned =
          if generating = 0 then ⟨.zero, 0, w.direction⟩
          else ⟨.generate, generating * 9549 / (10 * max (w.n.get motor) 1), .forward⟩))) ∧
    (∀ (w : Working) (o : TorqueOrder),
      (o.mode = .disable → checkedOrder link w o = o) ∧
      (o.mode = .zero ∨ (o.mode ≠ .disable ∧ link.inService = false) →
        checkedOrder link w o = ⟨.zero, 0, w.direction⟩) ∧
      (o.mode = .motor → link.inService = true →
        checkedOrder link w o = { o with torque := min o.torque link.tMot }) ∧
      (o.mode = .generate → link.inService = true →
        checkedOrder link w o = { o with torque := min o.torque link.tGen })) ∧
    (∀ (hold : HoldState) (senseHeld : Bool) (p : Part), programLegal (passProgram p) →
      let st := settlingOf hold senseHeld p
      let motoring := split st.record.t st.working.cm
      let generating := split st.record.rg (regenCaps st)
      let o := checkedOrder link st.working ((plannedOrders state shareA st).get motor)
      (shareA ≤ 1000 →
        motoring.a + motoring.b = st.record.t ∧ motoring.a ≤ st.working.cm.a ∧ motoring.b ≤ st.working.cm.b ∧
        generating.a + generating.b = st.record.rg ∧ generating.a ≤ regenCap st .a ∧
        generating.b ≤ regenCap st .b) ∧
      o.torque ≤ st.working.tl.get motor ∧ (o.mode = .motor → o.torque ≤ link.tMot) ∧
      (o.mode = .generate → o.torque ≤ link.tGen) ∧
      (state = .starting ∨ st.record.base = some .safeStop → o.mode = .disable) ∧
      (state = .ready → st.record.base = some .hold → o.mode = .zero) ∧
      (link.inService = false → o.torque = 0))

/-! ### Expiries -/

/-- The moves inside the holds. At a DRIVE_STATUS that breaks no hold: HOLD_RUN becomes quiet when the quiet zone
comes on, with rule 1; HOLD_QUIET becomes LAYOVER with the layover request; an overdue LAYOVER whose quiet zone clears
becomes HOLD_RUN with a hold start request, and a withdrawn request makes it HOLD_QUIET (R102 to R104). At the timers:
HOLD_QUIET becomes LAYOVER with its rule kept; LAYOVER becomes HOLD_RUN with a hold start request, which turns an OFF
link to START_SENT, or stays in a quiet zone (R103, R104, R106). That the overdue layover is judged before the
withdrawn request is the model's choice (notes/assumptions/14.md); that the layover timer has stopped after its expiry
in a quiet zone is its inference (notes/assumptions/15.md). -/
def Obligations.HoldsMoveInside : Prop :=
  ∀ s : State, s.part.running = true →
    (∀ (pedal aDem : BitVec 16) (direction flags : Byte),
      min pedal.toNat 1000 < s.part.cfg.num .breakPedal → flags.getLsbD 0 = true →
      directionOf direction = s.part.image.drive.data.direction →
      let h := s.part.hold
      let zone := s.part.image.drive.data.quietZone
      let overdue := 1000 * s.part.cfg.num .layoverMax ≤ (s.part.time.now - h.entered).toNat
      ∃ t, exec (.driveStatus pedal aDem direction flags) s = .next t ∧
        (h.state = .holdRun → zone = false → flags.getLsbD 2 = true → hasEvent .holdChange .pd t.part ∧
          t.part.hold = if flags.getLsbD 1 then ⟨.layover, s.part.time.now, some 1, h.latch, false, true⟩
            else ⟨.holdQuiet, s.part.time.now, some 1, h.latch, s.part.cfg.on .deepPromotion, false⟩) ∧
        (h.state = .holdRun → zone = true ∨ flags.getLsbD 2 = false → t.part.hold = h) ∧
        (h.state = .holdQuiet → flags.getLsbD 1 = true → hasEvent .holdChange .pd t.part ∧
          t.part.hold = ⟨.layover, s.part.time.now, h.rule, h.latch, false, true⟩) ∧
        (h.state = .holdQuiet → flags.getLsbD 1 = false → t.part.hold = h) ∧
        (h.state = .layover → zone = true → flags.getLsbD 2 = false → overdue →
          hasEvent .holdChange .pd t.part ∧
          t.part.hold = ⟨.holdRun, s.part.time.now, none, false, false, false⟩ ∧
          (s.part.gen.link = .off → t.part.gen.link = .startSent ∧ t.part.gen.startRequest = false) ∧
          (s.part.gen.link = .stopSent → t.part.gen.link = .stopSent ∧ t.part.gen.startRequest = true)) ∧
        (h.state = .layover → zone = false ∨ flags.getLsbD 2 = true ∨ ¬ overdue →
          (s.part.image.drive.data.layoverRequest = true → flags.getLsbD 1 = false →
            hasEvent .holdChange .pd t.part ∧ t.part.hold =
              ⟨.holdQuiet, s.part.time.now, h.rule, h.latch, s.part.cfg.on .deepPromotion, false⟩) ∧
          (s.part.image.drive.data.layoverRequest = false ∨ flags.getLsbD 1 = true → t.part.hold = h))) ∧
    (s.part.hold.promotion = true →
      1000 * s.part.cfg.num .layoverAfter ≤ (s.part.time.now - s.part.hold.entered).toNat →
      ∃ t, exec .promotionTimerExpiry s = .next t ∧
        t.part.hold = ⟨.layover, s.part.time.now, s.part.hold.rule, s.part.hold.latch, false, true⟩ ∧
        hasEvent .holdChange .pd t.part ∧ changesOnly [.hold, .gen, .auth, .ports] s.part t.part) ∧
    (s.part.hold.layover = true →
      1000 * s.part.cfg.num .layoverMax ≤ (s.part.time.now - s.part.hold.entered).toNat →
      ∃ t, exec .layoverTimerExpiry s = .next t ∧
        (s.part.image.drive.data.quietZone = true →
          t.part.hold = { s.part.hold with layover := false } ∧ changesOnly [.hold] s.part t.part) ∧
        (s.part.image.drive.data.quietZone = false →
          t.part.hold = ⟨.holdRun, s.part.time.now, none, false, false, false⟩ ∧
          hasEvent .holdChange .pd t.part ∧
          (s.part.gen.link = .off → t.part.gen.link = .startSent ∧ t.part.gen.startRequest = false) ∧
          (s.part.gen.link ≠ .off → t.part.gen.link = s.part.gen.link) ∧
          (s.part.gen.link = .stopSent → t.part.gen.startRequest = true) ∧
          changesOnly [.hold, .gen, .auth, .ports] s.part t.part))

/-- The sequencer's timers: the start and stop timers end in a counted failure, LOCKED_OUT at the third; the settle
timer in RUN with the count at 0; the retry timer in OFF, or START_SENT with a waiting request (R114, R115,
R119, R120, R106). -/
def Obligations.SequencerTimersExpire : Prop :=
  ∀ (timer : GenTimer) (s : State), s.part.running = true → s.part.gen.timer = some timer →
    timer.length ≤ (s.part.time.now - timer.start).toNat →
    (timer.name = .startTimeout → s.part.gen.link = .startSent ∨ s.part.gen.link = .cranking →
      ∃ t, exec .startTimeout s = .next t ∧ t.part.gen.failures = s.part.gen.failures + 1 ∧
        t.part.gen.link = (if s.part.gen.failures = 2 then .lockedOut else .failed) ∧
        hasEvent .gensetFault .pg t.part ∧ changesOnly [.gen, .ports] s.part t.part) ∧
    (timer.name = .genSettle → s.part.gen.link = .settling →
      ∃ t, exec .genSettleExpiry s = .next t ∧ t.part.gen.link = .run ∧ t.part.gen.failures = 0 ∧
        t.part.gen.timer = none ∧ changesOnly [.gen] s.part t.part) ∧
    (timer.name = .stopTimeout → s.part.gen.link = .stopSent →
      ∃ t, exec .stopTimeout s = .next t ∧ t.part.gen.failures = s.part.gen.failures + 1 ∧
        t.part.gen.link = (if s.part.gen.failures = 2 then .lockedOut else .failed) ∧
        hasEvent .gensetFault .pg t.part ∧ changesOnly [.gen, .ports] s.part t.part) ∧
    (timer.name = .retryDelay → s.part.gen.link = .failed →
      ∃ t, exec .retryDelayExpiry s = .next t ∧ t.part.gen.failures = s.part.gen.failures ∧
        t.part.gen.link = (if s.part.gen.startRequest then .startSent else .off) ∧
        changesOnly [.gen] s.part t.part)

/-- Freshness: a FRESH partner is STALE when its limit has elapsed since its arrival stamp, a STALE one LOST after
four times the limit, the stored fields kept. A silent drive partner drops TRACTION and ends a hold; a lost brake
partner raises LIMP and drops SLIP and BLEND; their entries leave the stack, from the top with AUTHORITY_CHANGE; a lost generator partner fails the link, uncounted (R34, R36, R37, R39,
R40, R43, R50, R108, R122). START_WINDOW_EXPIRY: every partner still NEVER becomes LOST, the others stay, and the part is
READY (R205). -/
def Obligations.PartnersFallSilent : Prop :=
  (∀ (partner : Partner) (s : State), s.part.running = true →
    (s.part.fresh partner = .fresh →
      s.part.limitOf partner ≤ (s.part.time.now - s.part.image.stampOf partner).toNat →
      ∃ t, exec (.partnerStale partner) s = .next t ∧
        t.part.image = s.part.image.setFreshness partner .stale ∧
        (partner = .drive → t.part.auth.flags.traction = false ∧ t.part.hold.state = .drive ∧
          entriesReleased (fun src => src = .traction || (src = .hold && s.part.hold.state ≠ .drive))
            s.part t.part ∧ effPedal t.part = 0) ∧
        (partner = .storage ∨ partner = .generator → changesOnly [.image] s.part t.part) ∧
        (partner = .brake → changesOnly [.image, .auth, .ports] s.part t.part) ∧
        changesOnly [.image, .auth, .hold, .gen, .ports] s.part t.part) ∧
    (s.part.fresh partner = .stale →
      4 * s.part.limitOf partner ≤ (s.part.time.now - s.part.image.stampOf partner).toNat →
      ∃ t, exec (.partnerLost partner) s = .next t ∧
        t.part.image = s.part.image.setFreshness partner .lost ∧
        (partner = .drive → t.part.auth.flags.traction = false ∧ t.part.hold.state = .drive) ∧
        (partner = .storage → changesOnly [.image] s.part t.part) ∧
        (partner = .brake → t.part.auth.flags.limp = true ∧ t.part.auth.flags.slip = false ∧
          t.part.auth.flags.blend = false ∧
          entriesReleased (fun src => src = .slip || src = .blend) s.part t.part ∧
          changesOnly [.image, .auth, .ports] s.part t.part) ∧
        (partner = .generator → s.part.gen.failures ≠ 3 → s.part.gen.link ≠ .lockedOut →
          t.part.gen.link = .failed ∧ t.part.gen.failures = s.part.gen.failures) ∧
        (partner = .generator → s.part.gen.link = .lockedOut → t.part.gen = s.part.gen) ∧
        changesOnly [.image, .auth, .hold, .gen, .ports] s.part t.part)) ∧
  (∀ s : State, s.part.running = true → s.part.partState = .starting → 2000 ≤ s.part.time.now.toNat →
    ∃ t, exec .startWindowExpiry s = .next t ∧ t.part.partState = .ready ∧
      (∀ partner, t.part.fresh partner =
        (if s.part.fresh partner = .never then .lost else s.part.fresh partner)) ∧
      (∀ partner, t.part.image.stampOf partner = s.part.image.stampOf partner) ∧
      (s.part.image.brake.freshness = .never → t.part.auth.flags.limp = true) ∧
      (s.part.image.generator.freshness = .never → s.part.gen.link = .awaiting →
        s.part.gen.failures = 0 → t.part.gen.link = .failed ∧ t.part.gen.failures = 0 ∧
        hasEvent .gensetFault .pd t.part) ∧
      changesOnly [.partState, .image, .auth, .hold, .gen, .ports] s.part t.part)

/-- The thermal timers: arming ends in ACTIVE with THERMAL_OVERRIDE set, clearing in OFF, and the factors are formed
again, with DERATE_CHANGE when d_trac changed (R128, R133, R134). -/
def Obligations.ThermalTimersExpire : Prop :=
  ∀ (timer : RunTimer) (s : State), s.part.running = true → s.part.derate.timer = some timer →
    timer.length ≤ (s.part.time.now - timer.start).toNat →
    (s.part.derate.thermal = .arming → ∃ t, exec .armingTimerExpiry s = .next t ∧
      t.part.derate = { s.part.derate with
        thermal := .active, timer := none, factors := t.part.derate.factors } ∧
      factorsReformed s.part t.part ∧
      t.part.derate.factors.dRegen = 1000 - 125 * s.part.derate.overrideCode ∧
      hasEvent .thermalOverride .pd t.part ∧ changesOnly [.derate, .ports] s.part t.part) ∧
    (s.part.derate.thermal = .active → ∃ t, exec .clearingTimerExpiry s = .next t ∧
      t.part.derate = { s.part.derate with
        thermal := .off, timer := none, factors := t.part.derate.factors } ∧
      factorsReformed s.part t.part ∧
      (s.part.derate.forced = false → t.part.derate.factors.dRegen = 1000) ∧
      changesOnly [.derate, .ports] s.part t.part)

/-! ### Resets and lines -/

/-- The three sources of a run reset, each with its cause: a power-up with the reset line released, the release of the
reset line with the cause that waited, and the combination hold timer (R200, R201, R203, R204). That a calibration
only waiting leaves the offset record as it is, and that the cause is recorded at the release of the line, are the
model's inferences (notes/assumptions/17.md, notes/assumptions/19.md). -/
def Obligations.RunResetsLeaveResetState : Prop :=
  ∀ s : State,
    (s.part.power.supply = false → s.part.power.resetLine = false →
      ∃ t, exec .runDomainPowerUp s = .next t ∧ runResetMade .powerOn s.part t.part) ∧
    (∀ cause, s.part.power.supply = true → s.part.power.held = some cause →
      ∃ t, exec .resetLineRelease s = .next t ∧ runResetMade cause s.part t.part) ∧
    (s.part.running = true → s.part.watch.state = .timing →
      100 ≤ (s.part.time.now - s.part.watch.since).toNat →
      ∃ t, exec .combinationHoldExpiry s = .next t ∧ runResetMade .combination s.part t.part)

/-- The supplies and the reset line: asserting the line on a running part abandons the run domain and waits with the
cause RESET_LINE, the offsets kept and the outcome ABANDONED only with a calibration in progress, and a power-up with
it asserted waits with POWER_ON; a power-down keeps the keep-alive domain exactly; its contents are lost only by a
supply failure while the run domain is off (R150, R199, R201). The model's own here: reset values in the run domain
while it is held in reset (notes/assumptions/19.md) or off (notes/assumptions/27.md), the offset record kept at a
power-down in a calibration (notes/assumptions/18.md), the lost contents left in place under an invalid marker until
the next run reset (notes/assumptions/28.md), and nothing kept of a failure while the run supply is up
(notes/assumptions/39.md). -/
def Obligations.SuppliesAndResetLine : Prop :=
  ∀ s : State,
    (s.part.running = true → ∃ t, exec .resetLineAssert s = .next t ∧ t.part.running = false ∧
      t.part.power = ⟨true, true, some .resetLine⟩ ∧ t.part.account = resetAccount ∧
      t.part.ports = resetPorts ∧ t.part.links = ⟨resetLink, resetLink⟩ ∧
      (s.part.scan.mode.code = 3 → t.part.cal = ⟨s.part.cal.offsets, .abandoned, none⟩) ∧
      (s.part.scan.mode.code ≠ 3 → t.part.cal = s.part.cal) ∧
      changesOnly (.power :: .cal :: runBlocks) s.part t.part) ∧
    (s.part.power.supply = false → s.part.power.resetLine = true →
      ∃ t, exec .runDomainPowerUp s = .next t ∧ t.part.running = false ∧
        t.part.power = ⟨true, true, some .powerOn⟩ ∧ changesOnly [.power] s.part t.part) ∧
    (∃ t, exec .runDomainPowerDown s = .next t ∧ t.part.power.supply = false ∧ t.part.running = false ∧
      keepAliveSame s.part t.part ∧ changesOnly (.power :: runBlocks) s.part t.part) ∧
    (s.part.power.supply = false → ∃ t, exec .keepAliveSupplyFailure s = .next t ∧
      t.part.marker = false ∧ changesOnly [.marker] s.part t.part) ∧
    (s.part.power.supply = true → exec .keepAliveSupplyFailure s = .next s)

/-- EMERGENCY_LINE_CHANGE: the line takes its level; SAFE_STOP is requested while any line is active or the brake
partner's emergency flag is set, and is released at once when none is. The combination watch leaves
DISARMED for ARMED when the mask names a line and one of its lines is inactive, ARMED for TIMING when all are active,
TIMING for ARMED when one is not, and else stays as it is (R43, R50, R52, R203). -/
def Obligations.EmergencyLineRequestsSafeStop : Prop :=
  ∀ (line : EmergencyLine) (active : Bool) (s : State), s.part.running = true →
    let mask := s.part.cfg.resetMask
    let allActive := (s.part.lines.set line active).bits &&& mask = mask
    ∃ t, exec (.emergencyLineChange line active) s = .next t ∧
      t.part.lines = s.part.lines.set line active ∧
      t.part.auth.flags.safeStop = (anyLineActive t.part || s.part.image.brake.data.emergency) ∧
      (∀ src, src ≠ .safeStop → t.part.auth.flags.get src = s.part.auth.flags.get src) ∧
      entriesReleased (fun src => src = .safeStop && !t.part.auth.flags.safeStop) s.part t.part ∧
      (s.part.watch.state = .disarmed → t.part.watch =
        if mask ≠ 0#3 ∧ ¬ allActive then { s.part.watch with state := .armed } else s.part.watch) ∧
      (s.part.watch.state = .armed → t.part.watch =
        if allActive then ⟨.timing, s.part.time.now⟩ else s.part.watch) ∧
      (s.part.watch.state = .timing → t.part.watch =
        if allActive then s.part.watch else { s.part.watch with state := .armed }) ∧
      changesOnly [.lines, .auth, .watch, .ports] s.part t.part

/-! ### What every step keeps -/

/-- Every step keeps the account in order: balanced records, at most sixteen of them, numbered in succession
(R14, R18, R20, R21). -/
def Obligations.StepKeepsAccountSound : Prop :=
  ∀ s t : State, accountSound s.part → step s = .next t → accountSound t.part

/-- Every step keeps the law of the authority stack (R49, R44). -/
def Obligations.StepKeepsStackSound : Prop :=
  ∀ s t : State, stackSound s.part → step s = .next t → stackSound t.part

/-- Every step keeps the law of the quiet holds, with the engine neither starting nor in RUN and G zero in every
record made in one; no engine at work in a quiet zone; the order of the hold controller's timers and latch; and the
lockout at exactly three counted failures with no start request left (R19, R101 to R106, R111, R118, R120). -/
def Obligations.StepKeepsHoldSound : Prop :=
  ∀ s t : State, holdSound s.part → step s = .next t → holdSound t.part

/-- Every step keeps the law of the warning list (R173). -/
def Obligations.StepKeepsWarningsSound : Prop :=
  ∀ s t : State, warningsSound s.part → step s = .next t → warningsSound t.part

/-- Every step keeps the derate factors of a running part at what their causes give, d_trac at the least of the caps
in force; and a part that is up but held in reset keeps the cause its release will record (R124, R132 to R137, R201).
-/
def Obligations.StepKeepsFactorsCurrent : Prop :=
  ∀ s t : State, factorsCurrent s.part → step s = .next t → factorsCurrent t.part

/-- Every step keeps the transmitters in order and every reply queue within its four places (R182, R184). That a
transmitter which sends nothing has nothing queued leaves out the idle gap between frames: the model's choice
(notes/assumptions/9.md). -/
def Obligations.StepKeepsTransmittersSound : Prop :=
  ∀ s t : State, transmittersSound s.part → step s = .next t → transmittersSound t.part

/-- Every step keeps the program store in order: every active and pending program of 1 to 16 steps, each modifier in
its operator's range, the last flag on the final step alone, and every open assembly of eight legal steps (R75, R76,
R78, R80, R82). -/
def Obligations.StepKeepsProgramsSound : Prop :=
  ∀ s t : State, programsSound s.part → step s = .next t → programsSound t.part

/-- The state after reset meets every invariant above. Which run reset, contents and lines that state stands for is
the model's choice (notes/assumptions/1.md). -/
def Obligations.ResetMeetsInvariants : Prop :=
  accountSound State.reset.part ∧ stackSound State.reset.part ∧ holdSound State.reset.part ∧
    warningsSound State.reset.part ∧ factorsCurrent State.reset.part ∧ transmittersSound State.reset.part ∧
    programsSound State.reset.part

/-! ### Numbers -/

/-- Integration loses nothing: accumulator times unit plus residual grows by exactly the quantity up to the
accumulator's maximum (R163); the accumulator and the unknown amount rise alike and are held there where a sum would
take them above (R167, R169). That a sum of exactly the maximum is not yet held, and leaves the saturated flag as it
was, is the model's inference (notes/assumptions/20.md). At ACCOUNT_SETTLED the lining items gain the friction work of
their axles, item 7 the battery flow D + C, item 11 the regenerated Rg, item 9 ten milliseconds of a settlement that
took the link in RUN; their levels are formed again by R166, each change is handed on (R168, R173), another d_trac
sets DERATE_CHANGE (R133), and no other item changes (R160 to R162). -/
def Obligations.IntegrationIsExact : Prop :=
  (∀ (item : WearNo) (quantity unit : Nat) (p : Part), 0 < unit →
    let before := p.wear[item]
    let after := (integrate item quantity unit p).wear[item]
    let units := (before.residual + quantity) / unit
    after.residual = (before.residual + quantity) % unit ∧ after.level = before.level ∧
    unitsAdded item units p (integrate item quantity unit p) ∧
    (before.acc + units ≤ 4294967295 →
      after.acc * unit + after.residual = before.acc * unit + before.residual + quantity ∧
      after.saturated = before.saturated) ∧
    (4294967295 < before.acc + units → after.acc = 4294967295 ∧ after.saturated = true) ∧
    ∀ other : WearNo, other ≠ item → (integrate item quantity unit p).wear[other] = p.wear[other]) ∧
  (∀ (st : Settling) (s : State), s.part.running = true → s.part.account.settling = some st →
    let r := st.record
    let w := st.working
    let friction := (r.aDem - r.regApplied) * w.m * w.v
    ∃ t, exec .accountSettled s = .next t ∧
      (∀ (item : WearNo) (quantity unit : Nat),
        (item, quantity, unit) ∈ [((0 : WearNo), friction * s.part.cfg.axleShares.axle1, 360000000000),
          (1, friction * s.part.cfg.axleShares.axle2, 360000000000),
          (2, friction * s.part.cfg.axleShares.axle3, 360000000000), (7, r.d + r.c, 360000),
          (11, r.rg, 360000), (9, 10, 1000)] →
        (item = 9 → w.link = .run) →
        t.part.wear[item].residual = (s.part.wear[item].residual + quantity) % unit ∧
        unitsAdded item ((s.part.wear[item].residual + quantity) / unit) s.part t.part) ∧
      (w.link ≠ .run → t.part.wear[9].acc = s.part.wear[9].acc ∧
        t.part.wear[9].residual = s.part.wear[9].residual ∧
        t.part.wear[9].unknown = s.part.wear[9].unknown) ∧
      (∀ item : WearNo, item ∈ [(0 : WearNo), 1, 2, 7, 9] →
        levelFormed item t.part.wear[item] ∧ levelHandedOn item s.part t.part) ∧
      t.part.wear[11].level = s.part.wear[11].level ∧ derateChangeSet s.part t.part ∧
      (∀ other : WearNo, other ∈ [(3 : WearNo), 4, 5, 6, 8, 10] → t.part.wear[other] = s.part.wear[other]))

/-- The judgement that every wear event ends with: the item's level is formed by R166; a level that stays changes
nothing else; a change is stamped and handed on to the warning list by the table of R173, to the brake port for a
lining item that reaches LIMIT, and for items 0 to 7 to the derate unit, which forms its factors again (R132, R133,
R168). -/
def Obligations.WearChangesHandedOn : Prop :=
  ∀ (i : WearNo) (p : Part),
    let q := judgeItem i p
    let old := p.wear[i]
    let new := q.wear[i]
    levelFormed i new ∧ levelHandedOn i p q ∧
    new = { old with level := new.level, changed := new.changed, disagree := new.disagree } ∧
    (∀ other : WearNo, other ≠ i → q.wear[other] = p.wear[other]) ∧
    (new.level = old.level → changesOnly [.wear] p q) ∧
    (new.level ≠ old.level →
      (levelRises old.level new.level →
        q.warnings = p.warnings.filter (·.item ≠ i) ++ [⟨i, new.level, p.time.now, false⟩]) ∧
      (new.level = .ok → q.warnings = p.warnings.filter (·.item ≠ i)) ∧
      (new.level ≠ .ok → ¬ levelRises old.level new.level → q.warnings =
        p.warnings.map fun w => if w.item = i then { w with level := new.level } else w) ∧
      (¬ levelRises old.level new.level → hasEvent .warningNew .pd q → hasEvent .warningNew .pd p) ∧
      (i.val ≤ 7 → factorsReformed p q) ∧ (7 < i.val → q.derate = p.derate)) ∧
    (2 < i.val ∨ new.level ≠ .limit → hasEvent .liningLimit .pb q → hasEvent .liningLimit .pb p) ∧
    portsOnlyGainEvents p q ∧ changesOnly [.wear, .warnings, .derate, .ports] p q

/-- The attention line is asserted exactly while an event is both set and enabled on its port (R189). -/
def Obligations.AttentionFollowsEvents : Prop :=
  ∀ (p : Part) (port : Port), attention p port = true ↔
    ∃ k, k < 16 ∧ (p.port port).status.getLsbD k = true ∧ (p.cfg.enables.get port).getLsbD k = true
end

