-- ==== Sys2Proof/Laws/State.lean ====
section
/-! SUPPORT. One lemma per field of the part for each update of a block, all true by `rfl`. -/

namespace Sys2Proof.Machine

@[simp] theorem State.on_part (f : Part → Part) (s : State) : (s.on f).part = f s.part := rfl
@[simp] theorem State.on_pending (f : Part → Part) (s : State) : (s.on f).pending = s.pending := rfl

@[simp] theorem Part.setPower_power (p : Part) (v : Power) : (p.setPower v).power = v := rfl
@[simp] theorem Part.setPower_lines (p : Part) (v : Power) : (p.setPower v).lines = p.lines := rfl
@[simp] theorem Part.setPower_marker (p : Part) (v : Power) : (p.setPower v).marker = p.marker := rfl
@[simp] theorem Part.setPower_cfg (p : Part) (v : Power) : (p.setPower v).cfg = p.cfg := rfl
@[simp] theorem Part.setPower_slots (p : Part) (v : Power) : (p.setPower v).slots = p.slots := rfl
@[simp] theorem Part.setPower_cal (p : Part) (v : Power) : (p.setPower v).cal = p.cal := rfl
@[simp] theorem Part.setPower_wear (p : Part) (v : Power) : (p.setPower v).wear = p.wear := rfl
@[simp] theorem Part.setPower_warnings (p : Part) (v : Power) : (p.setPower v).warnings = p.warnings := rfl
@[simp] theorem Part.setPower_cause (p : Part) (v : Power) : (p.setPower v).cause = p.cause := rfl
@[simp] theorem Part.setPower_time (p : Part) (v : Power) : (p.setPower v).time = p.time := rfl
@[simp] theorem Part.setPower_partState (p : Part) (v : Power) : (p.setPower v).partState = p.partState := rfl
@[simp] theorem Part.setPower_watch (p : Part) (v : Power) : (p.setPower v).watch = p.watch := rfl
@[simp] theorem Part.setPower_image (p : Part) (v : Power) : (p.setPower v).image = p.image := rfl
@[simp] theorem Part.setPower_links (p : Part) (v : Power) : (p.setPower v).links = p.links := rfl
@[simp] theorem Part.setPower_account (p : Part) (v : Power) : (p.setPower v).account = p.account := rfl
@[simp] theorem Part.setPower_blend (p : Part) (v : Power) : (p.setPower v).blend = p.blend := rfl
@[simp] theorem Part.setPower_auth (p : Part) (v : Power) : (p.setPower v).auth = p.auth := rfl
@[simp] theorem Part.setPower_hold (p : Part) (v : Power) : (p.setPower v).hold = p.hold := rfl
@[simp] theorem Part.setPower_gen (p : Part) (v : Power) : (p.setPower v).gen = p.gen := rfl
@[simp] theorem Part.setPower_derate (p : Part) (v : Power) : (p.setPower v).derate = p.derate := rfl
@[simp] theorem Part.setPower_scan (p : Part) (v : Power) : (p.setPower v).scan = p.scan := rfl
@[simp] theorem Part.setPower_ports (p : Part) (v : Power) : (p.setPower v).ports = p.ports := rfl

@[simp] theorem Part.setLines_power (p : Part) (v : EmergencyLines) : (p.setLines v).power = p.power := rfl
@[simp] theorem Part.setLines_lines (p : Part) (v : EmergencyLines) : (p.setLines v).lines = v := rfl
@[simp] theorem Part.setLines_marker (p : Part) (v : EmergencyLines) : (p.setLines v).marker = p.marker := rfl
@[simp] theorem Part.setLines_cfg (p : Part) (v : EmergencyLines) : (p.setLines v).cfg = p.cfg := rfl
@[simp] theorem Part.setLines_slots (p : Part) (v : EmergencyLines) : (p.setLines v).slots = p.slots := rfl
@[simp] theorem Part.setLines_cal (p : Part) (v : EmergencyLines) : (p.setLines v).cal = p.cal := rfl
@[simp] theorem Part.setLines_wear (p : Part) (v : EmergencyLines) : (p.setLines v).wear = p.wear := rfl
@[simp] theorem Part.setLines_warnings (p : Part) (v : EmergencyLines) : (p.setLines v).warnings = p.warnings := rfl
@[simp] theorem Part.setLines_cause (p : Part) (v : EmergencyLines) : (p.setLines v).cause = p.cause := rfl
@[simp] theorem Part.setLines_time (p : Part) (v : EmergencyLines) : (p.setLines v).time = p.time := rfl
@[simp] theorem Part.setLines_partState (p : Part) (v : EmergencyLines) : (p.setLines v).partState = p.partState := rfl
@[simp] theorem Part.setLines_watch (p : Part) (v : EmergencyLines) : (p.setLines v).watch = p.watch := rfl
@[simp] theorem Part.setLines_image (p : Part) (v : EmergencyLines) : (p.setLines v).image = p.image := rfl
@[simp] theorem Part.setLines_links (p : Part) (v : EmergencyLines) : (p.setLines v).links = p.links := rfl
@[simp] theorem Part.setLines_account (p : Part) (v : EmergencyLines) : (p.setLines v).account = p.account := rfl
@[simp] theorem Part.setLines_blend (p : Part) (v : EmergencyLines) : (p.setLines v).blend = p.blend := rfl
@[simp] theorem Part.setLines_auth (p : Part) (v : EmergencyLines) : (p.setLines v).auth = p.auth := rfl
@[simp] theorem Part.setLines_hold (p : Part) (v : EmergencyLines) : (p.setLines v).hold = p.hold := rfl
@[simp] theorem Part.setLines_gen (p : Part) (v : EmergencyLines) : (p.setLines v).gen = p.gen := rfl
@[simp] theorem Part.setLines_derate (p : Part) (v : EmergencyLines) : (p.setLines v).derate = p.derate := rfl
@[simp] theorem Part.setLines_scan (p : Part) (v : EmergencyLines) : (p.setLines v).scan = p.scan := rfl
@[simp] theorem Part.setLines_ports (p : Part) (v : EmergencyLines) : (p.setLines v).ports = p.ports := rfl

@[simp] theorem Part.setMarker_power (p : Part) (v : Bool) : (p.setMarker v).power = p.power := rfl
@[simp] theorem Part.setMarker_lines (p : Part) (v : Bool) : (p.setMarker v).lines = p.lines := rfl
@[simp] theorem Part.setMarker_marker (p : Part) (v : Bool) : (p.setMarker v).marker = v := rfl
@[simp] theorem Part.setMarker_cfg (p : Part) (v : Bool) : (p.setMarker v).cfg = p.cfg := rfl
@[simp] theorem Part.setMarker_slots (p : Part) (v : Bool) : (p.setMarker v).slots = p.slots := rfl
@[simp] theorem Part.setMarker_cal (p : Part) (v : Bool) : (p.setMarker v).cal = p.cal := rfl
@[simp] theorem Part.setMarker_wear (p : Part) (v : Bool) : (p.setMarker v).wear = p.wear := rfl
@[simp] theorem Part.setMarker_warnings (p : Part) (v : Bool) : (p.setMarker v).warnings = p.warnings := rfl
@[simp] theorem Part.setMarker_cause (p : Part) (v : Bool) : (p.setMarker v).cause = p.cause := rfl
@[simp] theorem Part.setMarker_time (p : Part) (v : Bool) : (p.setMarker v).time = p.time := rfl
@[simp] theorem Part.setMarker_partState (p : Part) (v : Bool) : (p.setMarker v).partState = p.partState := rfl
@[simp] theorem Part.setMarker_watch (p : Part) (v : Bool) : (p.setMarker v).watch = p.watch := rfl
@[simp] theorem Part.setMarker_image (p : Part) (v : Bool) : (p.setMarker v).image = p.image := rfl
@[simp] theorem Part.setMarker_links (p : Part) (v : Bool) : (p.setMarker v).links = p.links := rfl
@[simp] theorem Part.setMarker_account (p : Part) (v : Bool) : (p.setMarker v).account = p.account := rfl
@[simp] theorem Part.setMarker_blend (p : Part) (v : Bool) : (p.setMarker v).blend = p.blend := rfl
@[simp] theorem Part.setMarker_auth (p : Part) (v : Bool) : (p.setMarker v).auth = p.auth := rfl
@[simp] theorem Part.setMarker_hold (p : Part) (v : Bool) : (p.setMarker v).hold = p.hold := rfl
@[simp] theorem Part.setMarker_gen (p : Part) (v : Bool) : (p.setMarker v).gen = p.gen := rfl
@[simp] theorem Part.setMarker_derate (p : Part) (v : Bool) : (p.setMarker v).derate = p.derate := rfl
@[simp] theorem Part.setMarker_scan (p : Part) (v : Bool) : (p.setMarker v).scan = p.scan := rfl
@[simp] theorem Part.setMarker_ports (p : Part) (v : Bool) : (p.setMarker v).ports = p.ports := rfl

@[simp] theorem Part.setCfg_power (p : Part) (v : ConfigStore) : (p.setCfg v).power = p.power := rfl
@[simp] theorem Part.setCfg_lines (p : Part) (v : ConfigStore) : (p.setCfg v).lines = p.lines := rfl
@[simp] theorem Part.setCfg_marker (p : Part) (v : ConfigStore) : (p.setCfg v).marker = p.marker := rfl
@[simp] theorem Part.setCfg_cfg (p : Part) (v : ConfigStore) : (p.setCfg v).cfg = v := rfl
@[simp] theorem Part.setCfg_slots (p : Part) (v : ConfigStore) : (p.setCfg v).slots = p.slots := rfl
@[simp] theorem Part.setCfg_cal (p : Part) (v : ConfigStore) : (p.setCfg v).cal = p.cal := rfl
@[simp] theorem Part.setCfg_wear (p : Part) (v : ConfigStore) : (p.setCfg v).wear = p.wear := rfl
@[simp] theorem Part.setCfg_warnings (p : Part) (v : ConfigStore) : (p.setCfg v).warnings = p.warnings := rfl
@[simp] theorem Part.setCfg_cause (p : Part) (v : ConfigStore) : (p.setCfg v).cause = p.cause := rfl
@[simp] theorem Part.setCfg_time (p : Part) (v : ConfigStore) : (p.setCfg v).time = p.time := rfl
@[simp] theorem Part.setCfg_partState (p : Part) (v : ConfigStore) : (p.setCfg v).partState = p.partState := rfl
@[simp] theorem Part.setCfg_watch (p : Part) (v : ConfigStore) : (p.setCfg v).watch = p.watch := rfl
@[simp] theorem Part.setCfg_image (p : Part) (v : ConfigStore) : (p.setCfg v).image = p.image := rfl
@[simp] theorem Part.setCfg_links (p : Part) (v : ConfigStore) : (p.setCfg v).links = p.links := rfl
@[simp] theorem Part.setCfg_account (p : Part) (v : ConfigStore) : (p.setCfg v).account = p.account := rfl
@[simp] theorem Part.setCfg_blend (p : Part) (v : ConfigStore) : (p.setCfg v).blend = p.blend := rfl
@[simp] theorem Part.setCfg_auth (p : Part) (v : ConfigStore) : (p.setCfg v).auth = p.auth := rfl
@[simp] theorem Part.setCfg_hold (p : Part) (v : ConfigStore) : (p.setCfg v).hold = p.hold := rfl
@[simp] theorem Part.setCfg_gen (p : Part) (v : ConfigStore) : (p.setCfg v).gen = p.gen := rfl
@[simp] theorem Part.setCfg_derate (p : Part) (v : ConfigStore) : (p.setCfg v).derate = p.derate := rfl
@[simp] theorem Part.setCfg_scan (p : Part) (v : ConfigStore) : (p.setCfg v).scan = p.scan := rfl
@[simp] theorem Part.setCfg_ports (p : Part) (v : ConfigStore) : (p.setCfg v).ports = p.ports := rfl

@[simp] theorem Part.setSlots_power (p : Part) (v : Vector Slot 4) : (p.setSlots v).power = p.power := rfl
@[simp] theorem Part.setSlots_lines (p : Part) (v : Vector Slot 4) : (p.setSlots v).lines = p.lines := rfl
@[simp] theorem Part.setSlots_marker (p : Part) (v : Vector Slot 4) : (p.setSlots v).marker = p.marker := rfl
@[simp] theorem Part.setSlots_cfg (p : Part) (v : Vector Slot 4) : (p.setSlots v).cfg = p.cfg := rfl
@[simp] theorem Part.setSlots_slots (p : Part) (v : Vector Slot 4) : (p.setSlots v).slots = v := rfl
@[simp] theorem Part.setSlots_cal (p : Part) (v : Vector Slot 4) : (p.setSlots v).cal = p.cal := rfl
@[simp] theorem Part.setSlots_wear (p : Part) (v : Vector Slot 4) : (p.setSlots v).wear = p.wear := rfl
@[simp] theorem Part.setSlots_warnings (p : Part) (v : Vector Slot 4) : (p.setSlots v).warnings = p.warnings := rfl
@[simp] theorem Part.setSlots_cause (p : Part) (v : Vector Slot 4) : (p.setSlots v).cause = p.cause := rfl
@[simp] theorem Part.setSlots_time (p : Part) (v : Vector Slot 4) : (p.setSlots v).time = p.time := rfl
@[simp] theorem Part.setSlots_partState (p : Part) (v : Vector Slot 4) : (p.setSlots v).partState = p.partState := rfl
@[simp] theorem Part.setSlots_watch (p : Part) (v : Vector Slot 4) : (p.setSlots v).watch = p.watch := rfl
@[simp] theorem Part.setSlots_image (p : Part) (v : Vector Slot 4) : (p.setSlots v).image = p.image := rfl
@[simp] theorem Part.setSlots_links (p : Part) (v : Vector Slot 4) : (p.setSlots v).links = p.links := rfl
@[simp] theorem Part.setSlots_account (p : Part) (v : Vector Slot 4) : (p.setSlots v).account = p.account := rfl
@[simp] theorem Part.setSlots_blend (p : Part) (v : Vector Slot 4) : (p.setSlots v).blend = p.blend := rfl
@[simp] theorem Part.setSlots_auth (p : Part) (v : Vector Slot 4) : (p.setSlots v).auth = p.auth := rfl
@[simp] theorem Part.setSlots_hold (p : Part) (v : Vector Slot 4) : (p.setSlots v).hold = p.hold := rfl
@[simp] theorem Part.setSlots_gen (p : Part) (v : Vector Slot 4) : (p.setSlots v).gen = p.gen := rfl
@[simp] theorem Part.setSlots_derate (p : Part) (v : Vector Slot 4) : (p.setSlots v).derate = p.derate := rfl
@[simp] theorem Part.setSlots_scan (p : Part) (v : Vector Slot 4) : (p.setSlots v).scan = p.scan := rfl
@[simp] theorem Part.setSlots_ports (p : Part) (v : Vector Slot 4) : (p.setSlots v).ports = p.ports := rfl

@[simp] theorem Part.setCal_power (p : Part) (v : Calibration) : (p.setCal v).power = p.power := rfl
@[simp] theorem Part.setCal_lines (p : Part) (v : Calibration) : (p.setCal v).lines = p.lines := rfl
@[simp] theorem Part.setCal_marker (p : Part) (v : Calibration) : (p.setCal v).marker = p.marker := rfl
@[simp] theorem Part.setCal_cfg (p : Part) (v : Calibration) : (p.setCal v).cfg = p.cfg := rfl
@[simp] theorem Part.setCal_slots (p : Part) (v : Calibration) : (p.setCal v).slots = p.slots := rfl
@[simp] theorem Part.setCal_cal (p : Part) (v : Calibration) : (p.setCal v).cal = v := rfl
@[simp] theorem Part.setCal_wear (p : Part) (v : Calibration) : (p.setCal v).wear = p.wear := rfl
@[simp] theorem Part.setCal_warnings (p : Part) (v : Calibration) : (p.setCal v).warnings = p.warnings := rfl
@[simp] theorem Part.setCal_cause (p : Part) (v : Calibration) : (p.setCal v).cause = p.cause := rfl
@[simp] theorem Part.setCal_time (p : Part) (v : Calibration) : (p.setCal v).time = p.time := rfl
@[simp] theorem Part.setCal_partState (p : Part) (v : Calibration) : (p.setCal v).partState = p.partState := rfl
@[simp] theorem Part.setCal_watch (p : Part) (v : Calibration) : (p.setCal v).watch = p.watch := rfl
@[simp] theorem Part.setCal_image (p : Part) (v : Calibration) : (p.setCal v).image = p.image := rfl
@[simp] theorem Part.setCal_links (p : Part) (v : Calibration) : (p.setCal v).links = p.links := rfl
@[simp] theorem Part.setCal_account (p : Part) (v : Calibration) : (p.setCal v).account = p.account := rfl
@[simp] theorem Part.setCal_blend (p : Part) (v : Calibration) : (p.setCal v).blend = p.blend := rfl
@[simp] theorem Part.setCal_auth (p : Part) (v : Calibration) : (p.setCal v).auth = p.auth := rfl
@[simp] theorem Part.setCal_hold (p : Part) (v : Calibration) : (p.setCal v).hold = p.hold := rfl
@[simp] theorem Part.setCal_gen (p : Part) (v : Calibration) : (p.setCal v).gen = p.gen := rfl
@[simp] theorem Part.setCal_derate (p : Part) (v : Calibration) : (p.setCal v).derate = p.derate := rfl
@[simp] theorem Part.setCal_scan (p : Part) (v : Calibration) : (p.setCal v).scan = p.scan := rfl
@[simp] theorem Part.setCal_ports (p : Part) (v : Calibration) : (p.setCal v).ports = p.ports := rfl

@[simp] theorem Part.setWear_power (p : Part) (v : Vector WearItem 12) : (p.setWear v).power = p.power := rfl
@[simp] theorem Part.setWear_lines (p : Part) (v : Vector WearItem 12) : (p.setWear v).lines = p.lines := rfl
@[simp] theorem Part.setWear_marker (p : Part) (v : Vector WearItem 12) : (p.setWear v).marker = p.marker := rfl
@[simp] theorem Part.setWear_cfg (p : Part) (v : Vector WearItem 12) : (p.setWear v).cfg = p.cfg := rfl
@[simp] theorem Part.setWear_slots (p : Part) (v : Vector WearItem 12) : (p.setWear v).slots = p.slots := rfl
@[simp] theorem Part.setWear_cal (p : Part) (v : Vector WearItem 12) : (p.setWear v).cal = p.cal := rfl
@[simp] theorem Part.setWear_wear (p : Part) (v : Vector WearItem 12) : (p.setWear v).wear = v := rfl
@[simp] theorem Part.setWear_warnings (p : Part) (v : Vector WearItem 12) : (p.setWear v).warnings = p.warnings := rfl
@[simp] theorem Part.setWear_cause (p : Part) (v : Vector WearItem 12) : (p.setWear v).cause = p.cause := rfl
@[simp] theorem Part.setWear_time (p : Part) (v : Vector WearItem 12) : (p.setWear v).time = p.time := rfl
@[simp] theorem Part.setWear_partState (p : Part) (v : Vector WearItem 12) : (p.setWear v).partState = p.partState := rfl
@[simp] theorem Part.setWear_watch (p : Part) (v : Vector WearItem 12) : (p.setWear v).watch = p.watch := rfl
@[simp] theorem Part.setWear_image (p : Part) (v : Vector WearItem 12) : (p.setWear v).image = p.image := rfl
@[simp] theorem Part.setWear_links (p : Part) (v : Vector WearItem 12) : (p.setWear v).links = p.links := rfl
@[simp] theorem Part.setWear_account (p : Part) (v : Vector WearItem 12) : (p.setWear v).account = p.account := rfl
@[simp] theorem Part.setWear_blend (p : Part) (v : Vector WearItem 12) : (p.setWear v).blend = p.blend := rfl
@[simp] theorem Part.setWear_auth (p : Part) (v : Vector WearItem 12) : (p.setWear v).auth = p.auth := rfl
@[simp] theorem Part.setWear_hold (p : Part) (v : Vector WearItem 12) : (p.setWear v).hold = p.hold := rfl
@[simp] theorem Part.setWear_gen (p : Part) (v : Vector WearItem 12) : (p.setWear v).gen = p.gen := rfl
@[simp] theorem Part.setWear_derate (p : Part) (v : Vector WearItem 12) : (p.setWear v).derate = p.derate := rfl
@[simp] theorem Part.setWear_scan (p : Part) (v : Vector WearItem 12) : (p.setWear v).scan = p.scan := rfl
@[simp] theorem Part.setWear_ports (p : Part) (v : Vector WearItem 12) : (p.setWear v).ports = p.ports := rfl

@[simp] theorem Part.setWarnings_power (p : Part) (v : List Warning) : (p.setWarnings v).power = p.power := rfl
@[simp] theorem Part.setWarnings_lines (p : Part) (v : List Warning) : (p.setWarnings v).lines = p.lines := rfl
@[simp] theorem Part.setWarnings_marker (p : Part) (v : List Warning) : (p.setWarnings v).marker = p.marker := rfl
@[simp] theorem Part.setWarnings_cfg (p : Part) (v : List Warning) : (p.setWarnings v).cfg = p.cfg := rfl
@[simp] theorem Part.setWarnings_slots (p : Part) (v : List Warning) : (p.setWarnings v).slots = p.slots := rfl
@[simp] theorem Part.setWarnings_cal (p : Part) (v : List Warning) : (p.setWarnings v).cal = p.cal := rfl
@[simp] theorem Part.setWarnings_wear (p : Part) (v : List Warning) : (p.setWarnings v).wear = p.wear := rfl
@[simp] theorem Part.setWarnings_warnings (p : Part) (v : List Warning) : (p.setWarnings v).warnings = v := rfl
@[simp] theorem Part.setWarnings_cause (p : Part) (v : List Warning) : (p.setWarnings v).cause = p.cause := rfl
@[simp] theorem Part.setWarnings_time (p : Part) (v : List Warning) : (p.setWarnings v).time = p.time := rfl
@[simp] theorem Part.setWarnings_partState (p : Part) (v : List Warning) : (p.setWarnings v).partState = p.partState := rfl
@[simp] theorem Part.setWarnings_watch (p : Part) (v : List Warning) : (p.setWarnings v).watch = p.watch := rfl
@[simp] theorem Part.setWarnings_image (p : Part) (v : List Warning) : (p.setWarnings v).image = p.image := rfl
@[simp] theorem Part.setWarnings_links (p : Part) (v : List Warning) : (p.setWarnings v).links = p.links := rfl
@[simp] theorem Part.setWarnings_account (p : Part) (v : List Warning) : (p.setWarnings v).account = p.account := rfl
@[simp] theorem Part.setWarnings_blend (p : Part) (v : List Warning) : (p.setWarnings v).blend = p.blend := rfl
@[simp] theorem Part.setWarnings_auth (p : Part) (v : List Warning) : (p.setWarnings v).auth = p.auth := rfl
@[simp] theorem Part.setWarnings_hold (p : Part) (v : List Warning) : (p.setWarnings v).hold = p.hold := rfl
@[simp] theorem Part.setWarnings_gen (p : Part) (v : List Warning) : (p.setWarnings v).gen = p.gen := rfl
@[simp] theorem Part.setWarnings_derate (p : Part) (v : List Warning) : (p.setWarnings v).derate = p.derate := rfl
@[simp] theorem Part.setWarnings_scan (p : Part) (v : List Warning) : (p.setWarnings v).scan = p.scan := rfl
@[simp] theorem Part.setWarnings_ports (p : Part) (v : List Warning) : (p.setWarnings v).ports = p.ports := rfl

@[simp] theorem Part.setCause_power (p : Part) (v : ResetRecord) : (p.setCause v).power = p.power := rfl
@[simp] theorem Part.setCause_lines (p : Part) (v : ResetRecord) : (p.setCause v).lines = p.lines := rfl
@[simp] theorem Part.setCause_marker (p : Part) (v : ResetRecord) : (p.setCause v).marker = p.marker := rfl
@[simp] theorem Part.setCause_cfg (p : Part) (v : ResetRecord) : (p.setCause v).cfg = p.cfg := rfl
@[simp] theorem Part.setCause_slots (p : Part) (v : ResetRecord) : (p.setCause v).slots = p.slots := rfl
@[simp] theorem Part.setCause_cal (p : Part) (v : ResetRecord) : (p.setCause v).cal = p.cal := rfl
@[simp] theorem Part.setCause_wear (p : Part) (v : ResetRecord) : (p.setCause v).wear = p.wear := rfl
@[simp] theorem Part.setCause_warnings (p : Part) (v : ResetRecord) : (p.setCause v).warnings = p.warnings := rfl
@[simp] theorem Part.setCause_cause (p : Part) (v : ResetRecord) : (p.setCause v).cause = v := rfl
@[simp] theorem Part.setCause_time (p : Part) (v : ResetRecord) : (p.setCause v).time = p.time := rfl
@[simp] theorem Part.setCause_partState (p : Part) (v : ResetRecord) : (p.setCause v).partState = p.partState := rfl
@[simp] theorem Part.setCause_watch (p : Part) (v : ResetRecord) : (p.setCause v).watch = p.watch := rfl
@[simp] theorem Part.setCause_image (p : Part) (v : ResetRecord) : (p.setCause v).image = p.image := rfl
@[simp] theorem Part.setCause_links (p : Part) (v : ResetRecord) : (p.setCause v).links = p.links := rfl
@[simp] theorem Part.setCause_account (p : Part) (v : ResetRecord) : (p.setCause v).account = p.account := rfl
@[simp] theorem Part.setCause_blend (p : Part) (v : ResetRecord) : (p.setCause v).blend = p.blend := rfl
@[simp] theorem Part.setCause_auth (p : Part) (v : ResetRecord) : (p.setCause v).auth = p.auth := rfl
@[simp] theorem Part.setCause_hold (p : Part) (v : ResetRecord) : (p.setCause v).hold = p.hold := rfl
@[simp] theorem Part.setCause_gen (p : Part) (v : ResetRecord) : (p.setCause v).gen = p.gen := rfl
@[simp] theorem Part.setCause_derate (p : Part) (v : ResetRecord) : (p.setCause v).derate = p.derate := rfl
@[simp] theorem Part.setCause_scan (p : Part) (v : ResetRecord) : (p.setCause v).scan = p.scan := rfl
@[simp] theorem Part.setCause_ports (p : Part) (v : ResetRecord) : (p.setCause v).ports = p.ports := rfl

@[simp] theorem Part.setTime_power (p : Part) (v : Timebase) : (p.setTime v).power = p.power := rfl
@[simp] theorem Part.setTime_lines (p : Part) (v : Timebase) : (p.setTime v).lines = p.lines := rfl
@[simp] theorem Part.setTime_marker (p : Part) (v : Timebase) : (p.setTime v).marker = p.marker := rfl
@[simp] theorem Part.setTime_cfg (p : Part) (v : Timebase) : (p.setTime v).cfg = p.cfg := rfl
@[simp] theorem Part.setTime_slots (p : Part) (v : Timebase) : (p.setTime v).slots = p.slots := rfl
@[simp] theorem Part.setTime_cal (p : Part) (v : Timebase) : (p.setTime v).cal = p.cal := rfl
@[simp] theorem Part.setTime_wear (p : Part) (v : Timebase) : (p.setTime v).wear = p.wear := rfl
@[simp] theorem Part.setTime_warnings (p : Part) (v : Timebase) : (p.setTime v).warnings = p.warnings := rfl
@[simp] theorem Part.setTime_cause (p : Part) (v : Timebase) : (p.setTime v).cause = p.cause := rfl
@[simp] theorem Part.setTime_time (p : Part) (v : Timebase) : (p.setTime v).time = v := rfl
@[simp] theorem Part.setTime_partState (p : Part) (v : Timebase) : (p.setTime v).partState = p.partState := rfl
@[simp] theorem Part.setTime_watch (p : Part) (v : Timebase) : (p.setTime v).watch = p.watch := rfl
@[simp] theorem Part.setTime_image (p : Part) (v : Timebase) : (p.setTime v).image = p.image := rfl
@[simp] theorem Part.setTime_links (p : Part) (v : Timebase) : (p.setTime v).links = p.links := rfl
@[simp] theorem Part.setTime_account (p : Part) (v : Timebase) : (p.setTime v).account = p.account := rfl
@[simp] theorem Part.setTime_blend (p : Part) (v : Timebase) : (p.setTime v).blend = p.blend := rfl
@[simp] theorem Part.setTime_auth (p : Part) (v : Timebase) : (p.setTime v).auth = p.auth := rfl
@[simp] theorem Part.setTime_hold (p : Part) (v : Timebase) : (p.setTime v).hold = p.hold := rfl
@[simp] theorem Part.setTime_gen (p : Part) (v : Timebase) : (p.setTime v).gen = p.gen := rfl
@[simp] theorem Part.setTime_derate (p : Part) (v : Timebase) : (p.setTime v).derate = p.derate := rfl
@[simp] theorem Part.setTime_scan (p : Part) (v : Timebase) : (p.setTime v).scan = p.scan := rfl
@[simp] theorem Part.setTime_ports (p : Part) (v : Timebase) : (p.setTime v).ports = p.ports := rfl

@[simp] theorem Part.setPartState_power (p : Part) (v : PartState) : (p.setPartState v).power = p.power := rfl
@[simp] theorem Part.setPartState_lines (p : Part) (v : PartState) : (p.setPartState v).lines = p.lines := rfl
@[simp] theorem Part.setPartState_marker (p : Part) (v : PartState) : (p.setPartState v).marker = p.marker := rfl
@[simp] theorem Part.setPartState_cfg (p : Part) (v : PartState) : (p.setPartState v).cfg = p.cfg := rfl
@[simp] theorem Part.setPartState_slots (p : Part) (v : PartState) : (p.setPartState v).slots = p.slots := rfl
@[simp] theorem Part.setPartState_cal (p : Part) (v : PartState) : (p.setPartState v).cal = p.cal := rfl
@[simp] theorem Part.setPartState_wear (p : Part) (v : PartState) : (p.setPartState v).wear = p.wear := rfl
@[simp] theorem Part.setPartState_warnings (p : Part) (v : PartState) : (p.setPartState v).warnings = p.warnings := rfl
@[simp] theorem Part.setPartState_cause (p : Part) (v : PartState) : (p.setPartState v).cause = p.cause := rfl
@[simp] theorem Part.setPartState_time (p : Part) (v : PartState) : (p.setPartState v).time = p.time := rfl
@[simp] theorem Part.setPartState_partState (p : Part) (v : PartState) : (p.setPartState v).partState = v := rfl
@[simp] theorem Part.setPartState_watch (p : Part) (v : PartState) : (p.setPartState v).watch = p.watch := rfl
@[simp] theorem Part.setPartState_image (p : Part) (v : PartState) : (p.setPartState v).image = p.image := rfl
@[simp] theorem Part.setPartState_links (p : Part) (v : PartState) : (p.setPartState v).links = p.links := rfl
@[simp] theorem Part.setPartState_account (p : Part) (v : PartState) : (p.setPartState v).account = p.account := rfl
@[simp] theorem Part.setPartState_blend (p : Part) (v : PartState) : (p.setPartState v).blend = p.blend := rfl
@[simp] theorem Part.setPartState_auth (p : Part) (v : PartState) : (p.setPartState v).auth = p.auth := rfl
@[simp] theorem Part.setPartState_hold (p : Part) (v : PartState) : (p.setPartState v).hold = p.hold := rfl
@[simp] theorem Part.setPartState_gen (p : Part) (v : PartState) : (p.setPartState v).gen = p.gen := rfl
@[simp] theorem Part.setPartState_derate (p : Part) (v : PartState) : (p.setPartState v).derate = p.derate := rfl
@[simp] theorem Part.setPartState_scan (p : Part) (v : PartState) : (p.setPartState v).scan = p.scan := rfl
@[simp] theorem Part.setPartState_ports (p : Part) (v : PartState) : (p.setPartState v).ports = p.ports := rfl

@[simp] theorem Part.setWatch_power (p : Part) (v : Watch) : (p.setWatch v).power = p.power := rfl
@[simp] theorem Part.setWatch_lines (p : Part) (v : Watch) : (p.setWatch v).lines = p.lines := rfl
@[simp] theorem Part.setWatch_marker (p : Part) (v : Watch) : (p.setWatch v).marker = p.marker := rfl
@[simp] theorem Part.setWatch_cfg (p : Part) (v : Watch) : (p.setWatch v).cfg = p.cfg := rfl
@[simp] theorem Part.setWatch_slots (p : Part) (v : Watch) : (p.setWatch v).slots = p.slots := rfl
@[simp] theorem Part.setWatch_cal (p : Part) (v : Watch) : (p.setWatch v).cal = p.cal := rfl
@[simp] theorem Part.setWatch_wear (p : Part) (v : Watch) : (p.setWatch v).wear = p.wear := rfl
@[simp] theorem Part.setWatch_warnings (p : Part) (v : Watch) : (p.setWatch v).warnings = p.warnings := rfl
@[simp] theorem Part.setWatch_cause (p : Part) (v : Watch) : (p.setWatch v).cause = p.cause := rfl
@[simp] theorem Part.setWatch_time (p : Part) (v : Watch) : (p.setWatch v).time = p.time := rfl
@[simp] theorem Part.setWatch_partState (p : Part) (v : Watch) : (p.setWatch v).partState = p.partState := rfl
@[simp] theorem Part.setWatch_watch (p : Part) (v : Watch) : (p.setWatch v).watch = v := rfl
@[simp] theorem Part.setWatch_image (p : Part) (v : Watch) : (p.setWatch v).image = p.image := rfl
@[simp] theorem Part.setWatch_links (p : Part) (v : Watch) : (p.setWatch v).links = p.links := rfl
@[simp] theorem Part.setWatch_account (p : Part) (v : Watch) : (p.setWatch v).account = p.account := rfl
@[simp] theorem Part.setWatch_blend (p : Part) (v : Watch) : (p.setWatch v).blend = p.blend := rfl
@[simp] theorem Part.setWatch_auth (p : Part) (v : Watch) : (p.setWatch v).auth = p.auth := rfl
@[simp] theorem Part.setWatch_hold (p : Part) (v : Watch) : (p.setWatch v).hold = p.hold := rfl
@[simp] theorem Part.setWatch_gen (p : Part) (v : Watch) : (p.setWatch v).gen = p.gen := rfl
@[simp] theorem Part.setWatch_derate (p : Part) (v : Watch) : (p.setWatch v).derate = p.derate := rfl
@[simp] theorem Part.setWatch_scan (p : Part) (v : Watch) : (p.setWatch v).scan = p.scan := rfl
@[simp] theorem Part.setWatch_ports (p : Part) (v : Watch) : (p.setWatch v).ports = p.ports := rfl

@[simp] theorem Part.setImage_power (p : Part) (v : Image) : (p.setImage v).power = p.power := rfl
@[simp] theorem Part.setImage_lines (p : Part) (v : Image) : (p.setImage v).lines = p.lines := rfl
@[simp] theorem Part.setImage_marker (p : Part) (v : Image) : (p.setImage v).marker = p.marker := rfl
@[simp] theorem Part.setImage_cfg (p : Part) (v : Image) : (p.setImage v).cfg = p.cfg := rfl
@[simp] theorem Part.setImage_slots (p : Part) (v : Image) : (p.setImage v).slots = p.slots := rfl
@[simp] theorem Part.setImage_cal (p : Part) (v : Image) : (p.setImage v).cal = p.cal := rfl
@[simp] theorem Part.setImage_wear (p : Part) (v : Image) : (p.setImage v).wear = p.wear := rfl
@[simp] theorem Part.setImage_warnings (p : Part) (v : Image) : (p.setImage v).warnings = p.warnings := rfl
@[simp] theorem Part.setImage_cause (p : Part) (v : Image) : (p.setImage v).cause = p.cause := rfl
@[simp] theorem Part.setImage_time (p : Part) (v : Image) : (p.setImage v).time = p.time := rfl
@[simp] theorem Part.setImage_partState (p : Part) (v : Image) : (p.setImage v).partState = p.partState := rfl
@[simp] theorem Part.setImage_watch (p : Part) (v : Image) : (p.setImage v).watch = p.watch := rfl
@[simp] theorem Part.setImage_image (p : Part) (v : Image) : (p.setImage v).image = v := rfl
@[simp] theorem Part.setImage_links (p : Part) (v : Image) : (p.setImage v).links = p.links := rfl
@[simp] theorem Part.setImage_account (p : Part) (v : Image) : (p.setImage v).account = p.account := rfl
@[simp] theorem Part.setImage_blend (p : Part) (v : Image) : (p.setImage v).blend = p.blend := rfl
@[simp] theorem Part.setImage_auth (p : Part) (v : Image) : (p.setImage v).auth = p.auth := rfl
@[simp] theorem Part.setImage_hold (p : Part) (v : Image) : (p.setImage v).hold = p.hold := rfl
@[simp] theorem Part.setImage_gen (p : Part) (v : Image) : (p.setImage v).gen = p.gen := rfl
@[simp] theorem Part.setImage_derate (p : Part) (v : Image) : (p.setImage v).derate = p.derate := rfl
@[simp] theorem Part.setImage_scan (p : Part) (v : Image) : (p.setImage v).scan = p.scan := rfl
@[simp] theorem Part.setImage_ports (p : Part) (v : Image) : (p.setImage v).ports = p.ports := rfl

@[simp] theorem Part.setLinks_power (p : Part) (v : PerMotor MotorLink) : (p.setLinks v).power = p.power := rfl
@[simp] theorem Part.setLinks_lines (p : Part) (v : PerMotor MotorLink) : (p.setLinks v).lines = p.lines := rfl
@[simp] theorem Part.setLinks_marker (p : Part) (v : PerMotor MotorLink) : (p.setLinks v).marker = p.marker := rfl
@[simp] theorem Part.setLinks_cfg (p : Part) (v : PerMotor MotorLink) : (p.setLinks v).cfg = p.cfg := rfl
@[simp] theorem Part.setLinks_slots (p : Part) (v : PerMotor MotorLink) : (p.setLinks v).slots = p.slots := rfl
@[simp] theorem Part.setLinks_cal (p : Part) (v : PerMotor MotorLink) : (p.setLinks v).cal = p.cal := rfl
@[simp] theorem Part.setLinks_wear (p : Part) (v : PerMotor MotorLink) : (p.setLinks v).wear = p.wear := rfl
@[simp] theorem Part.setLinks_warnings (p : Part) (v : PerMotor MotorLink) : (p.setLinks v).warnings = p.warnings := rfl
@[simp] theorem Part.setLinks_cause (p : Part) (v : PerMotor MotorLink) : (p.setLinks v).cause = p.cause := rfl
@[simp] theorem Part.setLinks_time (p : Part) (v : PerMotor MotorLink) : (p.setLinks v).time = p.time := rfl
@[simp] theorem Part.setLinks_partState (p : Part) (v : PerMotor MotorLink) : (p.setLinks v).partState = p.partState := rfl
@[simp] theorem Part.setLinks_watch (p : Part) (v : PerMotor MotorLink) : (p.setLinks v).watch = p.watch := rfl
@[simp] theorem Part.setLinks_image (p : Part) (v : PerMotor MotorLink) : (p.setLinks v).image = p.image := rfl
@[simp] theorem Part.setLinks_links (p : Part) (v : PerMotor MotorLink) : (p.setLinks v).links = v := rfl
@[simp] theorem Part.setLinks_account (p : Part) (v : PerMotor MotorLink) : (p.setLinks v).account = p.account := rfl
@[simp] theorem Part.setLinks_blend (p : Part) (v : PerMotor MotorLink) : (p.setLinks v).blend = p.blend := rfl
@[simp] theorem Part.setLinks_auth (p : Part) (v : PerMotor MotorLink) : (p.setLinks v).auth = p.auth := rfl
@[simp] theorem Part.setLinks_hold (p : Part) (v : PerMotor MotorLink) : (p.setLinks v).hold = p.hold := rfl
@[simp] theorem Part.setLinks_gen (p : Part) (v : PerMotor MotorLink) : (p.setLinks v).gen = p.gen := rfl
@[simp] theorem Part.setLinks_derate (p : Part) (v : PerMotor MotorLink) : (p.setLinks v).derate = p.derate := rfl
@[simp] theorem Part.setLinks_scan (p : Part) (v : PerMotor MotorLink) : (p.setLinks v).scan = p.scan := rfl
@[simp] theorem Part.setLinks_ports (p : Part) (v : PerMotor MotorLink) : (p.setLinks v).ports = p.ports := rfl

@[simp] theorem Part.setAccount_power (p : Part) (v : Account) : (p.setAccount v).power = p.power := rfl
@[simp] theorem Part.setAccount_lines (p : Part) (v : Account) : (p.setAccount v).lines = p.lines := rfl
@[simp] theorem Part.setAccount_marker (p : Part) (v : Account) : (p.setAccount v).marker = p.marker := rfl
@[simp] theorem Part.setAccount_cfg (p : Part) (v : Account) : (p.setAccount v).cfg = p.cfg := rfl
@[simp] theorem Part.setAccount_slots (p : Part) (v : Account) : (p.setAccount v).slots = p.slots := rfl
@[simp] theorem Part.setAccount_cal (p : Part) (v : Account) : (p.setAccount v).cal = p.cal := rfl
@[simp] theorem Part.setAccount_wear (p : Part) (v : Account) : (p.setAccount v).wear = p.wear := rfl
@[simp] theorem Part.setAccount_warnings (p : Part) (v : Account) : (p.setAccount v).warnings = p.warnings := rfl
@[simp] theorem Part.setAccount_cause (p : Part) (v : Account) : (p.setAccount v).cause = p.cause := rfl
@[simp] theorem Part.setAccount_time (p : Part) (v : Account) : (p.setAccount v).time = p.time := rfl
@[simp] theorem Part.setAccount_partState (p : Part) (v : Account) : (p.setAccount v).partState = p.partState := rfl
@[simp] theorem Part.setAccount_watch (p : Part) (v : Account) : (p.setAccount v).watch = p.watch := rfl
@[simp] theorem Part.setAccount_image (p : Part) (v : Account) : (p.setAccount v).image = p.image := rfl
@[simp] theorem Part.setAccount_links (p : Part) (v : Account) : (p.setAccount v).links = p.links := rfl
@[simp] theorem Part.setAccount_account (p : Part) (v : Account) : (p.setAccount v).account = v := rfl
@[simp] theorem Part.setAccount_blend (p : Part) (v : Account) : (p.setAccount v).blend = p.blend := rfl
@[simp] theorem Part.setAccount_auth (p : Part) (v : Account) : (p.setAccount v).auth = p.auth := rfl
@[simp] theorem Part.setAccount_hold (p : Part) (v : Account) : (p.setAccount v).hold = p.hold := rfl
@[simp] theorem Part.setAccount_gen (p : Part) (v : Account) : (p.setAccount v).gen = p.gen := rfl
@[simp] theorem Part.setAccount_derate (p : Part) (v : Account) : (p.setAccount v).derate = p.derate := rfl
@[simp] theorem Part.setAccount_scan (p : Part) (v : Account) : (p.setAccount v).scan = p.scan := rfl
@[simp] theorem Part.setAccount_ports (p : Part) (v : Account) : (p.setAccount v).ports = p.ports := rfl

@[simp] theorem Part.setBlend_power (p : Part) (v : BlendEngine) : (p.setBlend v).power = p.power := rfl
@[simp] theorem Part.setBlend_lines (p : Part) (v : BlendEngine) : (p.setBlend v).lines = p.lines := rfl
@[simp] theorem Part.setBlend_marker (p : Part) (v : BlendEngine) : (p.setBlend v).marker = p.marker := rfl
@[simp] theorem Part.setBlend_cfg (p : Part) (v : BlendEngine) : (p.setBlend v).cfg = p.cfg := rfl
@[simp] theorem Part.setBlend_slots (p : Part) (v : BlendEngine) : (p.setBlend v).slots = p.slots := rfl
@[simp] theorem Part.setBlend_cal (p : Part) (v : BlendEngine) : (p.setBlend v).cal = p.cal := rfl
@[simp] theorem Part.setBlend_wear (p : Part) (v : BlendEngine) : (p.setBlend v).wear = p.wear := rfl
@[simp] theorem Part.setBlend_warnings (p : Part) (v : BlendEngine) : (p.setBlend v).warnings = p.warnings := rfl
@[simp] theorem Part.setBlend_cause (p : Part) (v : BlendEngine) : (p.setBlend v).cause = p.cause := rfl
@[simp] theorem Part.setBlend_time (p : Part) (v : BlendEngine) : (p.setBlend v).time = p.time := rfl
@[simp] theorem Part.setBlend_partState (p : Part) (v : BlendEngine) : (p.setBlend v).partState = p.partState := rfl
@[simp] theorem Part.setBlend_watch (p : Part) (v : BlendEngine) : (p.setBlend v).watch = p.watch := rfl
@[simp] theorem Part.setBlend_image (p : Part) (v : BlendEngine) : (p.setBlend v).image = p.image := rfl
@[simp] theorem Part.setBlend_links (p : Part) (v : BlendEngine) : (p.setBlend v).links = p.links := rfl
@[simp] theorem Part.setBlend_account (p : Part) (v : BlendEngine) : (p.setBlend v).account = p.account := rfl
@[simp] theorem Part.setBlend_blend (p : Part) (v : BlendEngine) : (p.setBlend v).blend = v := rfl
@[simp] theorem Part.setBlend_auth (p : Part) (v : BlendEngine) : (p.setBlend v).auth = p.auth := rfl
@[simp] theorem Part.setBlend_hold (p : Part) (v : BlendEngine) : (p.setBlend v).hold = p.hold := rfl
@[simp] theorem Part.setBlend_gen (p : Part) (v : BlendEngine) : (p.setBlend v).gen = p.gen := rfl
@[simp] theorem Part.setBlend_derate (p : Part) (v : BlendEngine) : (p.setBlend v).derate = p.derate := rfl
@[simp] theorem Part.setBlend_scan (p : Part) (v : BlendEngine) : (p.setBlend v).scan = p.scan := rfl
@[simp] theorem Part.setBlend_ports (p : Part) (v : BlendEngine) : (p.setBlend v).ports = p.ports := rfl

@[simp] theorem Part.setAuth_power (p : Part) (v : Arbiter) : (p.setAuth v).power = p.power := rfl
@[simp] theorem Part.setAuth_lines (p : Part) (v : Arbiter) : (p.setAuth v).lines = p.lines := rfl
@[simp] theorem Part.setAuth_marker (p : Part) (v : Arbiter) : (p.setAuth v).marker = p.marker := rfl
@[simp] theorem Part.setAuth_cfg (p : Part) (v : Arbiter) : (p.setAuth v).cfg = p.cfg := rfl
@[simp] theorem Part.setAuth_slots (p : Part) (v : Arbiter) : (p.setAuth v).slots = p.slots := rfl
@[simp] theorem Part.setAuth_cal (p : Part) (v : Arbiter) : (p.setAuth v).cal = p.cal := rfl
@[simp] theorem Part.setAuth_wear (p : Part) (v : Arbiter) : (p.setAuth v).wear = p.wear := rfl
@[simp] theorem Part.setAuth_warnings (p : Part) (v : Arbiter) : (p.setAuth v).warnings = p.warnings := rfl
@[simp] theorem Part.setAuth_cause (p : Part) (v : Arbiter) : (p.setAuth v).cause = p.cause := rfl
@[simp] theorem Part.setAuth_time (p : Part) (v : Arbiter) : (p.setAuth v).time = p.time := rfl
@[simp] theorem Part.setAuth_partState (p : Part) (v : Arbiter) : (p.setAuth v).partState = p.partState := rfl
@[simp] theorem Part.setAuth_watch (p : Part) (v : Arbiter) : (p.setAuth v).watch = p.watch := rfl
@[simp] theorem Part.setAuth_image (p : Part) (v : Arbiter) : (p.setAuth v).image = p.image := rfl
@[simp] theorem Part.setAuth_links (p : Part) (v : Arbiter) : (p.setAuth v).links = p.links := rfl
@[simp] theorem Part.setAuth_account (p : Part) (v : Arbiter) : (p.setAuth v).account = p.account := rfl
@[simp] theorem Part.setAuth_blend (p : Part) (v : Arbiter) : (p.setAuth v).blend = p.blend := rfl
@[simp] theorem Part.setAuth_auth (p : Part) (v : Arbiter) : (p.setAuth v).auth = v := rfl
@[simp] theorem Part.setAuth_hold (p : Part) (v : Arbiter) : (p.setAuth v).hold = p.hold := rfl
@[simp] theorem Part.setAuth_gen (p : Part) (v : Arbiter) : (p.setAuth v).gen = p.gen := rfl
@[simp] theorem Part.setAuth_derate (p : Part) (v : Arbiter) : (p.setAuth v).derate = p.derate := rfl
@[simp] theorem Part.setAuth_scan (p : Part) (v : Arbiter) : (p.setAuth v).scan = p.scan := rfl
@[simp] theorem Part.setAuth_ports (p : Part) (v : Arbiter) : (p.setAuth v).ports = p.ports := rfl

@[simp] theorem Part.setHold_power (p : Part) (v : Hold) : (p.setHold v).power = p.power := rfl
@[simp] theorem Part.setHold_lines (p : Part) (v : Hold) : (p.setHold v).lines = p.lines := rfl
@[simp] theorem Part.setHold_marker (p : Part) (v : Hold) : (p.setHold v).marker = p.marker := rfl
@[simp] theorem Part.setHold_cfg (p : Part) (v : Hold) : (p.setHold v).cfg = p.cfg := rfl
@[simp] theorem Part.setHold_slots (p : Part) (v : Hold) : (p.setHold v).slots = p.slots := rfl
@[simp] theorem Part.setHold_cal (p : Part) (v : Hold) : (p.setHold v).cal = p.cal := rfl
@[simp] theorem Part.setHold_wear (p : Part) (v : Hold) : (p.setHold v).wear = p.wear := rfl
@[simp] theorem Part.setHold_warnings (p : Part) (v : Hold) : (p.setHold v).warnings = p.warnings := rfl
@[simp] theorem Part.setHold_cause (p : Part) (v : Hold) : (p.setHold v).cause = p.cause := rfl
@[simp] theorem Part.setHold_time (p : Part) (v : Hold) : (p.setHold v).time = p.time := rfl
@[simp] theorem Part.setHold_partState (p : Part) (v : Hold) : (p.setHold v).partState = p.partState := rfl
@[simp] theorem Part.setHold_watch (p : Part) (v : Hold) : (p.setHold v).watch = p.watch := rfl
@[simp] theorem Part.setHold_image (p : Part) (v : Hold) : (p.setHold v).image = p.image := rfl
@[simp] theorem Part.setHold_links (p : Part) (v : Hold) : (p.setHold v).links = p.links := rfl
@[simp] theorem Part.setHold_account (p : Part) (v : Hold) : (p.setHold v).account = p.account := rfl
@[simp] theorem Part.setHold_blend (p : Part) (v : Hold) : (p.setHold v).blend = p.blend := rfl
@[simp] theorem Part.setHold_auth (p : Part) (v : Hold) : (p.setHold v).auth = p.auth := rfl
@[simp] theorem Part.setHold_hold (p : Part) (v : Hold) : (p.setHold v).hold = v := rfl
@[simp] theorem Part.setHold_gen (p : Part) (v : Hold) : (p.setHold v).gen = p.gen := rfl
@[simp] theorem Part.setHold_derate (p : Part) (v : Hold) : (p.setHold v).derate = p.derate := rfl
@[simp] theorem Part.setHold_scan (p : Part) (v : Hold) : (p.setHold v).scan = p.scan := rfl
@[simp] theorem Part.setHold_ports (p : Part) (v : Hold) : (p.setHold v).ports = p.ports := rfl

@[simp] theorem Part.setGen_power (p : Part) (v : Sequencer) : (p.setGen v).power = p.power := rfl
@[simp] theorem Part.setGen_lines (p : Part) (v : Sequencer) : (p.setGen v).lines = p.lines := rfl
@[simp] theorem Part.setGen_marker (p : Part) (v : Sequencer) : (p.setGen v).marker = p.marker := rfl
@[simp] theorem Part.setGen_cfg (p : Part) (v : Sequencer) : (p.setGen v).cfg = p.cfg := rfl
@[simp] theorem Part.setGen_slots (p : Part) (v : Sequencer) : (p.setGen v).slots = p.slots := rfl
@[simp] theorem Part.setGen_cal (p : Part) (v : Sequencer) : (p.setGen v).cal = p.cal := rfl
@[simp] theorem Part.setGen_wear (p : Part) (v : Sequencer) : (p.setGen v).wear = p.wear := rfl
@[simp] theorem Part.setGen_warnings (p : Part) (v : Sequencer) : (p.setGen v).warnings = p.warnings := rfl
@[simp] theorem Part.setGen_cause (p : Part) (v : Sequencer) : (p.setGen v).cause = p.cause := rfl
@[simp] theorem Part.setGen_time (p : Part) (v : Sequencer) : (p.setGen v).time = p.time := rfl
@[simp] theorem Part.setGen_partState (p : Part) (v : Sequencer) : (p.setGen v).partState = p.partState := rfl
@[simp] theorem Part.setGen_watch (p : Part) (v : Sequencer) : (p.setGen v).watch = p.watch := rfl
@[simp] theorem Part.setGen_image (p : Part) (v : Sequencer) : (p.setGen v).image = p.image := rfl
@[simp] theorem Part.setGen_links (p : Part) (v : Sequencer) : (p.setGen v).links = p.links := rfl
@[simp] theorem Part.setGen_account (p : Part) (v : Sequencer) : (p.setGen v).account = p.account := rfl
@[simp] theorem Part.setGen_blend (p : Part) (v : Sequencer) : (p.setGen v).blend = p.blend := rfl
@[simp] theorem Part.setGen_auth (p : Part) (v : Sequencer) : (p.setGen v).auth = p.auth := rfl
@[simp] theorem Part.setGen_hold (p : Part) (v : Sequencer) : (p.setGen v).hold = p.hold := rfl
@[simp] theorem Part.setGen_gen (p : Part) (v : Sequencer) : (p.setGen v).gen = v := rfl
@[simp] theorem Part.setGen_derate (p : Part) (v : Sequencer) : (p.setGen v).derate = p.derate := rfl
@[simp] theorem Part.setGen_scan (p : Part) (v : Sequencer) : (p.setGen v).scan = p.scan := rfl
@[simp] theorem Part.setGen_ports (p : Part) (v : Sequencer) : (p.setGen v).ports = p.ports := rfl

@[simp] theorem Part.setDerate_power (p : Part) (v : Derate) : (p.setDerate v).power = p.power := rfl
@[simp] theorem Part.setDerate_lines (p : Part) (v : Derate) : (p.setDerate v).lines = p.lines := rfl
@[simp] theorem Part.setDerate_marker (p : Part) (v : Derate) : (p.setDerate v).marker = p.marker := rfl
@[simp] theorem Part.setDerate_cfg (p : Part) (v : Derate) : (p.setDerate v).cfg = p.cfg := rfl
@[simp] theorem Part.setDerate_slots (p : Part) (v : Derate) : (p.setDerate v).slots = p.slots := rfl
@[simp] theorem Part.setDerate_cal (p : Part) (v : Derate) : (p.setDerate v).cal = p.cal := rfl
@[simp] theorem Part.setDerate_wear (p : Part) (v : Derate) : (p.setDerate v).wear = p.wear := rfl
@[simp] theorem Part.setDerate_warnings (p : Part) (v : Derate) : (p.setDerate v).warnings = p.warnings := rfl
@[simp] theorem Part.setDerate_cause (p : Part) (v : Derate) : (p.setDerate v).cause = p.cause := rfl
@[simp] theorem Part.setDerate_time (p : Part) (v : Derate) : (p.setDerate v).time = p.time := rfl
@[simp] theorem Part.setDerate_partState (p : Part) (v : Derate) : (p.setDerate v).partState = p.partState := rfl
@[simp] theorem Part.setDerate_watch (p : Part) (v : Derate) : (p.setDerate v).watch = p.watch := rfl
@[simp] theorem Part.setDerate_image (p : Part) (v : Derate) : (p.setDerate v).image = p.image := rfl
@[simp] theorem Part.setDerate_links (p : Part) (v : Derate) : (p.setDerate v).links = p.links := rfl
@[simp] theorem Part.setDerate_account (p : Part) (v : Derate) : (p.setDerate v).account = p.account := rfl
@[simp] theorem Part.setDerate_blend (p : Part) (v : Derate) : (p.setDerate v).blend = p.blend := rfl
@[simp] theorem Part.setDerate_auth (p : Part) (v : Derate) : (p.setDerate v).auth = p.auth := rfl
@[simp] theorem Part.setDerate_hold (p : Part) (v : Derate) : (p.setDerate v).hold = p.hold := rfl
@[simp] theorem Part.setDerate_gen (p : Part) (v : Derate) : (p.setDerate v).gen = p.gen := rfl
@[simp] theorem Part.setDerate_derate (p : Part) (v : Derate) : (p.setDerate v).derate = v := rfl
@[simp] theorem Part.setDerate_scan (p : Part) (v : Derate) : (p.setDerate v).scan = p.scan := rfl
@[simp] theorem Part.setDerate_ports (p : Part) (v : Derate) : (p.setDerate v).ports = p.ports := rfl

@[simp] theorem Part.setScan_power (p : Part) (v : Scanner) : (p.setScan v).power = p.power := rfl
@[simp] theorem Part.setScan_lines (p : Part) (v : Scanner) : (p.setScan v).lines = p.lines := rfl
@[simp] theorem Part.setScan_marker (p : Part) (v : Scanner) : (p.setScan v).marker = p.marker := rfl
@[simp] theorem Part.setScan_cfg (p : Part) (v : Scanner) : (p.setScan v).cfg = p.cfg := rfl
@[simp] theorem Part.setScan_slots (p : Part) (v : Scanner) : (p.setScan v).slots = p.slots := rfl
@[simp] theorem Part.setScan_cal (p : Part) (v : Scanner) : (p.setScan v).cal = p.cal := rfl
@[simp] theorem Part.setScan_wear (p : Part) (v : Scanner) : (p.setScan v).wear = p.wear := rfl
@[simp] theorem Part.setScan_warnings (p : Part) (v : Scanner) : (p.setScan v).warnings = p.warnings := rfl
@[simp] theorem Part.setScan_cause (p : Part) (v : Scanner) : (p.setScan v).cause = p.cause := rfl
@[simp] theorem Part.setScan_time (p : Part) (v : Scanner) : (p.setScan v).time = p.time := rfl
@[simp] theorem Part.setScan_partState (p : Part) (v : Scanner) : (p.setScan v).partState = p.partState := rfl
@[simp] theorem Part.setScan_watch (p : Part) (v : Scanner) : (p.setScan v).watch = p.watch := rfl
@[simp] theorem Part.setScan_image (p : Part) (v : Scanner) : (p.setScan v).image = p.image := rfl
@[simp] theorem Part.setScan_links (p : Part) (v : Scanner) : (p.setScan v).links = p.links := rfl
@[simp] theorem Part.setScan_account (p : Part) (v : Scanner) : (p.setScan v).account = p.account := rfl
@[simp] theorem Part.setScan_blend (p : Part) (v : Scanner) : (p.setScan v).blend = p.blend := rfl
@[simp] theorem Part.setScan_auth (p : Part) (v : Scanner) : (p.setScan v).auth = p.auth := rfl
@[simp] theorem Part.setScan_hold (p : Part) (v : Scanner) : (p.setScan v).hold = p.hold := rfl
@[simp] theorem Part.setScan_gen (p : Part) (v : Scanner) : (p.setScan v).gen = p.gen := rfl
@[simp] theorem Part.setScan_derate (p : Part) (v : Scanner) : (p.setScan v).derate = p.derate := rfl
@[simp] theorem Part.setScan_scan (p : Part) (v : Scanner) : (p.setScan v).scan = v := rfl
@[simp] theorem Part.setScan_ports (p : Part) (v : Scanner) : (p.setScan v).ports = p.ports := rfl

@[simp] theorem Part.setPorts_power (p : Part) (v : Ports) : (p.setPorts v).power = p.power := rfl
@[simp] theorem Part.setPorts_lines (p : Part) (v : Ports) : (p.setPorts v).lines = p.lines := rfl
@[simp] theorem Part.setPorts_marker (p : Part) (v : Ports) : (p.setPorts v).marker = p.marker := rfl
@[simp] theorem Part.setPorts_cfg (p : Part) (v : Ports) : (p.setPorts v).cfg = p.cfg := rfl
@[simp] theorem Part.setPorts_slots (p : Part) (v : Ports) : (p.setPorts v).slots = p.slots := rfl
@[simp] theorem Part.setPorts_cal (p : Part) (v : Ports) : (p.setPorts v).cal = p.cal := rfl
@[simp] theorem Part.setPorts_wear (p : Part) (v : Ports) : (p.setPorts v).wear = p.wear := rfl
@[simp] theorem Part.setPorts_warnings (p : Part) (v : Ports) : (p.setPorts v).warnings = p.warnings := rfl
@[simp] theorem Part.setPorts_cause (p : Part) (v : Ports) : (p.setPorts v).cause = p.cause := rfl
@[simp] theorem Part.setPorts_time (p : Part) (v : Ports) : (p.setPorts v).time = p.time := rfl
@[simp] theorem Part.setPorts_partState (p : Part) (v : Ports) : (p.setPorts v).partState = p.partState := rfl
@[simp] theorem Part.setPorts_watch (p : Part) (v : Ports) : (p.setPorts v).watch = p.watch := rfl
@[simp] theorem Part.setPorts_image (p : Part) (v : Ports) : (p.setPorts v).image = p.image := rfl
@[simp] theorem Part.setPorts_links (p : Part) (v : Ports) : (p.setPorts v).links = p.links := rfl
@[simp] theorem Part.setPorts_account (p : Part) (v : Ports) : (p.setPorts v).account = p.account := rfl
@[simp] theorem Part.setPorts_blend (p : Part) (v : Ports) : (p.setPorts v).blend = p.blend := rfl
@[simp] theorem Part.setPorts_auth (p : Part) (v : Ports) : (p.setPorts v).auth = p.auth := rfl
@[simp] theorem Part.setPorts_hold (p : Part) (v : Ports) : (p.setPorts v).hold = p.hold := rfl
@[simp] theorem Part.setPorts_gen (p : Part) (v : Ports) : (p.setPorts v).gen = p.gen := rfl
@[simp] theorem Part.setPorts_derate (p : Part) (v : Ports) : (p.setPorts v).derate = p.derate := rfl
@[simp] theorem Part.setPorts_scan (p : Part) (v : Ports) : (p.setPorts v).scan = p.scan := rfl
@[simp] theorem Part.setPorts_ports (p : Part) (v : Ports) : (p.setPorts v).ports = v := rfl

end Sys2Proof.Machine
end

