-- ==== Sys2Proof/Laws/Frames.lean ====
section
/-! SUPPORT. What each shared operation can change: one frame lemma per operation, built on the lemmas that put
frames one after another. A prover cites these and unfolds no operation. -/

set_option Elab.async false

namespace Sys2Proof.Machine

/-! ### Frames in sequence -/

theorem changesOnly.refl (l : List Block) (p : Part) : changesOnly l p p :=
  ⟨fun b _ => by cases b <;> rfl⟩

theorem Block.same_trans {b : Block} {p q r : Part} (h1 : b.same p q) (h2 : b.same q r) : b.same p r := by
  cases b <;> simp only [Block.same] at * <;> exact h2.trans h1

theorem changesOnly.mono {l m : List Block} {p q : Part} (h : changesOnly l p q)
    (hs : ∀ b ∈ l, b ∈ m := by decide) : changesOnly m p q := ⟨fun b hb => h.same b fun hl => hb (hs b hl)⟩

/-- Two operations in sequence: the second changes nothing beyond the first's blocks and its own. -/
theorem changesOnly.trans {l m n : List Block} {p q r : Part} (h1 : changesOnly l p q)
    (h2 : changesOnly m q r) (hl : ∀ b ∈ l, b ∈ n := by decide) (hm : ∀ b ∈ m, b ∈ n := by decide) :
    changesOnly n p r := ⟨fun b hb =>
  Block.same_trans (h1.same b fun h => hb (hl b h)) (h2.same b fun h => hb (hm b h))⟩

theorem changesOnly.ite {l : List Block} {c : Prop} [Decidable c] {p q r : Part} (h1 : changesOnly l p q)
    (h2 : changesOnly l p r) : changesOnly l p (if c then q else r) := by
  split <;> assumption

/-! ### One block -/

theorem setPower_frame (p : Part) (v : Power) : changesOnly [.power] p (p.setPower v) :=
  ⟨fun b hb => by cases b <;> first | rfl | exact absurd (by decide) hb⟩

theorem setLines_frame (p : Part) (v : EmergencyLines) : changesOnly [.lines] p (p.setLines v) :=
  ⟨fun b hb => by cases b <;> first | rfl | exact absurd (by decide) hb⟩

theorem setMarker_frame (p : Part) (v : Bool) : changesOnly [.marker] p (p.setMarker v) :=
  ⟨fun b hb => by cases b <;> first | rfl | exact absurd (by decide) hb⟩

theorem setCfg_frame (p : Part) (v : ConfigStore) : changesOnly [.cfg] p (p.setCfg v) :=
  ⟨fun b hb => by cases b <;> first | rfl | exact absurd (by decide) hb⟩

theorem setSlots_frame (p : Part) (v : Vector Slot 4) : changesOnly [.slots] p (p.setSlots v) :=
  ⟨fun b hb => by cases b <;> first | rfl | exact absurd (by decide) hb⟩

theorem setCal_frame (p : Part) (v : Calibration) : changesOnly [.cal] p (p.setCal v) :=
  ⟨fun b hb => by cases b <;> first | rfl | exact absurd (by decide) hb⟩

theorem setWear_frame (p : Part) (v : Vector WearItem 12) : changesOnly [.wear] p (p.setWear v) :=
  ⟨fun b hb => by cases b <;> first | rfl | exact absurd (by decide) hb⟩

theorem setWarnings_frame (p : Part) (v : List Warning) : changesOnly [.warnings] p (p.setWarnings v) :=
  ⟨fun b hb => by cases b <;> first | rfl | exact absurd (by decide) hb⟩

theorem setCause_frame (p : Part) (v : ResetRecord) : changesOnly [.cause] p (p.setCause v) :=
  ⟨fun b hb => by cases b <;> first | rfl | exact absurd (by decide) hb⟩

theorem setTime_frame (p : Part) (v : Timebase) : changesOnly [.time] p (p.setTime v) :=
  ⟨fun b hb => by cases b <;> first | rfl | exact absurd (by decide) hb⟩

theorem setPartState_frame (p : Part) (v : PartState) : changesOnly [.partState] p (p.setPartState v) :=
  ⟨fun b hb => by cases b <;> first | rfl | exact absurd (by decide) hb⟩

theorem setWatch_frame (p : Part) (v : Watch) : changesOnly [.watch] p (p.setWatch v) :=
  ⟨fun b hb => by cases b <;> first | rfl | exact absurd (by decide) hb⟩

theorem setImage_frame (p : Part) (v : Image) : changesOnly [.image] p (p.setImage v) :=
  ⟨fun b hb => by cases b <;> first | rfl | exact absurd (by decide) hb⟩

theorem setLinks_frame (p : Part) (v : PerMotor MotorLink) : changesOnly [.links] p (p.setLinks v) :=
  ⟨fun b hb => by cases b <;> first | rfl | exact absurd (by decide) hb⟩

theorem setAccount_frame (p : Part) (v : Account) : changesOnly [.account] p (p.setAccount v) :=
  ⟨fun b hb => by cases b <;> first | rfl | exact absurd (by decide) hb⟩

theorem setBlend_frame (p : Part) (v : BlendEngine) : changesOnly [.blend] p (p.setBlend v) :=
  ⟨fun b hb => by cases b <;> first | rfl | exact absurd (by decide) hb⟩

theorem setAuth_frame (p : Part) (v : Arbiter) : changesOnly [.auth] p (p.setAuth v) :=
  ⟨fun b hb => by cases b <;> first | rfl | exact absurd (by decide) hb⟩

theorem setHold_frame (p : Part) (v : Hold) : changesOnly [.hold] p (p.setHold v) :=
  ⟨fun b hb => by cases b <;> first | rfl | exact absurd (by decide) hb⟩

theorem setGen_frame (p : Part) (v : Sequencer) : changesOnly [.gen] p (p.setGen v) :=
  ⟨fun b hb => by cases b <;> first | rfl | exact absurd (by decide) hb⟩

theorem setDerate_frame (p : Part) (v : Derate) : changesOnly [.derate] p (p.setDerate v) :=
  ⟨fun b hb => by cases b <;> first | rfl | exact absurd (by decide) hb⟩

theorem setScan_frame (p : Part) (v : Scanner) : changesOnly [.scan] p (p.setScan v) :=
  ⟨fun b hb => by cases b <;> first | rfl | exact absurd (by decide) hb⟩

theorem setPorts_frame (p : Part) (v : Ports) : changesOnly [.ports] p (p.setPorts v) :=
  ⟨fun b hb => by cases b <;> first | rfl | exact absurd (by decide) hb⟩

/-! ### Ports, links and requests -/

theorem setPort_frame (port : Port) (v : PortState) (p : Part) : changesOnly [.ports] p (p.setPort port v) :=
  setPorts_frame p _

theorem setLink_frame (motor : Motor) (v : MotorLink) (p : Part) :
    changesOnly [.links] p (p.setLink motor v) := setLinks_frame p _

theorem setEvent_frame (e : Event) (p : Part) : changesOnly [.ports] p (setEvent e p) := setPorts_frame p _

theorem setEventIf_frame (c : Bool) (e : Event) (p : Part) : changesOnly [.ports] p (setEventIf c e p) := by
  unfold setEventIf; split
  · exact setEvent_frame e p
  · exact .refl _ p

theorem portFrameError_frame (port : Port) (c : FrameCause) (p : Part) :
    changesOnly [.ports] p (portFrameError port c p) := setPort_frame ..

theorem clearEvents_frame (port : Port) (m : BitVec 16) (p : Part) :
    changesOnly [.ports] p (clearEvents port m p) := setPort_frame ..

theorem queueOn_frame (port : Port) (f : OutFrame) (p : Part) : changesOnly [.ports] p (queueOn port f p) :=
  setPort_frame ..

theorem queueOnLink_frame (motor : Motor) (f : OutFrame) (p : Part) :
    changesOnly [.links] p (queueOnLink motor f p) := setLink_frame ..

/-! ### Image -/

theorem storeDrive_frame (d : DriveData) (p : Part) : changesOnly [.image] p (storeDrive d p) :=
  setImage_frame p _

theorem storeStorage_frame (d : StorageData) (p : Part) : changesOnly [.image] p (storeStorage d p) :=
  setImage_frame p _

theorem storeGenerator_frame (d : GenData) (p : Part) : changesOnly [.image] p (storeGenerator d p) :=
  setImage_frame p _

theorem storeBrake_frame (d : BrakeData) (p : Part) : changesOnly [.image] p (storeBrake d p) :=
  setImage_frame p _

theorem readyCheck_frame (p : Part) : changesOnly [.partState] p (readyCheck p) := by
  unfold readyCheck; split
  · exact setPartState_frame p _
  · exact .refl _ p

theorem decayStorage_frame (p : Part) : changesOnly [.image] p (decayStorage p) := by
  unfold decayStorage; split
  · exact setImage_frame p _
  · exact .refl _ p

/-! ### Derate unit -/

theorem reformFactors_frame (p : Part) : changesOnly [.derate, .ports] p (reformFactors p) :=
  (setDerate_frame p _).trans (setEventIf_frame _ _ _)

theorem formFactorsAtReset_frame (p : Part) : changesOnly [.derate] p (formFactorsAtReset p) :=
  setDerate_frame p _

theorem thermalRises_frame (p : Part) : changesOnly [.derate] p (thermalRises p) := by
  unfold thermalRises; split
  · exact setDerate_frame p _
  · exact .refl _ p
  · exact setDerate_frame p _

theorem thermalEmpties_frame (p : Part) : changesOnly [.derate] p (thermalEmpties p) := by
  unfold thermalEmpties; split
  · exact .refl _ p
  · exact setDerate_frame p _
  · exact setDerate_frame p _

theorem setThermalSet_frame (v : BitVec 8) (p : Part) :
    changesOnly [.derate, .ports] p (setThermalSet v p) := by
  simp only [setThermalSet]
  refine .trans (l := [.derate]) ?_ (reformFactors_frame _)
  split
  · exact (setDerate_frame p _).trans (thermalRises_frame _)
  · split
    · exact (setDerate_frame p _).trans (thermalEmpties_frame _)
    · exact setDerate_frame p _

theorem joinThermal_frame (k : MonitorNo) (p : Part) : changesOnly [.derate, .ports] p (joinThermal k p) :=
  setThermalSet_frame _ p

theorem leaveThermal_frame (k : MonitorNo) (p : Part) : changesOnly [.derate, .ports] p (leaveThermal k p) :=
  setThermalSet_frame _ p

theorem armingExpires_frame (p : Part) : changesOnly [.derate, .ports] p (armingExpires p) :=
  ((setDerate_frame p _).trans (n := [.derate, .ports]) (setEvent_frame _ _)).trans (reformFactors_frame _)

theorem clearingExpires_frame (p : Part) : changesOnly [.derate, .ports] p (clearingExpires p) :=
  (setDerate_frame p _).trans (reformFactors_frame _)

/-! ### Wear unit -/

theorem setWearItem_frame (i : WearNo) (v : WearItem) (p : Part) :
    changesOnly [.wear] p (p.setWearItem i v) := setWear_frame p _

theorem handOnLevel_frame (i : WearNo) (old new : Level) (p : Part) :
    changesOnly [.warnings, .derate, .ports] p (handOnLevel i old new p) := by
  have h := ((setWarnings_frame p (updateWarnings i old new p.now p.warnings)).trans
    (n := [.warnings, .ports]) (setEventIf_frame (appendsWarning old new) .warningNew _)).trans
    (n := [.warnings, .ports]) (setEventIf_frame (isLining i && new = .limit) .liningLimit _)
  simp only [handOnLevel]
  split
  · exact h.trans (reformFactors_frame _)
  · exact h.mono

theorem judgeItem_frame (i : WearNo) (p : Part) :
    changesOnly [.wear, .warnings, .derate, .ports] p (judgeItem i p) := by
  simp only [judgeItem]; split
  · exact (setWearItem_frame ..).mono
  · exact (setWearItem_frame ..).trans (handOnLevel_frame ..)

theorem addUnits_frame (i : WearNo) (k : Nat) (p : Part) : changesOnly [.wear, .ports] p (addUnits i k p) :=
  (setWearItem_frame ..).trans (setEventIf_frame ..)

theorem integrate_frame (i : WearNo) (q u : Nat) (p : Part) :
    changesOnly [.wear, .ports] p (integrate i q u p) :=
  (setWearItem_frame ..).trans (addUnits_frame ..)

theorem countOne_frame (i : WearNo) (p : Part) :
    changesOnly [.wear, .warnings, .derate, .ports] p (countOne i p) :=
  (addUnits_frame ..).trans (judgeItem_frame ..)

theorem judgeCycle_frame (i : WearNo) (z : Int) (p : Part) :
    changesOnly [.wear, .warnings, .derate, .ports] p (judgeCycle i z p) := by
  simp only [judgeCycle]; split
  · exact (setWearItem_frame ..).mono
  · split
    · exact (setWearItem_frame ..).trans (countOne_frame ..)
    · exact .refl _ p

theorem wearResult_frame (ch : Channel) (z : Int) (p : Part) :
    changesOnly [.wear, .warnings, .derate, .ports] p (wearResult ch z p) := by
  unfold wearResult; split
  · exact judgeCycle_frame ..
  · exact .refl _ p

theorem latchStage_frame (i : WearNo) (f : Option Nat) (p : Part) :
    changesOnly [.wear, .warnings, .derate, .ports] p (latchStage i f p) := by
  simp only [latchStage]; split
  · exact .refl _ p
  · split
    · exact (setWearItem_frame ..).trans (judgeItem_frame ..)
    · exact .refl _ p

theorem roundDone_frame (p : Part) : changesOnly [.wear, .warnings, .derate, .ports] p (roundDone p) :=
  ((latchStage_frame ..).trans (n := [.wear, .warnings, .derate, .ports]) (latchStage_frame ..)).trans
    (latchStage_frame ..)

/-- Two operations in sequence that keep to the same blocks. -/
theorem changesOnly.seq {l : List Block} {p q r : Part} (h1 : changesOnly l p q) (h2 : changesOnly l q r) :
    changesOnly l p r := h1.trans h2 (fun _ h => h) (fun _ h => h)

theorem integrateRecord_frame (r : AccountRecord) (w : Working) (p : Part) :
    changesOnly [.wear, .warnings, .derate, .ports] p (integrateRecord r w p) := by
  have i {p : Part} (k : WearNo) (q u : Nat) :
      changesOnly [.wear, .warnings, .derate, .ports] p (integrate k q u p) := (integrate_frame ..).mono
  unfold integrateRecord
  extract_lets p1 p2 p3 p4 p5 p6
  have h5 : changesOnly [.wear, .warnings, .derate, .ports] p p5 :=
    ((((i 0 _ _ : changesOnly _ p p1).seq (i 1 _ _ : changesOnly _ p1 p2)).seq
      (i 2 _ _ : changesOnly _ p2 p3)).seq (i 7 _ _ : changesOnly _ p3 p4)).seq
      (i 11 _ _ : changesOnly _ p4 p5)
  have h6 : changesOnly [.wear, .warnings, .derate, .ports] p5 p6 := by
    show changesOnly _ p5 (if _ then _ else p5)
    split
    · exact i ..
    · exact .refl _ _
  clear_value p6
  exact (h5.seq h6).seq (((((judgeItem_frame 0 p6).seq (judgeItem_frame 1 _)).seq
    (judgeItem_frame 2 _)).seq (judgeItem_frame 7 _)).seq (judgeItem_frame 9 _))

/-! ### Arbiter -/

theorem evalSource_frame (src : Source) (p : Part) : changesOnly [.auth, .ports] p (evalSource src p) := by
  unfold evalSource; split
  · exact (setAuth_frame p _).mono
  · exact (setAuth_frame p _).trans (setEventIf_frame ..)

theorem pushSource_frame (src : Source) (p : Part) : changesOnly [.auth, .ports] p (pushSource src p) :=
  (setAuth_frame p _).trans (setEvent_frame ..)

theorem acceptOffer_frame (p : Part) : changesOnly [.auth, .ports] p (acceptOffer p) := by
  unfold acceptOffer; split
  · exact .refl _ p
  · exact pushSource_frame ..

/-! ### Scanner -/

/-- The blocks a new result can reach: the scanner, the wear unit and what they hand on to (R140). -/
def resultBlocks : List Block := [.scan, .wear, .warnings, .derate, .ports]

theorem setMonitor_frame (k : MonitorNo) (m : Monitor) (p : Part) :
    changesOnly [.scan] p (p.setMonitor k m) := setScan_frame p _

theorem handTrip_frame (k : MonitorNo) (a : MonitorAction) (p : Part) :
    changesOnly [.wear, .warnings, .derate, .ports] p (handTrip k a p) := by
  unfold handTrip; split
  · exact (joinThermal_frame ..).mono
  · exact countOne_frame ..
  · exact .refl _ p
  · exact .refl _ p

theorem handReturn_frame (k : MonitorNo) (a : MonitorAction) (p : Part) :
    changesOnly [.derate, .ports] p (handReturn k a p) := by
  unfold handReturn; split
  · exact leaveThermal_frame ..
  all_goals exact .refl _ p

theorem judgeMonitor_frame (ch : Channel) (k : MonitorNo) (p : Part) :
    changesOnly resultBlocks p (judgeMonitor ch k p) := by
  simp only [judgeMonitor]; split
  · split
    · exact (setMonitor_frame ..).trans (handTrip_frame ..)
    · split
      · exact (setMonitor_frame ..).trans (handReturn_frame ..)
      · exact (setMonitor_frame ..).mono
  · exact .refl _ p

theorem judgeMonitors_frame (ch : Channel) (p : Part) : changesOnly resultBlocks p (judgeMonitors ch p) := by
  unfold judgeMonitors
  generalize ([0, 1, 2, 3, 4, 5, 6, 7] : List MonitorNo) = l
  induction l generalizing p with
  | nil => exact .refl _ p
  | cons k l ih => exact (judgeMonitor_frame ch k p).trans (ih _)

theorem setMode_frame (m : ScanMode) (p : Part) : changesOnly [.scan] p (setMode m p) := setScan_frame p _

theorem takePending_frame (p : Part) : changesOnly [.scan] p (takePending p) := by
  unfold takePending; split
  · exact (setScan_frame p _).trans (setScan_frame _ _)
  · exact setMode_frame ..

theorem resumeOrTake_frame (p : Part) : changesOnly [.scan] p (resumeOrTake p) := by
  unfold resumeOrTake; split
  · exact setMode_frame ..
  · exact takePending_frame p

theorem afterEventRun_frame (p : Part) : changesOnly [.scan] p (afterEventRun p) := by
  unfold afterEventRun; split
  · exact setScan_frame p _
  · exact resumeOrTake_frame p

theorem routineTrigger_frame (kind : RunKind) (p : Part) : changesOnly [.scan] p (routineTrigger kind p) := by
  unfold routineTrigger; split <;> exact setScan_frame p _

theorem routineExpires_frame (p : Part) : changesOnly [.scan] p (routineExpires p) :=
  (setScan_frame p _).trans (routineTrigger_frame ..)

theorem arriveBeginning_frame (b : Bool) (p : Part) : changesOnly [.account] p (arriveBeginning b p) := by
  unfold arriveBeginning; split
  · exact .refl _ p
  · exact setAccount_frame p _

theorem eventTrigger_frame (p : Part) : changesOnly [.scan, .account] p (eventTrigger p) := by
  unfold eventTrigger; split
  · exact (setMode_frame ..).mono
  · exact (setMode_frame ..).mono
  · exact .refl _ p
  · exact (arriveBeginning_frame ..).mono

theorem settlementExpires_frame (p : Part) : changesOnly [.time, .scan, .account] p (settlementExpires p) :=
  (setTime_frame p _).trans (eventTrigger_frame _)

theorem handResult_frame (ch : Channel) (value : Int) (p : Part) :
    changesOnly resultBlocks p (handResult ch value p) :=
  (wearResult_frame ..).trans (judgeMonitors_frame ..)

theorem newResult_frame (ch : Channel) (raw : BitVec 12) (p : Part) :
    changesOnly resultBlocks p (newResult ch raw p) :=
  (setScan_frame p _).trans (handResult_frame ..)

theorem advancePosition_frame (p : Part) : changesOnly resultBlocks p (advancePosition p) := by
  unfold advancePosition; split
  · exact (setScan_frame p _).mono
  · exact (setScan_frame p _).trans (roundDone_frame _)

theorem countEntry_frame (run : RoutineRun) (p : Part) : changesOnly [.scan] p (countEntry run p) := by
  unfold countEntry; split
  · exact setScan_frame p _
  · exact (setScan_frame p _).trans (takePending_frame _)

theorem routineConversion_frame (raw : BitVec 12) (p : Part) :
    changesOnly resultBlocks p (routineConversion raw p) := by
  unfold routineConversion; split
  · exact (((setScan_frame p _).trans (n := resultBlocks) (advancePosition_frame _)).trans
      (n := resultBlocks) (handResult_frame ..)).trans (countEntry_frame ..)
  · exact .refl _ p

theorem conversionCompletes_frame (raw : BitVec 12) (p : Part) :
    changesOnly (.account :: resultBlocks) p (conversionCompletes raw p) := by
  unfold conversionCompletes; split
  · exact .refl _ p
  · exact (routineConversion_frame ..).mono
  · exact .refl _ p
  · simp only; split
    · exact ((newResult_frame ..).trans (n := .account :: resultBlocks) (arriveBeginning_frame ..)).trans
        (afterEventRun_frame _)
    · exact (newResult_frame ..).trans (setMode_frame ..)
  · split
    · exact (setMode_frame ..).mono
    · exact .refl _ p

theorem calibrationEnds_frame (p : Part) : changesOnly [.cal, .scan] p (calibrationEnds p) := by
  unfold calibrationEnds; split
  · exact ((setCal_frame p _).trans (n := [.cal, .scan]) (setScan_frame _ _)).trans (resumeOrTake_frame _)
  all_goals exact .refl _ p

theorem ceaseStanding_frame (p : Part) : changesOnly [.cal, .scan] p (ceaseStanding p) := by
  unfold ceaseStanding; split
  · exact ((setCal_frame p _).trans (n := [.cal, .scan]) (setScan_frame _ _)).trans (resumeOrTake_frame _)
  all_goals
    split
    · exact (setScan_frame p _).trans (setCal_frame _ _)
    · exact .refl _ p

theorem replaceRoutineList_frame (l : List Channel) (p : Part) :
    changesOnly [.cfg, .scan] p (replaceRoutineList l p) := by
  have h := (setCfg_frame p { p.cfg with routineList := l }).trans (n := [.cfg, .scan])
    (setScan_frame _ { p.scan with run := none, position := 0 })
  unfold replaceRoutineList; split
  · exact h.trans (takePending_frame _)
  all_goals exact h

theorem reconfigureMonitor_frame (k : MonitorNo) (c : MonitorCfg) (p : Part) :
    changesOnly [.cfg, .scan, .derate, .ports] p (reconfigureMonitor k c p) := by
  have h := setCfg_frame p { p.cfg with monitors := p.cfg.monitors.set k c }
  simp only [reconfigureMonitor]
  split
  · split
    · exact (h.trans (n := [.cfg, .scan]) (setMonitor_frame ..)).trans (handReturn_frame ..)
    · exact h.trans (setMonitor_frame ..)
  · split
    · split
      · exact h.trans (joinThermal_frame ..)
      · split
        · exact h.trans (leaveThermal_frame ..)
        · exact h.mono
    · exact h.mono

/-! ### Generator sequencer -/

theorem setGenLink_frame (l : LinkState) (t : Option GenTimer) (p : Part) :
    changesOnly [.gen] p (setGenLink l t p) := setGen_frame p _

theorem setStartRequest_frame (b : Bool) (p : Part) : changesOnly [.gen] p (setStartRequest b p) :=
  setGen_frame p _

theorem enterStartSent_frame (p : Part) : changesOnly [.gen] p (enterStartSent p) := setGen_frame p _

theorem actOnRequest_frame (p : Part) : changesOnly [.gen] p (actOnRequest p) := by
  unfold actOnRequest; split
  · split
    · exact (enterStartSent_frame p).trans (setStartRequest_frame ..)
    all_goals exact setStartRequest_frame _ p
  · exact .refl _ p

theorem enterOff_frame (p : Part) : changesOnly [.gen] p (enterOff p) :=
  (setGenLink_frame ..).trans (actOnRequest_frame _)

/-- The level of an item that the derate unit does not read is handed on to the warning list alone (R168). -/
theorem handOnLevel8_frame (old new : Level) (p : Part) :
    changesOnly [.warnings, .ports] p (handOnLevel 8 old new p) := by
  simp only [handOnLevel]
  rw [if_neg (by decide)]
  refine .trans (l := [.warnings, .ports]) (m := [.ports]) ?_ (setEventIf_frame _ .liningLimit _)
  exact (setWarnings_frame p _).trans (setEventIf_frame _ .warningNew _)

theorem countOne8_frame (p : Part) : changesOnly [.wear, .warnings, .ports] p (countOne 8 p) := by
  unfold countOne
  refine .trans (l := [.wear, .ports]) (m := [.wear, .warnings, .ports]) (addUnits_frame 8 1 p) ?_
  generalize addUnits 8 1 p = q
  unfold judgeItem; dsimp only; split
  · exact (setWearItem_frame ..).mono
  · exact (setWearItem_frame ..).trans (handOnLevel8_frame ..)

theorem enterCranking_frame (p : Part) :
    changesOnly [.gen, .wear, .warnings, .ports] p (enterCranking p) :=
  ((setGenLink_frame ..).trans (n := [.gen]) (actOnRequest_frame _)).trans (countOne8_frame _)

theorem enterCrankingFirst_frame (p : Part) :
    changesOnly [.gen, .wear, .warnings, .ports] p (enterCrankingFirst p) :=
  ((setGenLink_frame ..).trans (n := [.gen]) (actOnRequest_frame _)).trans (countOne8_frame _)

theorem enterSettling_frame (p : Part) : changesOnly [.gen] p (enterSettling p) :=
  (setGenLink_frame ..).trans (actOnRequest_frame _)

theorem enterRun_frame (p : Part) : changesOnly [.gen] p (enterRun p) :=
  (setGen_frame p _).trans (actOnRequest_frame _)

theorem enterStopSent_frame (p : Part) : changesOnly [.gen] p (enterStopSent p) := setGen_frame p _

theorem enterUnloading_frame (p : Part) : changesOnly [.gen] p (enterUnloading p) := setGen_frame p _

theorem enterFailed_frame (c : Bool) (p : Part) : changesOnly [.gen, .ports] p (enterFailed c p) := by
  have h := setEvent_frame .gensetFault p
  simp only [enterFailed]; repeat' split
  all_goals exact h.trans (setGen_frame _ _)

theorem firstReport_frame (r : EngineReport) (p : Part) :
    changesOnly [.gen, .wear, .warnings, .ports] p (firstReport r p) := by
  unfold firstReport; split
  · exact (enterOff_frame p).mono
  · split
    · exact (enterStopSent_frame p).mono
    · exact enterCrankingFirst_frame p
  · split
    · exact (enterStopSent_frame p).mono
    · exact (enterSettling_frame p).mono
  · exact (enterFailed_frame ..).mono

theorem judgeReport_frame (r : EngineReport) (p : Part) :
    changesOnly [.gen, .wear, .warnings, .ports] p (judgeReport r p) := by
  unfold judgeReport; split
  all_goals first
    | exact firstReport_frame ..
    | exact (enterFailed_frame ..).mono
    | exact enterCranking_frame p
    | exact (enterSettling_frame p).mono
    | exact (enterOff_frame p).mono
    | exact .refl _ p

theorem receiveReport_frame (r : EngineReport) (p : Part) :
    changesOnly [.gen, .wear, .warnings, .ports] p (receiveReport r p) :=
  (setGen_frame p _).trans (judgeReport_frame ..)

theorem generatorLost_frame (p : Part) : changesOnly [.gen, .ports] p (generatorLost p) := by
  unfold generatorLost; split
  all_goals first | exact .refl _ p | exact enterFailed_frame ..

theorem quietZoneStop_frame (p : Part) : changesOnly [.gen] p (quietZoneStop p) := by
  unfold quietZoneStop; split
  all_goals first | exact .refl _ p | exact enterStopSent_frame p

theorem sequencerSettled_frame (r : AccountRecord) (w : Working) (p : Part) :
    changesOnly [.gen] p (sequencerSettled r w p) := by
  unfold sequencerSettled; split
  · split
    · exact enterStartSent_frame p
    · exact .refl _ p
  · split
    · exact enterUnloading_frame p
    · exact .refl _ p
  · split
    · exact enterStopSent_frame p
    · exact .refl _ p
  all_goals exact .refl _ p

/-! ### Hold controller -/

/-- The blocks a change of hold state can reach (R98). -/
def holdBlocks : List Block := [.hold, .gen, .auth, .ports]

theorem changeHold_frame (h : HoldState) (rule : Option Nat) (p : Part) :
    changesOnly holdBlocks p (changeHold h rule p) := by
  simp only [changeHold]
  exact (((setHold_frame p _).trans (n := [.hold, .gen]) (setStartRequest_frame ..)).trans
    (n := [.hold, .gen, .ports]) (setEvent_frame ..)).trans (evalSource_frame ..)

theorem breakHold_frame (p : Part) : changesOnly holdBlocks p (breakHold p) := by
  unfold breakHold; split
  · exact .refl _ p
  · exact changeHold_frame ..

theorem holdRunWithStart_frame (p : Part) : changesOnly holdBlocks p (holdRunWithStart p) :=
  ((changeHold_frame ..).trans (n := holdBlocks) (setStartRequest_frame ..)).trans (actOnRequest_frame _)

theorem quietEntryLink_frame (p : Part) : changesOnly [.gen, .account] p (quietEntryLink p) := by
  unfold quietEntryLink; split
  · split
    · exact .refl _ p
    · exact (enterUnloading_frame p).trans (setAccount_frame _ _)
  all_goals first | exact .refl _ p | exact (enterStopSent_frame p).mono

/-- The blocks a DRIVE_STATUS arrival can reach through the hold controller (R99 to R104). -/
def arrivalBlocks : List Block := [.hold, .gen, .account, .scan, .auth, .ports]

theorem enterHold_frame (p : Part) : changesOnly arrivalBlocks p (enterHold p) := by
  have h := changeHold_frame (chosenState (choiceRule p) p.image.drive.data.layoverRequest)
    (some (choiceRule p)) p
  have h2 : changesOnly arrivalBlocks p
      (if (changeHold (chosenState (choiceRule p) p.image.drive.data.layoverRequest)
          (some (choiceRule p)) p).cfg.on .stopTrigger then routineTrigger .roundCompleting
          (changeHold (chosenState (choiceRule p) p.image.drive.data.layoverRequest)
            (some (choiceRule p)) p)
        else changeHold (chosenState (choiceRule p) p.image.drive.data.layoverRequest)
          (some (choiceRule p)) p) := by
    split
    · exact h.trans (routineTrigger_frame ..)
    · exact h.mono
  simp only [enterHold]
  refine .ite ?_ ?_
  · convert h2 using 2
    rw [(h.same .cfg (by decide) : (changeHold _ _ p).cfg = p.cfg)]
  · refine .trans (l := arrivalBlocks) ?_ (quietEntryLink_frame _)
    convert h2 using 2
    rw [(h.same .cfg (by decide) : (changeHold _ _ p).cfg = p.cfg)]

theorem holdArrival_frame (before : DriveData) (p : Part) :
    changesOnly arrivalBlocks p (holdArrival before p) := by
  have hb := (breakHold_frame p).mono (m := arrivalBlocks)
  unfold holdArrival; split
  · split
    · exact enterHold_frame p
    · exact .refl _ p
  · split
    · exact hb
    · unfold holdRunArrival; split
      · exact (changeHold_frame ..).mono
      · exact .refl _ p
  · split
    · exact hb
    · unfold holdQuietArrival; split
      · exact (changeHold_frame ..).mono
      · exact .refl _ p
  · split
    · exact hb
    · unfold layoverArrival; split
      · exact (holdRunWithStart_frame p).mono
      · split
        · exact (changeHold_frame ..).mono
        · exact .refl _ p

theorem holdRoll_frame (p : Part) : changesOnly holdBlocks p (holdRoll p) := by
  unfold holdRoll; split
  · exact (setEvent_frame .holdRoll p).trans (breakHold_frame _)
  · exact .refl _ p

theorem promote_frame (p : Part) : changesOnly holdBlocks p (promote p) := changeHold_frame ..

theorem layoverExpires_frame (p : Part) : changesOnly holdBlocks p (layoverExpires p) := by
  unfold layoverExpires; split
  · exact (setHold_frame p _).mono
  · exact holdRunWithStart_frame p

theorem expireHoldTimers_frame (p : Part) : changesOnly holdBlocks p (expireHoldTimers p) := by
  unfold expireHoldTimers; split
  · exact promote_frame p
  · split
    · exact layoverExpires_frame p
    · exact .refl _ p

theorem deepPromotionWritten_frame (p : Part) : changesOnly holdBlocks p (deepPromotionWritten p) :=
  (setHold_frame p _).trans (expireHoldTimers_frame _)

theorem socFloorJudged_frame (n : Nat) (p : Part) : changesOnly holdBlocks p (socFloorJudged n p) := by
  unfold socFloorJudged; repeat' split
  · exact .refl _ p
  · exact .refl _ p
  · exact (setHold_frame p _).trans (setEvent_frame ..)
  · exact holdRunWithStart_frame p
  · exact (setHold_frame p _).mono


/-! ### The partners' silence -/

theorem driveSilent_frame (p : Part) : changesOnly holdBlocks p (driveSilent p) :=
  (evalSource_frame .traction p).trans (breakHold_frame _)

theorem brakeSources_frame (p : Part) :
    changesOnly [.auth, .ports] p (evalSource .limp (evalSource .blend (evalSource .slip p))) :=
  ((evalSource_frame .slip p).seq (evalSource_frame .blend _)).seq (evalSource_frame .limp _)

theorem setFreshness_frame (partner : Partner) (f : Freshness) (p : Part) :
    changesOnly [.image] p (setFreshness partner f p) := setImage_frame p _

/-- The blocks a partner's silence can reach (R36 to R40). -/
def silenceBlocks : List Block := [.image, .auth, .hold, .gen, .ports]

theorem handStale_frame (partner : Partner) (p : Part) : changesOnly silenceBlocks p (handStale partner p) := by
  unfold handStale; split
  · exact (driveSilent_frame p).mono
  · exact .refl _ p
  · exact .refl _ p
  · exact (brakeSources_frame p).mono

theorem handLost_frame (partner : Partner) (p : Part) : changesOnly silenceBlocks p (handLost partner p) := by
  unfold handLost; split
  · exact (driveSilent_frame p).mono
  · exact .refl _ p
  · exact (generatorLost_frame p).mono
  · exact (brakeSources_frame p).mono

theorem becomeStale_frame (partner : Partner) (p : Part) :
    changesOnly silenceBlocks p (becomeStale partner p) :=
  (setFreshness_frame ..).trans (handStale_frame ..)

theorem becomeLost_frame (partner : Partner) (p : Part) : changesOnly silenceBlocks p (becomeLost partner p) :=
  (setFreshness_frame ..).trans (handLost_frame ..)

theorem freshnessLimitWritten_frame (partner : Partner) (p : Part) :
    changesOnly silenceBlocks p (freshnessLimitWritten partner p) := by
  have h : changesOnly silenceBlocks p (if staleDue partner p then becomeStale partner p else p) :=
    .ite (becomeStale_frame ..) (.refl _ p)
  exact h.seq (.ite (becomeLost_frame ..) (.refl _ _))

theorem lostIfNever_frame (partner : Partner) (p : Part) :
    changesOnly silenceBlocks p (lostIfNever partner p) :=
  .ite (becomeLost_frame ..) (.refl _ p)

theorem startWindowExpires_frame (p : Part) :
    changesOnly (.partState :: silenceBlocks) p (startWindowExpires p) :=
  ((((lostIfNever_frame .drive p).seq (lostIfNever_frame .storage _)).seq
    (lostIfNever_frame .generator _)).seq (lostIfNever_frame .brake _)).trans (setPartState_frame _ _)

/-! ### Blend engine -/

theorem setAssembly_frame (port : Port) (a : Option Assembly) (p : Part) :
    changesOnly [.blend] p (setAssembly port a p) := by
  cases port <;> first | exact .refl _ p | exact setBlend_frame p _

theorem takeProgram_frame (slot : SlotNo) (l : List BlendStep) (p : Part) :
    changesOnly [.slots] p (takeProgram slot l p) := setSlots_frame p _

theorem episodeStart_frame (p : Part) :
    changesOnly [.blend, .slots, .auth, .cal, .scan, .ports] p (episodeStart p) := by
  have h : changesOnly [.blend, .slots, .ports] p
      (setEventIf (anyPending p.slots) .programPromoted
        ((p.setBlend { p.blend with episode := true }).setSlots (promotedSlots p.slots))) :=
    ((setBlend_frame p _).trans (n := [.blend, .slots]) (setSlots_frame _ _)).trans (setEventIf_frame ..)
  exact (h.trans (n := [.blend, .slots, .auth, .ports]) (evalSource_frame .blend _)).trans
    (ceaseStanding_frame _)

theorem episodeEnd_frame (p : Part) : changesOnly [.blend, .auth, .ports] p (episodeEnd p) :=
  (setBlend_frame p _).trans (evalSource_frame ..)

theorem judgeEpisode_frame (aDem : Nat) (p : Part) :
    changesOnly [.blend, .slots, .auth, .cal, .scan, .ports] p (judgeEpisode aDem p) := by
  unfold judgeEpisode
  exact .ite (.ite (episodeEnd_frame p).mono (.refl _ p)) (.ite (.refl _ p) (episodeStart_frame p))

/-! ### Settlement -/

theorem acceptance_frame (p : Part) : changesOnly holdBlocks p (acceptance p) := by
  unfold acceptance
  exact .ite ((acceptOffer_frame p).trans (breakHold_frame _)) (acceptOffer_frame p).mono

theorem keepPass_frame (i : SettleInputs) (slot : SlotNo) (p : Part) :
    changesOnly [.blend] p (keepPass i slot p) := by
  unfold keepPass
  exact .ite (setBlend_frame p _) (.refl _ p)

/-- The blocks the beginning of a settlement can reach (R1, R2). -/
def beginBlocks : List Block := [.account, .auth, .hold, .gen, .slots, .blend, .scan, .cal, .ports]

theorem beginSettlement_frame (senseHeld : Bool) (p : Part) :
    changesOnly beginBlocks p (beginSettlement senseHeld p) := by
  unfold beginSettlement
  extract_lets hold q i r r2
  have h : changesOnly beginBlocks p r2 :=
    (((acceptance_frame p).mono (m := beginBlocks)).seq (judgeEpisode_frame i.aDem q).mono).seq
      (keepPass_frame i (slotNow q) r).mono
  exact h.seq (setAccount_frame r2 _).mono

theorem closeAccount_frame (s : Settling) (p : Part) : changesOnly [.account, .ports] p (closeAccount s p) :=
  (setAccount_frame p _).trans (setEventIf_frame ..)

theorem sendTorque_frame (motor : Motor) (seq : BitVec 32) (o : TorqueOrder) (p : Part) :
    changesOnly [.links] p (sendTorque motor seq o p) :=
  (queueOnLink_frame ..).trans (setLink_frame ..)

theorem torqueStage_frame (s : Settling) (p : Part) : changesOnly [.links] p (torqueStage s p) :=
  (sendTorque_frame .a _ _ p).seq (sendTorque_frame .b _ _ _)

theorem keepRegPrev_frame (r : AccountRecord) (p : Part) : changesOnly [.blend] p (keepRegPrev r p) :=
  setBlend_frame p _

theorem queueSome_frame (port : Port) (f : Option OutFrame) (p : Part) :
    changesOnly [.ports] p (queueSome port f p) := by
  unfold queueSome; split
  · exact .refl _ p
  · exact queueOn_frame ..

theorem driveReport_frame (s : Settling) (p : Part) : changesOnly [.ports] p (driveReport s p) := by
  unfold driveReport; split
  · exact setPorts_frame p _
  · exact (setPorts_frame p _).trans (queueOn_frame ..)

theorem settlementFrames_frame (s : Settling) (p : Part) : changesOnly [.ports] p (settlementFrames s p) := by
  unfold settlementFrames
  extract_lets p1 p2 p3 p4 p5
  exact (((((setEventIf_frame _ _ p).seq (setEventIf_frame _ _ p1)).seq (queueOn_frame _ _ p2)).seq
    (queueOn_frame _ _ p3)).seq (queueSome_frame _ _ p4)).seq (driveReport_frame s p5)

/-- The blocks an "account settled" can reach (R22). -/
def settleBlocks : List Block :=
  [.account, .links, .blend, .image, .wear, .warnings, .derate, .gen, .hold, .auth, .ports]

theorem settle_frame (s : Settling) (p : Part) : changesOnly settleBlocks p (settle s p) := by
  unfold settle
  extract_lets p1 p2 p3 p4 p5 p6 p7
  have h1 : changesOnly settleBlocks p p1 := (closeAccount_frame s p).mono
  have h2 : changesOnly settleBlocks p1 p2 := (torqueStage_frame s p1).mono
  have h3 : changesOnly settleBlocks p2 p3 := (keepRegPrev_frame s.record p2).mono
  have h4 : changesOnly settleBlocks p3 p4 := (decayStorage_frame p3).mono
  have h5 : changesOnly settleBlocks p4 p5 := (integrateRecord_frame s.record s.working p4).mono
  have h6 : changesOnly settleBlocks p5 p6 := (sequencerSettled_frame s.record s.working p5).mono
  have h7 : changesOnly settleBlocks p6 p7 := (socFloorJudged_frame s.working.soc p6).mono
  exact ((((((h1.seq h2).seq h3).seq h4).seq h5).seq h6).seq h7).seq (settlementFrames_frame s p7).mono

/-! ### Configuration -/

/-- The blocks a write of a number item can reach (R197). -/
def writeBlocks : List Block := [.image, .auth, .hold, .gen, .derate, .scan, .ports]

theorem numWritten_frame (i : NumItem) (p : Part) : changesOnly writeBlocks p (numWritten i p) := by
  unfold numWritten; split
  all_goals first
    | exact .refl _ p
    | exact (evalSource_frame ..).mono
    | exact (freshnessLimitWritten_frame ..).mono
    | exact (deepPromotionWritten_frame p).mono
    | exact (expireHoldTimers_frame p).mono
    | exact (reformFactors_frame p).mono
    | exact (setScan_frame p _).mono

theorem moveWatch_frame (p : Part) : changesOnly [.watch] p (moveWatch p) := setWatch_frame p _

theorem resetMaskWritten_frame (m : BitVec 3) (p : Part) :
    changesOnly [.cfg, .watch] p (resetMaskWritten m p) :=
  ((setCfg_frame p _).trans (n := [.cfg, .watch]) (setWatch_frame _ _)).trans (moveWatch_frame _)

theorem applyWrite_frame (it : ConfigItem) (v : ConfigValue) (p : Part) :
    changesOnly (.cfg :: .watch :: writeBlocks) p (applyWrite it v p) := by
  unfold applyWrite; split
  · exact (setCfg_frame p _).trans (numWritten_frame ..)
  · exact (setCfg_frame p _).mono
  · exact (setCfg_frame p _).mono
  · exact (replaceRoutineList_frame ..).mono
  · exact (reconfigureMonitor_frame ..).mono
  · exact (setCfg_frame p _).mono
  · exact (resetMaskWritten_frame ..).mono
  · exact .refl _ p

/-! ### Arrivals -/

/-- The blocks a DRIVE_STATUS can reach (R33). -/
def driveBlocks : List Block := [.image, .partState, .auth, .hold, .gen, .account, .scan, .ports]

theorem driveArrival_frame (d : DriveData) (p : Part) : changesOnly driveBlocks p (driveArrival d p) := by
  have h1 : changesOnly driveBlocks p (readyCheck (storeDrive d p)) :=
    (storeDrive_frame d p).trans (readyCheck_frame _)
  have h2 := h1.seq (holdArrival_frame p.image.drive.data _).mono
  have h3 {q : Part} : changesOnly driveBlocks q (quietZoneArrival p.image.drive.data q) := by
    unfold quietZoneArrival
    exact .ite (quietZoneStop_frame q).mono (.refl _ q)
  exact ((h2.seq h3).seq (evalSource_frame ..).mono).seq (evalSource_frame ..).mono

theorem storageArrival_frame (d : StorageData) (p : Part) :
    changesOnly [.image, .partState] p (storageArrival d p) :=
  (storeStorage_frame d p).trans (readyCheck_frame _)

theorem genArrival_frame (r : EngineReport) (d : GenData) (p : Part) :
    changesOnly [.image, .partState, .gen, .wear, .warnings, .ports] p (genArrival r d p) :=
  ((storeGenerator_frame d p).trans (n := [.image, .partState]) (readyCheck_frame _)).trans
    (receiveReport_frame ..)

/-- The blocks a BRAKE_STATUS can reach (R33). -/
def brakeBlocks : List Block := [.image, .partState, .auth, .hold, .gen, .cal, .scan, .ports]

theorem brakeArrival_frame (d : BrakeData) (p : Part) : changesOnly brakeBlocks p (brakeArrival d p) := by
  have h1 : changesOnly brakeBlocks p (readyCheck (storeBrake d p)) :=
    (storeBrake_frame d p).trans (readyCheck_frame _)
  have h2 : changesOnly brakeBlocks p (evalBrakeSources (readyCheck (storeBrake d p))) :=
    h1.seq ((evalSource_frame .safeStop _).seq (brakeSources_frame _)).mono
  have h3 {q : Part} : changesOnly brakeBlocks q (speedArrival q) := by
    unfold speedArrival
    exact .ite (ceaseStanding_frame q).mono (.refl _ q)
  exact (h2.seq (holdRoll_frame _).mono).seq h3

end Sys2Proof.Machine
end

