-- ==== Sys2Proof/Laws/Ports.lean ====
section
/-! SUPPORT. The ports: reading after writing, what setting an event does, which operations only set events, and
what a request does at its port. -/

set_option Elab.async false

namespace Sys2Proof.Machine

/-! ### Reading after writing -/

@[simp] theorem PerPort.get_set_self {α : Type} (x : PerPort α) (port : Port) (v : α) :
    (x.set port v).get port = v := by cases port <;> rfl

@[simp] theorem PerPort.get_set_other {α : Type} (x : PerPort α) {port other : Port} (v : α)
    (h : other ≠ port) : (x.set port v).get other = x.get other := by
  cases port <;> cases other <;> first | rfl | exact absurd rfl h

@[simp] theorem PerMotor.get_set_self {α : Type} (x : PerMotor α) (motor : Motor) (v : α) :
    (x.set motor v).get motor = v := by cases motor <;> rfl

@[simp] theorem PerMotor.get_set_other {α : Type} (x : PerMotor α) {motor other : Motor} (v : α)
    (h : other ≠ motor) : (x.set motor v).get other = x.get other := by
  cases motor <;> cases other <;> first | rfl | exact absurd rfl h

@[simp] theorem port_setPort_self (port : Port) (v : PortState) (p : Part) : (p.setPort port v).port port = v :=
  PerPort.get_set_self ..

@[simp] theorem port_setPort_other {port other : Port} (v : PortState) (p : Part) (h : other ≠ port) :
    (p.setPort port v).port other = p.port other := PerPort.get_set_other _ _ h

@[simp] theorem reportCount_setPort (port : Port) (v : PortState) (p : Part) :
    (p.setPort port v).ports.reportCount = p.ports.reportCount := rfl

@[simp] theorem link_setLink_self (motor : Motor) (v : MotorLink) (p : Part) :
    (p.setLink motor v).links.get motor = v := PerMotor.get_set_self ..

@[simp] theorem link_setLink_other {motor other : Motor} (v : MotorLink) (p : Part) (h : other ≠ motor) :
    (p.setLink motor v).links.get other = p.links.get other := PerMotor.get_set_other _ _ h

/-! ### Events -/

/-- An event set by a block is added at each port that carries it (R187). -/
theorem port_setEvent (e : Event) (p : Part) (port : Port) :
    (setEvent e p).port port = addEventAt e port (p.port port) := by cases port <;> rfl

theorem portsOnlyGainEvents.refl (p : Part) : portsOnlyGainEvents p p :=
  ⟨rfl, fun _ => ⟨rfl, rfl, rfl, BitVec.and_self⟩⟩

theorem portsOnlyGainEvents.trans {p q r : Part} (h1 : portsOnlyGainEvents p q)
    (h2 : portsOnlyGainEvents q r) : portsOnlyGainEvents p r :=
  ⟨h2.1.trans h1.1, fun port => by
    obtain ⟨a1, b1, c1, d1⟩ := h1.2 port
    obtain ⟨a2, b2, c2, d2⟩ := h2.2 port
    refine ⟨a2.trans a1, b2.trans b1, c2.trans c1, ?_⟩
    rw [← d1, BitVec.and_assoc, d2]⟩

/-- An operation that leaves the ports alone gains nothing. -/
theorem portsOnlyGainEvents.of_frame {l : List Block} {p q : Part} (h : changesOnly l p q)
    (hl : .ports ∉ l := by decide) : portsOnlyGainEvents p q := by
  have e : q.ports = p.ports := h.same .ports hl
  have port_eq (port : Port) : q.port port = p.port port := by simp only [Part.port, e]
  exact ⟨by rw [e], fun port => by
    rw [port_eq]
    exact ⟨rfl, rfl, rfl, BitVec.and_self⟩⟩

theorem portsOnlyGainEvents.ite {c : Prop} [Decidable c] {p q r : Part} (h1 : portsOnlyGainEvents p q)
    (h2 : portsOnlyGainEvents p r) : portsOnlyGainEvents p (if c then q else r) := by
  split <;> assumption

theorem setEvent_gains (e : Event) (p : Part) : portsOnlyGainEvents p (setEvent e p) :=
  ⟨rfl, fun port => by
    rw [port_setEvent]
    simp only [addEventAt, PortState.addEvent]
    split
    · exact ⟨rfl, rfl, rfl, by ext i; simp; tauto⟩
    · exact ⟨rfl, rfl, rfl, BitVec.and_self⟩⟩

theorem setEventIf_gains (c : Bool) (e : Event) (p : Part) : portsOnlyGainEvents p (setEventIf c e p) :=
  .ite (setEvent_gains e p) (.refl p)

/-- A port that carries an event has it once a block sets it. -/
theorem hasEvent_setEvent (e : Event) (p : Part) {port : Port} (h : e.on port = true) :
    hasEvent e port (setEvent e p) := by
  simp only [hasEvent, port_setEvent, addEventAt, if_pos h, PortState.addEvent]
  ext i; simp; tauto

/-- An event stays through operations that only set events. -/
theorem hasEvent.of_gains {e : Event} {port : Port} {p q : Part} (h : hasEvent e port p)
    (g : portsOnlyGainEvents p q) : hasEvent e port q := by
  have d := (g.2 port).2.2.2
  unfold hasEvent at *
  have e1 : (p.port port).status &&& e.mask &&& (q.port port).status = (p.port port).status &&& e.mask := by
    rw [BitVec.and_assoc, BitVec.and_comm e.mask, ← BitVec.and_assoc, d]
  rw [h, BitVec.and_comm] at e1
  exact e1

/-! ### Operations that only set events -/

theorem reformFactors_gains (p : Part) : portsOnlyGainEvents p (reformFactors p) :=
  (portsOnlyGainEvents.of_frame (setDerate_frame p _)).trans (setEventIf_gains _ _ _)

theorem handOnLevel_gains (i : WearNo) (old new : Level) (p : Part) :
    portsOnlyGainEvents p (handOnLevel i old new p) := by
  have h := ((portsOnlyGainEvents.of_frame
    (setWarnings_frame p (updateWarnings i old new p.now p.warnings))).trans
    (setEventIf_gains (appendsWarning old new) .warningNew _)).trans
    (setEventIf_gains (isLining i && new = .limit) .liningLimit _)
  exact .ite (h.trans (reformFactors_gains _)) h

theorem judgeItem_gains (i : WearNo) (p : Part) : portsOnlyGainEvents p (judgeItem i p) := by
  have h := portsOnlyGainEvents.of_frame (setWearItem_frame i (judgedItem i p.now p.wear[i]) p)
  simp only [judgeItem]; split
  · exact h
  · exact h.trans (handOnLevel_gains ..)

theorem addUnits_gains (i : WearNo) (k : Nat) (p : Part) : portsOnlyGainEvents p (addUnits i k p) :=
  (portsOnlyGainEvents.of_frame (setWearItem_frame ..)).trans (setEventIf_gains ..)

theorem countOne_gains (i : WearNo) (p : Part) : portsOnlyGainEvents p (countOne i p) :=
  (addUnits_gains ..).trans (judgeItem_gains ..)

theorem evalSource_gains (src : Source) (p : Part) : portsOnlyGainEvents p (evalSource src p) := by
  unfold evalSource; split
  · exact .of_frame (setAuth_frame p _)
  · exact (portsOnlyGainEvents.of_frame (setAuth_frame p _)).trans (setEventIf_gains ..)

theorem acceptOffer_gains (p : Part) : portsOnlyGainEvents p (acceptOffer p) := by
  unfold acceptOffer; split
  · exact .refl p
  · exact (portsOnlyGainEvents.of_frame (setAuth_frame p _)).trans (setEvent_gains ..)

theorem changeHold_gains (h : HoldState) (rule : Option Nat) (p : Part) :
    portsOnlyGainEvents p (changeHold h rule p) := by
  simp only [changeHold]
  refine .trans (.trans ?_ (setEvent_gains ..)) (evalSource_gains ..)
  exact .of_frame ((setHold_frame p _).trans (n := [.hold, .gen]) (setStartRequest_frame ..))

theorem breakHold_gains (p : Part) : portsOnlyGainEvents p (breakHold p) := by
  unfold breakHold; split
  · exact .refl p
  · exact changeHold_gains ..

theorem enterFailed_gains (c : Bool) (p : Part) : portsOnlyGainEvents p (enterFailed c p) := by
  simp only [enterFailed]; repeat' split
  all_goals exact (setEvent_gains .gensetFault p).trans (.of_frame (setGen_frame ..))

/-! ### Transmitters -/

/-- A frame queued on a transmitter in order is the last it will send (R184). -/
theorem Transmitter.enqueue_frames (t : Transmitter) (f : OutFrame) (h : txSound t) :
    (t.enqueue f).sending.toList ++ (t.enqueue f).queue = t.sending.toList ++ t.queue ++ [f] := by
  obtain ⟨sending, queue⟩ := t
  cases sending with
  | none => cases (h rfl : queue = []); rfl
  | some g => rfl

theorem Transmitter.enqueue_sound (t : Transmitter) (f : OutFrame) : txSound (t.enqueue f) := by
  obtain ⟨sending, queue⟩ := t
  cases sending with
  | none => cases queue <;> intro h <;> cases h
  | some g => intro h; cases h

theorem Transmitter.complete_sound (t : Transmitter) (h : txSound t) : txSound t.complete := by
  obtain ⟨sending, queue⟩ := t
  cases sending with
  | none => exact h
  | some g => cases queue with
    | nil => exact fun _ => rfl
    | cons f l => intro h; cases h

@[simp] theorem port_queueOn_self (port : Port) (f : OutFrame) (p : Part) :
    (queueOn port f p).port port = { p.port port with tx := (p.port port).tx.enqueue f } :=
  port_setPort_self ..

@[simp] theorem port_queueOn_other {port other : Port} (f : OutFrame) (p : Part) (h : other ≠ port) :
    (queueOn port f p).port other = p.port other := port_setPort_other _ _ h

/-! ### Requests -/

/-- A request that is taken: NOT_PERMITTED on a port that does not permit its kind, else what its owner answers
(R180 to R183). -/
theorem request_taken (port : Port) (kind : Kind) (owner : Part → Answered) (p : Part)
    (h : takesRequest port p) :
    request port kind true owner p =
      replyOn port kind (if kind.requestOn port then owner p else refuse .notPermitted p) := by
  have hq : ¬ Config.replyPlaces ≤ (p.port port).waitingReplies := Nat.not_le.mpr h.2
  unfold request
  rw [h.1]
  cases hk : kind.requestOn port <;> simp [hq]

/-- The reply to a refused request is all that a refusal leaves (R183). -/
theorem replyOn_refuse (port : Port) (kind : Kind) (code : ReplyCode) (p : Part) :
    refusedWith port kind code p (replyOn port kind (refuse code p)) := rfl

/-- A reply is queued on the request's port alone (R181). -/
theorem replyOn_replied (port : Port) (kind : Kind) (a : Answered) (p : Part)
    (h : ∀ other, (a.part.port other).tx = (p.port other).tx) :
    replied port kind a.code a.answer p (replyOn port kind a) := by
  refine ⟨?_, fun other ho => ?_⟩
  · simp only [replyOn, port_queueOn_self, h]
  · simp only [replyOn, port_queueOn_other _ _ ho, h]

theorem replyOn_frame {l : List Block} (port : Port) (kind : Kind) (a : Answered) (p : Part)
    (h : changesOnly l p a.part) (hl : .ports ∈ l := by decide) : changesOnly l p (replyOn port kind a) :=
  h.seq ((queueOn_frame port _ a.part).mono (fun b hb => by
    rw [List.mem_singleton.mp hb]; exact hl))

/-- In reset and without the run supply no request is taken (R201). -/
theorem request_notRunning (port : Port) (kind : Kind) (ok : Bool) (owner : Part → Answered) (p : Part)
    (h : p.running = false) : request port kind ok owner p = p := by
  simp [request, h]

end Sys2Proof.Machine
end

