-- ==== Sys2Proof/Tests/Slice0.lean ====
section
/-! SUPPORT. Tests: each well-formedness check refuses an ill-formed command; a frame written out from the
layouts of chapter 9; one step of each family with the numbers of the manual's worked examples; and, for every
statement with hypotheses, a state and operands that meet them together (`witness_…`). -/

set_option Elab.async false

namespace Sys2Proof.Tests

open Sys2Proof Sys2Proof.Machine

/-! ### Well-formedness -/

theorem test_config_without_value_refused : (Instr.configWrite .sv 1#16 []).wellFormed = false := by decide

theorem test_config_of_21_bytes_refused :
    (Instr.configWrite .sv 1#16 (List.replicate 21 0#8)).wellFormed = false := by decide

theorem test_load_without_step_refused : (Instr.loadBlend .pb 0#8 1#8 []).wellFormed = false := by decide

theorem test_load_of_nine_steps_refused :
    (Instr.loadBlend .pb 0#8 1#8 (List.replicate 9 (9#8, 0#8))).wellFormed = false := by decide

theorem test_wear_write_of_14_field_bytes_refused :
    (Instr.wearWrite .sv 8#8 15#8 (List.replicate 14 0#8)).wellFormed = false := by decide

theorem test_frame_error_without_byte_refused :
    (Instr.frameError (.port .pd) false []).wellFormed = false := by decide

theorem test_longest_commands_well_formed :
    (Instr.configWrite .sv 1#16 (List.replicate 20 0#8)).wellFormed = true ∧
    (Instr.loadBlend .pb 0#8 1#8 (List.replicate 8 (9#8, 0#8))).wellFormed = true ∧
    (Instr.wearWrite .sv 8#8 15#8 (List.replicate 13 0#8)).wellFormed = true := by decide

/-! ### Frames (R179, R194) -/

/-- The remainder of x¹⁶ by x¹⁶ + x¹⁵ + x² + 1 is x¹⁵ + x² + 1: worked by hand from R179. -/
theorem test_crc_of_one : crc [1#8] = 0x8005#16 := by decide

/-- GEN_STATUS RUNNING with P_gen_avail 2000 = 07D0H: kind 03H, three payload bytes (R194); the bytes stand as
section 9.6 lays them out. -/
theorem test_gen_status_frame :
    decodeFrame (.port .pg) false ([0x03#8, 3#8, 0x02#8, 0x07#8, 0xD0#8] ++
      bytes2 (crc [0x03#8, 3#8, 0x02#8, 0x07#8, 0xD0#8])) = some (.genStatus 2#8 2000#16) := by decide +kernel

/-- A STORAGE_STATUS that arrives on PB fails check 6 with PERMISSION (section 9.9). -/
theorem test_storage_status_on_brake_port :
    checkFrame (.port .pb) false (frameOf Kind.storageStatus.code (List.replicate 7 0#8)) =
      .discarded .permission := by decide +kernel

/-! ### Helpers -/

/-- The state with no command waiting. -/
def alone (p : Part) : State := ⟨[], p⟩

/-- The part a command leaves. -/
def after (i : Instr) (p : Part) : Part :=
  match exec i (alone p) with
  | .next t => t.part
  | .fault _ => p
  | .refused _ => p

/-- The reset part at a later time. -/
def later (now : Nat) : Part := resetPart.setTime ⟨BitVec.ofNat 32 now, 0#32⟩

/-- The reset part held in reset. -/
def heldPart : Part := resetPart.setPower ⟨true, true, some .resetLine⟩

/-- The reset part standing and at work: READY, every partner FRESH, FORWARD, the engine's link as given. -/
def readyPart (link : LinkState) : Part :=
  let image : Image :=
    { resetImage with
      drive := { resetImage.drive with
        data := { resetImage.drive.data with direction := .forward }, freshness := .fresh }
      storage := { resetImage.storage with freshness := .fresh }
      generator := { resetImage.generator with freshness := .fresh }
      brake := { resetImage.brake with freshness := .fresh } }
  ((resetPart.setPartState .ready).setImage image).setGen { resetSequencer with link := link }

/-! ### The settlement (chapter 1) -/

/-- The inputs of the worked settlement of section 1.14. -/
def drivingInputs : SettleInputs :=
  { settleInputs .drive resetPart with
    base := some .traction
    governing := some .traction
    link := .run
    pedal := 700
    direction := .forward
    soc := 550
    pDisLim := 2500
    pChgLim := 1800
    pGenAvail := 2000
    gPrev := 1200
    x := 350
    factors := ⟨1000, 1000, 1000, 1000, 1000⟩
    motors := ⟨⟨1200, 1900, 0, true⟩, ⟨1200, 1900, 0, true⟩⟩ }

/-- Section 1.14: T 2800, G 1210, D 1940. -/
theorem test_driving_settlement :
    (drivingInputs.cm.a, drivingInputs.t, drivingInputs.g, drivingInputs.d, drivingInputs.c,
      drivingInputs.q) = (2387, 2800, 1210, 1940, 0, 0) := by decide

/-- Section 1.14: 1114 N·m, MOTOR, to each motor. -/
theorem test_driving_torque :
    torqueOf (splitPower 2800 500 drivingInputs.cm).a 1200 = 1114 ∧
    torqueOf (splitPower 2800 500 drivingInputs.cm).b 1200 = 1114 := by decide

/-- Section 3.11: motor B short of torque, 1428 and 799 N·m. -/
theorem test_split_with_one_motor_short :
    splitPower 2800 500 ⟨2387, 1005⟩ = ⟨1795, 1005⟩ ∧ torqueOf 1795 1200 = 1428 ∧
    torqueOf 1005 1200 = 799 := by decide

/-- The inputs of the worked settlement of section 1.15. -/
def brakingInputs : SettleInputs :=
  { drivingInputs with
    base := some .blend
    governing := some .blend
    pedal := 0
    aDem := 120
    m := 18000
    v := 400
    x := 297
    gPrev := 400
    soc := 600
    motors := ⟨⟨1600, 0, 2200, true⟩, ⟨1600, 0, 2200, true⟩⟩
    program := [⟨.floor, 10, false⟩, ⟨.take, 255, false⟩, ⟨.step, 20, false⟩, ⟨.rest, 0, true⟩]
    pass := ⟨400, 60, false, false, false, false⟩ }

/-- Section 1.15: a_cap 85, REG_applied 80, Rg 1600, G 390, C 1693, friction 40. -/
theorem test_braking_settlement :
    (brakingInputs.aCap, brakingInputs.regApplied, brakingInputs.rg, brakingInputs.g, brakingInputs.c,
      brakingInputs.passResult.fri) = (85, 80, 1600, 390, 1693, 40) := by decide

/-- The inputs of settlement k + 1 of section 1.16. -/
def surplusInputs : SettleInputs :=
  { drivingInputs with
    link := .unloading
    pedal := 0
    soc := 760
    pChgLim := 200
    x := 200
    gPrev := 1490
    resistorInhibited := true }

/-- Section 1.16: settlement k + 1 has G 1480, C 1280, OVERCHARGE; with DUMP pending G is 0 and D 200. -/
theorem test_surplus_settlements :
    (surplusInputs.g, surplusInputs.c, surplusInputs.q, surplusInputs.overcharge) = (1480, 1280, 0, true) ∧
    ({ surplusInputs with dump := true, gPrev := 1480 } : SettleInputs).g = 0 ∧
    ({ surplusInputs with dump := true, gPrev := 1480 } : SettleInputs).d = 200 := by decide

/-- Section 1.17: D 350 with OVERDRAW under a SAFE_STOP base. -/
theorem test_emergency_settlement :
    let i : SettleInputs := { brakingInputs with
      base := some .safeStop, aDem := 200, x := 350, pDisLim := 300, gPrev := 800 }
    (i.g, i.t, i.d, i.overdraw, i.dropped, i.rg) = (0, 0, 350, true, true, 0) := by decide

/-- The first settlement after a run reset has the number 1 (R20, R26). -/
theorem test_first_record_is_number_one :
    (settlingOf .drive false resetPart).record.seq = 1#32 := by decide

/-! ### Sense results, wear and blend loading -/

/-- Section 7.1 (R140): raw code 2860 on channel 17 with offset 12 is 235 A. -/
theorem test_battery_current_conversion : senseValue 17 2860#12 12 = 235 := by decide

/-- Section 8.9: an integration of 2430 and 2430 units of 10⁸ counts one kilojoule and keeps 1260. -/
theorem test_lining_integration :
    let p := integrate 0 243000000000 liningUnit (integrate 0 243000000000 liningUnit resetPart)
    p.wear[0].unknown = some 1 ∧ p.wear[0].residual = 126000000000 := by decide

/-- Section 8.10: the result 79 counts the armed cycle and raises item 3 to WARN. -/
theorem test_cycle_counts_below_the_lower_bound :
    let it := { resetPart.wear[3] with acc := 199999, unknown := none, level := Level.ok, armed := true }
    let p := judgeCycle 3 79 (resetPart.setWearItem 3 it)
    p.wear[3].acc = 200000 ∧ p.wear[3].level = .warn ∧ p.wear[3].armed = false := by decide

/-- Section 8.10: the result 80 counts nothing. -/
theorem test_cycle_not_below_the_lower_bound :
    let it := { resetPart.wear[3] with acc := 199999, unknown := none, level := Level.ok, armed := true }
    (judgeCycle 3 80 (resetPart.setWearItem 3 it)).wear[3] = it := by decide

/-- R173: one completion on channel 12 that raises items 3 and 10 to WARN appends 3 before 10. -/
theorem test_new_warnings_stand_in_item_order :
    let it (k : WearNo) (count : Nat) (armed : Bool) : WearItem :=
      { resetPart.wear[k] with acc := count, unknown := none, level := Level.ok, armed := armed }
    let monitors := resetPart.cfg.monitors.set 0 ⟨.channel 12, 0, 70, 0, 1, .discHot⟩
    let p := (((resetPart.setCfg { resetPart.cfg with monitors := monitors, routineList := [12] }).setScan
      { resetPart.scan with mode := .routineRun, run := some ⟨1, .ordinary⟩ }).setWearItem 3
        (it 3 199999 true)).setWearItem 10 (it 10 4999 false)
    (after (.conversionComplete 1904#12) (p.setWarnings [])).warnings.map (·.item) = [3, 10] := by
  decide +kernel

/-- Section 8.11: item 8 written with 180,000 over an unknown amount of 412. -/
theorem test_wear_write_merges_the_unknown_amount :
    let p := resetPart.setWearItem 8 { resetPart.wear[8] with unknown := some 412 }
    (after (.wearWrite .sv 8#8 1#8 (enc4 180000#32)) p).wear[8].acc = 180412 := by decide +kernel

/-- R194: FLOOR 10 is operator code 0 with modifier 10; REST with the last flag is 89H 00H. -/
theorem test_steps_of_a_program :
    stepsOf [(0x00#8, 10#8), (0x89#8, 0#8)] = some [⟨.floor, 10, false⟩, ⟨.rest, 0, true⟩] := by decide

/-! ### One step of other families -/

/-- Section 5.9: a hold request with the engine in RUN and enough charge gives HOLD_QUIET by rule 4, and the
link unloads. -/
theorem test_quiet_stop :
    let image := (readyPart .run).image
    let p := (readyPart .run).setImage { image with
      storage := { image.storage with data := { image.storage.data with soc := 620 } } }
    (after (.driveStatus 0#16 0#16 1#8 1#8) p).hold.state = .holdQuiet ∧
      (after (.driveStatus 0#16 0#16 1#8 1#8) p).hold.rule = some 4 ∧
      (after (.driveStatus 0#16 0#16 1#8 1#8) p).gen.link = .unloading := by decide +kernel

/-- R29, R32: a storage limit above its range is clamped to 4000. -/
theorem test_storage_limit_is_clamped :
    (after (.storageStatus 1001#16 5000#16 4000#16 0#8) resetPart).image.storage.data =
      ⟨1000, 4000, 4000, false⟩ := by decide +kernel

/-- Section 5.10: a first report of RUNNING goes to SETTLING (R112). -/
theorem test_first_report_running :
    (after (.genStatus 2#8 2000#16) resetPart).gen.link = .settling := by decide +kernel

/-- Section 3.9: an emergency line requests SAFE_STOP at once (R52). -/
theorem test_emergency_line :
    (after (.emergencyLineChange .el0 true) resetPart).auth.flags.safeStop = true := by decide +kernel

/-- A run reset of a part whose keep-alive marker is not valid leaves the state after reset (R200). -/
theorem test_run_reset_is_the_reset_state :
    runReset .powerOn (resetPart.setMarker false) = resetPart := by decide +kernel

/-! ### Witnesses -/

/-- The reset part with another hold state. -/
def holding (h : HoldState) (p : Part) : Part := p.setHold { p.hold with state := h }

/-- The reset part with another generator link. -/
def withLink (l : LinkState) (p : Part) : Part := p.setGen { p.gen with link := l }

/-- The reset part with another scan mode. -/
def scanning (m : ScanMode) (p : Part) : Part := p.setScan { p.scan with mode := m }

theorem witness_IdleStepIsTheTick :
    heldPart.running = false ∧ (resetPart.running = true ∧ dueEvents resetPart = []) ∧
    ((later 10).running = true ∧ dueEvents (later 10) ≠ []) := by decide +kernel

theorem witness_NothingHappensInReset :
    heldPart.running = false ∧ ofSupplies (.calibrate .sv) = false := by decide

theorem witness_FrameRoundTrip :
    (Instr.wearReset .sv 11#8).wellFormed = true ∧
    encodeFrame (.wearReset .sv 11#8) = some (.port .sv, frameOf Kind.wearReset.code [11#8]) := by decide +kernel

theorem witness_BadFrameIsRecorded :
    let body (n : Nat) : List Byte := List.replicate n 0#8
    resetPart.running = true ∧ checkFrame (.link .a) true [0#8] = .discarded .framing ∧
    checkFrame (.port .pd) false [0#8] = .discarded .length ∧
    checkFrame (.port .pd) false [0x10#8, 0#8, 0#8, 0#8] = .discarded .crc ∧
    checkFrame (.port .pd) false (frameOf 0#8 []) = .discarded .kind ∧
    checkFrame (.port .pd) false (frameOf Kind.driveStatus.code (body 3)) = .discarded .length ∧
    checkFrame (.port .pd) false (frameOf Kind.calibrate.code (body 0)) = .notPermitted .calibrate ∧
    checkFrame (.port .sv) false (frameOf Kind.calibrate.code (body 0)) = .taken .calibrate ∧
    checkFrame (.link .a) false (frameOf Kind.calibrate.code (body 0)) = .discarded .permission ∧
    checkFrame (.link .a) false (frameOf Kind.invStatus.code (body 7)) = .taken .invStatus := by decide +kernel

theorem witness_running : resetPart.running = true := by decide

theorem witness_BrakeStatusTaken :
    let p := scanning (.calibrating 0#32 []) resetPart
    let q := resetPart.setScan { resetPart.scan with calWaiting := true }
    p.running = true ∧ min (4#16).toNat 1000 < 5 ∧ 5 ≤ (5#16).toNat ∧ p.scan.mode.code = 3 ∧
    (q.scan.mode.code ≠ 3 ∧ q.scan.calWaiting = true) ∧ resetPart.scan.calWaiting = false ∧
    p.scan.run = none ∧ p.scan.pending = none := by decide

theorem witness_MotorLinkFollowsReports :
    let p := (later 30).setLink .a { resetLink with freshness := .fresh }
    p.running = true ∧ (p.links.get .a).freshness = .fresh ∧
    30 ≤ (p.time.now - (p.links.get .a).stamp).toNat := by decide

theorem witness_HoldEntryChooses :
    let p (link : LinkState) := (readyPart link).setImage { (readyPart link).image with
      brake := { (readyPart link).image.brake with
        data := { (readyPart link).image.brake.data with v := 4 } } }
    (p .run).running = true ∧ (p .run).hold.state = .drive ∧ (1#8 : Byte).getLsbD 0 = true ∧
    (1#8 : Byte).getLsbD 2 = false ∧ (p .run).image.brake.data.v < 5 ∧
    min (29#16).toNat 1000 < (p .run).cfg.num .breakPedal ∧
    ((5#8 : Byte).getLsbD 0 = true ∧ (5#8 : Byte).getLsbD 2 = true ∧
      (p .run).image.drive.data.quietZone = false) ∧
    (p .run).gen.link = .run ∧ (p .settling).gen.link.starting = true ∧
    ((p .off).gen.link ≠ .run ∧ (p .off).gen.link ≠ .unloading ∧ (p .off).gen.link.starting = false) ∧
    ((p .off).cfg.setNum .stopTrigger 0).on .stopTrigger = false ∧
    ((p .off).cfg.setNum .stopTrigger 1).on .stopTrigger = true ∧
    (p .off).scan.mode = .idle ∧ (scanning .routineRun (p .off)).scan.mode ≠ .idle := by decide

theorem witness_HoldBreaks :
    let p := holding .holdQuiet (readyPart .off)
    p.running = true ∧ p.hold.state ≠ .drive ∧ p.cfg.num .breakPedal ≤ min (30#16).toNat 1000 ∧
    (0#8 : Byte).getLsbD 0 = false ∧ directionOf 2#8 ≠ p.image.drive.data.direction ∧
    5 ≤ (5#16).toNat := by decide

theorem witness_EngineReportsMoveTheLink :
    let p (l : LinkState) := withLink l resetPart
    (∀ l : LinkState, (p l).gen.link = l ∧ (p l).running = true) ∧
    (reportOf 0#8 = .stopped ∧ reportOf 1#8 = .cranking ∧ reportOf 2#8 = .running ∧ reportOf 3#8 = .fault) ∧
    ((p .awaiting).image.drive.data.quietZone = false ∧ quietHold (p .awaiting) = false) ∧
    quietHold (holding .layover (p .awaiting)) = true := by
  refine ⟨fun l => ?_, by decide, by decide, by decide⟩
  cases l <;> exact ⟨rfl, rfl⟩

/-- A part in which a request on any port is taken. -/
theorem witness_takesRequest (port : Port) : takesRequest port resetPart := by
  cases port <;> exact ⟨by decide, by decide⟩

theorem witness_ReadAnswersInParts :
    let p := resetPart.setPort .sv { resetPart.port .sv with
      snapshot := some ⟨1#8, usedIndex 1#8 0#16, List.replicate 18 0#8⟩ }
    takesRequest .sv p ∧ readRefusal 1#8 0#16 = none ∧
    (readRefusal 14#8 0#16 = some .unknownItem ∧ readRefusal 11#8 65#16 = some .unknownItem ∧
      readRefusal 11#8 64#16 = none ∧ readRefusal 8#8 12#16 = some .range ∧ readRefusal 8#8 11#16 = none) ∧
    (1#8).toNat < partCount (List.replicate 18 0#8) ∧ partCount (List.replicate 18 0#8) ≤ (2#8).toNat :=
  ⟨⟨by decide, by decide⟩, by decide, by decide, by decide, by decide⟩

theorem witness_ConfigWriteStores :
    takesRequest .sv resetPart ∧ configItemOf (11#16).toNat = some (.num .socLow) ∧
    NumItem.socLow.row.low ≤ 650 ∧ 650 ≤ NumItem.socLow.row.high ∧
    socOk (resetPart.cfg.setNum .socLow 650) = true ∧ configItemOf (3#16).toNat = some (.num .tLimA) ∧
    NumItem.tLimA.row.standing = true ∧ standing resetPart = true ∧
    (configItemOf (9#16).toNat = some .axleShares ∧
      ¬ valueIll .axleShares (enc2 1000 ++ enc2 0 ++ enc2 0) resetPart.cfg) ∧
    (configItemOf (46#16).toNat = some .eventGroup ∧ ¬ valueIll .eventGroup [1#8, 21#8] resetPart.cfg) ∧
    (configItemOf (47#16).toNat = some .routineList ∧ ¬ valueIll .routineList [1#8, 20#8] resetPart.cfg) ∧
    (configItemOf (58#16).toNat = some (.monitor 7) ∧
      ¬ valueIll (.monitor 7) (encMonitorCfg resetPart.cfg.monitors[7]) resetPart.cfg) ∧
    (configItemOf (63#16).toNat = some (.enables .sv) ∧ ¬ valueIll (.enables .sv) [0#8, 1#8] resetPart.cfg) ∧
    (configItemOf (64#16).toNat = some .resetMask ∧ ¬ valueIll .resetMask [3#8] resetPart.cfg) ∧
    ((scanning .routineRun resetPart).scan.mode = .routineRun ∧ resetPart.scan.mode ≠ .routineRun ∧
      resetPart.scan.pending = none) :=
  ⟨witness_takesRequest .sv, by decide, by decide, by decide, by decide, by decide, by decide, by decide,
    by unfold valueIll; decide +kernel, by unfold valueIll listIll; decide +kernel,
    by unfold valueIll listIll; decide +kernel, by unfold valueIll monitorIll; decide +kernel,
    by unfold valueIll; decide +kernel, by unfold valueIll; decide +kernel, by decide⟩

/-- A monitor in TRIPPED is rewritten: a change of the action alone, and a change of the high threshold. -/
theorem witness_monitorRewritten :
    let old : MonitorCfg := ⟨.disc, 0, 90, 0, 1, .thermalOverride⟩
    ({ old with action := MonitorAction.discHot } = ⟨.disc, 0, 90, 0, 1, .discHot⟩) ∧
    ({ old with action := MonitorAction.discHot } ≠ ⟨.disc, 0, 91, 0, 1, .discHot⟩) := by decide

/-- A part at work for this many ms since its reset, with a vehicle in a brake episode at 20 km/h. -/
def workingPart (now : Nat) : Part :=
  let p := (readyPart .off).setTime ⟨BitVec.ofNat 32 now, 0#32⟩
  (p.setImage { p.image with
    brake := { p.image.brake with data := { p.image.brake.data with v := 200 } } }).setBlend
      { p.blend with episode := true }

/-- Limits at their boundaries: a limit of 50 ms makes a FRESH partner STALE at 50 ms, LOST at 200 ms; the hold timers
are due at the second that their items name; v_min_regen 200 allows the flag at 20 km/h and 201 does not. -/
theorem witness_ConfigWriteActs :
    let hold (h : Hold) := (workingPart 10000).setHold h
    takesRequest .sv (workingPart 50) ∧
    (configItemOf (26#16).toNat = some (.num .freshDrive) ∧ NumItem.freshDrive = freshItem .drive ∧
      NumItem.freshDrive.row.low ≤ 50 ∧ 50 ≤ NumItem.freshDrive.row.high) ∧
    ((workingPart 50).fresh .drive = .fresh ∧
      ((workingPart 50).time.now - (workingPart 50).image.stampOf .drive).toNat = 50 ∧
      ((workingPart 200).time.now - (workingPart 200).image.stampOf .drive).toNat = 4 * 50) ∧
    ((workingPart 50).image.drive.data.direction = .forward ∧ (workingPart 50).image.brake.data.v = 200 ∧
      (workingPart 50).image.brake.freshness = .fresh ∧ (workingPart 50).blend.episode = true) ∧
    ((hold ⟨.holdQuiet, 0#32, some 4, false, true, false⟩).hold.promotion = true ∧
      (hold ⟨.layover, 0#32, some 3, false, false, true⟩).hold.layover = true ∧
      ((workingPart 10000).time.now - 0#32).toNat = 1000 * 10) ∧
    (NumItem.economyCode ∉ [NumItem.vMinRegen, .layoverAfter] ∧
      (∀ partner, NumItem.pTracMax ≠ freshItem partner)) :=
  ⟨⟨by decide, by decide⟩, by decide, by decide, by decide, by decide, by decide, fun k => by cases k <;> decide⟩

/-- R196: READ CONFIG of mon0 answers the bytes of its default, DISC −40..200, 20, 3, DISC_HOT, as R152 lists it. -/
theorem test_read_monitor_item :
    configForm (.monitor 0) resetPart = [22#8, 0xFF#8, 0xD8#8, 0#8, 200#8, 0#8, 20#8, 3#8, 3#8] ∧
    readContent .sv (.config (.monitor 0)) resetPart = configForm (.monitor 0) resetPart := by decide +kernel

/-- Section 9.8: ACCOUNT_LAST is 31 bytes, presence, then seq 41,206. -/
theorem test_read_account_last :
    let p := resetPart.setAccount { resetPart.account with
      current := some (brakingInputs.record 41206#32 false 7#32, brakingInputs.working ⟨.ok, .ok, .ok⟩ 0 0) }
    (readContent .sv .accountLast p).length = 31 ∧
    (readContent .sv .accountLast p).take 5 = [1#8, 0#8, 0#8, 0xA0#8, 0xF6#8] := by decide +kernel

/-- A part whose vehicle moves at 0.5 km/h, where it no longer stands. -/
def movingPart : Part :=
  resetPart.setImage { resetPart.image with
    brake := { resetPart.image.brake with data := { resetPart.image.brake.data with v := 5 } } }

theorem witness_ConfigWriteRefusals :
    let c := movingPart.cfg
    takesRequest .sv movingPart ∧ (configItemOf (0#16).toNat = none ∧ configItemOf (65#16).toNat = none) ∧
    (configItemOf (1#16).toNat = some (.num .pTracMax) ∧ Port.pd ≠ (ConfigItem.num .pTracMax).owner) ∧
    (valueIll (.num .pTracMax) (bytes2 5001#16) c ∧ ¬ valueIll (.num .pTracMax) (bytes2 5000#16) c ∧
      valueIll (.num .socLow) (bytes2 651#16) c) ∧
    (valueIll .eventGroup [2#8, 16#8, 16#8] c ∧ valueIll .routineList [1#8, 22#8] c ∧
      valueIll .axleShares (enc2 999 ++ enc2 0 ++ enc2 0) c ∧ valueIll (.enables .ps) (bytes2 4#16) c ∧
      valueIll .resetMask [1#8] c) ∧
    (valueIll (.monitor 0) (encMonitorCfg ⟨.disc, -40, 216, 0, 1, .statusOnly⟩) c ∧
      valueIll (.monitor 0) (encMonitorCfg ⟨.disc, -40, 215, 128, 1, .statusOnly⟩) c ∧
      ¬ valueIll (.monitor 0) (encMonitorCfg ⟨.disc, -40, 215, 127, 15, .statusOnly⟩) c) ∧
    (configItemOf (3#16).toNat = some (.num .tLimA) ∧ ¬ valueIll (.num .tLimA) (bytes2 2600#16) c ∧
      (ConfigItem.num .tLimA).standing = true ∧ 5 ≤ movingPart.image.brake.data.v) ∧
    (configItemOf (38#16).toNat = some .overrideCode ∧ movingPart.derate.locked = false ∧
      valueIll .overrideCode [8#8] c) :=
  ⟨⟨by decide, by decide⟩, by decide, by decide, by unfold valueIll; decide +kernel,
    by unfold valueIll listIll; decide +kernel, by unfold valueIll monitorIll; decide +kernel,
    by unfold valueIll; decide +kernel, by unfold valueIll; decide +kernel⟩

theorem witness_OverrideCodeWrittenOnce :
    let p := resetPart.setDerate { resetPart.derate with overrideCode := 3, locked := true }
    takesRequest .pd resetPart ∧ resetPart.derate.locked = false ∧ (7#8).toNat ≤ 7 ∧ 7 < (8#8).toNat ∧
    p.derate.locked = true ∧
    (exec .routineTrigger (alone p) = .next (alone p) ∧ resetsPart .routineTrigger = false) :=
  ⟨witness_takesRequest .pd, by decide, by decide, by decide, rfl, rfl, by decide⟩

theorem witness_ClearStatusClears :
    takesRequest .ps resetPart ∧ 1#16 &&& ~~~eventsOf .ps = 0#16 ∧
    (0xFFFF#16 &&& Event.holdChange.mask ≠ 0#16 ∧ eventsOf .ps &&& Event.holdChange.mask = 0#16) :=
  ⟨witness_takesRequest .ps, by decide, by decide⟩

theorem witness_LoadBlendTakesOrRefuses :
    takesRequest .pb resetPart ∧
    (stepsOf [(0x89#8, 0#8)] = some [⟨.rest, 0, true⟩] ∧ lastFlagsOk [⟨.rest, 0, true⟩] = true ∧
      endsLast [⟨.rest, 0, true⟩] = true) ∧
    (stepsOf (List.replicate 8 (0#8, 1#8)) = some (List.replicate 8 ⟨.floor, 1, false⟩) ∧
      lastFlagsOk (List.replicate 8 ⟨.floor, 1, false⟩) = true ∧
      endsLast (List.replicate 8 ⟨.floor, 1, false⟩) = false) ∧
    assemblyOf .pb (resetPart.setBlend { resetPart.blend with assemblyPB := some ⟨3, []⟩ }).blend =
      some ⟨3, []⟩ ∧
    (4 ≤ (4#8).toNat ∧ stepsOf [(10#8, 0#8)] = none ∧ stepsOf [(2#8, 129#8)] = none ∧
      lastFlagsOk [⟨.rest, 0, true⟩, ⟨.rest, 0, true⟩] = false ∧ endsLast [⟨.floor, 1, false⟩] = false ∧
      ([⟨.floor, 1, false⟩] : List BlendStep).length < 8 ∧ assemblyOf .pb resetPart.blend = none) :=
  ⟨witness_takesRequest .pb, by decide, by decide, by decide, by decide⟩

theorem witness_AckWarningAndForceDerate :
    takesRequest .pd resetPart ∧ 12 ≤ (12#8).toNat ∧ (∀ w ∈ resetPart.warnings, w.item ≠ 11) ∧
    (∃ w ∈ resetPart.warnings, w.item = 0) ∧ (1#8).toNat ≤ 1 ∧ 1 < (2#8).toNat :=
  ⟨witness_takesRequest .pd, by decide, by decide, by decide, by decide, by decide⟩

theorem witness_WearServiceWrites :
    takesRequest .sv resetPart ∧
    (wearFieldsOf 1#8 (enc4 180000#32) = some ⟨some 180000, none, none, none⟩ ∧ noticeOk none = true ∧
      resetPart.wear[8].warn < resetPart.wear[8].limit) ∧
    wearFieldsOf 10#8 (enc4 300000#32 ++ [0#8]) = some ⟨none, some 300000, none, some 0#8⟩ ∧
    resetPart.wear[8].limit ≤ 300000 ∧
    (12 ≤ (12#8).toNat ∧ (11#8).toNat < 12 ∧ resetPart.wear[0].level ≠ .ok ∧ (1#8).getLsbD 0 = true ∧
      (enc4 180000#32).length = 4 ∧ [2#8].getLast? = some 2#8) :=
  ⟨witness_takesRequest .sv, by decide +kernel, by decide +kernel, by decide, by decide⟩

theorem witness_CalibrateAndClearLockout :
    takesRequest .sv movingPart ∧ standing movingPart = false ∧ standing resetPart = true ∧
    (scanning (.calibrating 0#32 []) resetPart).scan.mode.code = 3 ∧ resetPart.scan.mode = .idle ∧
    (scanning (.eventRun [16]) resetPart).scan.mode.code = 2 ∧ resetPart.scan.calWaiting = false ∧
    takesRequest .sv (withLink .lockedOut resetPart) ∧
    ((withLink .lockedOut resetPart).gen.link = .lockedOut ∧
      (withLink .lockedOut resetPart).gen.startRequest = false ∧ resetPart.gen.link ≠ .lockedOut) :=
  ⟨⟨by decide, by decide⟩, by decide, by decide, by decide, by decide, by decide, by decide,
    ⟨by decide, by decide⟩, by decide⟩

/-- Four replies wait behind a frame being sent on the service port. -/
def fullPart : Part :=
  resetPart.setPort .sv { resetPart.port .sv with
    tx := ⟨some (.reply .calibrate .accepted none), List.replicate 4 (.reply .read .accepted none)⟩ }

theorem witness_RequestsTurnedAway :
    (takesRequest .pg resetPart ∧ (List.replicate 13 0#8).length ≤ 13 ∧ 1 ≤ [(0#8, 0#8)].length ∧
      Port.pg ≠ .sv ∧ Port.pg ≠ .pd ∧ Port.pg ≠ .pb) ∧
    (requestKind (.calibrate .sv) = some (.sv, .calibrate) ∧ (Instr.calibrate .sv).wellFormed = true ∧
      Kind.calibrate.requestOn .sv = true ∧ fullPart.running = true ∧
      4 ≤ (fullPart.port .sv).waitingReplies) :=
  ⟨⟨witness_takesRequest .pg, by decide, by decide, by decide, by decide, by decide⟩,
    by decide, by decide, by decide, by decide, by decide⟩

theorem witness_FrameSentBeginsNext :
    let f := OutFrame.reply .calibrate .accepted none
    (queueOn .sv f resetPart).running = true ∧ ((queueOn .sv f resetPart).port .sv).tx.sending = some f ∧
    ((queueOnLink .b f resetPart).links.get .b).tx.sending = some f := by decide

theorem witness_ScannerTimersExpire :
    let p := later (resetPart.cfg.num .routinePeriod)
    ((later 10).running = true ∧ 10 ≤ ((later 10).time.now - (later 10).time.settleMark).toNat ∧
      (later 10).scan.mode = .idle ∧ (scanning (.eventRun [16]) (later 10)).scan.mode.code = 2 ∧
      (scanning (.calibrating 0#32 []) (later 10)).scan.mode.code = 3) ∧
    (p.running = true ∧ p.cfg.num .routinePeriod ≤ (p.time.now - p.scan.periodMark).toNat ∧
      p.scan.mode = .idle ∧ (scanning .routineRun p).scan.mode ≠ .idle) := by decide

theorem witness_EventConversionCompletes :
    let p := (scanning (.eventRun [21]) resetPart)
    p.running = true ∧ p.scan.mode = .eventRun [21] ∧
    (scanning (.eventRun [16, 21]) resetPart).scan.mode = .eventRun [16, 21] ∧ p.scan.calWaiting = false ∧
    p.scan.run = none ∧ p.scan.pending = none ∧
    (p.setScan { p.scan with calWaiting := true }).scan.calWaiting = true ∧
    (p.setScan { p.scan with run := some ⟨1, .ordinary⟩ }).scan.run.isSome = true ∧
    (p.setScan { p.scan with pending := some .roundCompleting }).scan.pending = some .roundCompleting := by decide

theorem witness_RoutineConversionCompletes :
    let p := resetPart.setScan { resetPart.scan with
      mode := .routineRun, run := some ⟨1, .ordinary⟩, position := 15 }
    p.running = true ∧ p.scan.run = some ⟨1, .ordinary⟩ ∧
    (p.cfg.routineList[p.scan.position]?).isSome = true ∧ p.scan.position + 1 = p.cfg.routineList.length ∧
    (List.replicate 351 0#12).length < 352 ∧ p.scan.pending = none ∧
    (p.setScan { p.scan with pending := some .ordinary }).scan.pending = some .ordinary := by decide +kernel

/-- Disc monitor 0 with channel 0 at 201, above its high threshold of 200. -/
def hotDisc : Part :=
  resetPart.setScan { resetPart.scan with results := resetPart.scan.results.set 0 ⟨201, 0#12, 7#32, true⟩ }

/-- Disc monitor 0 with an action and persistence 1, in a state, with channel 0 at a value. -/
def discMonitor (action : MonitorAction) (state : MonitorState) (value : Int) : Part :=
  let p := hotDisc.setCfg { hotDisc.cfg with
    monitors := hotDisc.cfg.monitors.set 0 { hotDisc.cfg.monitors[0] with persistence := 1, action := action } }
  p.setScan { p.scan with
    results := p.scan.results.set 0 ⟨value, 0#12, 7#32, true⟩
    monitors := p.scan.monitors.set 0 ⟨state, 0, 0, 0#32⟩ }

theorem witness_MonitorJudges :
    (0 : Channel) ∈ scopeChannels hotDisc.cfg.monitors[0].scope ∧ hotDisc.scan.results[0].valid = true ∧
    hotDisc.cfg.monitors[0].high < hotDisc.scan.results[0].value ∧
    hotDisc.scan.monitors[0].state = .inside ∧
    (judgeMonitor 0 0 (discMonitor .thermalOverride .inside 201)).scan.monitors[0].state = .tripped ∧
    (judgeMonitor 0 0 (discMonitor .thermalOverride .tripped 100)).scan.monitors[0].state = .inside ∧
    (judgeMonitor 0 0 (discMonitor .discHot .counting 201)).scan.monitors[0].state = .tripped := by decide +kernel

/-- R127, R128: a monitor that joins an empty thermal set arms the override, and one that leaves it disarms it. -/
theorem test_thermal_set_arms_and_disarms :
    let p := judgeMonitor 0 0 (discMonitor .thermalOverride .inside 201)
    (p.derate.thermalSet, p.derate.thermal) = (1#8, .arming) ∧
    (judgeMonitor 0 0 (p.setScan (discMonitor .thermalOverride .tripped 100).scan)).derate.thermal = .off := by
  decide +kernel

/-- A routine run whose list is the one channel, so that its conversion completes a round. -/
def roundPart (ch : Channel) : Part :=
  (resetPart.setCfg { resetPart.cfg with routineList := [ch] }).setScan
    { resetPart.scan with mode := .routineRun, run := some ⟨1, .ordinary⟩ }

/-- Cycle item 3 with a count, armed or not. -/
def cyclePart (armed : Bool) : Part :=
  (roundPart 12).setWearItem 3 { resetPart.wear[3] with unknown := none, level := .ok, armed := armed }

theorem witness_ConversionsCountWear :
    let item (raw : BitVec 12) (p : Part) : Int × Bool :=
      ((after (.conversionComplete raw) p).scan.results[12].value,
        (after (.conversionComplete raw) p).wear[3].armed)
    (roundPart 12).running = true ∧ (roundPart 12).cfg.routineList[0]? = some 12 ∧
    (roundPart 12).cfg.routineList.length = (roundPart 12).scan.position + 1 ∧
    (scanning (.eventRun [12]) resetPart).scan.mode = .eventRun [12] ∧
    (∀ k : MonitorNo, k = 0 ∨ resetPart.cfg.monitors[k].action ≠ .discHot) ∧
    (12 : Channel).val = (3 : WearNo).val + 9 ∧
    (item 3056#12 (cyclePart false) = (151, true) ∧ item 3055#12 (cyclePart false) = (150, false)) ∧
    (item 1919#12 (cyclePart true) = (79, false) ∧ item 1920#12 (cyclePart true) = (80, true)) := by
  decide +kernel

/-- R166, R167: the stage of channel 6 is latched on item 0 at the wrap of the list, where it is the higher. -/
theorem test_round_latches_the_lining_stage :
    let p := (roundPart 6).setScan { (roundPart 6).scan with
      results := (roundPart 6).scan.results.set 7 ⟨3, 0#12, 0#32, true⟩ }
    (after (.conversionComplete 2048#12) p).wear[0].stage = 3 ∧
    (after (.conversionComplete 2048#12) p).wear[0].level = .limit := by decide +kernel

/-- Section 7.9: with persistence 3 the first result above the window starts the count. -/
theorem test_hot_disc_counts :
    (judgeMonitor 0 0 hotDisc).scan.monitors[0] = ⟨.counting, 1, 0, 0#32⟩ := by decide

theorem witness_CalibrationEndJudges :
    let codes := List.replicate 352 2248#12
    let p := scanning (.calibrating 0#32 codes) (later 40)
    p.running = true ∧ p.scan.mode = .calibrating 0#32 codes ∧ codes.length = 352 ∧
    40 ≤ (p.time.now - 0#32).toNat ∧
    (∀ ch : Channel, -200 ≤ newOffset codes ch ∧ newOffset codes ch ≤ 200) ∧
    200 < newOffset (List.replicate 352 2249#12) 0 ∧ p.scan.run = none ∧ p.scan.pending = none ∧
    (p.setScan { p.scan with run := some ⟨1, .ordinary⟩ }).scan.run.isSome = true ∧
    (p.setScan { p.scan with pending := some .ordinary }).scan.pending = some .ordinary := by decide +kernel

/-- A vehicle at work whose first settlement begins: a brake request of the demand, an emergency line as given, a
program pending in slot 0. -/
def beginningPart (aDem : Nat) (emergency : Bool) : Part :=
  let p := readyPart .off
  let drive := { p.image.drive with data := { p.image.drive.data with aDem := aDem } }
  let slots := p.slots.set 0 { p.slots[0] with pending := some [⟨.rest, 0, true⟩] }
  (((p.setImage { p.image with drive := drive }).setSlots slots).setAccount
    { p.account with beginning := some false }).setAuth
      ⟨⟨emergency, false, false, false, false, true⟩, []⟩

theorem witness_SettlementBeginsOnWhatStands :
    let p := beginningPart 120 true
    p.running = true ∧ p.account.beginning = some false ∧ p.account.settling = none ∧
    (accepted (holding .holdQuiet p) = some .safeStop ∧ (holding .holdQuiet p).hold.state ≠ .drive) ∧
    accepted (beginningPart 120 false) ≠ some .safeStop ∧
    (p.image.drive.data.aDem ≠ 0 ∧ p.blend.episode = false ∧
      p.slots[0].pending = some [⟨.rest, 0, true⟩] ∧ p.slots[1].pending = none) ∧
    (beginningPart 0 false).image.drive.data.aDem = 0 ∧
    (scanning (.calibrating 0#32 []) p).scan.mode.code = 3 ∧ p.scan.mode.code ≠ 3 ∧ p.scan.calWaiting = false ∧
    (p.setScan { p.scan with calWaiting := true }).scan.calWaiting = true := by decide

/-- R150: the episode start of this settlement abandons a calibration in progress. -/
theorem test_episode_start_abandons_calibration :
    (after .settlementBegin (scanning (.calibrating 0#32 []) (beginningPart 120 false))).cal.outcome = .abandoned := by
  decide +kernel

theorem witness_SettlementTermsFormed :
    drivingInputs.motors.a.inService = true ∧
    ({ drivingInputs with motors := ⟨⟨1200, 1900, 0, false⟩, drivingInputs.motors.b⟩ } :
      SettleInputs).motors.a.inService = false := by decide

/-- TRACTION is PENDING in a part at work, and another source governs it or none does. -/
def offering (stack : List StackEntry) : Part :=
  (readyPart .off).setAuth ⟨⟨false, false, false, true, false, true⟩, stack⟩

theorem witness_OfferAccepted :
    offer (offering [⟨.hold, 2⟩]) = some .traction ∧
    (∀ e, (offering [⟨.hold, 2⟩]).auth.stack.head? = some e → e.level < levelOf .traction (offering [])) ∧
    offer (offering [⟨.hold, 3⟩]) = some .traction ∧
    levelOf .traction (offering [⟨.hold, 3⟩]) ≤ 3 ∧ offer resetPart = none := by
  refine ⟨by decide, fun e h => ?_, by decide, by decide, by decide⟩
  cases h
  decide

/-- R70: at an episode's end the BLEND entry leaves the top, TRACTION governs, and AUTHORITY_CHANGE is set. -/
theorem test_episode_end_releases_blend :
    let p := (beginningPart 0 false).setAuth ⟨⟨false, false, true, false, false, true⟩, [⟨.blend, 6⟩, ⟨.traction, 3⟩]⟩
    let q := after .settlementBegin (p.setBlend { p.blend with episode := true })
    q.auth = ⟨⟨false, false, false, false, false, true⟩, [⟨.traction, 3⟩]⟩ ∧
    (q.port .pd).status &&& Event.authorityChange.mask = Event.authorityChange.mask := by decide +kernel

/-- A part whose first settlement is in progress. -/
def settlingPart (count : Nat) : Part :=
  (resetPart.setAccount { resetPart.account with
    settling := some (settlingOf .drive false resetPart) }).setPorts { resetPart.ports with
      reportCount := count }

theorem witness_AccountSettledCloses :
    (settlingPart 4).running = true ∧
    (settlingPart 4).account.settling = some (settlingOf .drive false resetPart) ∧
    (settlingOf .drive false resetPart).record.flags.episode = false ∧
    (settlingOf .drive false resetPart).endedEpisode = false ∧
    (brakingInputs.record 1#32 false 0#32).flags.episode = true ∧
    (settlingPart 4).ports.reportCount = 4 ∧ (settlingPart 3).ports.reportCount < 4 := by decide

/-- A part that closes a settlement of this state of charge with the link and the hold state given, the previous record
and the storage partner LOST. -/
def closingPart (soc : Nat) (link : LinkState) (h : HoldState) : Part :=
  let p := holding h (readyPart link)
  let st := settlingOf h false p
  let image := { p.image with storage := { p.image.storage with freshness := .lost } }
  (p.setImage image).setAccount { p.account with
    current := some (st.record, st.working)
    settling := some { st with working := { st.working with soc := soc } } }

theorem witness_SettledRecordMovesBlocks :
    let p := closingPart 299 .off .holdQuiet
    let zone := p.setImage { p.image with
      drive := { p.image.drive with data := { p.image.drive.data with quietZone := true } } }
    p.running = true ∧ p.account.settling.isSome = true ∧ p.account.current.isSome = true ∧
    resetPart.account.current = none ∧
    (p.account.settling.map fun st => (st.record.flags.senseHeld, decide (0 ≤ st.working.linkVoltage)))
      = some (false, true) ∧
    p.image.storage.freshness = .lost ∧
    (quietHold p = true ∧ 299 < p.cfg.num .socFloor ∧ p.image.drive.data.quietZone = false ∧
      p.gen.link = .off) ∧
    (quietHold zone = true ∧ zone.image.drive.data.quietZone = true ∧ zone.hold.latch = false) ∧
    p.cfg.num .socFloor ≤ 300 ∧ quietHold (closingPart 299 .run .drive) = false ∧
    (closingPart 299 .run .drive).gen.link = .run ∧
    (closingPart 299 .unloading .holdQuiet).gen.link = .unloading ∧
    (closingPart 299 .stopSent .holdQuiet).gen.link = .stopSent := by decide

theorem witness_GeneratorSetPointBounded :
    surplusInputs.link = .unloading ∧ drivingInputs.dump = false ∧ brakingInputs.aDem ≠ 0 ∧
    (settleInputs .drive resetPart).link = .awaiting := by decide

theorem witness_programLegal : programLegal brakingInputs.program ∧ drivingInputs.base ≠ some .blend := by
  unfold programLegal
  decide

theorem witness_TorqueCommandsBounded :
    let st (base : Source) : Settling := { settlingOf .drive false (readyPart .off) with
      record := { drivingInputs.record 1#32 false 0#32 with base := some base } }
    programLegal (passProgram resetPart) ∧
    (∀ base : Source, (st base).record.base = some base) ∧ (readyPart .off).partState = .ready ∧
    resetLink.inService = false ∧
    ({ resetLink with ready := true, freshness := .fresh } : MotorLink).inService = true := by
  unfold programLegal
  exact ⟨by decide, fun base => rfl, by decide, by decide, by decide⟩

theorem witness_BlendOperatorsAct :
    modifierOk .scale 128 = true ∧ modifierOk .fade 80 = true ∧ modifierOk .step 1 = true ∧
    ({ brakingInputs.pass with slip := true } : PassInputs).slip = true ∧
    runSteps brakingInputs.pass brakingInputs.program 0 ⟨120, 0, 0, 85⟩ 0 = (⟨0, 80, 40, 85⟩, 4) := by decide

/-- R88: a skip whose condition holds passes over the steps its modifier counts. -/
theorem test_skip_passes_over_steps :
    let i : PassInputs := { brakingInputs.pass with slip := true }
    let program : List BlendStep := [⟨.skipSlip, 2, false⟩, ⟨.floor, 10, false⟩, ⟨.floor, 10, false⟩, ⟨.rest, 0, true⟩]
    runPass i program 120 85 = ⟨0, 120, 2⟩ := by decide

theorem witness_HoldsMoveInside :
    let p := (later 90000).setHold ⟨.holdQuiet, 0#32, some 4, false, true, false⟩
    let q := (later 1800000).setHold ⟨.layover, 0#32, some 3, false, false, true⟩
    let zone := q.setImage { q.image with
      drive := { q.image.drive with data := { q.image.drive.data with quietZone := true } } }
    (p.running = true ∧ p.hold.promotion = true ∧
      1000 * p.cfg.num .layoverAfter ≤ (p.time.now - p.hold.entered).toNat) ∧
    (q.hold.layover = true ∧ 1000 * q.cfg.num .layoverMax ≤ (q.time.now - q.hold.entered).toNat) ∧
    (q.image.drive.data.quietZone = false ∧ zone.image.drive.data.quietZone = true) ∧
    (min (0#16).toNat 1000 < p.cfg.num .breakPedal ∧ (3#8).getLsbD 0 = true ∧ (3#8).getLsbD 1 = true ∧
      (3#8).getLsbD 2 = false ∧ (5#8).getLsbD 0 = true ∧ (5#8).getLsbD 2 = true ∧
      directionOf 0#8 = p.image.drive.data.direction) ∧
    (holding .holdRun p).hold.state = .holdRun := by decide

theorem witness_SequencerTimersExpire :
    let p (n : GenTimerName) (l : LinkState) := (later 4000).setGen
      { resetSequencer with link := l, timer := some ⟨n, 0#32, 4000⟩ }
    (p .startTimeout .cranking).running = true ∧
    (p .startTimeout .cranking).gen.timer = some ⟨.startTimeout, 0#32, 4000⟩ ∧
    4000 ≤ ((p .startTimeout .cranking).time.now - 0#32).toNat ∧
    (p .genSettle .settling).gen.link = .settling ∧ (p .stopTimeout .stopSent).gen.link = .stopSent ∧
    (p .retryDelay .failed).gen.link = .failed := by decide

/-- The part at work at a later time, with another freshness of every partner. -/
def silentPart (f : Freshness) (now : Nat) : Part :=
  ((readyPart .off).setTime ⟨BitVec.ofNat 32 now, 0#32⟩).setImage
    { (readyPart .off).image with
      drive := { (readyPart .off).image.drive with freshness := f }
      storage := { (readyPart .off).image.storage with freshness := f }
      generator := { (readyPart .off).image.generator with freshness := f }
      brake := { (readyPart .off).image.brake with freshness := f } }

theorem witness_PartnersFallSilent :
    let p := silentPart .fresh 50
    let q := silentPart .stale 200
    (p.running = true ∧ p.fresh .drive = .fresh ∧
      p.limitOf .drive ≤ (p.time.now - p.image.stampOf .drive).toNat) ∧
    (q.running = true ∧ q.fresh .drive = .stale ∧
      4 * q.limitOf .drive ≤ (q.time.now - q.image.stampOf .drive).toNat) ∧
    q.gen.failures ≠ 3 ∧ q.gen.link ≠ .lockedOut ∧
    ((later 2000).running = true ∧ (later 2000).partState = .starting ∧ 2000 ≤ (later 2000).time.now.toNat ∧
      (later 2000).image.brake.freshness = .never ∧ (later 2000).gen.link = .awaiting ∧
      (later 2000).gen.failures = 0) := by decide

theorem witness_ThermalTimersExpire :
    let p (t : ThermalState) := (later 2000).setDerate
      { resetPart.derate with thermal := t, timer := some ⟨0#32, 2000⟩ }
    (p .arming).running = true ∧ (p .arming).derate.timer = some ⟨0#32, 2000⟩ ∧
    2000 ≤ ((p .arming).time.now - 0#32).toNat ∧ (p .arming).derate.thermal = .arming ∧
    (p .active).derate.thermal = .active ∧ (p .active).derate.forced = false := by decide

/-- The reset part without the run supply. -/
def offPart (line : Bool) : Part := resetPart.setPower ⟨false, line, none⟩

theorem witness_RunResetsLeaveResetState :
    ((offPart false).power.supply = false ∧ (offPart false).power.resetLine = false) ∧
    (heldPart.power.supply = true ∧ heldPart.power.held = some .resetLine) ∧
    ((later 100).setWatch ⟨.timing, 0#32⟩).watch.state = .timing ∧
    100 ≤ ((later 100).time.now - 0#32).toNat ∧ resetPart.marker = true ∧
    (resetPart.setMarker false).marker = false := by decide

theorem witness_SuppliesAndResetLine :
    resetPart.running = true ∧ ((offPart true).power.supply = false ∧ (offPart true).power.resetLine = true) ∧
    resetPart.power.supply = true ∧ (scanning (.calibrating 0#32 []) resetPart).scan.mode.code = 3 ∧
    resetPart.scan.mode.code ≠ 3 := by decide

theorem witness_EmergencyLineRequestsSafeStop :
    let p := (resetPart.setCfg { resetPart.cfg with resetMask := 6#3 }).setLines ⟨false, true, false⟩
    (p.setWatch ⟨.armed, 0#32⟩).running = true ∧
    (p.lines.set .el2 true).bits &&& 6#3 = 6#3 ∧ (p.lines.set .el1 false).bits &&& 6#3 ≠ 6#3 ∧
    (p.setWatch ⟨.disarmed, 0#32⟩).watch.state = .disarmed ∧ (6#3 ≠ 0#3 ∧ resetPart.lines.bits &&& 6#3 ≠ 6#3) := by
  decide

theorem witness_IntegrationIsExact :
    0 < energyUnit ∧ resetPart.wear[7].acc + (resetPart.wear[7].residual + 360000) / energyUnit ≤ 4294967295 ∧
    (4294967295 < 4294967295 + (0 + energyUnit) / energyUnit ∧ lostWear[7].saturated = false ∧
      lostWear[7].notice = true) ∧
    ((settlingPart 0).running = true ∧ (settlingPart 0).account.settling.isSome = true) ∧
    ((settlingOf .drive false (readyPart .run)).working.link = .run ∧
      (settlingOf .drive false (readyPart .off)).working.link ≠ .run) ∧
    (resetPart.wear[0].unknown = some 0 ∧ resetPart.wear[8].unknown = some 0) := by
  decide

/-- Item 0 latched at stage 3, so that its level falls due: LIMIT from UNKNOWN; and item 8 with its unknown amount
removed: OK from UNKNOWN. -/
theorem witness_WearChangesHandedOn :
    let rises := resetPart.setWearItem 0 { resetPart.wear[0] with stage := 3 }
    let falls := resetPart.setWearItem 8 { resetPart.wear[8] with unknown := none }
    ((judgeItem 0 rises).wear[0].level = .limit ∧ levelRises rises.wear[0].level .limit) ∧
    ((judgeItem 8 falls).wear[8].level = .ok ∧ falls.wear[8].level = .unknown) ∧
    (judgeItem 8 resetPart).wear[8].level = resetPart.wear[8].level := by
  unfold levelRises
  decide +kernel

/-- A part that keeps a record, with an entry in its authority stack, in a quiet hold: it meets every
invariant. -/
def soundPart : Part :=
  let r := drivingInputs.record 1#32 false 0#32
  let p := (resetPart.setAccount { resetPart.account with
    current := some (r, drivingInputs.working (liningLevels resetPart) 0 0), history := [r], nextSeq := 2#32 }).setAuth
      ⟨⟨false, false, false, true, false, true⟩, [⟨.hold, 5⟩, ⟨.traction, 3⟩]⟩
  p.setHold ⟨.holdQuiet, 0#32, some 4, false, false, false⟩

theorem witness_StepKeepsAccountSound : accountSound soundPart := by
  unfold accountSound recordSound recordBalanced grantsApart
  refine ⟨by decide, fun s h => ?_, by decide, trivial, rfl, fun r h => ?_⟩
  · cases h
  · cases h
    rfl

theorem witness_StepKeepsStackSound : stackSound soundPart := by
  unfold stackSound levelsConfigured levelLegal
  exact ⟨by decide, by decide, ⟨by decide, trivial⟩, by decide⟩

theorem witness_StepKeepsHoldSound : holdSound soundPart := by
  refine ⟨by decide, ⟨fun r h => ?_, fun c h => ?_, fun st h => ?_, by decide⟩, by decide, by decide, by decide,
    by decide, by decide, by decide, by decide, by decide⟩
  · cases List.mem_singleton.mp h
    exact fun g => by cases g <;> contradiction
  · cases h
    exact fun g => by cases g <;> contradiction
  · cases h

theorem witness_StepKeepsWarningsSound : warningsSound soundPart := by
  unfold warningsSound
  decide +kernel

theorem witness_StepKeepsFactorsCurrent : factorsCurrent soundPart := by
  unfold factorsCurrent factorsFormed leastCap overriding liningLimited
  refine ⟨fun _ h => ?_, fun _ => ⟨?_, ?_, ?_, ?_, ?_, ?_⟩⟩
  · cases h
  all_goals decide +kernel

theorem witness_StepKeepsTransmittersSound : transmittersSound soundPart := by
  refine ⟨fun port => ?_, fun _ => rfl, fun _ => rfl⟩
  cases port <;> exact ⟨fun _ => rfl, by decide⟩

theorem witness_StepKeepsProgramsSound : programsSound soundPart := by
  unfold programsSound programWhole assemblySound programLegal
  refine ⟨fun slot => ⟨?_, fun program h => ?_⟩, fun port a h => ?_⟩
  · revert slot
    decide +kernel
  · have none : ∀ k : Fin 4, soundPart.slots[k].pending = none := by decide
    rw [none slot] at h
    cases h
  · cases port <;> cases h

theorem witness_steps_answer : ∃ t, step (alone soundPart) = .next t := ⟨_, rfl⟩

end Sys2Proof.Tests
end

