-- ==== Sys2Proof/Proofs/PowerAccount.lean ====
section
/-! SUPPORT. The power account: how stages 1, 4, 5, 6 and 7 of a settlement behave, one rule per quantity, and from
these rules the generator set-point's bounds (R8, R16) and the balance of the record (R14, R17, R18). -/

namespace Sys2Proof.Machine.SettleInputs

variable {i : SettleInputs}

/-! ### The generator's reach and set-point, case by case (R8, R16) -/

theorem dropped_iff : i.dropped = true ↔ i.dump = true ∨ i.base = some .safeStop := by
  simp [dropped]

theorem dropped_eq_false_iff : i.dropped = false ↔ i.dump = false ∧ i.base ≠ some .safeStop := by
  simp [dropped]

theorem unloaded_iff : i.unloaded = true ↔ i.aDem ≠ 0 ∨ i.link = .unloading := by
  simp [unloaded, episode]

theorem unloaded_eq_false_iff : i.unloaded = false ↔ i.aDem = 0 ∧ i.link ≠ .unloading := by
  simp [unloaded, episode]

theorem gLow_of_dropped (h : i.dropped = true) : i.gLow = 0 := if_pos h

theorem gReach_of_dropped (h : i.dropped = true) : i.gReach = 0 := if_pos h

theorem g_of_dropped (h : i.dropped = true) : i.g = 0 := if_pos h

theorem gLow_of_kept (h : i.dropped = false) : i.gLow = i.gPrev - i.items.genRamp := by
  simp [gLow, h]

theorem gReach_of_unloaded (h : i.dropped = false) (hu : i.unloaded = true) :
    i.gReach = min i.pGenEff i.gLow := by
  simp [gReach, h, hu]

theorem g_of_unloaded (h : i.dropped = false) (hu : i.unloaded = true) :
    i.g = min i.gReach (max 0 i.gLow) := by
  simp [g, h, hu]

theorem gReach_of_normal (h : i.dropped = false) (hu : i.unloaded = false) :
    i.gReach = min i.pGenEff (i.gPrev + i.items.genRamp) := by
  simp [gReach, h, hu]

theorem g_of_normal (h : i.dropped = false) (hu : i.unloaded = false) :
    i.g = min i.gReach (max i.target i.gLow) := by
  simp [g, h, hu]

/-- In the dropped and the unloaded case nothing is chosen: the set-point is the reach. -/
theorem g_eq_gReach (h : i.dropped = true ∨ i.unloaded = true) : i.g = i.gReach := by
  cases hd : i.dropped with
  | true => rw [g_of_dropped hd, gReach_of_dropped hd]
  | false =>
    have hu : i.unloaded = true := h.resolve_left (by simp [hd])
    rw [g_of_unloaded hd hu, gReach_of_unloaded hd hu]
    omega

/-! ### The bounds of the set-point -/

theorem gReach_le_pGenEff : i.gReach ≤ i.pGenEff := by
  unfold gReach
  split_ifs <;> omega

theorem gReach_le_ramp : i.gReach ≤ i.gPrev + i.items.genRamp := by
  cases hd : i.dropped with
  | true => simp [gReach_of_dropped hd]
  | false =>
    cases hu : i.unloaded with
    | true =>
      rw [gReach_of_unloaded hd hu, gLow_of_kept hd]
      omega
    | false =>
      rw [gReach_of_normal hd hu]
      exact min_le_right _ _

theorem g_le_gReach : i.g ≤ i.gReach := by
  unfold g
  split_ifs
  · exact Nat.zero_le _
  · exact min_le_left _ _
  · exact min_le_left _ _

theorem pGenEff_of_link (hr : i.link ≠ .run) (hu : i.link ≠ .unloading) : i.pGenEff = 0 := by
  simp [pGenEff, hr, hu]

theorem pGenEff_of_quietZone (h : i.quietZone = true) : i.pGenEff = 0 := by
  simp [pGenEff, h]

/-! ### The target of the normal case (R15, R16) -/

/-- The target before it is clamped (R16 steps 1 and 2). -/
def rawTarget (i : SettleInputs) : Int :=
  ((i.t + i.x : Nat) : Int) - ((i.pDisEff * i.weight / 1000 : Nat) : Int) +
    (if i.soc < i.socLow then (i.items.chgBias : Int) else 0)

theorem target_eq : i.target = clampInt i.pGenEff i.rawTarget := rfl

theorem coe_clampInt (high : Nat) (z : Int) : (clampInt high z : Int) = max 0 (min z high) := by
  unfold clampInt
  omega

/-- The weight is a share in thousandths (R15). -/
theorem weight_le : i.weight ≤ 1000 := by
  unfold weight
  split_ifs with hlow hhigh
  · omega
  · exact le_rfl
  · exact Nat.div_le_of_le_mul (Nat.mul_le_mul_right _ (by omega))

/-- The weighted battery share is at most P_dis_eff, so the target leaves the battery no more than that. -/
theorem le_rawTarget : ((i.t + i.x : Nat) : Int) - (i.pDisEff : Int) ≤ i.rawTarget := by
  have hshare : i.pDisEff * i.weight / 1000 ≤ i.pDisEff :=
    Nat.div_le_of_le_mul (by rw [Nat.mul_comm]; exact Nat.mul_le_mul_right _ weight_le)
  unfold rawTarget
  split_ifs <;> omega

/-- Either the generator gives all it can reach, or it leaves the battery no more than P_dis_eff (R16). In the normal
case a target clamped at P_gen_eff is not below the reach, and any other target covers the demand beyond P_dis_eff. -/
theorem g_eq_gReach_or_demand_le : i.g = i.gReach ∨ i.t + i.x ≤ i.pDisEff + i.g := by
  by_cases h : i.dropped = true ∨ i.unloaded = true
  · exact .inl (g_eq_gReach h)
  · obtain ⟨hd, hu⟩ := not_or.mp h
    have hg := g_of_normal (Bool.eq_false_of_not_eq_true hd) (Bool.eq_false_of_not_eq_true hu)
    have htarget := coe_clampInt i.pGenEff i.rawTarget
    rw [← target_eq] at htarget
    have hraw := le_rawTarget (i := i)
    have hreach := gReach_le_pGenEff (i := i)
    omega

/-! ### The traction grant and the regenerated power (R13, R14) -/

theorem t_of_regeneration (h : i.rg ≠ 0) : i.t = 0 := if_pos (Nat.pos_of_ne_zero h)

theorem t_le_pReq : i.t ≤ i.pReq := by
  unfold t
  split_ifs
  · exact Nat.zero_le _
  · exact min_le_left _ _

theorem t_le_available : i.t ≤ i.pDisEff + i.gReach - i.x := by
  unfold t available
  split_ifs <;> omega

theorem base_of_pReq_ne_zero (h : i.pReq ≠ 0) : i.base = some .traction ∨ i.base = some .limp := by
  by_contra hbase
  obtain ⟨htraction, hlimp⟩ := not_or.mp hbase
  exact h (by simp [pReq, htraction, hlimp])

theorem base_of_t_ne_zero (h : i.t ≠ 0) : i.base = some .traction ∨ i.base = some .limp :=
  base_of_pReq_ne_zero fun hreq => h (Nat.le_zero.mp (hreq ▸ t_le_pReq))

theorem base_of_rg_ne_zero (h : i.rg ≠ 0) : i.base = some .blend := by
  by_contra hbase
  have hreg : i.regApplied = 0 := by simp [regApplied, hbase]
  exact h (by simp [rg, hreg])

theorem t_eq_zero_or_rg_eq_zero : i.t = 0 ∨ i.rg = 0 :=
  or_iff_not_imp_right.mpr t_of_regeneration

/-! ### The balance (R17, R18) -/

theorem q_le_surplus : i.q ≤ i.surplus := by
  unfold q
  omega

/-- The law of R18. -/
theorem balanced : i.t + i.x + i.c + i.q = i.d + i.g + i.rg := by
  have hq := q_le_surplus (i := i)
  unfold c d
  unfold surplus at hq ⊢
  omega

/-- The net demand: sinks before the battery and the resistor, less sources before the battery (R17). -/
def net (i : SettleInputs) : Int := ((i.t + i.x : Nat) : Int) - ((i.g + i.rg : Nat) : Int)

theorem coe_d : (i.d : Int) = max 0 i.net := by
  unfold d net
  omega

theorem coe_surplus : (i.surplus : Int) = max 0 (-i.net) := by
  unfold surplus net
  omega

/-- A demand is served by the battery alone (R17). -/
theorem demand_served (h : 0 ≤ i.net) : (i.d : Int) = i.net ∧ i.c = 0 ∧ i.q = 0 := by
  have hd := coe_d (i := i)
  have hs := coe_surplus (i := i)
  have hq := q_le_surplus (i := i)
  refine ⟨by omega, ?_, by omega⟩
  unfold c
  omega

/-- A surplus is split: the resistor takes what the battery cannot, as far as it is available (R18). -/
theorem surplus_split (h : i.net < 0) :
    i.d = 0 ∧ (i.c : Int) = -i.net - (i.q : Int) ∧
      (i.q : Int) = if (i.pChgEff : Int) < -i.net then min (-i.net - (i.pChgEff : Int)) (i.qAvail : Int) else 0 := by
  have hd := coe_d (i := i)
  have hs := coe_surplus (i := i)
  have hq := q_le_surplus (i := i)
  refine ⟨by omega, ?_, ?_⟩
  · unfold c
    omega
  · unfold q
    split_ifs <;> omega

/-- T is granted only out of what the battery and the generator can give, so only an X beyond both overdraws the
battery (R17). -/
theorem uncoverable_of_overdraw (h : i.pDisEff < i.d) : i.pDisEff + i.gReach < i.x := by
  have hdemand : i.pDisEff + i.g + i.rg < i.t + i.x := by
    unfold d at h
    omega
  have hg : i.g = i.gReach := g_eq_gReach_or_demand_le.resolve_right (by omega)
  have ht := t_le_available (i := i)
  omega

end Sys2Proof.Machine.SettleInputs

namespace Sys2Proof.Machine

/-- An OVERCHARGE sets the DUMP request at the close (R18). -/
theorem closedAccount_dump_of_overcharge (tol : Nat) (st : Settling) (a : Account)
    (h : st.record.flags.overcharge = true) : (closedAccount tol st a).dump = true := by
  simp [closedAccount, dumpAfter, h]

open SettleInputs

/-- Settles O38: the traction grant, the demand, the surplus and the law of R18, each by its rule. -/
theorem settlementBalances : Obligations.SettlementBalances := by
  intro i seq senseHeld stamp r net
  have hoverdraw : r.flags.overdraw = true ↔ i.pDisEff < i.d := decide_eq_true_iff
  have hovercharge : r.flags.overcharge = true ↔ i.pChgEff < i.c := decide_eq_true_iff
  refine ⟨rfl, t_eq_zero_or_rg_eq_zero, base_of_t_ne_zero, base_of_rg_ne_zero, demand_served, hoverdraw,
    fun h => uncoverable_of_overdraw (hoverdraw.mp h), surplus_split, hovercharge, ?_, balanced, min_le_right _ _⟩
  intro tol st a hrecord hover
  exact closedAccount_dump_of_overcharge tol st a (hrecord ▸ hover)

/-- Settles O39: the three cases of the reach and the set-point, then the bounds. -/
theorem generatorSetPointBounded : Obligations.GeneratorSetPointBounded := by
  intro i
  refine ⟨fun h => ?dropped, fun hdump hbase => ?kept, gReach_le_ramp, g_le_gReach.trans gReach_le_pGenEff,
    g_le_gReach.trans gReach_le_ramp, pGenEff_of_link, pGenEff_of_quietZone, fun _ _ _ => rfl⟩
  case dropped =>
    have hd := dropped_iff.mpr h
    exact ⟨gReach_of_dropped hd, gLow_of_dropped hd, g_of_dropped hd⟩
  case kept =>
    have hd := dropped_eq_false_iff.mpr ⟨hdump, hbase⟩
    refine ⟨gLow_of_kept hd, fun h => ?unloaded, fun hdem hlink => ?normal⟩
    case unloaded =>
      have hu := unloaded_iff.mpr h
      exact ⟨gReach_of_unloaded hd hu, g_of_unloaded hd hu⟩
    case normal =>
      have hu := unloaded_eq_false_iff.mpr ⟨hdem, hlink⟩
      refine ⟨gReach_of_normal hd hu, i.rawTarget, rfl, ?_⟩
      rw [g_of_normal hd hu, target_eq, Nat.cast_min, Nat.cast_max, coe_clampInt]

end Sys2Proof.Machine
end

