-- ==== Sys2Proof/Proofs/TorqueAuthority.lean ====
section
/-! SUPPORT. The torque authority: which sources wait (R44), which of them can be the offer, and how the arbiter chooses
among these (R46). The choice is Mathlib's `List.argmax`, which also takes the first of equals; that the sources are
listed in index order makes the first of equals the one of the lower index. -/

namespace Sys2Proof.Machine

variable {src a b : Source} {p : Part}

/-! ### The sources that wait (R44) -/

theorem inStack_of_isTop {auth : Arbiter} (h : isTop src auth.stack = true) : inStack src auth = true := by
  obtain ⟨flags, stack⟩ := auth
  cases stack with
  | nil => cases h
  | cons e rest => exact List.any_eq_true.mpr ⟨e, List.mem_cons_self, h⟩

theorem sourceState_eq_pending_iff : sourceState src p = .pending ↔ pendingSource src p = true := by
  unfold sourceState pendingSource
  by_cases hstack : inStack src p.auth = true
  · split_ifs <;> simp [hstack]
  · have htop : ¬ isTop src p.auth.stack = true := mt inStack_of_isTop hstack
    simp [hstack, htop]

theorem partState_eq_ready_iff : p.partState = .ready ↔ p.partState ≠ .starting := by
  cases p.partState <;> decide

theorem offerable_iff : offerable src p = true ↔
    sourceState src p = .pending ∧ levelOf src p ≠ 0 ∧ (p.partState = .starting → src = .safeStop) := by
  simp [offerable, sourceState_eq_pending_iff, partState_eq_ready_iff, imp_iff_not_or, and_assoc]

/-! ### The sources in index order (R43) -/

theorem mem_allSources (src : Source) : src ∈ allSources := by
  cases src <;> decide

theorem allSources_pairwise_ctorIdx_lt : allSources.Pairwise (·.ctorIdx < ·.ctorIdx) := by
  decide

section
variable {α : Type} [DecidableEq α] {key : α → Nat} {l : List α} {x y : α}

theorem key_lt_of_idxOf_lt (hl : l.Pairwise (key · < key ·)) (hx : x ∈ l) (hy : y ∈ l)
    (h : l.idxOf x < l.idxOf y) : key x < key y := by
  simpa using List.pairwise_iff_getElem.mp hl _ _ (List.idxOf_lt_length_iff.mpr hx) (List.idxOf_lt_length_iff.mpr hy) h

/-- In a list in increasing order of a key, places compare as the keys do. -/
theorem idxOf_le_idxOf_iff_key_le (hl : l.Pairwise (key · < key ·)) (hx : x ∈ l) (hy : y ∈ l) :
    l.idxOf x ≤ l.idxOf y ↔ key x ≤ key y := by
  constructor
  · intro h
    obtain hlt | heq := h.lt_or_eq
    · exact (key_lt_of_idxOf_lt hl hx hy hlt).le
    · exact ((List.idxOf_inj hx).mp heq ▸ le_rfl)
  · exact fun h => le_of_not_gt fun hlt => (key_lt_of_idxOf_lt hl hy hx hlt).not_ge h

end

/-! ### The choice among them (R46) -/

theorem betterOffer_eq (best : Option Source) : betterOffer p best src =
    if offerable src p then List.argAux (fun b c => levelOf c p < levelOf b p) best src else best := by
  cases best <;> rfl

theorem offer_eq_argmax : offer p = (allSources.filter (offerable · p)).argmax (levelOf · p) := by
  rw [List.argmax, List.foldl_filter]
  exact congrArg (List.foldl · none allSources) (funext₂ fun best src => betterOffer_eq best)

theorem mem_offerableSources : src ∈ allSources.filter (offerable · p) ↔ offerable src p = true := by
  rw [List.mem_filter, and_iff_right (mem_allSources src)]

theorem idxOf_offerableSources_le_iff (ha : offerable a p = true) (hb : offerable b p = true) :
    (allSources.filter (offerable · p)).idxOf a ≤ (allSources.filter (offerable · p)).idxOf b ↔
      a.ctorIdx ≤ b.ctorIdx :=
  idxOf_le_idxOf_iff_key_le (allSources_pairwise_ctorIdx_lt.filter _)
    (mem_offerableSources.mpr ha) (mem_offerableSources.mpr hb)

/-- The offer, from what `List.argmax` chooses: no offerable source is stronger, and none as strong comes before it. -/
theorem offer_eq_some_iff : offer p = some src ↔ offerable src p = true ∧
    ∀ other, offerable other p = true →
      levelOf other p < levelOf src p ∨ (levelOf other p = levelOf src p ∧ src.ctorIdx ≤ other.ctorIdx) := by
  simp only [offer_eq_argmax, List.argmax_eq_some_iff, mem_offerableSources]
  refine and_congr_right fun hsrc => ⟨fun ⟨hmax, hfirst⟩ other hother => ?_, fun h => ⟨?_, ?_⟩⟩
  · refine (hmax other hother).lt_or_eq.imp_right fun heq => ⟨heq, ?_⟩
    exact (idxOf_offerableSources_le_iff hsrc hother).mp (hfirst other hother heq.ge)
  · exact fun other hother => (h other hother).elim le_of_lt (·.1.le)
  · intro other hother hle
    obtain hlt | ⟨-, hidx⟩ := h other hother
    · exact absurd hle hlt.not_ge
    · exact (idxOf_offerableSources_le_iff hsrc hother).mpr hidx

/-- Settles O35: the offer is the first strongest of the offerable sources, and `offerable_iff` says which these are. -/
theorem offerIsStrongestWaiting : Obligations.OfferIsStrongestWaiting := by
  intro src p
  simp only [offer_eq_some_iff, offerable_iff, and_imp, and_assoc]

end Sys2Proof.Machine
end

