-- ==== Sys2Proof/Proofs/LimitMonitors.lean ====
section
/-! SUPPORT. A limit monitor's judgement: the verdict (R153), the table (R154), and what an entry into TRIPPED or a
return hands on (R155). Under it stand the rules of the two receivers: how the derate unit takes another thermal set
(R127, R128) and forms its factors again (R133 to R136), and how the wear unit counts (R164 to R168). -/

namespace Sys2Proof.Machine

/-! ### The factors of the derate unit -/

section
variable {p q : Part}

theorem overrideInForce_iff : overrideInForce p = true ↔ overriding p := by
  simp [overrideInForce, overriding]

theorem liningAtLimit_iff : liningAtLimit p = true ↔ liningLimited p := by
  simp [liningAtLimit, liningLimited, or_assoc]

/-- A minimum of 1000 and three caps, each 1000 while its condition fails, is the least of the caps in force. -/
theorem min_of_caps_in_force {a b c : Prop} [Decidable a] [Decidable b] [Decidable c] {d x y z : Nat}
    (hd : d = min 1000 (min (if a then x else 1000) (min (if b then y else 1000) (if c then z else 1000)))) :
    d ≤ 1000 ∧ (a → d ≤ x) ∧ (b → d ≤ y) ∧ (c → d ≤ z) ∧ (d = 1000 ∨ (a ∧ d = x) ∨ (b ∧ d = y) ∨ (c ∧ d = z)) := by
  split_ifs at hd <;> simp only [*, true_imp_iff, false_imp_iff, true_and, false_and, or_false] <;> omega

theorem leastCap_formDTrac (p : Part) : leastCap p (formDTrac p) := by
  simp only [leastCap, ← overrideInForce_iff, ← liningAtLimit_iff]
  exact min_of_caps_in_force rfl

theorem formDRegen_of_overriding (h : overriding p) : formDRegen p = 1000 - 125 * p.derate.overrideCode :=
  if_pos (overrideInForce_iff.mpr h)

theorem formDRegen_of_not_overriding (h : ¬ overriding p) : formDRegen p = 1000 :=
  if_neg (mt overrideInForce_iff.mp h)

theorem formDBat_eq (p : Part) :
    formDBat p = if p.wear[7].level = .warn then 900 else if p.wear[7].level = .limit then 750 else 1000 := by
  unfold formDBat
  cases p.wear[7].level <;> rfl

theorem formK_eq (motor inverter : Level) :
    formK motor inverter = if motor = .limit ∨ inverter = .limit then 500 else 1000 := by
  simp [formK]

/-- The factors formed from a part are the ones R133 to R136 give it. -/
theorem factorsFormed_setDerate_formFactors (p : Part) :
    factorsFormed (p.setDerate { p.derate with factors := formFactors p }) :=
  ⟨leastCap_formDTrac p, formDRegen_of_overriding, formDRegen_of_not_overriding, formDBat_eq p, formK_eq ..,
    formK_eq ..⟩

theorem factorsFormed_setEventIf (c : Bool) (e : Event) :
    factorsFormed (setEventIf c e p) ↔ factorsFormed p := by
  cases c <;> exact Iff.rfl

theorem reformFactors_derate (p : Part) : (reformFactors p).derate = { p.derate with factors := formFactors p } :=
  (setEventIf_frame ..).same .derate (by decide)

/-- Forming the factors again, after an operation that left them and the ports alone (R124, R133). -/
theorem factorsReformed_reformFactors (hfactors : q.derate.factors = p.derate.factors) (hports : q.ports = p.ports) :
    factorsReformed p (reformFactors q) := by
  have hport : (q.port .pd) = p.port .pd := congrArg (·.port.get .pd) hports
  refine ⟨(factorsFormed_setEventIf ..).mpr (factorsFormed_setDerate_formFactors q), fun hchanged => ?set,
    fun hsame hevent => ?kept⟩
  case set =>
    rw [reformFactors_derate, ← hfactors] at hchanged
    rw [reformFactors, decide_eq_true hchanged]
    exact hasEvent_setEvent _ _ (by decide)
  case kept =>
    rw [reformFactors_derate, ← hfactors] at hsame
    rw [reformFactors, decide_eq_false (not_not_intro hsame)] at hevent
    rwa [hasEvent, ← hport]

/-! ### The thermal set -/

variable {set : BitVec 8}

theorem setThermalSet_of_rise (hbefore : p.derate.thermalSet = 0#8) (hset : set ≠ 0#8) :
    setThermalSet set p = reformFactors (thermalRises (p.setDerate { p.derate with thermalSet := set })) := by
  simp [setThermalSet, hbefore, hset]

theorem setThermalSet_of_emptying (hbefore : p.derate.thermalSet ≠ 0#8) (hset : set = 0#8) :
    setThermalSet set p = reformFactors (thermalEmpties (p.setDerate { p.derate with thermalSet := set })) := by
  simp [setThermalSet, hbefore, hset]

theorem setThermalSet_of_neither (h : p.derate.thermalSet = 0#8 ↔ set = 0#8) :
    setThermalSet set p = reformFactors (p.setDerate { p.derate with thermalSet := set }) := by
  simp [setThermalSet, h]

theorem thermalRises_factors (p : Part) : (thermalRises p).derate.factors = p.derate.factors := by
  unfold thermalRises
  split <;> rfl

theorem thermalEmpties_factors (p : Part) : (thermalEmpties p).derate.factors = p.derate.factors := by
  unfold thermalEmpties
  split <;> rfl

theorem thermalSetBecomes_of_rise (hbefore : p.derate.thermalSet = 0#8) (hset : set ≠ 0#8) :
    thermalSetBecomes set p (setThermalSet set p) := by
  rw [setThermalSet_of_rise hbefore hset]
  have hfactors :
      factorsReformed p (reformFactors (thermalRises (p.setDerate { p.derate with thermalSet := set }))) :=
    factorsReformed_reformFactors (thermalRises_factors _) ((thermalRises_frame _).same .ports (by decide))
  cases hstate : p.derate.thermal <;>
    simpa [thermalSetBecomes, reformFactors_derate, thermalRises, hstate, hbefore, hset, Part.now] using hfactors

theorem thermalSetBecomes_of_emptying (hbefore : p.derate.thermalSet ≠ 0#8) (hset : set = 0#8) :
    thermalSetBecomes set p (setThermalSet set p) := by
  rw [setThermalSet_of_emptying hbefore hset]
  have hfactors :
      factorsReformed p (reformFactors (thermalEmpties (p.setDerate { p.derate with thermalSet := set }))) :=
    factorsReformed_reformFactors (thermalEmpties_factors _) ((thermalEmpties_frame _).same .ports (by decide))
  cases hstate : p.derate.thermal <;>
    simpa [thermalSetBecomes, reformFactors_derate, thermalEmpties, hstate, hbefore, hset, Part.now] using hfactors

theorem thermalSetBecomes_of_neither (h : p.derate.thermalSet = 0#8 ↔ set = 0#8) :
    thermalSetBecomes set p (setThermalSet set p) := by
  rw [setThermalSet_of_neither h]
  simp only [thermalSetBecomes, reformFactors_derate]
  exact ⟨rfl, fun hbefore hset => absurd (h.mp hbefore) hset, fun hbefore hset => absurd (h.mpr hset) hbefore,
    fun _ => ⟨rfl, rfl⟩, factorsReformed_reformFactors rfl rfl⟩

/-- The unit takes another thermal set: R128 tells a rise from empty, an emptying and a change between two sets that
are both empty or both not. -/
theorem thermalSetBecomes_setThermalSet (set : BitVec 8) (p : Part) :
    thermalSetBecomes set p (setThermalSet set p) := by
  by_cases hbefore : p.derate.thermalSet = 0#8 <;> by_cases hset : set = 0#8
  · exact thermalSetBecomes_of_neither (iff_of_true hbefore hset)
  · exact thermalSetBecomes_of_rise hbefore hset
  · exact thermalSetBecomes_of_emptying hbefore hset
  · exact thermalSetBecomes_of_neither (iff_of_false hbefore hset)

end

/-! ### One item of the wear table -/

section
variable {i other : WearNo} {k : Nat} {p : Part} {it : WearItem}

theorem setWearItem_wear_self : (p.setWearItem i it).wear[i] = it := by
  simp [Part.setWearItem]

theorem setWearItem_wear_other (h : other ≠ i) : (p.setWearItem i it).wear[other] = p.wear[other] := by
  simp [Part.setWearItem, Vector.getElem_set_ne, Fin.val_ne_of_ne h.symm]

theorem addUnits_wear : (addUnits i k p).wear = (p.setWearItem i (raisedItem k p.wear[i])).wear :=
  (setEventIf_frame ..).same .wear (by decide)

theorem judgeItem_wear : (judgeItem i p).wear = (p.setWearItem i (judgedItem i p.now p.wear[i])).wear := by
  unfold judgeItem
  dsimp only
  split
  · rfl
  · exact (handOnLevel_frame ..).same .wear (by decide)

theorem addUnits_wear_self : (addUnits i k p).wear[i] = raisedItem k p.wear[i] := by
  rw [addUnits_wear, setWearItem_wear_self]

theorem judgeItem_wear_self : (judgeItem i p).wear[i] = judgedItem i p.now p.wear[i] := by
  rw [judgeItem_wear, setWearItem_wear_self]

theorem countOne_wear_other (h : other ≠ i) : (countOne i p).wear[other] = p.wear[other] := by
  rw [countOne, judgeItem_wear, setWearItem_wear_other h, addUnits_wear, setWearItem_wear_other h]

/-! ### The level an item gets (R166) -/

theorem thresholdLevel_eq (it : WearItem) : thresholdLevel it =
    if it.unknown.isSome then .unknown
    else if it.limit ≠ 0 ∧ it.limit ≤ it.acc then .limit
    else if it.warn ≠ 0 ∧ it.warn ≤ it.acc then .warn
    else .ok := by
  simp [thresholdLevel]

theorem sensorLevel_eq (stage : Nat) :
    sensorLevel stage = if stage ≤ 1 then .ok else if stage = 2 then .warn else .limit := by
  match stage with
  | 0 | 1 | 2 => rfl
  | n + 3 => simp [sensorLevel]

theorem sensorLevel_ne_unknown (stage : Nat) : sensorLevel stage ≠ .unknown := by
  rw [sensorLevel_eq]
  split_ifs <;> decide

/-- The higher of a threshold level and a sensor level, in the order OK, UNKNOWN, WARN, LIMIT. -/
theorem higherLevel_eq {threshold sensor : Level} (h : sensor ≠ .unknown) : higherLevel threshold sensor =
    if threshold = .limit ∨ sensor = .limit then .limit
    else if threshold = .warn ∨ sensor = .warn then .warn else threshold := by
  cases sensor with
  | unknown => exact absurd rfl h
  | ok | warn | limit => cases threshold <;> rfl

theorem formedLevel_of_lining (h : i.val ≤ 2) :
    formedLevel i it = higherLevel (thresholdLevel it) (sensorLevel it.stage) := by
  simp [formedLevel, isLining, h]

theorem formedLevel_of_threshold (hlow : 3 ≤ i.val) (hhigh : i.val ≤ 10) : formedLevel i it = thresholdLevel it := by
  have hlining : ¬ i.val ≤ 2 := by omega
  have hstatistic : i.val ≠ 11 := by omega
  simp [formedLevel, isLining, hasLevel, hlining, hstatistic]

theorem formedDisagree_of_lining (h : i.val ≤ 2) : formedDisagree i it = true ↔
    (thresholdLevel it = .ok ∧ sensorLevel it.stage = .limit) ∨
      (thresholdLevel it = .limit ∧ sensorLevel it.stage = .ok) := by
  simp [formedDisagree, isLining, h]

/-- The judged record is formed: R166 reads none of the fields that the judgement writes. -/
theorem levelFormed_judgedItem (now : Stamp) : levelFormed i (judgedItem i now it) := by
  refine ⟨fun hlow hhigh => ?threshold, fun hlining => ⟨?level, ?disagree⟩⟩
  case threshold => exact (formedLevel_of_threshold hlow hhigh).trans (thresholdLevel_eq it)
  case level =>
    have hlevel := (formedLevel_of_lining hlining).trans (higherLevel_eq (sensorLevel_ne_unknown it.stage))
    rwa [thresholdLevel_eq, sensorLevel_eq] at hlevel
  case disagree =>
    have hdisagree := formedDisagree_of_lining (it := it) hlining
    rwa [thresholdLevel_eq, sensorLevel_eq] at hdisagree

/-! ### A level handed on (R168, R173) -/

theorem appendsWarning_iff {old new : Level} : appendsWarning old new = true ↔ levelRises old new := by
  unfold levelRises
  cases old <;> cases new <;> decide

theorem mem_updateWarnings_of_rise {old new : Level} {stamp : Stamp} {l : List Warning} (h : levelRises old new) :
    ⟨i, new, stamp, false⟩ ∈ updateWarnings i old new stamp l := by
  have happends := appendsWarning_iff.mpr h
  simp only [appendsWarning, Bool.and_eq_true, decide_eq_true_eq] at happends
  obtain ⟨hnew, hrank⟩ := happends
  simp [updateWarnings, hnew, hrank]

theorem item_ne_of_mem_updateWarnings_ok {old : Level} {stamp : Stamp} {l : List Warning} {w : Warning}
    (h : w ∈ updateWarnings i old .ok stamp l) : w.item ≠ i := by
  exact of_decide_eq_true (List.mem_filter.mp h).2

theorem hasEvent_setEventIf {c : Bool} {e : Event} {port : Port} (hc : c = true) (hon : e.on port = true) :
    hasEvent e port (setEventIf c e p) := by
  rw [setEventIf, if_pos hc]
  exact hasEvent_setEvent e p hon

/-- The part once a change of level is in the warning list and the two ports are told, before the derate unit is. -/
def portsToldOfLevel (i : WearNo) (old new : Level) (p : Part) : Part :=
  setEventIf (isLining i && new = .limit) .liningLimit
    (setEventIf (appendsWarning old new) .warningNew (p.setWarnings (updateWarnings i old new p.now p.warnings)))

theorem handOnLevel_eq (i : WearNo) (old new : Level) (p : Part) : handOnLevel i old new p =
    if i.val ≤ 7 then reformFactors (portsToldOfLevel i old new p) else portsToldOfLevel i old new p := rfl

theorem portsToldOfLevel_frame (i : WearNo) (old new : Level) (p : Part) :
    changesOnly [.ports] (p.setWarnings (updateWarnings i old new p.now p.warnings))
      (portsToldOfLevel i old new p) :=
  (setEventIf_frame ..).seq (setEventIf_frame ..)

theorem handOnLevel_frame_of_portsTold (i : WearNo) (old new : Level) (p : Part) :
    changesOnly [.derate, .ports] (portsToldOfLevel i old new p) (handOnLevel i old new p) :=
  handOnLevel_eq i old new p ▸ .ite (reformFactors_frame _) (.refl ..)

theorem handOnLevel_gains_of_portsTold (i : WearNo) (old new : Level) (p : Part) :
    portsOnlyGainEvents (portsToldOfLevel i old new p) (handOnLevel i old new p) :=
  handOnLevel_eq i old new p ▸ .ite (reformFactors_gains _) (.refl _)

theorem handOnLevel_warnings (i : WearNo) (old new : Level) (p : Part) :
    (handOnLevel i old new p).warnings = updateWarnings i old new p.now p.warnings :=
  ((handOnLevel_frame_of_portsTold i old new p).same .warnings (by decide)).trans
    ((portsToldOfLevel_frame i old new p).same .warnings (by decide))

theorem hasEvent_warningNew_handOnLevel {old new : Level} {port : Port} (h : levelRises old new)
    (hon : Event.warningNew.on port = true) : hasEvent .warningNew port (handOnLevel i old new p) :=
  (hasEvent_setEventIf (appendsWarning_iff.mpr h) hon).of_gains
    ((setEventIf_gains ..).trans (handOnLevel_gains_of_portsTold i old new p))

theorem hasEvent_liningLimit_handOnLevel {old : Level} (h : i.val ≤ 2) :
    hasEvent .liningLimit .pb (handOnLevel i old .limit p) :=
  (hasEvent_setEventIf (by simp [isLining, h]) (by decide)).of_gains (handOnLevel_gains_of_portsTold i old .limit p)

/-- The derate unit reads the levels of items 0 to 7 alone (R168). -/
theorem handOnLevel_derate_of_gt {old new : Level} (h : 7 < i.val) : (handOnLevel i old new p).derate = p.derate := by
  rw [handOnLevel_eq, if_neg h.not_ge]
  exact (portsToldOfLevel_frame i old new p).same .derate (by decide)

/-! ### An item judged (R166, R168) and counted (R164 to R167) -/

theorem judgeItem_of_same (h : formedLevel i p.wear[i] = p.wear[i].level) :
    judgeItem i p = p.setWearItem i (judgedItem i p.now p.wear[i]) := if_pos h

theorem judgeItem_of_change (h : formedLevel i p.wear[i] ≠ p.wear[i].level) :
    judgeItem i p = handOnLevel i p.wear[i].level (formedLevel i p.wear[i])
      (p.setWearItem i (judgedItem i p.now p.wear[i])) := if_neg h

theorem levelFormed_judgeItem (i : WearNo) (p : Part) : levelFormed i (judgeItem i p).wear[i] :=
  judgeItem_wear_self ▸ levelFormed_judgedItem p.now

theorem levelHandedOn_judgeItem (i : WearNo) (p : Part) : levelHandedOn i p (judgeItem i p) := by
  have hwear : (judgeItem i p).wear[i] = judgedItem i p.now p.wear[i] := judgeItem_wear_self
  simp only [levelHandedOn, hwear]
  refine ⟨fun hsame => if_pos hsame, fun hchange => if_neg hchange, fun hrise => ?rise, fun hchange hok => ?ok,
    fun hlining hchange hlimit => ?limit⟩
  case rise =>
    rw [judgeItem_of_change hrise.1]
    refine ⟨?_, hasEvent_warningNew_handOnLevel hrise (by decide), hasEvent_warningNew_handOnLevel hrise (by decide)⟩
    rw [handOnLevel_warnings]
    exact mem_updateWarnings_of_rise hrise
  case ok =>
    rw [judgeItem_of_change hchange, handOnLevel_warnings, show formedLevel i p.wear[i] = .ok from hok]
    exact fun w => item_ne_of_mem_updateWarnings_ok
  case limit =>
    rw [judgeItem_of_change hchange, show formedLevel i p.wear[i] = .limit from hlimit]
    exact hasEvent_liningLimit_handOnLevel hlining

theorem judgeItem_derate_of_gt (h : 7 < i.val) : (judgeItem i p).derate = p.derate := by
  by_cases hlevel : formedLevel i p.wear[i] = p.wear[i].level
  · rw [judgeItem_of_same hlevel]; rfl
  · rw [judgeItem_of_change hlevel, handOnLevel_derate_of_gt h]; rfl

theorem countOne_derate_of_gt (h : 7 < i.val) : (countOne i p).derate = p.derate :=
  (judgeItem_derate_of_gt h).trans ((addUnits_frame i 1 p).same .derate (by decide))

theorem unitsAdded_countOne (i : WearNo) (p : Part) : unitsAdded i 1 p (countOne i p) := by
  have hwear : (countOne i p).wear[i] = judgedItem i (addUnits i 1 p).now (raisedItem 1 p.wear[i]) := by
    rw [countOne, judgeItem_wear_self, addUnits_wear_self]
  simp only [unitsAdded, hwear]
  refine ⟨rfl, rfl, ?saturated, fun hover hclear hnotice => ?event, rfl, rfl, rfl, rfl⟩
  case saturated => simp [judgedItem, raisedItem, Config.wearTop]
  case event =>
    refine (hasEvent_setEventIf ?_ (by decide)).of_gains (judgeItem_gains i (addUnits i 1 p))
    simp only [hclear, hnotice, Bool.not_false, Bool.and_true]
    exact decide_eq_true hover

/-- The judgement hands on what it finds after the count; the count itself moved no level and no stamp. -/
theorem levelHandedOn_countOne (i : WearNo) (p : Part) : levelHandedOn i p (countOne i p) := by
  have htime : (addUnits i 1 p).time = p.time := (addUnits_frame i 1 p).same .time (by decide)
  have hwear : (addUnits i 1 p).wear[i] = raisedItem 1 p.wear[i] := addUnits_wear_self
  have h := levelHandedOn_judgeItem i (addUnits i 1 p)
  simp only [levelHandedOn, htime, hwear] at h
  exact h

theorem countedOnce_countOne (i : WearNo) (p : Part) : countedOnce i p (countOne i p) := by
  refine ⟨unitsAdded_countOne i p, ?residual, levelFormed_judgeItem i _, levelHandedOn_countOne i p⟩
  rw [countOne, judgeItem_wear_self, addUnits_wear_self]
  rfl

end

/-! ### The verdict (R153) -/

/-- Some valid result of the scope lies outside the window. -/
def readsOutside (c : MonitorCfg) (p : Part) : Prop :=
  ∃ d ∈ scopeChannels c.scope, p.scan.results[d].valid = true ∧
    (p.scan.results[d].value < c.low ∨ c.high < p.scan.results[d].value)

/-- Every valid result of the scope lies in the narrowed window. -/
def readsDeep (c : MonitorCfg) (p : Part) : Prop :=
  ∀ d ∈ scopeChannels c.scope, p.scan.results[d].valid = true →
    c.low + c.hysteresis ≤ p.scan.results[d].value ∧ p.scan.results[d].value ≤ c.high - c.hysteresis

section
variable {c : MonitorCfg} {p : Part}

theorem readsOutside_iff : readsOutside c p ↔ ∃ v ∈ judgedValues p c.scope, v < c.low ∨ c.high < v := by
  simp [readsOutside, judgedValues, and_assoc]

theorem readsDeep_iff : readsDeep c p ↔
    ∀ v ∈ judgedValues p c.scope, c.low + c.hysteresis ≤ v ∧ v ≤ c.high - c.hysteresis := by
  rw [judgedValues, List.forall_mem_map]
  simp [readsDeep]

theorem verdict_eq_outside_iff : verdict c (judgedValues p c.scope) = .outside ↔ readsOutside c p := by
  rw [readsOutside_iff]
  unfold verdict
  split_ifs <;> simp_all

theorem verdict_eq_deepInside_iff :
    verdict c (judgedValues p c.scope) = .deepInside ↔ ¬ readsOutside c p ∧ readsDeep c p := by
  rw [readsOutside_iff, readsDeep_iff]
  unfold verdict
  split_ifs <;> simp_all

end

/-! ### The table of R154, by the monitor's state -/

section
variable {m : Monitor} {persistence : Nat} {v : Verdict} {stamp : Stamp}

theorem monitorNext_of_inside (h : m.state = .inside) : monitorNext persistence v stamp m =
    if v = .outside then (if persistence = 1 then tripMonitor stamp m else { m with state := .counting, count := 1 })
    else m := by
  cases v <;> simp [monitorNext, h]

theorem monitorNext_of_counting (h : m.state = .counting) : monitorNext persistence v stamp m =
    if v = .outside then (if persistence ≤ m.count + 1 then tripMonitor stamp m else { m with count := m.count + 1 })
    else { m with state := .inside, count := 0 } := by
  cases v <;> simp [monitorNext, h]

theorem monitorNext_of_tripped (h : m.state = .tripped) : monitorNext persistence v stamp m =
    if v = .deepInside then
      (if persistence ≤ m.count + 1 then { m with state := .inside, count := 0 } else { m with count := m.count + 1 })
    else { m with count := 0 } := by
  cases v <;> simp [monitorNext, h]

end

/-! ### The receivers of R155: what they take, and what they leave alone -/

section
variable {k other : MonitorNo} {a : MonitorAction} {m : Monitor} {p : Part}

theorem setMonitor_monitors_self : (p.setMonitor k m).scan.monitors[k] = m := by
  simp [Part.setMonitor]

theorem setMonitor_monitors_other (h : other ≠ k) :
    (p.setMonitor k m).scan.monitors[other] = p.scan.monitors[other] := by
  simp [Part.setMonitor, Vector.getElem_set_ne, Fin.val_ne_of_ne h.symm]

/-- The derate unit reads no monitor, so it takes a thermal set alike before and after a judgement. -/
theorem thermalSetBecomes_of_setMonitor {set : BitVec 8} {q : Part} (h : thermalSetBecomes set (p.setMonitor k m) q) :
    thermalSetBecomes set p q := h

theorem handTrip_thermalOverride (k : MonitorNo) (p : Part) :
    handTrip k .thermalOverride p = setThermalSet (thermalSetWith k p) p := rfl

theorem handReturn_thermalOverride (k : MonitorNo) (p : Part) :
    handReturn k .thermalOverride p = setThermalSet (thermalSetWithout k p) p := rfl

theorem thermalSetBecomes_handTrip (k : MonitorNo) (m : Monitor) (p : Part) :
    thermalSetBecomes (thermalSetWith k p) p (handTrip k .thermalOverride (p.setMonitor k m)) := by
  rw [handTrip_thermalOverride]
  exact thermalSetBecomes_of_setMonitor (thermalSetBecomes_setThermalSet _ _)

theorem thermalSetBecomes_handReturn (k : MonitorNo) (m : Monitor) (p : Part) :
    thermalSetBecomes (thermalSetWithout k p) p (handReturn k .thermalOverride (p.setMonitor k m)) := by
  rw [handReturn_thermalOverride]
  exact thermalSetBecomes_of_setMonitor (thermalSetBecomes_setThermalSet _ _)

theorem countedOnce_handTrip (k : MonitorNo) (m : Monitor) (p : Part) :
    countedOnce 10 p (handTrip k .discHot (p.setMonitor k m)) :=
  countedOnce_countOne 10 (p.setMonitor k m)

theorem handTrip_derate (h : a ≠ .thermalOverride) : (handTrip k a p).derate = p.derate := by
  cases a with
  | thermalOverride => exact absurd rfl h
  | discHot => exact countOne_derate_of_gt (by decide)
  | resistorInhibit | statusOnly => rfl

theorem handTrip_frame_of_ne_discHot (h : a ≠ .discHot) : changesOnly [.derate, .ports] p (handTrip k a p) := by
  cases a with
  | thermalOverride => exact joinThermal_frame k p
  | discHot => exact absurd rfl h
  | resistorInhibit | statusOnly => exact .refl _ p

theorem handReturn_of_ne_thermalOverride (h : a ≠ .thermalOverride) : handReturn k a p = p := by
  cases a with
  | thermalOverride => exact absurd rfl h
  | discHot | resistorInhibit | statusOnly => rfl

end

/-! ### A judgement, its entry and its return (R154, R155) -/

/-- The monitor as a judgement at a new result of the channel leaves it. -/
def judgedMonitor (ch : Channel) (k : MonitorNo) (p : Part) : Monitor :=
  let c := p.cfg.monitors[k]
  monitorNext c.persistence (verdict c (judgedValues p c.scope)) p.scan.results[ch].stamp p.scan.monitors[k]

/-- The judgement takes the monitor into TRIPPED. -/
def entersTripped (ch : Channel) (k : MonitorNo) (p : Part) : Prop :=
  p.scan.monitors[k].state ≠ .tripped ∧ (judgedMonitor ch k p).state = .tripped

/-- The judgement takes the monitor out of TRIPPED. -/
def returnsInside (ch : Channel) (k : MonitorNo) (p : Part) : Prop :=
  p.scan.monitors[k].state = .tripped ∧ (judgedMonitor ch k p).state ≠ .tripped

section
variable {ch : Channel} {k : MonitorNo} {p : Part} (hmem : ch ∈ scopeChannels p.cfg.monitors[k].scope)
include hmem

theorem judgeMonitor_eq : judgeMonitor ch k p =
    let action := p.cfg.monitors[k].action
    let before := p.scan.monitors[k]
    let after := judgedMonitor ch k p
    if before.state ≠ .tripped ∧ after.state = .tripped then handTrip k action (p.setMonitor k after)
    else if before.state = .tripped ∧ after.state ≠ .tripped then handReturn k action (p.setMonitor k after)
    else p.setMonitor k after := by
  simp only [judgeMonitor, if_pos hmem, Bool.and_eq_true, decide_eq_true_eq]
  rfl

theorem judgeMonitor_of_entersTripped (h : entersTripped ch k p) :
    judgeMonitor ch k p = handTrip k p.cfg.monitors[k].action (p.setMonitor k (judgedMonitor ch k p)) :=
  (judgeMonitor_eq hmem).trans (if_pos h)

theorem judgeMonitor_of_returnsInside (h : returnsInside ch k p) :
    judgeMonitor ch k p = handReturn k p.cfg.monitors[k].action (p.setMonitor k (judgedMonitor ch k p)) :=
  (judgeMonitor_eq hmem).trans ((if_neg fun hentry => hentry.1 h.1).trans (if_pos h))

theorem judgeMonitor_of_neither (hentry : ¬ entersTripped ch k p) (hreturn : ¬ returnsInside ch k p) :
    judgeMonitor ch k p = p.setMonitor k (judgedMonitor ch k p) :=
  (judgeMonitor_eq hmem).trans ((if_neg hentry).trans (if_neg hreturn))

/-- What is handed on keeps off the scanner, so the scanner is as the judgement of the one monitor left it. -/
theorem judgeMonitor_scan :
    (judgeMonitor ch k p).scan = (p.setMonitor k (judgedMonitor ch k p)).scan := by
  rw [judgeMonitor_eq hmem]
  dsimp only
  split_ifs
  · exact (handTrip_frame ..).same .scan (by decide)
  · exact (handReturn_frame ..).same .scan (by decide)
  · rfl

theorem judgeMonitor_derate
    (h : ¬ (entersTripped ch k p ∨ returnsInside ch k p) ∨ p.cfg.monitors[k].action ≠ .thermalOverride) :
    (judgeMonitor ch k p).derate = p.derate := by
  obtain hneither | haction := h
  · obtain ⟨hentry, hreturn⟩ := not_or.mp hneither
    rw [judgeMonitor_of_neither hmem hentry hreturn]
    rfl
  · rw [judgeMonitor_eq hmem]
    dsimp only
    split_ifs
    · exact handTrip_derate haction
    · rw [handReturn_of_ne_thermalOverride haction]; rfl
    · rfl

theorem judgeMonitor_frame_of_no_episode
    (h : ¬ entersTripped ch k p ∨ p.cfg.monitors[k].action ≠ .discHot) :
    changesOnly [.scan, .derate, .ports] p (judgeMonitor ch k p) := by
  rw [judgeMonitor_eq hmem]
  dsimp only
  split_ifs with hentry
  · have haction : p.cfg.monitors[k].action ≠ .discHot := h.resolve_left (not_not_intro hentry)
    exact (setMonitor_frame ..).trans (handTrip_frame_of_ne_discHot haction)
  · exact (setMonitor_frame ..).trans (handReturn_frame ..)
  · exact (setMonitor_frame ..).mono

end

/-- Settles O29: the table by the monitor's state, then what an entry or a return hands on. -/
theorem monitorJudges : Obligations.MonitorJudges := by
  intro ch k p c m q next enters returns outside deep tripped hmem
  have hscan : q.scan = (p.setMonitor k (judgedMonitor ch k p)).scan := judgeMonitor_scan hmem
  have hnext : next = judgedMonitor ch k p := by
    simp only [next, hscan]
    exact setMonitor_monitors_self
  have houtside : verdict c (judgedValues p c.scope) = .outside ↔ outside := verdict_eq_outside_iff
  have hdeep : verdict c (judgedValues p c.scope) = .deepInside ↔ ¬ outside ∧ deep := verdict_eq_deepInside_iff
  have hinside (h : m.state = .inside) : judgedMonitor ch k p = _ := monitorNext_of_inside h
  have hcounting (h : m.state = .counting) : judgedMonitor ch k p = _ := monitorNext_of_counting h
  have htripped (h : m.state = .tripped) : judgedMonitor ch k p = _ := monitorNext_of_tripped h
  simp only [enters, returns, hnext]
  refine ⟨fun h ho => (hinside h).trans (if_pos (houtside.mpr ho)),
    fun h ho => (hinside h).trans (if_neg (mt houtside.mp ho)),
    fun h ho => (hcounting h).trans (if_pos (houtside.mpr ho)),
    fun h ho => (hcounting h).trans (if_neg (mt houtside.mp ho)),
    fun h ho hd => (htripped h).trans (if_pos (hdeep.mpr ⟨ho, hd⟩)),
    fun h hod => (htripped h).trans (if_neg fun hv => hod.elim (hdeep.mp hv).1 (· (hdeep.mp hv).2)),
    fun other hother => ?others, ?results, fun hentry haction => ?joins, fun hreturn haction => ?leaves,
    judgeMonitor_derate hmem, fun hentry haction => ?counts, fun h => ?uncounted, judgeMonitor_frame ch k p⟩
  case others =>
    rw [hscan]
    exact setMonitor_monitors_other hother
  case results =>
    rw [hscan]
    rfl
  case joins =>
    simp only [q, judgeMonitor_of_entersTripped hmem hentry, show p.cfg.monitors[k].action = _ from haction]
    exact thermalSetBecomes_handTrip k _ p
  case leaves =>
    simp only [q, judgeMonitor_of_returnsInside hmem hreturn, show p.cfg.monitors[k].action = _ from haction]
    exact thermalSetBecomes_handReturn k _ p
  case counts =>
    simp only [q, judgeMonitor_of_entersTripped hmem hentry, show p.cfg.monitors[k].action = _ from haction]
    exact ⟨countedOnce_handTrip k _ p, fun other => countOne_wear_other⟩
  case uncounted =>
    have hframe := judgeMonitor_frame_of_no_episode hmem h
    exact ⟨hframe.same .wear (by decide), hframe.same .warnings (by decide)⟩

end Sys2Proof.Machine
end

