-- ==== Sys2Proof/Proofs/StatusEvents.lean ====
section
/-! SUPPORT. The status events of a port: event sets as masks, bit by bit (R187, R194), the attention line (R189), and
what CLEAR_STATUS answers (R190). -/

namespace Sys2Proof.Machine

/-! ### Event sets, bit by bit -/

section
variable {w : Nat} {x y : BitVec w}

theorem and_ne_zero_iff_exists_getLsbD :
    x &&& y ≠ 0#w ↔ ∃ k, k < w ∧ x.getLsbD k = true ∧ y.getLsbD k = true := by
  simp [BitVec.eq_of_getLsbD_eq_iff]

theorem and_eq_left_of_and_not_eq_zero (h : x &&& ~~~y = 0#w) : x &&& y = x := by
  calc x &&& y = x &&& y ||| x &&& ~~~y := by rw [h, BitVec.or_zero]
    _ = x := by
      ext k
      simp [← Bool.and_or_distrib_left]

end

section
variable {e : Event} {m : BitVec 16} {port : Port}

theorem Event.number_lt (e : Event) : e.number < 16 := by
  cases e <;> decide

theorem and_mask_ne_zero_iff : m &&& e.mask ≠ 0#16 ↔ m.getLsbD e.number = true := by
  have hmask : e.mask = BitVec.twoPow 16 e.number := rfl
  have hset : e.mask ≠ 0#16 := by cases e <;> decide
  rw [hmask] at hset ⊢
  simp [BitVec.and_twoPow, hset]

/-- Bit 15, which stands for no event, is all that a received mask loses (R194). -/
theorem getLsbD_eventMaskOf_number : (eventMaskOf m).getLsbD e.number = m.getLsbD e.number := by
  have hkept : (0x7FFF#16).getLsbD e.number = true := by cases e <;> decide
  rw [eventMaskOf, BitVec.getLsbD_and, hkept, Bool.and_true]

theorem eventMaskOf_eventsOf (port : Port) : eventMaskOf (eventsOf port) = eventsOf port := by
  cases port <;> rfl

/-- A mask that names only events of a port has no unused bit to ignore. -/
theorem eventMaskOf_of_owned (h : m &&& ~~~eventsOf port = 0#16) : eventMaskOf m = m := by
  have hsub : m &&& eventsOf port = m := and_eq_left_of_and_not_eq_zero h
  calc eventMaskOf m = eventMaskOf (m &&& eventsOf port) := by rw [hsub]
    _ = m &&& eventMaskOf (eventsOf port) := BitVec.and_assoc ..
    _ = m := by rw [eventMaskOf_eventsOf, hsub]

/-- An event of another port is still named once the unused bit is dropped. -/
theorem eventMaskOf_and_not_ne_zero (hnamed : m &&& e.mask ≠ 0#16)
    (hforeign : eventsOf port &&& e.mask = 0#16) : eventMaskOf m &&& ~~~eventsOf port ≠ 0#16 := by
  have hbit : (eventsOf port).getLsbD e.number = false :=
    Bool.eq_false_iff.mpr fun h => and_mask_ne_zero_iff.mpr h hforeign
  refine and_ne_zero_iff_exists_getLsbD.mpr ⟨e.number, e.number_lt, ?_, ?_⟩
  · exact getLsbD_eventMaskOf_number.trans (and_mask_ne_zero_iff.mp hnamed)
  · rw [BitVec.getLsbD_not, hbit, decide_eq_true e.number_lt]; rfl

end

/-! ### The attention line (R189) -/

/-- Settles O60: the line is the test that the port's status set and its enable set meet. -/
theorem attentionFollowsEvents : Obligations.AttentionFollowsEvents :=
  fun _ _ => decide_eq_true_iff.trans and_ne_zero_iff_exists_getLsbD

/-! ### CLEAR_STATUS (R190) -/

section
variable {port other : Port} {m : BitVec 16} {p : Part}

theorem port_clearEvents_self : (clearEvents port m p).port port =
    { p.port port with
      status := (p.port port).status &&& ~~~m
      causes := if m.getLsbD 0 then 0#8 else (p.port port).causes } := by
  have hframe : m &&& Event.frameError.mask ≠ 0#16 ↔ m.getLsbD 0 = true := and_mask_ne_zero_iff
  simp only [clearEvents, port_setPort_self, hframe]

theorem port_clearEvents_other (h : other ≠ port) : (clearEvents port m p).port other = p.port other :=
  port_setPort_other _ _ h

theorem tx_clearEvents (port other : Port) (m : BitVec 16) (p : Part) :
    ((clearEvents port m p).port other).tx = (p.port other).tx := by
  by_cases h : other = port
  · rw [h, port_clearEvents_self]
  · rw [port_clearEvents_other h]

theorem clearStatus_of_owned (h : m &&& ~~~eventsOf port = 0#16) :
    clearStatus port m p = accept (clearEvents port m p) := by
  unfold clearStatus
  rw [eventMaskOf_of_owned h, if_pos h]

theorem clearStatus_of_foreign {e : Event} (hnamed : m &&& e.mask ≠ 0#16)
    (hforeign : eventsOf port &&& e.mask = 0#16) : clearStatus port m p = refuse .range p :=
  if_neg (eventMaskOf_and_not_ne_zero hnamed hforeign)

/-- CLEAR_STATUS is permitted on every port (R181), so a request that is taken reaches the port's events. -/
theorem exec_clearStatus {s : State} (h : takesRequest port s.part) :
    exec (.clearStatus port m) s = .next { s with part := replyOn port .clearStatus (clearStatus port m s.part) } := by
  have hreply : request port .clearStatus true (clearStatus port m) s.part =
      replyOn port .clearStatus (clearStatus port m s.part) := request_taken _ _ _ _ h
  rw [← hreply]
  rfl

end

/-- Settles O18: the mask either names only the port's own events, and these are cleared, or names one of another port,
and the request is refused. -/
theorem clearStatusClears : Obligations.ClearStatusClears := by
  intro port mask s htaken
  refine ⟨_, exec_clearStatus htaken, fun howned => ?owned, fun ⟨e, hnamed, hforeign⟩ => ?foreign⟩
  case owned =>
    rw [clearStatus_of_owned howned]
    refine ⟨?status, ?causes, ?snapshot,
      fun other hother => (port_queueOn_other _ _ hother).trans (port_clearEvents_other hother),
      replyOn_replied port .clearStatus (accept _) s.part (tx_clearEvents port · mask s.part),
      replyOn_frame port .clearStatus (accept _) s.part (clearEvents_frame port mask s.part)⟩
    all_goals simp only [replyOn, accept, port_queueOn_self, port_clearEvents_self]
  case foreign =>
    rw [clearStatus_of_foreign hnamed hforeign]
    exact replyOn_refuse port .clearStatus .range s.part

end Sys2Proof.Machine
end

