-- ==== Sys2Proof/Proofs/StepEffects.lean ====
section
/-! SUPPORT. What a step can do to the part: the effect of each command as a function of the part, the blocks each
command can reach, and from these the rule that an invariant need be shown only for the commands that reach a block
it reads. -/

set_option Elab.async false

namespace Sys2Proof.Machine

/-! ### The effect of a command on the part -/

/-- The operation that a command makes on the part. -/
def effect : Instr → Part → Part
  | .runDomainPowerUp => powerUp
  | .resetLineAssert => assertReset
  | .resetLineRelease => releaseReset
  | .emergencyLineChange line active => lineChanges line active
  | .combinationHoldExpiry => whenDue combinationDue (runReset .combination)
  | .driveStatus pedal aDem direction flags =>
    whenRunning (driveArrival (driveDataOf pedal aDem direction flags))
  | .storageStatus soc pDisLim pChgLim flags =>
    whenRunning (storageArrival (storageDataOf soc pDisLim pChgLim flags))
  | .genStatus report pGenAvail => whenRunning (genArrival (reportOf report) (genDataOf report pGenAvail))
  | .brakeStatus v m slipCapA slipCapB flags =>
    whenRunning (brakeArrival (brakeDataOf v m slipCapA slipCapB flags))
  | .invStatus motor n tMot tGen flags => whenRunning (invArrival motor n tMot tGen flags)
  | .frameError line framing bytes => whenRunning (frameJudged line framing bytes)
  | .read port item index part => request port .read true (readItem port item index part)
  | .configWrite port item value =>
    request port .configWrite (configLengthOk value) (configWrite port item value)
  | .clearStatus port mask => request port .clearStatus true (clearStatus port mask)
  | .loadBlend port slot first steps =>
    request port .loadBlend (stepsLengthOk steps) (loadBlend port slot first steps)
  | .ackWarning port item => request port .ackWarning true (ackWarning item)
  | .forceDerate port value => request port .forceDerate true (forceDerate value)
  | .wearWrite port item presence fields =>
    request port .wearWrite (wearLengthOk fields) (wearWrite item presence fields)
  | .wearReset port item => request port .wearReset true (wearReset item)
  | .calibrate port => request port .calibrate true calibrate
  | .clearLockout port => request port .clearLockout true clearLockout
  | .frameSent line => whenRunning (frameSent line)
  | .settlementTimerExpiry => whenDue settlementDue settlementExpires
  | .conversionComplete raw => whenRunning (conversionCompletes raw)
  | .routineTrigger => whenDue routineDue routineExpires
  | .calibrationEnd => whenDue calibrationDue calibrationEnds
  | .settlementBegin => whenDue beginDue beginWaiting
  | .accountSettled => whenRunning settleCurrent
  | .promotionTimerExpiry => whenDue promotionDue promote
  | .layoverTimerExpiry => whenDue layoverDue layoverExpires
  | .startTimeout => whenDue startTimeoutDue startTimeoutExpires
  | .genSettleExpiry => whenDue genSettleDue genSettleExpires
  | .stopTimeout => whenDue stopTimeoutDue stopTimeoutExpires
  | .retryDelayExpiry => whenDue retryDue retryExpires
  | .partnerStale partner => whenDue (staleDue partner) (becomeStale partner)
  | .partnerLost partner => whenDue (lostDue partner) (becomeLost partner)
  | .startWindowExpiry => whenDue startWindowDue startWindowExpires
  | .motorLinkStale motor => whenDue (linkStaleDue motor) (linkBecomesStale motor)
  | .armingTimerExpiry => whenDue armingDue armingExpires
  | .clearingTimerExpiry => whenDue clearingDue clearingExpires
  | .runDomainPowerDown => powerDown
  | .keepAliveSupplyFailure => keepAliveFails

theorem exec_eq_effect (i : Instr) (s : State) : exec i s = .next (s.on (effect i)) := by
  cases i <;> rfl

/-! ### Guards and requests -/

section
variable {f : Part → Part} {due : Part → Bool} {l : List Block} {p : Part}

theorem whenRunning_of_running (h : p.running = true) : whenRunning f p = f p := if_pos h

theorem whenRunning_of_stopped (h : p.running = false) : whenRunning f p = p := if_neg (by simp [h])

theorem whenDue_of_due (h : p.running = true) (hdue : due p = true) : whenDue due f p = f p :=
  if_pos (by simp [h, hdue])

theorem whenDue_of_stopped (h : p.running = false) : whenDue due f p = p := if_neg (by simp [h])

theorem whenRunning_keeps {I : Part → Prop} (h : I p) (hf : p.running = true → I (f p)) : I (whenRunning f p) := by
  unfold whenRunning
  split
  · next hrun => exact hf hrun
  · exact h

theorem whenDue_keeps {I : Part → Prop} (h : I p) (hf : p.running = true → due p = true → I (f p)) :
    I (whenDue due f p) := by
  unfold whenDue
  split
  · next hdue =>
    obtain ⟨hrun, hdue⟩ := Bool.and_eq_true_iff.mp hdue
    exact hf hrun hdue
  · exact h

theorem whenRunning_frame (h : changesOnly l p (f p)) : changesOnly l p (whenRunning f p) := .ite h (.refl l p)

theorem whenDue_frame (h : changesOnly l p (f p)) : changesOnly l p (whenDue due f p) := .ite h (.refl l p)

end

section
variable {port : Port} {kind : Kind} {ok : Bool} {owner : Part → Answered} {p : Part}

/-- What can become of a request (R180 to R183, R201): nothing, a frame error, a refusal at the port, or what its owner
answers. The last two find the part running and a free place for the reply. -/
theorem request_cases (port : Port) (kind : Kind) (ok : Bool) (owner : Part → Answered) (p : Part) :
    request port kind ok owner p = p ∨
      (∃ cause, request port kind ok owner p = portFrameError port cause p) ∨
      (takesRequest port p ∧ request port kind ok owner p = replyOn port kind (refuse .notPermitted p)) ∨
      (takesRequest port p ∧ ok = true ∧ kind.requestOn port = true ∧
        request port kind ok owner p = replyOn port kind (owner p)) := by
  unfold request takesRequest
  cases hrun : p.running
  case false => exact .inl rfl
  case true =>
    cases ok
    case false => exact .inr (.inl ⟨_, rfl⟩)
    case true =>
      by_cases hfull : Config.replyPlaces ≤ (p.port port).waitingReplies
      · exact .inr (.inl ⟨_, by simp [hfull]; rfl⟩)
      · cases hkind : kind.requestOn port <;> simp [hfull, Nat.lt_of_not_le hfull]

/-- A property that no change of the ports can break is kept by a request when the request's owner keeps it. -/
theorem request_keeps {I : Part → Prop} (hports : ∀ {q r}, changesOnly [.ports] q r → I q → I r) (h : I p)
    (howner : I (owner p).part) : I (request port kind ok owner p) := by
  obtain hr | ⟨cause, hr⟩ | ⟨_, hr⟩ | ⟨_, _, _, hr⟩ := request_cases port kind ok owner p <;> rw [hr]
  · exact h
  · exact hports (portFrameError_frame ..) h
  · exact hports (queueOn_frame ..) h
  · exact hports (queueOn_frame ..) howner

theorem request_frame {l : List Block} (h : changesOnly l p (owner p).part) (hl : .ports ∈ l := by decide) :
    changesOnly l p (request port kind ok owner p) :=
  request_keeps (I := changesOnly l p)
    (fun hports hq => hq.trans hports (fun _ h => h) (by simpa using hl)) (.refl l p) h

end

/-! ### The blocks each command can reach -/

theorem accept_frame {l : List Block} {p q : Part} (h : changesOnly l p q) : changesOnly l p (accept q).part := h

theorem refuse_frame {l : List Block} {code : ReplyCode} {p : Part} : changesOnly l p (refuse code p).part := .refl l p

theorem readItem_frame (port : Port) (item : Byte) (index : BitVec 16) (part : Byte) (p : Part) :
    changesOnly [.ports] p (readItem port item index part p).part := by
  unfold readItem readFirst readLater
  repeat' split
  all_goals first | exact .refl _ p | exact setPort_frame ..

theorem clearStatus_frame (port : Port) (m : BitVec 16) (p : Part) :
    changesOnly [.ports] p (clearStatus port m p).part := by
  unfold clearStatus
  split
  · exact clearEvents_frame ..
  · exact .refl _ p

theorem forceDerate_frame (v : Byte) (p : Part) : changesOnly [.derate, .ports] p (forceDerate v p).part := by
  unfold forceDerate
  split
  · exact (setDerate_frame p _).trans (reformFactors_frame _)
  · exact (setDerate_frame p _).trans (reformFactors_frame _)
  · exact .refl _ p

theorem writeOverrideCode_frame (v : List Byte) (p : Part) :
    changesOnly [.derate, .ports] p (writeOverrideCode v p).part := by
  unfold writeOverrideCode
  repeat' split
  all_goals first | exact .refl _ p | exact (setDerate_frame p _).trans (reformFactors_frame _)

theorem writeValue_frame (it : ConfigItem) (bytes : List Byte) (p : Part) :
    changesOnly (.cfg :: .watch :: writeBlocks) p (writeValue it bytes p).part := by
  unfold writeValue
  repeat' split
  all_goals first | exact .refl _ p | exact applyWrite_frame ..

theorem configWrite_frame (port : Port) (number : BitVec 16) (bytes : List Byte) (p : Part) :
    changesOnly (.cfg :: .watch :: writeBlocks) p (configWrite port number bytes p).part := by
  unfold configWrite
  repeat' split
  all_goals first | exact .refl _ p | exact (writeOverrideCode_frame ..).mono | exact writeValue_frame ..

theorem refuseLoad_frame (port : Port) (p : Part) : changesOnly [.blend, .slots] p (refuseLoad port p).part :=
  (setAssembly_frame ..).mono

theorem loadFirst_frame (port : Port) (slot : SlotNo) (steps : List BlendStep) (p : Part) :
    changesOnly [.blend, .slots] p (loadFirst port slot steps p).part := by
  unfold loadFirst
  repeat' split
  · exact (setAssembly_frame ..).trans (takeProgram_frame ..)
  · exact (setAssembly_frame ..).mono
  · exact refuseLoad_frame ..

theorem loadNext_frame (port : Port) (slot : SlotNo) (steps : List BlendStep) (p : Part) :
    changesOnly [.blend, .slots] p (loadNext port slot steps p).part := by
  unfold loadNext
  repeat' split
  all_goals first | exact refuseLoad_frame .. | exact (setAssembly_frame ..).trans (takeProgram_frame ..)

theorem loadBlend_frame (port : Port) (slot first : Byte) (steps : List (Byte × Byte)) (p : Part) :
    changesOnly [.blend, .slots] p (loadBlend port slot first steps p).part := by
  unfold loadBlend
  repeat' split
  all_goals first | exact refuseLoad_frame .. | exact loadFirst_frame .. | exact loadNext_frame ..

theorem ackWarning_frame (item : Byte) (p : Part) : changesOnly [.warnings] p (ackWarning item p).part := by
  unfold ackWarning
  repeat' split
  all_goals first | exact .refl _ p | exact setWarnings_frame ..

theorem applyWearWrite_frame (i : WearNo) (f : WearFields) (p : Part) :
    changesOnly [.wear, .warnings, .derate, .ports] p (applyWearWrite i f p) :=
  ((setWearItem_frame i _ p).trans (n := [.wear, .ports]) (setEventIf_frame ..)).trans (judgeItem_frame ..)

theorem wearWrite_frame (item presence : Byte) (bytes : List Byte) (p : Part) :
    changesOnly [.wear, .warnings, .derate, .ports] p (wearWrite item presence bytes p).part := by
  unfold wearWrite
  repeat' split
  all_goals first | exact .refl _ p | exact applyWearWrite_frame ..

theorem wearReset_frame (item : Byte) (p : Part) :
    changesOnly [.wear, .warnings, .derate, .ports] p (wearReset item p).part := by
  unfold wearReset
  split
  · exact .refl _ p
  · exact (setWearItem_frame ..).trans (judgeItem_frame ..)

theorem calibrate_frame (p : Part) : changesOnly [.scan] p (calibrate p).part := by
  unfold calibrate
  repeat' split
  all_goals first | exact .refl _ p | exact setScan_frame ..

theorem clearLockout_frame (p : Part) : changesOnly [.gen] p (clearLockout p).part := by
  unfold clearLockout
  split
  · exact (setGen_frame p _).trans (enterOff_frame _)
  · exact setGen_frame p _

theorem lineChanges_frame (line : EmergencyLine) (active : Bool) (p : Part) :
    changesOnly [.lines, .auth, .watch, .ports] p (lineChanges line active p) := by
  have hlines := setLines_frame p (p.lines.set line active)
  unfold lineChanges
  exact .ite ((hlines.trans (n := [.lines, .auth, .ports]) (evalSource_frame ..)).trans (moveWatch_frame _)) hlines.mono

theorem frameJudged_frame (line : Line) (framing : Bool) (bytes : List Byte) (p : Part) :
    changesOnly [.ports] p (frameJudged line framing bytes p) := by
  unfold frameJudged
  split
  · exact portFrameError_frame ..
  all_goals exact .refl _ p

theorem frameSent_frame (line : Line) (p : Part) : changesOnly [.links, .ports] p (frameSent line p) := by
  unfold frameSent
  split
  · exact (setPort_frame ..).mono
  · exact (setLink_frame ..).mono

theorem beginWaiting_frame (p : Part) : changesOnly beginBlocks p (beginWaiting p) := by
  unfold beginWaiting
  split
  · exact beginSettlement_frame ..
  · exact .refl _ p

theorem settleCurrent_frame (p : Part) : changesOnly settleBlocks p (settleCurrent p) := by
  unfold settleCurrent
  split
  · exact settle_frame ..
  · exact .refl _ p

/-- Every block. -/
def allBlocks : List Block := .power :: .lines :: .marker :: .cfg :: .slots :: .cal :: .wear :: .warnings :: .cause ::
  runBlocks

theorem changesOnly_allBlocks (p q : Part) : changesOnly allBlocks p q :=
  ⟨fun b hb => absurd (by cases b <;> decide) hb⟩

/-- The commands that stop the run domain or start it afresh, or end the contents of the keep-alive domain. -/
def movesDomains : Instr → Bool
  | .runDomainPowerUp | .resetLineAssert | .resetLineRelease | .combinationHoldExpiry | .runDomainPowerDown
  | .keepAliveSupplyFailure => true
  | _ => false

/-- The blocks that a command can reach. -/
def effectBlocks : Instr → List Block
  | .runDomainPowerUp | .resetLineAssert | .resetLineRelease | .combinationHoldExpiry | .runDomainPowerDown
  | .keepAliveSupplyFailure => allBlocks
  | .emergencyLineChange _ _ => [.lines, .auth, .watch, .ports]
  | .driveStatus _ _ _ _ => driveBlocks
  | .storageStatus _ _ _ _ => [.image, .partState]
  | .genStatus _ _ => [.image, .partState, .gen, .wear, .warnings, .ports]
  | .brakeStatus _ _ _ _ _ => brakeBlocks
  | .invStatus _ _ _ _ _ | .motorLinkStale _ => [.links]
  | .frameError _ _ _ | .read _ _ _ _ | .clearStatus _ _ => [.ports]
  | .configWrite _ _ _ => .cfg :: .watch :: writeBlocks
  | .loadBlend _ _ _ _ => [.blend, .slots, .ports]
  | .ackWarning _ _ => [.warnings, .ports]
  | .forceDerate _ _ | .armingTimerExpiry | .clearingTimerExpiry => [.derate, .ports]
  | .wearWrite _ _ _ _ | .wearReset _ _ => [.wear, .warnings, .derate, .ports]
  | .calibrate _ => [.scan, .ports]
  | .clearLockout _ | .startTimeout | .stopTimeout => [.gen, .ports]
  | .frameSent _ => [.links, .ports]
  | .settlementTimerExpiry => [.time, .scan, .account]
  | .conversionComplete _ => .account :: resultBlocks
  | .routineTrigger => [.scan]
  | .calibrationEnd => [.cal, .scan]
  | .settlementBegin => beginBlocks
  | .accountSettled => settleBlocks
  | .promotionTimerExpiry | .layoverTimerExpiry => holdBlocks
  | .genSettleExpiry | .retryDelayExpiry => [.gen]
  | .partnerStale _ | .partnerLost _ => silenceBlocks
  | .startWindowExpiry => .partState :: silenceBlocks

theorem effect_frame (i : Instr) (p : Part) : changesOnly (effectBlocks i) p (effect i p) := by
  cases i with dsimp only [effectBlocks]
  | runDomainPowerUp | resetLineAssert | resetLineRelease | combinationHoldExpiry | runDomainPowerDown
  | keepAliveSupplyFailure => exact changesOnly_allBlocks ..
  | emergencyLineChange => exact lineChanges_frame ..
  | driveStatus => exact whenRunning_frame (driveArrival_frame ..)
  | storageStatus => exact whenRunning_frame (storageArrival_frame ..)
  | genStatus => exact whenRunning_frame (genArrival_frame ..)
  | brakeStatus => exact whenRunning_frame (brakeArrival_frame ..)
  | invStatus => exact whenRunning_frame (setLink_frame ..)
  | frameError => exact whenRunning_frame (frameJudged_frame ..)
  | read => exact request_frame (readItem_frame ..)
  | configWrite => exact request_frame (configWrite_frame ..)
  | clearStatus => exact request_frame (clearStatus_frame ..)
  | loadBlend => exact request_frame (loadBlend_frame ..).mono
  | ackWarning => exact request_frame (ackWarning_frame ..).mono
  | forceDerate => exact request_frame (forceDerate_frame ..)
  | wearWrite => exact request_frame (wearWrite_frame ..)
  | wearReset => exact request_frame (wearReset_frame ..)
  | calibrate => exact request_frame (calibrate_frame p).mono
  | clearLockout => exact request_frame (clearLockout_frame p).mono
  | frameSent => exact whenRunning_frame (frameSent_frame ..)
  | settlementTimerExpiry => exact whenDue_frame (settlementExpires_frame p)
  | conversionComplete => exact whenRunning_frame (conversionCompletes_frame ..)
  | routineTrigger => exact whenDue_frame (routineExpires_frame p)
  | calibrationEnd => exact whenDue_frame (calibrationEnds_frame p)
  | settlementBegin => exact whenDue_frame (beginWaiting_frame p)
  | accountSettled => exact whenRunning_frame (settleCurrent_frame p)
  | promotionTimerExpiry => exact whenDue_frame (promote_frame p)
  | layoverTimerExpiry => exact whenDue_frame (layoverExpires_frame p)
  | startTimeout | stopTimeout => exact whenDue_frame (enterFailed_frame ..)
  | genSettleExpiry => exact whenDue_frame (enterRun_frame p)
  | retryDelayExpiry => exact whenDue_frame (enterOff_frame p)
  | partnerStale => exact whenDue_frame (becomeStale_frame ..)
  | partnerLost => exact whenDue_frame (becomeLost_frame ..)
  | startWindowExpiry => exact whenDue_frame (startWindowExpires_frame p)
  | motorLinkStale => exact whenDue_frame (setLink_frame ..)
  | armingTimerExpiry => exact whenDue_frame (armingExpires_frame p)
  | clearingTimerExpiry => exact whenDue_frame (clearingExpires_frame p)

/-! ### Invariants -/

/-- The property reads only the named blocks. -/
def readsOnly (blocks : List Block) (I : Part → Prop) : Prop :=
  ∀ {p q : Part}, (∀ b ∈ blocks, b.same p q) → I p → I q

/-- A property is kept by every change of blocks that it does not read. -/
theorem readsOnly.keeps {blocks l : List Block} {I : Part → Prop} (hI : readsOnly blocks I) {p q : Part}
    (h : changesOnly l p q) (hp : I p) (hl : ∀ b ∈ blocks, b ∉ l := by decide) : I q :=
  hI (fun b hb => h.same b (hl b hb)) hp

/-- What a step can do: run the command at the front, let a millisecond pass, or only change the queue. -/
theorem step_cases {s t : State} (h : step s = .next t) :
    (∃ i, t.part = effect i s.part) ∨ t.part = advanceTime s.part ∨ t.part = s.part := by
  obtain ⟨pending, p⟩ := s
  cases pending with
  | cons i rest =>
    rw [show step ⟨i :: rest, p⟩ = _ from exec_eq_effect i ⟨rest, p⟩] at h
    cases h
    exact .inl ⟨i, rfl⟩
  | nil =>
    cases (show _ = t from Host.Outcome.next.inj h)
    unfold idle
    split
    · split
      · exact .inr (.inl rfl)
      · exact .inr (.inr rfl)
    · exact .inr (.inr rfl)

/-- An invariant that does not read the timebase is kept by every step when the commands keep it that reach a block it
reads. -/
theorem step_keeps {blocks : List Block} {I : Part → Prop} (hI : readsOnly blocks I)
    (hacts : ∀ i p, (∃ b ∈ blocks, b ∈ effectBlocks i) → I p → I (effect i p))
    (htime : .time ∉ blocks := by decide) {s t : State} (hs : I s.part) (h : step s = .next t) : I t.part := by
  obtain ⟨i, ht⟩ | ht | ht := step_cases h <;> rw [ht]
  · by_cases hreach : ∃ b ∈ blocks, b ∈ effectBlocks i
    · exact hacts i s.part hreach hs
    · exact hI.keeps (effect_frame i s.part) hs fun b hb hmem => hreach ⟨b, hb, hmem⟩
  · exact hI.keeps (setTime_frame s.part _) hs fun b hb hmem =>
      htime (List.mem_singleton.mp hmem ▸ hb)
  · exact hs

end Sys2Proof.Machine
end

