-- ==== Sys2Proof/Proofs/RunReset.lean ====
section
/-! SUPPORT. The run reset (R201): what each block is after it, whether it finds the keep-alive domain whole or lost
(R200, R204), and what the commands of the supplies and of the reset line can do to the two domains. -/

set_option Elab.async false

namespace Sys2Proof.Machine

/-! ### The run domain stopped -/

theorem abandonCalibration_frame (p : Part) : changesOnly [.cal] p (abandonCalibration p) := by
  unfold abandonCalibration
  split
  · exact setCal_frame p _
  all_goals exact .refl _ p

theorem resetRunDomain_frame (p : Part) : changesOnly runBlocks p (resetRunDomain p) :=
  ⟨fun b hb => by cases b <;> first | rfl | exact absurd (by decide) hb⟩

/-! ### The run reset, in stages -/

theorem recordReset_frame (cause : ResetCause) (p : Part) : changesOnly [.cause] p (recordReset cause p) :=
  setCause_frame p _

/-- The blocks that keep-alive loss sets. -/
def keepAliveBlocks : List Block := [.marker, .cfg, .slots, .cal, .wear, .warnings, .cause, .ports]

theorem loseKeepAlive_frame (p : Part) : changesOnly keepAliveBlocks p (loseKeepAlive p) := by
  refine .trans (l := keepAliveBlocks) ?_ (setEvent_frame .warningNew _)
  exact ⟨fun b hb => by cases b <;> first | rfl | exact absurd (by decide) hb⟩

theorem leaveReset_frame (p : Part) : changesOnly [.auth, .derate, .watch, .ports] p (leaveReset p) :=
  ((evalSource_frame .safeStop p).trans (n := [.auth, .derate, .ports]) (formFactorsAtReset_frame _)).trans
    (moveWatch_frame _)

/-- The part at a run reset between the reset values and what the blocks evaluate at once (R200, R204). -/
def restarted (cause : ResetCause) (p : Part) : Part :=
  let q := (resetRunDomain (abandonCalibration p)).setPower { p.power with held := none }
  if p.marker then recordReset cause q else loseKeepAlive q

theorem runReset_eq (cause : ResetCause) (p : Part) : runReset cause p = leaveReset (restarted cause p) := rfl

theorem runReset_frame_restarted (cause : ResetCause) (p : Part) :
    changesOnly [.auth, .derate, .watch, .ports] (restarted cause p) (runReset cause p) := leaveReset_frame _

/-- Of the blocks of the run domain only the ports can differ from their reset values before the blocks evaluate. -/
theorem restarted_frame_stopped (cause : ResetCause) (p : Part) :
    changesOnly keepAliveBlocks ((resetRunDomain p).setPower { p.power with held := none }) (restarted cause p) := by
  have hcal : changesOnly [.cal] ((resetRunDomain p).setPower { p.power with held := none })
      ((resetRunDomain (abandonCalibration p)).setPower { p.power with held := none }) := by
    have h := abandonCalibration_frame p
    exact ⟨fun b hb => by cases b <;> first | rfl | exact absurd (by decide) hb | exact h.same _ hb⟩
  unfold restarted
  exact .ite (hcal.trans (recordReset_frame ..)) (hcal.trans (loseKeepAlive_frame _))

/-! ### The blocks after a run reset -/

section
variable (cause : ResetCause) (p : Part)

theorem runReset_frame_stopped : changesOnly (.auth :: .derate :: .watch :: keepAliveBlocks)
    ((resetRunDomain p).setPower { p.power with held := none }) (runReset cause p) :=
  (restarted_frame_stopped cause p).trans (runReset_frame_restarted cause p)

@[simp] theorem runReset_power : (runReset cause p).power = { p.power with held := none } :=
  (runReset_frame_stopped cause p).same .power (by decide)

@[simp] theorem runReset_lines : (runReset cause p).lines = p.lines :=
  (runReset_frame_stopped cause p).same .lines (by decide)

@[simp] theorem runReset_time : (runReset cause p).time = ⟨0#32, 0#32⟩ :=
  (runReset_frame_stopped cause p).same .time (by decide)

@[simp] theorem runReset_partState : (runReset cause p).partState = .starting :=
  (runReset_frame_stopped cause p).same .partState (by decide)

@[simp] theorem runReset_image : (runReset cause p).image = resetImage :=
  (runReset_frame_stopped cause p).same .image (by decide)

@[simp] theorem runReset_links : (runReset cause p).links = ⟨resetLink, resetLink⟩ :=
  (runReset_frame_stopped cause p).same .links (by decide)

@[simp] theorem runReset_account : (runReset cause p).account = resetAccount :=
  (runReset_frame_stopped cause p).same .account (by decide)

@[simp] theorem runReset_blend : (runReset cause p).blend = resetBlend :=
  (runReset_frame_stopped cause p).same .blend (by decide)

@[simp] theorem runReset_hold : (runReset cause p).hold = resetHold :=
  (runReset_frame_stopped cause p).same .hold (by decide)

@[simp] theorem runReset_gen : (runReset cause p).gen = resetSequencer :=
  (runReset_frame_stopped cause p).same .gen (by decide)

@[simp] theorem runReset_scan : (runReset cause p).scan = resetScanner :=
  (runReset_frame_stopped cause p).same .scan (by decide)

/-- The power stands as it is but for the cause that waited, which the reset consumes. -/
theorem runReset_running : (runReset cause p).running = p.running := by
  simp [Part.running]

/-- What the blocks of the keep-alive domain are after a run reset that finds it whole (R199, R204). -/
theorem runReset_frame_whole (h : p.marker = true) :
    changesOnly (.power :: .cal :: .cause :: runBlocks) p (runReset cause p) := by
  have hstop : changesOnly (.power :: .cal :: runBlocks) p
      ((resetRunDomain (abandonCalibration p)).setPower { p.power with held := none }) :=
    ((abandonCalibration_frame p).trans (n := .cal :: runBlocks) (resetRunDomain_frame _)).trans (setPower_frame _ _)
  have hrecord : changesOnly (.power :: .cal :: .cause :: runBlocks) p (restarted cause p) := by
    unfold restarted
    rw [if_pos h]
    exact hstop.trans (recordReset_frame ..)
  exact hrecord.trans (runReset_frame_restarted cause p)

/-- What the blocks of the keep-alive domain are after a run reset that finds it lost (R200, R204). -/
theorem runReset_of_lost (h : p.marker = false) :
    (runReset cause p).marker = true ∧ (runReset cause p).cfg = defaultConfig ∧
      (runReset cause p).slots = Vector.replicate 4 defaultSlot ∧ (runReset cause p).cal = defaultCalibration ∧
      (runReset cause p).wear = lostWear ∧ (runReset cause p).warnings = lostWarnings ∧
      (runReset cause p).cause = ⟨.powerOn, true, 1⟩ := by
  have hlost := runReset_frame_restarted cause p
  have hr : restarted cause p =
      loseKeepAlive ((resetRunDomain (abandonCalibration p)).setPower { p.power with held := none }) :=
    if_neg (by simp [h])
  rw [hr] at hlost
  exact ⟨hlost.same .marker (by decide), hlost.same .cfg (by decide), hlost.same .slots (by decide),
    hlost.same .cal (by decide), hlost.same .wear (by decide), hlost.same .warnings (by decide),
    hlost.same .cause (by decide)⟩

end

/-! ### The commands of the supplies and of the reset line -/

/-- What the supplies and the reset line can do: leave both domains alone but for their markers, stop the run domain,
or start it afresh. -/
inductive DomainOutcome (p : Part) : Part → Prop where
  | untouched {q : Part} (h : changesOnly [.power, .marker] p q) : DomainOutcome p q
  | stopped (p' : Part) (v : Power) (h : changesOnly [.cal] p p') : DomainOutcome p ((resetRunDomain p').setPower v)
  | restarted (cause : ResetCause) (v : Power) : DomainOutcome p (runReset cause (p.setPower v))

theorem powerUp_outcome (p : Part) : DomainOutcome p (powerUp p) := by
  unfold powerUp
  repeat' split
  · exact .untouched (.refl _ p)
  · exact .untouched (setPower_frame ..).mono
  · exact .restarted .powerOn _

theorem assertReset_outcome (p : Part) : DomainOutcome p (assertReset p) := by
  unfold assertReset
  split
  · exact .stopped (abandonCalibration p) _ (abandonCalibration_frame p)
  · exact .untouched (setPower_frame ..).mono

theorem releaseReset_outcome (p : Part) : DomainOutcome p (releaseReset p) := by
  unfold releaseReset
  dsimp only
  split
  · exact .restarted _ _
  · exact .untouched (setPower_frame ..).mono

theorem combinationReset_outcome (p : Part) :
    DomainOutcome p (whenDue combinationDue (runReset .combination) p) :=
  whenDue_keeps (.untouched (.refl _ p)) fun _ _ => .restarted .combination p.power

theorem powerDown_outcome (p : Part) : DomainOutcome p (powerDown p) := .stopped p _ (.refl _ p)

theorem keepAliveFails_outcome (p : Part) : DomainOutcome p (keepAliveFails p) := by
  unfold keepAliveFails
  exact .untouched (.ite (.refl _ p) (setMarker_frame ..).mono)

theorem effect_outcome {i : Instr} (h : movesDomains i = true) (p : Part) : DomainOutcome p (effect i p) := by
  cases i with
  | runDomainPowerUp => exact powerUp_outcome p
  | resetLineAssert => exact assertReset_outcome p
  | resetLineRelease => exact releaseReset_outcome p
  | combinationHoldExpiry => exact combinationReset_outcome p
  | runDomainPowerDown => exact powerDown_outcome p
  | keepAliveSupplyFailure => exact keepAliveFails_outcome p
  | _ => cases h

/-- An invariant that reads neither the power nor the marker is kept by these commands when it holds wherever the run
domain is stopped and wherever it starts afresh. -/
theorem effect_keeps_of_movesDomains {blocks : List Block} {I : Part → Prop} (hI : readsOnly blocks I) {i : Instr}
    (h : movesDomains i = true) {p : Part} (hp : I p) (hstop : ∀ p' v, changesOnly [.cal] p p' →
      I ((resetRunDomain p').setPower v)) (hreset : ∀ cause v, I (runReset cause (p.setPower v)))
    (hblocks : ∀ b ∈ blocks, b ∉ [Block.power, .marker] := by decide) : I (effect i p) := by
  have hout := effect_outcome h p
  generalize effect i p = q at hout ⊢
  cases hout with
  | untouched hsame => exact hI.keeps hsame hp hblocks
  | stopped p' v hcal => exact hstop p' v hcal
  | restarted cause v => exact hreset cause v

end Sys2Proof.Machine
end

