-- ==== Sys2Proof/Proofs/AccountKept.lean ====
section
/-! SUPPORT. What every step keeps of the settlement unit: sound records, at most sixteen of them, numbered in
succession (R14, R18, R20, R21). Of the commands that reach the unit a beginning makes a record, a close appends it,
and every other leaves the records and their numbers alone. -/

set_option Elab.async false

namespace Sys2Proof.Machine

/-! ### The hold controller's request at the settlement unit -/

/-- The part that has entered a hold, with the routine trigger of R146, before the entry acts on the link (R101). -/
def enteredHold (p : Part) : Part :=
  let q := changeHold (chosenState (choiceRule p) p.image.drive.data.layoverRequest) (some (choiceRule p)) p
  if p.cfg.on .stopTrigger then routineTrigger .roundCompleting q else q

theorem enterHold_eq (p : Part) : enterHold p =
    if chosenState (choiceRule p) p.image.drive.data.layoverRequest = .holdRun then enteredHold p
    else quietEntryLink (enteredHold p) := rfl

theorem enteredHold_frame (p : Part) : changesOnly [.hold, .gen, .auth, .scan, .ports] p (enteredHold p) := by
  unfold enteredHold
  exact .ite ((changeHold_frame ..).trans (routineTrigger_frame ..)) (changeHold_frame ..).mono

/-- The DUMP request as it reaches the settlement unit (R19). -/
def Account.withDump (a : Account) : Account :=
  { a with dump := true, settling := a.settling.map fun s => { s with dumpAgain := true } }

theorem quietEntryLink_account (p : Part) : (quietEntryLink p).account = p.account ∨
    (quietEntryLink p).account = p.account.withDump := by
  unfold quietEntryLink
  repeat' split
  all_goals first | exact .inl rfl | exact .inr rfl

theorem enterHold_account (p : Part) : (enterHold p).account = p.account ∨
    (enterHold p).account = p.account.withDump := by
  have hsame : (enteredHold p).account = p.account := (enteredHold_frame p).same .account (by decide)
  rw [enterHold_eq]
  split
  · exact .inl hsame
  · rw [← hsame]
    exact quietEntryLink_account _

theorem holdArrival_account (before : DriveData) (p : Part) : (holdArrival before p).account = p.account ∨
    (holdArrival before p).account = p.account.withDump := by
  have hbreak : (breakHold p).account = p.account := (breakHold_frame p).same .account (by decide)
  have hchange (h : HoldState) (rule : Option Nat) : (changeHold h rule p).account = p.account :=
    (changeHold_frame ..).same .account (by decide)
  have hstart : (holdRunWithStart p).account = p.account := (holdRunWithStart_frame p).same .account (by decide)
  unfold holdArrival holdRunArrival holdQuietArrival layoverArrival
  repeat' split
  all_goals first
    | exact enterHold_account p
    | exact .inl rfl
    | exact .inl hbreak
    | exact .inl hstart

theorem quietZoneArrival_frame (before : DriveData) (p : Part) : changesOnly [.gen] p (quietZoneArrival before p) := by
  unfold quietZoneArrival
  exact .ite (quietZoneStop_frame p) (.refl _ p)

theorem driveArrival_account (d : DriveData) (p : Part) : (driveArrival d p).account = p.account ∨
    (driveArrival d p).account = p.account.withDump := by
  have hstore : changesOnly [.image, .partState] p (readyCheck (storeDrive d p)) :=
    (storeDrive_frame d p).trans (readyCheck_frame _)
  have hrest (q : Part) : changesOnly [.gen, .auth, .ports] q
      (evalSource .traction (evalSource .blend (quietZoneArrival p.image.drive.data q))) :=
    ((quietZoneArrival_frame _ q).trans (n := [.gen, .auth, .ports]) (evalSource_frame ..)).trans
      (evalSource_frame ..)
  have hp : (readyCheck (storeDrive d p)).account = p.account := hstore.same .account (by decide)
  have hq : (driveArrival d p).account = (holdArrival p.image.drive.data (readyCheck (storeDrive d p))).account :=
    (hrest _).same .account (by decide)
  rw [hq, ← hp]
  exact holdArrival_account ..

/-! ### Records and their numbers untouched -/

/-- Two settlement units hold the same records under the same numbers. -/
structure sameLedger (a b : Account) : Prop where
  current : b.current = a.current
  history : b.history = a.history
  nextSeq : b.nextSeq = a.nextSeq
  settling : b.settling.map (·.record) = a.settling.map (·.record)

theorem sameLedger_withDump (a : Account) : sameLedger a a.withDump :=
  ⟨rfl, rfl, rfl, by simp [Account.withDump, Function.comp_def]⟩

theorem sameLedger.refl (a : Account) : sameLedger a a := ⟨rfl, rfl, rfl, rfl⟩

theorem accountSound_of_sameLedger {p q : Part} (hsame : sameLedger p.account q.account) (h : accountSound p) :
    accountSound q := by
  obtain ⟨hrecords, hsettling, hlength, hseq, hlast, hnext⟩ := h
  obtain ⟨hcurrent, hhistory, hnextSeq, hsettle⟩ := hsame
  unfold accountSound
  rw [hcurrent, hhistory, hnextSeq]
  refine ⟨hrecords, fun s hs => ?_, hlength, hseq, hlast, hnext⟩
  rw [hs] at hsettle
  obtain ⟨s', hs', hrecord⟩ := Option.map_eq_some_iff.mp hsettle.symm
  exact (show s'.record = s.record from hrecord) ▸ hsettling s' hs'

theorem accountSound_reads : readsOnly [.account] accountSound := fun {p q} h =>
  accountSound_of_sameLedger ((show q.account = p.account from h .account (by decide)) ▸ .refl _)

theorem sameLedger_arriveBeginning (b : Bool) (p : Part) : sameLedger p.account (arriveBeginning b p).account := by
  unfold arriveBeginning
  split
  · exact .refl _
  · exact ⟨rfl, rfl, rfl, rfl⟩

theorem accountSound_settlementExpires {p : Part} (h : accountSound p) : accountSound (settlementExpires p) := by
  unfold settlementExpires eventTrigger
  split
  · exact h
  · exact h
  · exact h
  · exact accountSound_of_sameLedger (sameLedger_arriveBeginning ..) h

theorem accountSound_conversionCompletes {raw : BitVec 12} {p : Part} (h : accountSound p) :
    accountSound (conversionCompletes raw p) := by
  unfold conversionCompletes
  split
  · exact h
  · exact accountSound_reads.keeps (routineConversion_frame ..) h
  · exact h
  · next ch rest _ =>
    have hnew : accountSound (newResult ch raw p) := accountSound_reads.keeps (newResult_frame ..) h
    dsimp only
    split
    · exact accountSound_reads.keeps (afterEventRun_frame _)
        (accountSound_of_sameLedger (sameLedger_arriveBeginning ..) hnew)
    · exact accountSound_reads.keeps (setMode_frame ..) hnew
  · split <;> exact h

/-! ### The record that a beginning makes -/

theorem recordSound_record (i : SettleInputs) (seq : BitVec 32) (senseHeld : Bool) (stamp : Stamp) :
    recordSound (i.record seq senseHeld stamp) := by
  refine ⟨i.balanced, fun ⟨ht, hrg⟩ => ?_, fun ht => i.base_of_t_ne_zero (Nat.ne_of_gt ht),
    fun hrg => i.base_of_rg_ne_zero (Nat.ne_of_gt hrg)⟩
  obtain h | h := i.t_eq_zero_or_rg_eq_zero
  · exact Nat.ne_of_gt ht h
  · exact Nat.ne_of_gt hrg h

/-- The part with the settlement that has begun, before the settlement unit takes it (R2). -/
def begunPart (p : Part) : Part :=
  keepPass (settleInputs p.hold.state (acceptance p)) (slotNow (acceptance p))
    (judgeEpisode (effADem (acceptance p)) (acceptance p))

theorem beginSettlement_eq (senseHeld : Bool) (p : Part) : beginSettlement senseHeld p =
    (begunPart p).setAccount { (begunPart p).account with
      beginning := none, settling := some (settlingOf p.hold.state senseHeld (acceptance p)) } := rfl

theorem begunPart_frame (p : Part) :
    changesOnly [.auth, .hold, .gen, .slots, .blend, .scan, .cal, .ports] p (begunPart p) :=
  ((acceptance_frame p).trans (n := [.auth, .hold, .gen, .slots, .blend, .scan, .cal, .ports])
    (judgeEpisode_frame ..)).trans (keepPass_frame ..)

theorem accountSound_beginSettlement {senseHeld : Bool} {p : Part} (h : accountSound p) :
    accountSound (beginSettlement senseHeld p) := by
  obtain ⟨hrecords, -, hlength, hseq, hlast, hnext⟩ : accountSound (begunPart p) :=
    accountSound_reads.keeps (begunPart_frame p) h
  rw [beginSettlement_eq]
  refine ⟨hrecords, fun s hs => ?_, hlength, hseq, hlast, hnext⟩
  cases hs
  have hbegun : (begunPart p).account = p.account := (begunPart_frame p).same .account (by decide)
  have haccepted : (acceptance p).account = p.account := (acceptance_frame p).same .account (by decide)
  refine ⟨recordSound_record .., ?_⟩
  show (acceptance p).account.nextSeq = (begunPart p).account.nextSeq
  rw [hbegun, haccepted]

/-! ### The history that a close leaves -/

theorem successive_tail {l : List AccountRecord} (h : successive l) : successive l.tail := by
  match l with
  | [] => exact trivial
  | [_] => exact trivial
  | _ :: _ :: _ => exact h.2

theorem successive_concat {l : List AccountRecord} {r : AccountRecord} (h : successive l)
    (hr : ∀ last, l.getLast? = some last → r.seq = last.seq + 1) : successive (l ++ [r]) := by
  match l with
  | [] => exact trivial
  | [a] => exact ⟨hr a rfl, trivial⟩
  | a :: b :: rest => exact ⟨h.1, successive_concat h.2 fun last hlast => hr last hlast⟩

theorem pushHistory_eq (h : List AccountRecord) (r : AccountRecord) :
    ∃ kept, pushHistory h r = kept ++ [r] ∧ (kept = h ∧ h.length < Config.historyPlaces ∨ kept = h.tail) := by
  unfold pushHistory
  split
  · next hroom => exact ⟨h, rfl, .inl ⟨rfl, hroom⟩⟩
  · exact ⟨h.tail, by rw [List.drop_one], .inr rfl⟩

theorem getLast?_of_tail {l : List AccountRecord} {r : AccountRecord} (h : l.tail.getLast? = some r) :
    l.getLast? = some r := by
  match l with
  | [] => cases h
  | [_] => cases h
  | _ :: _ :: _ => exact h

theorem accountSound_closeAccount {s : Settling} {p : Part} (h : accountSound p) (hs : p.account.settling = some s) :
    accountSound (closeAccount s p) := by
  obtain ⟨hrecords, hsettling, hlength, hseq, -, hnext⟩ := h
  obtain ⟨hsound, hnumber⟩ := hsettling s hs
  obtain ⟨kept, hpush, hkept⟩ := pushHistory_eq p.account.history s.record
  have hclosed : (closeAccount s p).account = closedAccount (p.cfg.num .mismatchTol) s p.account :=
    (setEventIf_frame ..).same .account (by decide)
  have hmem : ∀ r ∈ kept, r ∈ p.account.history := by
    obtain ⟨rfl, -⟩ | rfl := hkept
    · exact fun _ => id
    · exact fun _ => List.mem_of_mem_tail
  have hkeptSeq : successive kept := by
    obtain ⟨rfl, -⟩ | rfl := hkept
    · exact hseq
    · exact successive_tail hseq
  have hkeptLast : ∀ last, kept.getLast? = some last → s.record.seq = last.seq + 1 := by
    intro last hl
    rw [hnumber]
    obtain ⟨rfl, -⟩ | rfl := hkept
    · exact hnext last hl
    · exact hnext last (getLast?_of_tail hl)
  have hkeptLength : kept.length < Config.historyPlaces := by
    obtain ⟨rfl, hroom⟩ | rfl := hkept
    · exact hroom
    · rw [List.length_tail]
      exact Nat.lt_of_le_of_lt (Nat.sub_le_sub_right hlength 1) (by decide)
  unfold accountSound
  simp only [hclosed, closedAccount, hpush]
  refine ⟨fun r hr => ?records, fun _ hnone => (nomatch hnone), ?length, successive_concat hkeptSeq hkeptLast, by simp, fun r hr => ?next⟩
  case length =>
    rw [List.length_append]
    exact hkeptLength
  case records =>
    obtain hr | hr := List.mem_append.mp hr
    · exact hrecords r (hmem r hr)
    · exact List.mem_singleton.mp hr ▸ hsound
  case next =>
    rw [List.getLast?_concat] at hr
    cases hr
    rw [hnumber]

/-- What an "account settled" does after its record is kept (R22). -/
theorem settle_frame_of_closed (s : Settling) (p : Part) :
    changesOnly [.links, .blend, .image, .wear, .warnings, .derate, .gen, .hold, .auth, .ports]
      (closeAccount s p) (settle s p) := by
  unfold settle
  extract_lets p1 p2 p3 p4 p5 p6 p7
  have h2 := (torqueStage_frame s p1).trans (n := [.links, .blend]) (keepRegPrev_frame s.record p2)
  have h4 := h2.trans (n := [.links, .blend, .image]) (decayStorage_frame p3)
  have h5 := h4.trans (n := [.links, .blend, .image, .wear, .warnings, .derate, .ports])
    (integrateRecord_frame s.record s.working p4)
  have h6 := h5.trans (n := [.links, .blend, .image, .wear, .warnings, .derate, .gen, .ports])
    (sequencerSettled_frame s.record s.working p5)
  have h7 := h6.trans (n := [.links, .blend, .image, .wear, .warnings, .derate, .gen, .hold, .auth, .ports])
    (socFloorJudged_frame s.working.soc p6)
  exact h7.trans (settlementFrames_frame s p7)

theorem accountSound_settle {s : Settling} {p : Part} (h : accountSound p) (hs : p.account.settling = some s) :
    accountSound (settle s p) :=
  accountSound_reads.keeps (settle_frame_of_closed s p) (accountSound_closeAccount h hs)

/-! ### Every step -/

theorem accountSound_of_reset {p : Part} (h : p.account = resetAccount) : accountSound p := by
  simp [accountSound, h, resetAccount, successive]

theorem accountSound_effect (i : Instr) (p : Part) (hreach : ∃ b ∈ [Block.account], b ∈ effectBlocks i)
    (h : accountSound p) : accountSound (effect i p) := by
  by_cases hdomains : movesDomains i = true
  · exact effect_keeps_of_movesDomains accountSound_reads hdomains h (fun _ _ _ => accountSound_of_reset rfl)
      (fun _ _ => accountSound_of_reset (runReset_account ..))
  cases i with
  | driveStatus =>
    refine whenRunning_keeps h fun _ => accountSound_of_sameLedger ?_ h
    obtain hd | hd := driveArrival_account _ p <;> rw [hd]
    · exact .refl _
    · exact sameLedger_withDump _
  | settlementTimerExpiry => exact whenDue_keeps h fun _ _ => accountSound_settlementExpires h
  | conversionComplete => exact whenRunning_keeps h fun _ => accountSound_conversionCompletes h
  | settlementBegin =>
    refine whenDue_keeps h fun _ _ => ?_
    unfold beginWaiting
    split
    · exact accountSound_beginSettlement h
    · exact h
  | accountSettled =>
    refine whenRunning_keeps h fun _ => ?_
    unfold settleCurrent
    split
    · next hs => exact accountSound_settle h hs
    · exact h
  | _ => first | exact absurd rfl hdomains | exact absurd hreach (by simp [effectBlocks, writeBlocks, brakeBlocks, holdBlocks, silenceBlocks])

/-- Settles O50: a beginning makes a sound record under the next number, a close appends it to the history, and no
other command touches a record. -/
theorem stepKeepsAccountSound : Obligations.StepKeepsAccountSound :=
  fun _ _ => step_keeps accountSound_reads accountSound_effect

end Sys2Proof.Machine
end

