-- ==== Sys2Proof/Proofs/Traversals.lean ====
section
/-! SUPPORT. What survives the few operations that the wear unit, the scanner, the arbiter and the hold controller are
built from survives the larger ones: each is walked through once here, for every property. -/

set_option Elab.async false

namespace Sys2Proof.Machine

/-! ### The wear unit -/

/-- The property survives what the wear unit does: another record of an item at its level, an event, and a judgement. -/
structure WearClosed (I : Part → Prop) : Prop where
  item : ∀ {p i it}, it.level = p.wear[i].level → I p → I (p.setWearItem i it)
  event : ∀ {e p}, I p → I (setEvent e p)
  judge : ∀ {i p}, I p → I (judgeItem i p)

namespace WearClosed

variable {I : Part → Prop} {p : Part}

theorem eventIf (h : WearClosed I) {c : Bool} {e : Event} (hp : I p) : I (setEventIf c e p) := by
  unfold setEventIf
  split
  · exact h.event hp
  · exact hp

theorem addUnits (h : WearClosed I) {i : WearNo} {k : Nat} (hp : I p) : I (addUnits i k p) :=
  h.eventIf (h.item (it := raisedItem k p.wear[i]) rfl hp)

theorem integrate (h : WearClosed I) {i : WearNo} {quantity unit : Nat} (hp : I p) :
    I (integrate i quantity unit p) :=
  h.addUnits (h.item rfl hp)

theorem countOne (h : WearClosed I) {i : WearNo} (hp : I p) : I (countOne i p) := h.judge (h.addUnits hp)

theorem wearResult (h : WearClosed I) {ch : Channel} {value : Int} (hp : I p) : I (wearResult ch value p) := by
  unfold Machine.wearResult judgeCycle
  split
  · dsimp only
    repeat' split
    · exact h.item rfl hp
    · exact h.countOne (h.item rfl hp)
    · exact hp
  · exact hp

theorem latchStage (h : WearClosed I) {i : WearNo} {found : Option Nat} (hp : I p) : I (latchStage i found p) := by
  unfold Machine.latchStage
  dsimp only
  repeat' split
  · exact hp
  · exact h.judge (h.item rfl hp)
  · exact hp

theorem roundDone (h : WearClosed I) (hp : I p) : I (roundDone p) := h.latchStage (h.latchStage (h.latchStage hp))

theorem integrateRecord (h : WearClosed I) {r : AccountRecord} {w : Working} (hp : I p) :
    I (integrateRecord r w p) := by
  unfold Machine.integrateRecord
  extract_lets p1 p2 p3 p4 p5 p6
  have h5 : I p5 := h.integrate (h.integrate (h.integrate (h.integrate (h.integrate hp))))
  have h6 : I p6 := by
    show I (if _ then _ else p5)
    split
    · exact h.integrate h5
    · exact h5
  exact h.judge (h.judge (h.judge (h.judge (h.judge h6))))

theorem applyWearWrite (h : WearClosed I) {i : WearNo} {f : WearFields} (hp : I p) : I (applyWearWrite i f p) := by
  have hlevel : (writtenItem f p.wear[i]).level = p.wear[i].level := by
    unfold writtenItem
    split <;> rfl
  exact h.judge (h.eventIf (h.item hlevel hp))

theorem wearWrite (h : WearClosed I) {item presence : Byte} {bytes : List Byte} (hp : I p) :
    I (wearWrite item presence bytes p).part := by
  unfold Machine.wearWrite
  repeat' split
  all_goals first | exact hp | exact h.applyWearWrite hp

theorem wearReset (h : WearClosed I) {item : Byte} (hp : I p) : I (wearReset item p).part := by
  unfold Machine.wearReset
  split
  · exact hp
  · exact h.judge (h.item rfl hp)

end WearClosed

/-! ### A new result -/

/-- The property also survives a change of the scanner, of the thermal set, and a settlement's beginning. -/
structure ResultClosed (I : Part → Prop) : Prop extends WearClosed I where
  scan : ∀ {p v}, I p → I (p.setScan v)
  thermal : ∀ {set p}, I p → I (setThermalSet set p)
  beginning : ∀ {b p}, I p → I (arriveBeginning b p)

namespace ResultClosed

variable {I : Part → Prop} {p : Part}

theorem handTrip (h : ResultClosed I) {k : MonitorNo} {a : MonitorAction} (hp : I p) : I (handTrip k a p) := by
  cases a with
  | thermalOverride => exact h.thermal hp
  | discHot => exact h.countOne hp
  | resistorInhibit | statusOnly => exact hp

theorem handReturn (h : ResultClosed I) {k : MonitorNo} {a : MonitorAction} (hp : I p) : I (handReturn k a p) := by
  cases a with
  | thermalOverride => exact h.thermal hp
  | discHot | resistorInhibit | statusOnly => exact hp

theorem judgeMonitor (h : ResultClosed I) {ch : Channel} {k : MonitorNo} (hp : I p) : I (judgeMonitor ch k p) := by
  have hset (m : Monitor) : I (p.setMonitor k m) := h.scan hp
  unfold Machine.judgeMonitor
  dsimp only
  split
  · split
    · exact h.handTrip (hset _)
    · split
      · exact h.handReturn (hset _)
      · exact hset _
  · exact hp

theorem judgeMonitors (h : ResultClosed I) {ch : Channel} (hp : I p) : I (judgeMonitors ch p) := by
  unfold Machine.judgeMonitors
  generalize ([0, 1, 2, 3, 4, 5, 6, 7] : List MonitorNo) = l
  induction l generalizing p with
  | nil => exact hp
  | cons k l ih => exact ih (h.judgeMonitor hp)

theorem handResult (h : ResultClosed I) {ch : Channel} {value : Int} (hp : I p) : I (handResult ch value p) :=
  h.judgeMonitors (h.wearResult hp)

theorem newResult (h : ResultClosed I) {ch : Channel} {raw : BitVec 12} (hp : I p) : I (newResult ch raw p) :=
  h.handResult (h.scan hp)

theorem takePending (h : ResultClosed I) (hp : I p) : I (takePending p) := by
  unfold Machine.takePending
  split
  · exact h.scan (h.scan hp)
  · exact h.scan hp

theorem afterEventRun (h : ResultClosed I) (hp : I p) : I (afterEventRun p) := by
  unfold Machine.afterEventRun resumeOrTake
  repeat' split
  · exact h.scan hp
  · exact h.scan hp
  · exact h.takePending hp

theorem advancePosition (h : ResultClosed I) (hp : I p) : I (advancePosition p) := by
  unfold Machine.advancePosition
  split
  · exact h.scan hp
  · exact h.roundDone (h.scan hp)

theorem routineConversion (h : ResultClosed I) {raw : BitVec 12} (hp : I p) : I (routineConversion raw p) := by
  unfold Machine.routineConversion countEntry
  repeat' split
  · exact h.scan (h.handResult (h.advancePosition (h.scan hp)))
  · exact h.takePending (h.scan (h.handResult (h.advancePosition (h.scan hp))))
  · exact hp

theorem conversionCompletes (h : ResultClosed I) {raw : BitVec 12} (hp : I p) : I (conversionCompletes raw p) := by
  unfold Machine.conversionCompletes
  dsimp only
  repeat' split
  · exact hp
  · exact h.routineConversion hp
  · exact hp
  · exact h.afterEventRun (h.beginning (h.newResult hp))
  · exact h.scan (h.newResult hp)
  · exact h.scan hp
  · exact hp

end ResultClosed

/-! ### The hold controller and the arbiter -/

/-- The blocks that the hold controller, the sequencer, the image and the scanner write, beside the arbiter's and the
ports'. -/
def controlBlocks : List Block :=
  [.lines, .watch, .image, .partState, .account, .hold, .gen, .scan, .cal, .blend, .slots]

/-- The property survives changes of the control blocks, events, and evaluations of the arbiter. -/
structure ControlClosed (I : Part → Prop) : Prop where
  blocks : ∀ {p q}, changesOnly controlBlocks p q → I p → I q
  event : ∀ {e p}, I p → I (setEvent e p)
  eval : ∀ {src p}, I p → I (evalSource src p)

namespace ControlClosed

variable {I : Part → Prop} {p : Part}

theorem frame (h : ControlClosed I) {l : List Block} {q : Part} (hq : changesOnly l p q) (hp : I p)
    (hl : ∀ b ∈ l, b ∈ controlBlocks := by decide) : I q :=
  h.blocks (hq.mono hl) hp

theorem eventIf (h : ControlClosed I) {c : Bool} {e : Event} (hp : I p) : I (setEventIf c e p) := by
  unfold setEventIf
  split
  · exact h.event hp
  · exact hp

theorem changeHold (h : ControlClosed I) {new : HoldState} {rule : Option Nat} (hp : I p) :
    I (changeHold new rule p) :=
  h.eval (h.event (h.frame ((setHold_frame p _).trans (n := [.hold, .gen]) (setStartRequest_frame ..)) hp))

theorem breakHold (h : ControlClosed I) (hp : I p) : I (breakHold p) := by
  unfold Machine.breakHold
  split
  · exact hp
  · exact h.changeHold hp

theorem holdRunWithStart (h : ControlClosed I) (hp : I p) : I (holdRunWithStart p) :=
  h.frame ((setStartRequest_frame ..).trans (n := [.gen]) (actOnRequest_frame _)) (h.changeHold hp)

theorem enterHold (h : ControlClosed I) (hp : I p) : I (enterHold p) := by
  have hentered : I (enteredHold p) := by
    unfold enteredHold
    dsimp only
    split
    · exact h.frame (routineTrigger_frame ..) (h.changeHold hp)
    · exact h.changeHold hp
  rw [enterHold_eq]
  split
  · exact hentered
  · exact h.frame (quietEntryLink_frame _) hentered

theorem holdArrival (h : ControlClosed I) {before : DriveData} (hp : I p) : I (holdArrival before p) := by
  unfold Machine.holdArrival holdRunArrival holdQuietArrival layoverArrival
  repeat' split
  all_goals first
    | exact h.enterHold hp
    | exact h.breakHold hp
    | exact h.holdRunWithStart hp
    | exact hp
    | exact h.changeHold hp

theorem driveArrival (h : ControlClosed I) {d : DriveData} (hp : I p) : I (driveArrival d p) := by
  have hstored : I (readyCheck (storeDrive d p)) :=
    h.frame ((storeDrive_frame d p).trans (n := [.image, .partState]) (readyCheck_frame _)) hp
  exact h.eval (h.eval (h.frame (quietZoneArrival_frame ..) (h.holdArrival hstored)))

theorem holdRoll (h : ControlClosed I) (hp : I p) : I (holdRoll p) := by
  unfold Machine.holdRoll
  split
  · exact h.breakHold (h.event hp)
  · exact hp

theorem brakeArrival (h : ControlClosed I) {d : BrakeData} (hp : I p) : I (brakeArrival d p) := by
  have hstored : I (readyCheck (storeBrake d p)) :=
    h.frame ((storeBrake_frame d p).trans (n := [.image, .partState]) (readyCheck_frame _)) hp
  have hheld := h.holdRoll (h.eval (src := .limp) (h.eval (src := .blend) (h.eval (src := .slip)
    (h.eval (src := .safeStop) hstored))))
  unfold Machine.brakeArrival speedArrival
  split
  · exact h.frame (ceaseStanding_frame _) hheld
  · exact hheld

theorem layoverExpires (h : ControlClosed I) (hp : I p) : I (layoverExpires p) := by
  unfold Machine.layoverExpires
  split
  · exact h.frame (setHold_frame p _) hp
  · exact h.holdRunWithStart hp

theorem expireHoldTimers (h : ControlClosed I) (hp : I p) : I (expireHoldTimers p) := by
  unfold Machine.expireHoldTimers
  repeat' split
  · exact h.changeHold hp
  · exact h.layoverExpires hp
  · exact hp

theorem socFloorJudged (h : ControlClosed I) {soc : Nat} (hp : I p) : I (socFloorJudged soc p) := by
  unfold Machine.socFloorJudged
  repeat' split
  · exact hp
  · exact hp
  · exact h.event (h.frame (setHold_frame p _) hp)
  · exact h.holdRunWithStart hp
  · exact h.frame (setHold_frame p _) hp

theorem enterFailed (h : ControlClosed I) {counted : Bool} (hp : I p) : I (enterFailed counted p) := by
  simp only [Machine.enterFailed]
  repeat' split
  all_goals exact h.frame (setGen_frame ..) (h.event hp)

theorem driveSilent (h : ControlClosed I) (hp : I p) : I (driveSilent p) := h.breakHold (h.eval hp)

theorem becomeStale (h : ControlClosed I) {partner : Partner} (hp : I p) : I (becomeStale partner p) := by
  have hfresh : I (setFreshness partner .stale p) := h.frame (setFreshness_frame ..) hp
  unfold Machine.becomeStale handStale
  split
  · exact h.driveSilent hfresh
  · exact hfresh
  · exact hfresh
  · exact h.eval (h.eval (h.eval hfresh))

theorem becomeLost (h : ControlClosed I) {partner : Partner} (hp : I p) : I (becomeLost partner p) := by
  have hfresh : I (setFreshness partner .lost p) := h.frame (setFreshness_frame ..) hp
  unfold Machine.becomeLost handLost generatorLost
  repeat' split
  all_goals first
    | exact h.driveSilent hfresh
    | exact hfresh
    | exact h.enterFailed hfresh
    | exact h.eval (h.eval (h.eval hfresh))

theorem lostIfNever (h : ControlClosed I) {partner : Partner} (hp : I p) : I (lostIfNever partner p) := by
  unfold Machine.lostIfNever
  split
  · exact h.becomeLost hp
  · exact hp

theorem startWindowExpires (h : ControlClosed I) (hp : I p) : I (startWindowExpires p) :=
  h.frame (setPartState_frame ..) (h.lostIfNever (h.lostIfNever (h.lostIfNever (h.lostIfNever hp))))

theorem freshnessLimitWritten (h : ControlClosed I) {partner : Partner} (hp : I p) :
    I (freshnessLimitWritten partner p) := by
  unfold Machine.freshnessLimitWritten
  dsimp only
  repeat' split
  · exact h.becomeLost (h.becomeStale hp)
  · exact h.becomeStale hp
  · exact h.becomeLost hp
  · exact hp

theorem judgeEpisode (h : ControlClosed I) {aDem : Nat} (hp : I p) : I (judgeEpisode aDem p) := by
  unfold Machine.judgeEpisode episodeEnd episodeStart
  repeat' split
  · exact h.eval (h.frame (setBlend_frame p _) hp)
  · exact hp
  · exact hp
  · exact h.frame (ceaseStanding_frame _) (h.eval (h.eventIf (h.frame
      ((setBlend_frame p _).trans (n := [.blend, .slots]) (setSlots_frame _ _)) hp)))

theorem lineChanges (h : ControlClosed I) {line : EmergencyLine} {active : Bool} (hp : I p) :
    I (lineChanges line active p) := by
  have hlines : I (p.setLines (p.lines.set line active)) := h.frame (setLines_frame p _) hp
  unfold Machine.lineChanges
  dsimp only
  split
  · exact h.frame (moveWatch_frame _) (h.eval hlines)
  · exact hlines

/-- Of the writes of a number only those of the economy items reach more than the control blocks, the arbiter and
events (R197). -/
theorem numWritten (h : ControlClosed I) (hreform : ∀ {q}, I q → I (reformFactors q)) {i : NumItem} (hp : I p) :
    I (numWritten i p) := by
  unfold Machine.numWritten
  split
  all_goals first
    | exact hp
    | exact h.eval hp
    | exact h.freshnessLimitWritten hp
    | exact h.expireHoldTimers (h.frame (setHold_frame p _) hp)
    | exact h.expireHoldTimers hp
    | exact hreform hp
    | exact h.frame (setScan_frame p _) hp

end ControlClosed

/-! ### A close -/

/-- The part at an "account settled" when the ports are about to form their frames (R22). -/
def settledPart (s : Settling) (p : Part) : Part :=
  socFloorJudged s.working.soc (sequencerSettled s.record s.working (integrateRecord s.record s.working
    (decayStorage (keepRegPrev s.record (torqueStage s (closeAccount s p))))))

theorem settle_eq (s : Settling) (p : Part) : settle s p = settlementFrames s (settledPart s p) := rfl

/-- The close is made of operations of the control blocks, of the wear unit and of the motor links. -/
theorem ControlClosed.settledPart {I : Part → Prop} {p : Part} {s : Settling} (h : ControlClosed I) (hw : WearClosed I)
    (hlinks : ∀ {p q}, changesOnly [.links] p q → I p → I q) (hp : I p) : I (settledPart s p) := by
  have hclosed : I (closeAccount s p) := h.eventIf (h.frame (setAccount_frame p _) hp)
  have hdecayed := h.frame (decayStorage_frame _) (h.frame (keepRegPrev_frame s.record _)
    (hlinks (torqueStage_frame s _) hclosed))
  exact h.socFloorJudged (h.frame (sequencerSettled_frame ..) (hw.integrateRecord hdecayed))

end Sys2Proof.Machine
end

