-- ==== Sys2Proof/Proofs/WarningsKept.lean ====
section
/-! SUPPORT. What every step keeps of the warning list: one entry for each item whose level is not OK, at the item's
level (the law of R173). The list is only written where a level changes, by the table of R173, where it is
acknowledged, and where it is rebuilt after keep-alive loss. -/

set_option Elab.async false

namespace Sys2Proof.Machine

variable {p q : Part} {i j : WearNo}

/-! ### The list and the levels -/

/-- The levels that the list holds for an item. -/
def listedLevels (j : WearNo) (l : List Warning) : List Level := (l.filter (·.item = j)).map (·.level)

/-- The levels that the law of R173 lists for an item at a level. -/
def lawfulLevels (level : Level) : List Level := if level = .ok then [] else [level]

theorem warningsSound_iff : warningsSound p ↔
    p.wear[(11 : WearNo)].level = .ok ∧ ∀ j : WearNo, listedLevels j p.warnings = lawfulLevels p.wear[j].level := Iff.rfl

theorem warningsSound_reads : readsOnly [.wear, .warnings] warningsSound := fun {p q} h => by
  rw [warningsSound_iff, warningsSound_iff, (h .wear (by decide) : q.wear = p.wear),
    (h .warnings (by decide) : q.warnings = p.warnings)]
  exact id

theorem warningsSound_of_levels (hp : warningsSound p) (hlist : ∀ j, listedLevels j q.warnings = listedLevels j p.warnings)
    (hlevel : ∀ j : WearNo, q.wear[j].level = p.wear[j].level) : warningsSound q := by
  obtain ⟨h11, hlaw⟩ := warningsSound_iff.mp hp
  refine warningsSound_iff.mpr ⟨(hlevel 11).trans h11, fun j => ?_⟩
  rw [hlist, hlevel]
  exact hlaw j

theorem wear_setWearItem (i j : WearNo) (it : WearItem) (p : Part) :
    (p.setWearItem i it).wear[j] = if j = i then it else p.wear[j] := by
  split
  · next h =>
    rw [h]
    exact setWearItem_wear_self
  · next h => exact setWearItem_wear_other h

/-! ### The table of R173 -/

section
variable {old new : Level} {stamp : Stamp} {l : List Warning}

theorem listedLevels_removeWarning_self : listedLevels i (removeWarning i l) = [] := by
  simp [listedLevels, removeWarning, List.filter_filter]

theorem listedLevels_removeWarning_other (h : j ≠ i) : listedLevels j (removeWarning i l) = listedLevels j l := by
  have hkeep : ∀ w : Warning, (decide (w.item = j) && decide (w.item ≠ i)) = decide (w.item = j) := by
    intro w
    by_cases hj : w.item = j <;> simp [hj, h]
  simp only [listedLevels, removeWarning, List.filter_filter, hkeep]

theorem listedLevels_append (a b : List Warning) : listedLevels j (a ++ b) = listedLevels j a ++ listedLevels j b := by
  simp [listedLevels]

theorem listedLevels_relevel_self :
    listedLevels i (l.map fun w => if w.item = i then { w with level := new } else w) =
      (listedLevels i l).map fun _ => new := by
  induction l with
  | nil => rfl
  | cons w l ih =>
    unfold listedLevels at ih ⊢
    by_cases hw : w.item = i <;> simp [hw, ih]

theorem listedLevels_relevel_other (h : j ≠ i) :
    listedLevels j (l.map fun w => if w.item = i then { w with level := new } else w) = listedLevels j l := by
  induction l with
  | nil => rfl
  | cons w l ih =>
    unfold listedLevels at ih ⊢
    by_cases hw : w.item = i
    · simp [hw, Ne.symm h, ih]
    · by_cases hj : w.item = j <;> simp [hw, hj, h, ih]

/-- A level that is not OK and no rise from another one is a fall from a level that was listed (R173). -/
theorem old_ne_ok_of_fall (hne : new ≠ old) (hok : new ≠ .ok) (hfall : ¬ old.rank < new.rank) : old ≠ .ok := by
  cases old <;> cases new <;> simp_all [Level.rank]

theorem listedLevels_updateWarnings_self (hne : new ≠ old) (hl : listedLevels i l = lawfulLevels old) :
    listedLevels i (updateWarnings i old new stamp l) = lawfulLevels new := by
  unfold updateWarnings
  split
  · next h => rw [listedLevels_removeWarning_self, h]; rfl
  · next hok =>
    split
    · rw [listedLevels_append, listedLevels_removeWarning_self]
      simp [listedLevels, lawfulLevels, hok]
    · next hfall =>
      have hold := old_ne_ok_of_fall hne hok hfall
      rw [listedLevels_relevel_self, hl]
      simp [lawfulLevels, hok, hold]

theorem listedLevels_updateWarnings_other (h : j ≠ i) :
    listedLevels j (updateWarnings i old new stamp l) = listedLevels j l := by
  unfold updateWarnings
  split
  · exact listedLevels_removeWarning_other h
  · split
    · rw [listedLevels_append, listedLevels_removeWarning_other h]
      simp [listedLevels, Ne.symm h]
    · exact listedLevels_relevel_other h

end

/-! ### The wear unit -/

theorem formedLevel_of_stat {it : WearItem} : formedLevel 11 it = it.level := rfl

theorem warningsSound_judgeItem (hp : warningsSound p) : warningsSound (judgeItem i p) := by
  obtain ⟨h11, hlaw⟩ := warningsSound_iff.mp hp
  by_cases hsame : formedLevel i p.wear[i] = p.wear[i].level
  · rw [judgeItem_of_same hsame]
    refine warningsSound_of_levels hp (fun _ => rfl) fun j => ?_
    rw [wear_setWearItem]
    split
    · next h => rw [h]; exact hsame
    · rfl
  · have hwear : (judgeItem i p).wear = _ := judgeItem_wear (i := i) (p := p)
    have hlist : (judgeItem i p).warnings = updateWarnings i p.wear[i].level (formedLevel i p.wear[i]) p.now p.warnings := by
      rw [judgeItem_of_change hsame]
      exact handOnLevel_warnings ..
    refine warningsSound_iff.mpr ⟨?stat, fun j => ?law⟩
    case stat =>
      have hi : (11 : WearNo) ≠ i := fun h => hsame (h ▸ formedLevel_of_stat)
      simp only [hwear]
      rw [setWearItem_wear_other hi]
      exact h11
    case law =>
      simp only [hwear, hlist]
      rw [wear_setWearItem]
      split
      · next h =>
        rw [h]
        exact listedLevels_updateWarnings_self hsame (hlaw i)
      · next h =>
        rw [listedLevels_updateWarnings_other h]
        exact hlaw j

theorem warningsSound_resultClosed : ResultClosed warningsSound where
  item hlevel hp := by
    refine warningsSound_of_levels hp (fun _ => rfl) fun j => ?_
    rw [wear_setWearItem]
    split
    · next h => rw [h]; exact hlevel
    · rfl
  event hp := warningsSound_reads.keeps (setEvent_frame ..) hp
  judge hp := warningsSound_judgeItem hp
  scan hp := warningsSound_reads.keeps (setScan_frame ..) hp
  thermal hp := warningsSound_reads.keeps (setThermalSet_frame ..) hp
  beginning hp := warningsSound_reads.keeps (arriveBeginning_frame ..) hp

theorem warningsSound_ackWarning {item : Byte} (hp : warningsSound p) : warningsSound (ackWarning item p).part := by
  unfold ackWarning
  split
  · exact hp
  · next i _ =>
    split
    · refine warningsSound_of_levels hp (fun j => ?_) fun _ => rfl
      show listedLevels j (p.warnings.map _) = _
      induction p.warnings with
      | nil => rfl
      | cons w l ih =>
        unfold listedLevels at ih ⊢
        by_cases hw : w.item = i <;> by_cases hj : w.item = j <;> simp_all
    · exact hp

/-- What a report can do: count an engine start at an entry into CRANKING, or reach the sequencer and events alone
(R112, R114 to R121, R165). -/
def countsOrMoves (p q : Part) : Prop :=
  (∃ r, changesOnly [.gen] p r ∧ q = countOne 8 r) ∨ changesOnly [.gen, .ports] p q

theorem countsOrMoves_cranking (timer : Option GenTimer) :
    countsOrMoves p (countOne 8 (actOnRequest (setGenLink .cranking timer p))) :=
  .inl ⟨_, (setGenLink_frame ..).trans (actOnRequest_frame _), rfl⟩

theorem countsOrMoves_failed (counted : Bool) : countsOrMoves p (enterFailed counted p) := .inr (enterFailed_frame ..)

theorem countsOrMoves_of_gen (h : changesOnly [.gen] p q) : countsOrMoves p q := .inr h.mono

theorem countsOrMoves_same : countsOrMoves p p := .inr (.refl _ p)

theorem countsOrMoves_firstReport (r : EngineReport) (p : Part) : countsOrMoves p (firstReport r p) := by
  cases r with
  | stopped => exact countsOrMoves_of_gen (enterOff_frame p)
  | fault => exact countsOrMoves_failed false
  | cranking =>
    dsimp only [firstReport]
    split
    · exact countsOrMoves_of_gen (enterStopSent_frame p)
    · exact countsOrMoves_cranking _
  | running =>
    dsimp only [firstReport]
    split
    · exact countsOrMoves_of_gen (enterStopSent_frame p)
    · exact countsOrMoves_of_gen (enterSettling_frame p)

theorem countsOrMoves_judgeReport (r : EngineReport) (p : Part) : countsOrMoves p (judgeReport r p) := by
  unfold judgeReport
  split
  case h_1 => exact countsOrMoves_firstReport _ p
  case h_4 => exact countsOrMoves_cranking _
  case h_5 | h_7 => exact countsOrMoves_of_gen (enterSettling_frame p)
  case h_16 => exact countsOrMoves_of_gen (enterOff_frame p)
  case h_2 | h_6 | h_9 | h_11 | h_13 | h_15 | h_17 => exact countsOrMoves_failed true
  all_goals exact countsOrMoves_same

theorem warningsSound_judgeReport {r : EngineReport} (hp : warningsSound p) : warningsSound (judgeReport r p) := by
  obtain ⟨q, hq, hcount⟩ | hframe := countsOrMoves_judgeReport r p
  · rw [hcount]
    exact warningsSound_resultClosed.countOne (warningsSound_reads.keeps hq hp)
  · exact warningsSound_reads.keeps hframe hp

theorem warningsSound_controlClosed : ControlClosed warningsSound where
  blocks h hp := warningsSound_reads.keeps h hp
  event hp := warningsSound_reads.keeps (setEvent_frame ..) hp
  eval hp := warningsSound_reads.keeps (evalSource_frame ..) hp

theorem warningsSound_settle {s : Settling} (hp : warningsSound p) : warningsSound (settle s p) :=
  warningsSound_reads.keeps (settlementFrames_frame ..) (warningsSound_controlClosed.settledPart
    warningsSound_resultClosed.toWearClosed (fun h hp => warningsSound_reads.keeps h hp) hp)

/-! ### Every step -/

theorem warningsSound_of_lost (hwear : p.wear = lostWear) (hlist : p.warnings = lostWarnings) : warningsSound p := by
  rw [warningsSound_iff, hwear, hlist]
  decide

theorem warningsSound_runReset {cause : ResetCause} (hp : warningsSound p) : warningsSound (runReset cause p) := by
  cases h : p.marker
  case true => exact warningsSound_reads.keeps (runReset_frame_whole cause p h) hp
  case false =>
    obtain ⟨-, -, -, -, hwear, hlist, -⟩ := runReset_of_lost cause p h
    exact warningsSound_of_lost hwear hlist

theorem warningsSound_effect (i : Instr) (p : Part) (hreach : ∃ b ∈ [Block.wear, .warnings], b ∈ effectBlocks i)
    (h : warningsSound p) : warningsSound (effect i p) := by
  have hports {q r : Part} (hq : changesOnly [.ports] q r) (h : warningsSound q) := warningsSound_reads.keeps hq h
  by_cases hdomains : movesDomains i = true
  · refine effect_keeps_of_movesDomains warningsSound_reads hdomains h (fun p' v hcal => ?_) fun cause v => ?_
    · exact warningsSound_reads.keeps ((hcal.trans (n := .cal :: runBlocks) (resetRunDomain_frame _)).trans
        (n := .power :: .cal :: runBlocks) (setPower_frame _ _)) h
    · exact warningsSound_runReset (warningsSound_reads.keeps (setPower_frame p v) h)
  cases i with
  | genStatus => exact whenRunning_keeps h fun _ => warningsSound_judgeReport (warningsSound_reads.keeps
      (((storeGenerator_frame _ p).trans (n := [.image, .partState]) (readyCheck_frame _)).trans
        (n := [.image, .partState, .gen]) (setGen_frame _ _)) h)
  | ackWarning => exact request_keeps hports h (warningsSound_ackWarning h)
  | wearWrite => exact request_keeps hports h (warningsSound_resultClosed.wearWrite h)
  | wearReset => exact request_keeps hports h (warningsSound_resultClosed.wearReset h)
  | conversionComplete => exact whenRunning_keeps h fun _ => warningsSound_resultClosed.conversionCompletes h
  | accountSettled =>
    refine whenRunning_keeps h fun _ => ?_
    unfold settleCurrent
    split
    · exact warningsSound_settle h
    · exact h
  | _ => first | exact absurd rfl hdomains | exact absurd hreach (by
      simp [effectBlocks, writeBlocks, brakeBlocks, holdBlocks, silenceBlocks, driveBlocks, beginBlocks])

/-- Settles O53: every judgement of the wear unit writes the list by the table of R173 where it changes a level, and
nothing else writes either but the acknowledgement and keep-alive loss. -/
theorem stepKeepsWarningsSound : Obligations.StepKeepsWarningsSound :=
  fun _ _ => step_keeps warningsSound_reads warningsSound_effect

end Sys2Proof.Machine
end

