-- ==== Sys2Proof/Proofs/FactorsKept.lean ====
section
/-! SUPPORT. What every step keeps of the derate unit: the factors of a running part are the ones its causes give (R124,
R132 to R136), and a part that is up but held in reset waits with a cause (R201). Whatever changes a cause of the
factors forms them again. -/

set_option Elab.async false

namespace Sys2Proof.Machine

variable {p q : Part}

/-! ### The causes of the factors -/

/-- Two parts agree on what the factors are formed from, and on the factors. -/
structure sameCauses (p q : Part) : Prop where
  derate : q.derate = p.derate
  economyEnable : q.cfg.num .economyEnable = p.cfg.num .economyEnable
  economyCode : q.cfg.num .economyCode = p.cfg.num .economyCode
  levels : ∀ j : WearNo, j.val ≤ 7 → q.wear[j].level = p.wear[j].level

theorem factorsFormed_of_sameCauses (h : sameCauses p q) (hp : factorsFormed p) : factorsFormed q := by
  obtain ⟨hderate, henable, hcode, hlevels⟩ := h
  have level (j : Nat) (hj : j ≤ 7 := by decide) : (q.wear[j]'(by omega)).level = (p.wear[j]'(by omega)).level :=
    hlevels ⟨j, by omega⟩ hj
  have hover : overriding q = overriding p := by unfold overriding; rw [hderate]
  have hlining : liningLimited q = liningLimited p := by
    unfold liningLimited
    rw [level 0, level 1, level 2]
  have hon : q.cfg.on .economyEnable = p.cfg.on .economyEnable := by unfold ConfigStore.on; rw [henable]
  have hcap : leastCap q = leastCap p := by
    funext d
    unfold leastCap
    rw [hover, hlining, hon, hcode, hderate]
  unfold factorsFormed
  rw [hcap, hover, hderate, level 3, level 4, level 5, level 6, level 7]
  exact hp

theorem factorsFormed_reads : readsOnly [.cfg, .wear, .derate] factorsFormed := fun {p q} h => by
  have hcfg : q.cfg = p.cfg := h .cfg (by decide)
  have hwear : q.wear = p.wear := h .wear (by decide)
  exact factorsFormed_of_sameCauses ⟨h .derate (by decide), by rw [hcfg], by rw [hcfg], fun _ _ => by rw [hwear]⟩

theorem factorsFormed_reformFactors (p : Part) : factorsFormed (reformFactors p) :=
  (factorsFormed_setEventIf ..).mpr (factorsFormed_setDerate_formFactors p)

/-! ### The wear unit -/

theorem sameCauses_setWearItem {i : WearNo} {it : WearItem} (h : i.val ≤ 7 → it.level = p.wear[i].level) :
    sameCauses p (p.setWearItem i it) := by
  refine ⟨rfl, rfl, rfl, fun j hj => ?_⟩
  rw [wear_setWearItem]
  split
  · next hji =>
    subst hji
    exact h hj
  · rfl

theorem factorsFormed_judgeItem {i : WearNo} (hp : factorsFormed p) : factorsFormed (judgeItem i p) := by
  by_cases hsame : formedLevel i p.wear[i] = p.wear[i].level
  · rw [judgeItem_of_same hsame]
    exact factorsFormed_of_sameCauses (sameCauses_setWearItem fun _ => hsame) hp
  · by_cases hread : i.val ≤ 7
    · rw [judgeItem_of_change hsame, handOnLevel_eq, if_pos hread]
      exact factorsFormed_reformFactors _
    · have hderate := judgeItem_derate_of_gt (i := i) (p := p) (Nat.lt_of_not_le hread)
      have hframe := judgeItem_frame i p
      have hcfg : (judgeItem i p).cfg = p.cfg := hframe.same .cfg (by decide)
      refine factorsFormed_of_sameCauses ⟨hderate, by rw [hcfg], by rw [hcfg], fun j hj => ?_⟩ hp
      simp only [judgeItem_wear]
      rw [setWearItem_wear_other fun h => hread (by rwa [← h])]

theorem factorsFormed_setThermalSet (set : BitVec 8) (p : Part) : factorsFormed (setThermalSet set p) :=
  factorsFormed_reformFactors _

theorem factorsFormed_resultClosed : ResultClosed factorsFormed where
  item hlevel hp := factorsFormed_of_sameCauses (sameCauses_setWearItem fun _ => hlevel) hp
  event hp := factorsFormed_reads.keeps (setEvent_frame ..) hp
  judge hp := factorsFormed_judgeItem hp
  scan hp := factorsFormed_reads.keeps (setScan_frame ..) hp
  thermal _ := factorsFormed_setThermalSet ..
  beginning hp := factorsFormed_reads.keeps (arriveBeginning_frame ..) hp

theorem factorsFormed_judgeReport {r : EngineReport} (hp : factorsFormed p) : factorsFormed (judgeReport r p) := by
  obtain ⟨q, hq, hcount⟩ | hframe := countsOrMoves_judgeReport r p
  · rw [hcount]
    exact factorsFormed_resultClosed.countOne (factorsFormed_reads.keeps hq hp)
  · exact factorsFormed_reads.keeps hframe hp

/-- The control blocks, events and the arbiter are no cause of a factor. -/
theorem factorsFormed_controlClosed : ControlClosed factorsFormed where
  blocks h hp := factorsFormed_reads.keeps h hp
  event hp := factorsFormed_reads.keeps (setEvent_frame ..) hp
  eval hp := factorsFormed_reads.keeps (evalSource_frame ..) hp

theorem factorsFormed_settle {s : Settling} (hp : factorsFormed p) : factorsFormed (settle s p) :=
  factorsFormed_reads.keeps (settlementFrames_frame ..) (factorsFormed_controlClosed.settledPart
    factorsFormed_resultClosed.toWearClosed (fun h hp => factorsFormed_reads.keeps h hp) hp)

/-! ### Writes and settings -/

theorem NumItem.place_injective {i j : NumItem} (h : i.place = j.place) : i = j := by
  cases i <;> cases j <;> first | rfl | exact absurd h (by decide)

theorem num_setNum (c : ConfigStore) (i j : NumItem) (v : Nat) :
    (c.setNum i v).num j = if j = i then v else c.num j := by
  unfold ConfigStore.setNum ConfigStore.num
  split
  · next h =>
    subst h
    exact Vector.getElem_set_self _
  · next h =>
    exact Vector.getElem_set_ne i.place.isLt j.place.isLt fun hplace =>
      h (NumItem.place_injective (Fin.ext hplace.symm))

theorem num_setNum_self {c : ConfigStore} {i : NumItem} {v : Nat} : (c.setNum i v).num i = v := by
  rw [num_setNum, if_pos rfl]

theorem num_setNum_other {c : ConfigStore} {i j : NumItem} {v : Nat} (h : j ≠ i) : (c.setNum i v).num j = c.num j := by
  rw [num_setNum, if_neg h]

theorem factorsFormed_writeNum {i : NumItem} {n : Nat} (hp : factorsFormed p) :
    factorsFormed (numWritten i (p.setCfg (p.cfg.setNum i n))) := by
  by_cases heconomy : i = .economyEnable ∨ i = .economyCode
  · obtain rfl | rfl := heconomy <;> exact factorsFormed_reformFactors _
  · obtain ⟨henable, hcode⟩ := not_or.mp heconomy
    exact factorsFormed_controlClosed.numWritten (fun _ => factorsFormed_reformFactors _)
      (factorsFormed_of_sameCauses (p := p)
        ⟨rfl, num_setNum_other (Ne.symm henable), num_setNum_other (Ne.symm hcode), fun _ _ => rfl⟩ hp)

/-- A store with the same numbers gives the same factors. -/
theorem factorsFormed_setCfg {c : ConfigStore} (hnum : c.nums = p.cfg.nums) (hp : factorsFormed p) :
    factorsFormed (p.setCfg c) := by
  have num (i : NumItem) : c.num i = p.cfg.num i := by unfold ConfigStore.num; rw [hnum]
  exact factorsFormed_of_sameCauses (p := p) ⟨rfl, num _, num _, fun _ _ => rfl⟩ hp

theorem factorsFormed_reconfigureMonitor {k : MonitorNo} {new : MonitorCfg} (hp : factorsFormed p) :
    factorsFormed (reconfigureMonitor k new p) := by
  have hcfg : factorsFormed (p.setCfg { p.cfg with monitors := p.cfg.monitors.set k new }) :=
    factorsFormed_setCfg rfl hp
  have hreset := factorsFormed_reads.keeps (setMonitor_frame k { p.scan.monitors[k] with state := .inside, count := 0 }
    (p.setCfg { p.cfg with monitors := p.cfg.monitors.set k new })) hcfg
  unfold reconfigureMonitor
  dsimp only
  split
  · split
    · exact factorsFormed_resultClosed.handReturn hreset
    · exact hreset
  · split
    · split
      · exact factorsFormed_setThermalSet ..
      · split
        · exact factorsFormed_setThermalSet ..
        · exact hcfg
    · exact hcfg

theorem factorsFormed_applyWrite {it : ConfigItem} {v : ConfigValue} (hp : factorsFormed p) :
    factorsFormed (applyWrite it v p) := by
  unfold applyWrite
  split
  · exact factorsFormed_writeNum hp
  · exact factorsFormed_setCfg rfl hp
  · exact factorsFormed_setCfg rfl hp
  · next l =>
    have hset : factorsFormed ((p.setCfg { p.cfg with routineList := l }).setScan
        { p.scan with run := none, position := 0 }) :=
      factorsFormed_reads.keeps (setScan_frame ..) (factorsFormed_setCfg rfl hp)
    unfold replaceRoutineList
    dsimp only
    split
    · exact factorsFormed_resultClosed.takePending hset
    all_goals exact hset
  · exact factorsFormed_reconfigureMonitor hp
  · exact factorsFormed_setCfg rfl hp
  · exact factorsFormed_reads.keeps (moveWatch_frame _) (factorsFormed_reads.keeps (setWatch_frame ..)
      (factorsFormed_setCfg rfl hp))
  · exact hp

theorem factorsFormed_writeOverrideCode {bytes : List Byte} (hp : factorsFormed p) :
    factorsFormed (writeOverrideCode bytes p).part := by
  unfold writeOverrideCode
  split
  · exact hp
  · split
    · split
      · exact factorsFormed_reformFactors _
      · exact hp
    · exact hp

theorem factorsFormed_configWrite {port : Port} {number : BitVec 16} {bytes : List Byte} (hp : factorsFormed p) :
    factorsFormed (configWrite port number bytes p).part := by
  unfold configWrite writeValue
  split
  · exact hp
  · split
    · exact hp
    · split
      · exact factorsFormed_writeOverrideCode hp
      · split
        · exact hp
        · split
          · exact hp
          · split
            · exact hp
            · exact factorsFormed_applyWrite hp

theorem factorsFormed_forceDerate {v : Byte} (hp : factorsFormed p) : factorsFormed (forceDerate v p).part := by
  unfold forceDerate
  split
  · exact factorsFormed_reformFactors _
  · exact factorsFormed_reformFactors _
  · exact hp

/-! ### Every step -/

theorem factorsFormed_runReset (cause : ResetCause) (p : Part) : factorsFormed (runReset cause p) :=
  factorsFormed_reads.keeps (moveWatch_frame _) (factorsFormed_setDerate_formFactors _)

/-- A run reset leaves no cause waiting, and the line as it is. -/
theorem factorsCurrent_runReset {cause : ResetCause} (h : p.power.resetLine = false) :
    factorsCurrent (runReset cause p) := by
  refine ⟨fun _ hline => ?_, fun _ => factorsFormed_runReset cause p⟩
  rw [runReset_power] at hline
  cases h.symm.trans hline

theorem factorsCurrent_of_stopped (hheld : heldSound p) (h : p.running = false) : factorsCurrent p :=
  ⟨hheld, fun hrun => absurd (h.symm.trans hrun) (by decide)⟩

theorem running_iff : p.running = true ↔ p.power.supply = true ∧ p.power.resetLine = false := by
  simp [Part.running]

theorem factorsCurrent_powerUp (hp : factorsCurrent p) : factorsCurrent (powerUp p) := by
  unfold powerUp
  split
  · exact hp
  · split
    · next hline => exact factorsCurrent_of_stopped (fun _ _ => rfl) (by simp [Part.running, hline])
    · next hline => exact factorsCurrent_runReset (by simpa using hline)

theorem factorsCurrent_assertReset (hp : factorsCurrent p) : factorsCurrent (assertReset p) := by
  unfold assertReset
  split
  · exact factorsCurrent_of_stopped (fun _ _ => rfl) rfl
  · next hstopped =>
    refine factorsCurrent_of_stopped (fun hsupply _ => hp.1 hsupply ?_) (by simp [Part.running])
    by_contra hline
    exact hstopped (running_iff.mpr ⟨hsupply, by simpa using hline⟩)

theorem factorsCurrent_releaseReset (hp : factorsCurrent p) : factorsCurrent (releaseReset p) := by
  unfold releaseReset
  dsimp only
  split
  · exact factorsCurrent_runReset rfl
  · next hnone =>
    refine ⟨fun _ hline => (nomatch hline), fun hrun => factorsFormed_reads.keeps (setPower_frame ..) (hp.2 ?_)⟩
    obtain ⟨hsupply, -⟩ := running_iff.mp hrun
    refine running_iff.mpr ⟨hsupply, ?_⟩
    by_contra hline
    have := hp.1 hsupply (by simpa using hline)
    simp [hnone] at this

theorem factorsCurrent_moved {i : Instr} (h : movesDomains i = true) (hp : factorsCurrent p) :
    factorsCurrent (effect i p) := by
  cases i with
  | runDomainPowerUp => exact factorsCurrent_powerUp hp
  | resetLineAssert => exact factorsCurrent_assertReset hp
  | resetLineRelease => exact factorsCurrent_releaseReset hp
  | combinationHoldExpiry => exact whenDue_keeps hp fun hrun _ => factorsCurrent_runReset (running_iff.mp hrun).2
  | runDomainPowerDown => exact factorsCurrent_of_stopped (fun hsupply => nomatch hsupply) rfl
  | keepAliveSupplyFailure =>
    show factorsCurrent (if p.power.supply then p else p.setMarker false)
    split <;> exact hp
  | _ => cases h

theorem factorsFormed_effect {i : Instr} (h : movesDomains i = false)
    (hreach : ∃ b ∈ [Block.cfg, .wear, .derate], b ∈ effectBlocks i) (hp : factorsFormed p) :
    factorsFormed (effect i p) := by
  have hports {q r : Part} (hq : changesOnly [.ports] q r) (h : factorsFormed q) := factorsFormed_reads.keeps hq h
  cases i with
  | genStatus => exact whenRunning_keeps hp fun _ => factorsFormed_judgeReport (factorsFormed_reads.keeps
      (((storeGenerator_frame _ p).trans (n := [.image, .partState]) (readyCheck_frame _)).trans
        (n := [.image, .partState, .gen]) (setGen_frame _ _)) hp)
  | configWrite => exact request_keeps hports hp (factorsFormed_configWrite hp)
  | forceDerate => exact request_keeps hports hp (factorsFormed_forceDerate hp)
  | wearWrite => exact request_keeps hports hp (factorsFormed_resultClosed.wearWrite hp)
  | wearReset => exact request_keeps hports hp (factorsFormed_resultClosed.wearReset hp)
  | armingTimerExpiry | clearingTimerExpiry => exact whenDue_keeps hp fun _ _ => factorsFormed_reformFactors _
  | conversionComplete => exact whenRunning_keeps hp fun _ => factorsFormed_resultClosed.conversionCompletes hp
  | accountSettled =>
    refine whenRunning_keeps hp fun _ => ?_
    unfold settleCurrent
    split
    · exact factorsFormed_settle hp
    · exact hp
  | _ => first | exact absurd h (by decide) | exact absurd hreach (by
      simp [effectBlocks, brakeBlocks, holdBlocks, silenceBlocks, driveBlocks, beginBlocks])

theorem effect_power {i : Instr} (h : movesDomains i = false) : (effect i p).power = p.power := by
  refine (effect_frame i p).same .power ?_
  cases i with
  | _ => first | exact absurd h (by decide) | simp [effectBlocks, writeBlocks, brakeBlocks, holdBlocks, silenceBlocks, driveBlocks,
      beginBlocks, settleBlocks, resultBlocks]

theorem factorsCurrent_reads : readsOnly [.power, .cfg, .wear, .derate] factorsCurrent := fun {p q} h hp => by
  have hpower : q.power = p.power := h .power (by decide)
  refine ⟨?_, fun hrun => factorsFormed_reads (fun b hb => h b (List.mem_cons_of_mem _ hb)) (hp.2 ?_)⟩
  · unfold heldSound
    rw [hpower]
    exact hp.1
  · rwa [Part.running, hpower] at hrun

theorem factorsCurrent_effect (i : Instr) (p : Part) (_ : ∃ b ∈ [Block.power, .cfg, .wear, .derate], b ∈ effectBlocks i)
    (hp : factorsCurrent p) : factorsCurrent (effect i p) := by
  by_cases hdomains : movesDomains i = true
  · exact factorsCurrent_moved hdomains hp
  · have hstay : movesDomains i = false := by simpa using hdomains
    have hpower := effect_power (p := p) hstay
    refine ⟨?_, fun hrun => ?_⟩
    · unfold heldSound
      rw [hpower]
      exact hp.1
    · rw [Part.running, hpower] at hrun
      by_cases hreach : ∃ b ∈ [Block.cfg, .wear, .derate], b ∈ effectBlocks i
      · exact factorsFormed_effect hstay hreach (hp.2 hrun)
      · exact factorsFormed_reads.keeps (effect_frame i p) (hp.2 hrun) fun b hb hmem => hreach ⟨b, hb, hmem⟩

/-- Settles O54: the supplies and the reset line keep a cause waiting and form the factors at a reset; every other
command that changes a cause of a factor forms the factors again. -/
theorem stepKeepsFactorsCurrent : Obligations.StepKeepsFactorsCurrent :=
  fun _ _ => step_keeps factorsCurrent_reads factorsCurrent_effect

end Sys2Proof.Machine
end

