-- ==== Sys2Proof/Proofs/StackKept.lean ====
section
/-! SUPPORT. What every step keeps of the authority stack: one entry for each source in it, levels that rise from the
bottom to the top, and the flag of every source in it (the law of R49, and R44). The stack is written by the evaluation
of a source, which can only release its entry (R43, R50), and by the acceptance of a qualifying offer (R48). -/

set_option Elab.async false

namespace Sys2Proof.Machine

variable {p q : Part} {src other : Source}

/-! ### The law of R49 -/

theorem levelsFall_iff_pairwise : ∀ {l : List StackEntry}, levelsFall l ↔ l.Pairwise (fun a b => b.level < a.level)
  | [] => by simp [levelsFall]
  | [_] => by simp [levelsFall]
  | a :: b :: rest => by
    rw [levelsFall, levelsFall_iff_pairwise, List.pairwise_cons (a := a)]
    refine and_congr_left fun hrest => ⟨fun hab e he => ?_, fun h => h b List.mem_cons_self⟩
    obtain rfl | he := List.mem_cons.mp he
    · exact hab
    · exact Nat.lt_trans ((List.pairwise_cons.mp hrest).1 e he) hab

/-- The law of R49 without the configured levels: of a stack and the request flags. -/
def arbiterSound (a : Arbiter) : Prop :=
  (a.stack.map (·.source)).Nodup ∧ levelsFall a.stack ∧
    ∀ e ∈ a.stack, levelLegal e ∧ a.flags.get e.source = true

theorem stackSound_iff : stackSound p ↔ levelsConfigured p.cfg ∧ arbiterSound p.auth := Iff.rfl

theorem stackSound_reads : readsOnly [.cfg, .auth] stackSound := fun {p q} h => by
  rw [stackSound_iff, stackSound_iff, (h .cfg (by decide) : q.cfg = p.cfg), (h .auth (by decide) : q.auth = p.auth)]
  exact id

theorem arbiterSound_of_empty {a : Arbiter} (h : a.stack = []) : arbiterSound a := by
  simp [arbiterSound, h, levelsFall]

/-! ### A source evaluated -/

@[simp] theorem SourceFlags.get_set_self (f : SourceFlags) (src : Source) (b : Bool) : (f.set src b).get src = b := by
  cases src <;> rfl

@[simp] theorem SourceFlags.get_set_other (f : SourceFlags) (b : Bool) (h : other ≠ src) :
    (f.set src b).get other = f.get other := by
  cases src <;> cases other <;> first | rfl | exact absurd rfl h

theorem arbiterSound_request {a : Arbiter} (h : arbiterSound a) : arbiterSound { a with flags := a.flags.set src true } := by
  obtain ⟨hnodup, hfall, hentries⟩ := h
  refine ⟨hnodup, hfall, fun e he => ⟨(hentries e he).1, ?_⟩⟩
  by_cases hsrc : e.source = src
  · rw [hsrc, SourceFlags.get_set_self]
  · rw [SourceFlags.get_set_other _ _ hsrc]
    exact (hentries e he).2

theorem arbiterSound_release {a : Arbiter} (h : arbiterSound a) :
    arbiterSound ⟨a.flags.set src false, released src a.stack⟩ := by
  obtain ⟨hnodup, hfall, hentries⟩ := h
  have hsub : (released src a.stack).Sublist a.stack := List.filter_sublist
  refine ⟨hnodup.sublist (hsub.map _), levelsFall_iff_pairwise.mpr ((levelsFall_iff_pairwise.mp hfall).sublist hsub),
    fun e he => ?_⟩
  obtain ⟨hmem, hsrc⟩ := List.mem_filter.mp he
  refine ⟨(hentries e hmem).1, ?_⟩
  rw [SourceFlags.get_set_other _ _ (of_decide_eq_true hsrc)]
  exact (hentries e hmem).2

/-- What an evaluation leaves in the arbiter: the flag set, or the flag clear and the entry gone (R43, R50). -/
theorem evalSource_auth (src : Source) (p : Part) : (evalSource src p).auth =
    if requested src p then { p.auth with flags := p.auth.flags.set src true }
    else ⟨p.auth.flags.set src false, released src p.auth.stack⟩ := by
  unfold evalSource
  split
  · rfl
  · exact (setEventIf_frame ..).same .auth (by decide)

theorem stackSound_evalSource (h : stackSound p) : stackSound (evalSource src p) := by
  obtain ⟨hlevels, harbiter⟩ := stackSound_iff.mp h
  have hcfg : (evalSource src p).cfg = p.cfg := (evalSource_frame src p).same .cfg (by decide)
  rw [stackSound_iff, hcfg, evalSource_auth]
  refine ⟨hlevels, ?_⟩
  split
  · exact arbiterSound_request harbiter
  · exact arbiterSound_release harbiter

theorem stackSound_controlClosed : ControlClosed stackSound where
  blocks h hp := stackSound_reads.keeps h hp
  event hp := stackSound_reads.keeps (setEvent_frame ..) hp
  eval hp := stackSound_evalSource hp

/-! ### An offer accepted -/

theorem levelLegal_levelOf (hlevels : levelsConfigured p.cfg) (h : levelOf src p ≠ 0) :
    levelLegal ⟨src, levelOf src p⟩ := by
  obtain ⟨hslip, hblend, hhold, hlimp, htraction⟩ := hlevels
  have hpos := Nat.one_le_iff_ne_zero.mpr h
  cases src with
  | safeStop => exact ⟨fun _ => rfl, fun hne => absurd rfl hne⟩
  | slip => exact ⟨fun h => (nomatch h), fun _ => ⟨hpos, hslip⟩⟩
  | blend => exact ⟨fun h => (nomatch h), fun _ => ⟨hpos, hblend⟩⟩
  | hold => exact ⟨fun h => (nomatch h), fun _ => ⟨hpos, hhold⟩⟩
  | limp => exact ⟨fun h => (nomatch h), fun _ => ⟨hpos, hlimp⟩⟩
  | traction => exact ⟨fun h => (nomatch h), fun _ => ⟨hpos, htraction⟩⟩

theorem accepted_eq_some_iff : accepted p = some src ↔ offer p = some src ∧ qualifies src p = true := by
  unfold accepted
  split
  · next h => simp [h]
  · next src' h =>
    simp only [h]
    split
    · next hq => exact ⟨fun hs => by cases hs; exact ⟨rfl, hq⟩, fun hs => hs.1⟩
    · next hq => exact ⟨fun hs => (nomatch hs), fun ⟨hs, hq'⟩ => absurd (by cases hs; exact hq') hq⟩

theorem stackSound_pushSource (h : stackSound p) (hoffer : accepted p = some src) : stackSound (pushSource src p) := by
  obtain ⟨hlevels, hnodup, hfall, hentries⟩ := stackSound_iff.mp h
  obtain ⟨hoffered, hqualifies⟩ := accepted_eq_some_iff.mp hoffer
  obtain ⟨hpending, hpositive⟩ : pendingSource src p = true ∧ levelOf src p ≠ 0 := by
    have hofferable := (offer_eq_some_iff.mp hoffered).1
    simp only [offerable, Bool.and_eq_true, decide_eq_true_eq] at hofferable
    exact hofferable.1
  obtain ⟨hflag, houtside⟩ := Bool.and_eq_true_iff.mp hpending
  refine stackSound_reads.keeps (setEvent_frame ..) (stackSound_iff.mpr ⟨hlevels, ?nodup, ?fall, ?entries⟩)
  case nodup =>
    refine List.nodup_cons.mpr ⟨fun hmem => ?_, hnodup⟩
    obtain ⟨e, he, hsrc⟩ := List.mem_map.mp hmem
    have : inStack src p.auth = true := List.any_eq_true.mpr ⟨e, he, decide_eq_true hsrc⟩
    simp [this] at houtside
  case fall =>
    unfold qualifies at hqualifies
    simp only [Part.setAuth_auth]
    match hstack : p.auth.stack with
    | [] => trivial
    | e :: rest =>
      rw [hstack] at hqualifies hfall
      exact ⟨of_decide_eq_true hqualifies, hfall⟩
  case entries =>
    intro e he
    obtain rfl | he := List.mem_cons.mp he
    · exact ⟨levelLegal_levelOf hlevels hpositive, hflag⟩
    · exact hentries e he

theorem stackSound_acceptance (h : stackSound p) : stackSound (acceptance p) := by
  have hoffer : stackSound (acceptOffer p) := by
    unfold acceptOffer
    split
    · exact h
    · next hsome => exact stackSound_pushSource h hsome
  unfold acceptance
  split
  · exact stackSound_controlClosed.breakHold hoffer
  · exact hoffer

theorem stackSound_beginSettlement {senseHeld : Bool} (h : stackSound p) : stackSound (beginSettlement senseHeld p) := by
  rw [beginSettlement_eq]
  exact stackSound_reads.keeps ((keepPass_frame ..).trans (n := [.blend, .account]) (setAccount_frame ..))
    (stackSound_controlClosed.judgeEpisode (stackSound_acceptance h))

/-! ### Levels written -/

theorem valueOf_num {i : NumItem} {bytes : List Byte} {v : ConfigValue} (h : valueOf (.num i) bytes = some v) :
    ∃ n, v = .num n ∧ i.row.low ≤ n ∧ n ≤ i.row.high := by
  simp only [valueOf] at h
  split at h
  · next n _ =>
    split at h
    · next hrange =>
      cases h
      have := Bool.and_eq_true_iff.mp hrange
      exact ⟨n, rfl, of_decide_eq_true this.1, of_decide_eq_true this.2⟩
    · cases h
  · cases h

theorem levelsConfigured_setNum {c : ConfigStore} {i : NumItem} {n : Nat} (h : levelsConfigured c)
    (hn : n ≤ i.row.high) : levelsConfigured (c.setNum i n) := by
  have level {j : NumItem} (hj : c.num j ≤ 7) (hhigh : j.row.high = 7) : (c.setNum i n).num j ≤ 7 := by
    rw [num_setNum]
    split
    · next hji =>
      subst hji
      exact hhigh ▸ hn
    · exact hj
  obtain ⟨hslip, hblend, hhold, hlimp, htraction⟩ := h
  exact ⟨level hslip rfl, level hblend rfl, level hhold rfl, level hlimp rfl, level htraction rfl⟩

theorem stackSound_of_nums {c : ConfigStore} (hnum : c.nums = p.cfg.nums) (h : stackSound p) :
    stackSound (p.setCfg c) := by
  obtain ⟨hlevels, harbiter⟩ := stackSound_iff.mp h
  refine stackSound_iff.mpr ⟨?_, harbiter⟩
  have num (i : NumItem) : c.num i = p.cfg.num i := by unfold ConfigStore.num; rw [hnum]
  simp only [Part.setCfg_cfg, levelsConfigured, num]
  exact hlevels

theorem reconfigureMonitor_frame_stored (k : MonitorNo) (c : MonitorCfg) (p : Part) :
    changesOnly [.scan, .derate, .ports] (p.setCfg { p.cfg with monitors := p.cfg.monitors.set k c })
      (reconfigureMonitor k c p) := by
  simp only [reconfigureMonitor]
  split
  · split
    · exact (setMonitor_frame ..).trans (handReturn_frame ..)
    · exact (setMonitor_frame ..).mono
  · split
    · split
      · exact (joinThermal_frame ..).mono
      · split
        · exact (leaveThermal_frame ..).mono
        · exact .refl ..
    · exact .refl ..

theorem stackSound_applyWrite {it : ConfigItem} {v : ConfigValue} {bytes : List Byte} (hv : valueOf it bytes = some v)
    (h : stackSound p) : stackSound (applyWrite it v p) := by
  unfold applyWrite
  split
  · next i n =>
    obtain ⟨n', hn', -, hhigh⟩ := valueOf_num hv
    cases hn'
    obtain ⟨hlevels, harbiter⟩ := stackSound_iff.mp h
    exact stackSound_controlClosed.numWritten (fun hq => stackSound_reads.keeps (reformFactors_frame _) hq)
      (stackSound_iff.mpr ⟨levelsConfigured_setNum hlevels hhigh, harbiter⟩)
  · exact stackSound_of_nums rfl h
  · exact stackSound_of_nums rfl h
  · next l =>
    have hframe : changesOnly [.scan] (p.setCfg { p.cfg with routineList := l }) (replaceRoutineList l p) := by
      unfold replaceRoutineList
      split
      · exact (setScan_frame _ _).trans (takePending_frame _)
      all_goals exact setScan_frame _ _
    exact stackSound_reads.keeps hframe (stackSound_of_nums rfl h)
  · next k c =>
    exact stackSound_reads.keeps (reconfigureMonitor_frame_stored k c p) (stackSound_of_nums rfl h)
  · exact stackSound_of_nums rfl h
  · exact stackSound_reads.keeps ((setWatch_frame _ _).trans (n := [.watch]) (moveWatch_frame _))
      (stackSound_of_nums rfl h)
  · exact h

theorem stackSound_configWrite {port : Port} {number : BitVec 16} {bytes : List Byte} (h : stackSound p) :
    stackSound (configWrite port number bytes p).part := by
  unfold configWrite writeValue
  split
  · exact h
  · split
    · exact h
    · split
      · exact stackSound_reads.keeps (writeOverrideCode_frame ..) h
      · split
        · exact h
        · next hv =>
          split
          · exact h
          · split
            · exact h
            · exact stackSound_applyWrite hv h

/-! ### Every step -/

theorem stackSound_wearClosed : WearClosed stackSound where
  item _ hp := stackSound_reads.keeps (setWearItem_frame ..) hp
  event hp := stackSound_reads.keeps (setEvent_frame ..) hp
  judge hp := stackSound_reads.keeps (judgeItem_frame ..) hp

theorem stackSound_settle {s : Settling} (hp : stackSound p) : stackSound (settle s p) :=
  stackSound_reads.keeps (settlementFrames_frame ..) (stackSound_controlClosed.settledPart
    stackSound_wearClosed (fun h hp => stackSound_reads.keeps h hp) hp)

theorem runReset_stack (cause : ResetCause) (p : Part) : (runReset cause p).auth.stack = [] := by
  have hreset : (restarted cause p).auth = resetArbiter := (restarted_frame_stopped cause p).same .auth (by decide)
  have hleave : (runReset cause p).auth = (evalSource .safeStop (restarted cause p)).auth :=
    ((formFactorsAtReset_frame _).trans (n := [.derate, .watch]) (moveWatch_frame _)).same .auth (by decide)
  rw [hleave, evalSource_auth, hreset]
  split <;> rfl

theorem stackSound_runReset {cause : ResetCause} (h : stackSound p) : stackSound (runReset cause p) := by
  refine stackSound_iff.mpr ⟨?_, arbiterSound_of_empty (runReset_stack cause p)⟩
  cases hm : p.marker
  case true =>
    rw [show (runReset cause p).cfg = p.cfg from (runReset_frame_whole cause p hm).same .cfg (by decide)]
    exact h.1
  case false =>
    obtain ⟨-, hcfg, -⟩ := runReset_of_lost cause p hm
    rw [hcfg]
    unfold levelsConfigured
    decide

theorem stackSound_effect (i : Instr) (p : Part) (hreach : ∃ b ∈ [Block.cfg, .auth], b ∈ effectBlocks i)
    (h : stackSound p) : stackSound (effect i p) := by
  by_cases hdomains : movesDomains i = true
  · refine effect_keeps_of_movesDomains stackSound_reads hdomains h (fun p' v hcal => ?_) fun cause v => ?_
    · refine stackSound_iff.mpr ⟨?_, arbiterSound_of_empty rfl⟩
      show levelsConfigured p'.cfg
      rw [show p'.cfg = p.cfg from hcal.same .cfg (by decide)]
      exact h.1
    · exact stackSound_runReset (stackSound_reads.keeps (setPower_frame p v) h)
  cases i with
  | emergencyLineChange => exact stackSound_controlClosed.lineChanges h
  | driveStatus => exact whenRunning_keeps h fun _ => stackSound_controlClosed.driveArrival h
  | brakeStatus => exact whenRunning_keeps h fun _ => stackSound_controlClosed.brakeArrival h
  | configWrite => exact request_keeps (fun hq => stackSound_reads.keeps hq) h (stackSound_configWrite h)
  | settlementBegin =>
    refine whenDue_keeps h fun _ _ => ?_
    unfold beginWaiting
    split
    · exact stackSound_beginSettlement h
    · exact h
  | accountSettled =>
    refine whenRunning_keeps h fun _ => ?_
    unfold settleCurrent
    split
    · exact stackSound_settle h
    · exact h
  | promotionTimerExpiry => exact whenDue_keeps h fun _ _ => stackSound_controlClosed.changeHold h
  | layoverTimerExpiry => exact whenDue_keeps h fun _ _ => stackSound_controlClosed.layoverExpires h
  | partnerStale => exact whenDue_keeps h fun _ _ => stackSound_controlClosed.becomeStale h
  | partnerLost => exact whenDue_keeps h fun _ _ => stackSound_controlClosed.becomeLost h
  | startWindowExpiry => exact whenDue_keeps h fun _ _ => stackSound_controlClosed.startWindowExpires h
  | _ => first | exact absurd rfl hdomains | exact absurd hreach (by simp [effectBlocks, resultBlocks])

/-- Settles O51: an evaluation can only release an entry, and an accepted offer is pushed above every level in the
stack. -/
theorem stepKeepsStackSound : Obligations.StepKeepsStackSound :=
  fun _ _ => step_keeps stackSound_reads stackSound_effect

end Sys2Proof.Machine
end

