-- ==== Sys2Proof/Proofs/EventsGained.lean ====
section
/-! SUPPORT. The operations that only set events at the ports (R187): every operation of the hold controller, the
arbiter, the sequencer, the image, the wear unit, the scanner and the derate unit. -/

set_option Elab.async false

namespace Sys2Proof.Machine

variable {p q : Part}

theorem portsOnlyGainEvents_controlClosed (p : Part) : ControlClosed (portsOnlyGainEvents p) where
  blocks h hp := hp.trans (.of_frame h)
  event hp := hp.trans (setEvent_gains ..)
  eval hp := hp.trans (evalSource_gains ..)

theorem thermalRises_gains (p : Part) : portsOnlyGainEvents p (thermalRises p) := .of_frame (thermalRises_frame p)

theorem setThermalSet_gains (set : BitVec 8) (p : Part) : portsOnlyGainEvents p (setThermalSet set p) := by
  have hset (v : Derate) : portsOnlyGainEvents p (p.setDerate v) := .of_frame (setDerate_frame p v)
  unfold setThermalSet
  dsimp only
  refine .trans ?_ (reformFactors_gains _)
  split
  · exact (hset _).trans (thermalRises_gains _)
  · split
    · exact (hset _).trans (.of_frame (thermalEmpties_frame _))
    · exact hset _

theorem portsOnlyGainEvents_resultClosed (p : Part) : ResultClosed (portsOnlyGainEvents p) where
  item _ hp := hp.trans (.of_frame (setWearItem_frame ..))
  event hp := hp.trans (setEvent_gains ..)
  judge hp := hp.trans (judgeItem_gains ..)
  scan hp := hp.trans (.of_frame (setScan_frame ..))
  thermal hp := hp.trans (setThermalSet_gains ..)
  beginning hp := hp.trans (.of_frame (arriveBeginning_frame ..))

/-! ### Arrivals, expiries and writes -/

theorem driveArrival_gains (d : DriveData) (p : Part) : portsOnlyGainEvents p (driveArrival d p) :=
  (portsOnlyGainEvents_controlClosed p).driveArrival (.refl p)

theorem brakeArrival_gains (d : BrakeData) (p : Part) : portsOnlyGainEvents p (brakeArrival d p) :=
  (portsOnlyGainEvents_controlClosed p).brakeArrival (.refl p)

theorem judgeReport_gains (r : EngineReport) (p : Part) : portsOnlyGainEvents p (judgeReport r p) := by
  have hgen {q : Part} (h : changesOnly [.gen] p q) : portsOnlyGainEvents p q := .of_frame h
  have hcrank (timer : Option GenTimer) :
      portsOnlyGainEvents p (countOne 8 (actOnRequest (setGenLink .cranking timer p))) :=
    (hgen ((setGenLink_frame ..).trans (actOnRequest_frame _))).trans (countOne_gains ..)
  have hstop := hgen (enterStopSent_frame p)
  have hfirst (r : EngineReport) : portsOnlyGainEvents p (firstReport r p) := by
    cases r <;> dsimp only [firstReport]
    · exact hgen (enterOff_frame p)
    · exact .ite hstop (hcrank _)
    · exact .ite hstop (hgen (enterSettling_frame p))
    · exact enterFailed_gains ..
  unfold judgeReport
  split
  case h_1 => exact hfirst _
  case h_4 => exact hcrank _
  case h_5 | h_7 => exact hgen (enterSettling_frame p)
  case h_16 => exact hgen (enterOff_frame p)
  case h_2 | h_6 | h_9 | h_11 | h_13 | h_15 | h_17 => exact enterFailed_gains ..
  all_goals exact .refl p

theorem genArrival_gains (r : EngineReport) (d : GenData) (p : Part) : portsOnlyGainEvents p (genArrival r d p) :=
  (portsOnlyGainEvents.of_frame (((storeGenerator_frame d p).trans (n := [.image, .partState]) (readyCheck_frame _)).trans
    (n := [.image, .partState, .gen]) (setGen_frame _ _))).trans (judgeReport_gains ..)

theorem conversionCompletes_gains (raw : BitVec 12) (p : Part) : portsOnlyGainEvents p (conversionCompletes raw p) :=
  (portsOnlyGainEvents_resultClosed p).conversionCompletes (.refl p)

theorem acceptance_gains (p : Part) : portsOnlyGainEvents p (acceptance p) := by
  unfold acceptance
  exact .ite ((acceptOffer_gains p).trans (breakHold_gains _)) (acceptOffer_gains p)

theorem beginSettlement_gains (senseHeld : Bool) (p : Part) : portsOnlyGainEvents p (beginSettlement senseHeld p) := by
  rw [beginSettlement_eq]
  exact ((portsOnlyGainEvents_controlClosed p).judgeEpisode (acceptance_gains p)).trans
    (.of_frame ((keepPass_frame ..).trans (n := [.blend, .account]) (setAccount_frame ..)))

theorem settledPart_gains (s : Settling) (p : Part) : portsOnlyGainEvents p (settledPart s p) :=
  (portsOnlyGainEvents_controlClosed p).settledPart (portsOnlyGainEvents_resultClosed p).toWearClosed
    (fun h hp => hp.trans (.of_frame h)) (.refl p)

theorem reconfigureMonitor_gains (k : MonitorNo) (c : MonitorCfg) (p : Part) :
    portsOnlyGainEvents p (reconfigureMonitor k c p) := by
  have hcfg : portsOnlyGainEvents p (p.setCfg { p.cfg with monitors := p.cfg.monitors.set k c }) :=
    .of_frame (setCfg_frame p _)
  have hreset := hcfg.trans (.of_frame (setMonitor_frame k { p.scan.monitors[k] with state := .inside, count := 0 } _))
  unfold reconfigureMonitor
  dsimp only
  split
  · split
    · exact (portsOnlyGainEvents_resultClosed p).handReturn hreset
    · exact hreset
  · split
    · split
      · exact hcfg.trans (setThermalSet_gains ..)
      · split
        · exact hcfg.trans (setThermalSet_gains ..)
        · exact hcfg
    · exact hcfg

theorem applyWrite_gains (it : ConfigItem) (v : ConfigValue) (p : Part) : portsOnlyGainEvents p (applyWrite it v p) := by
  unfold applyWrite
  split
  · exact (portsOnlyGainEvents_controlClosed p).numWritten (fun h => h.trans (reformFactors_gains _))
      (.of_frame (setCfg_frame p _))
  · exact .of_frame (setCfg_frame p _)
  · exact .of_frame (setCfg_frame p _)
  · exact .of_frame (replaceRoutineList_frame ..)
  · exact reconfigureMonitor_gains ..
  · exact .of_frame (setCfg_frame p _)
  · exact .of_frame (resetMaskWritten_frame ..)
  · exact .refl p

theorem writeOverrideCode_gains (bytes : List Byte) (p : Part) :
    portsOnlyGainEvents p (writeOverrideCode bytes p).part := by
  have hwritten (v : Derate) : portsOnlyGainEvents p (reformFactors (p.setDerate v)) :=
    (portsOnlyGainEvents.of_frame (setDerate_frame p v)).trans (reformFactors_gains _)
  unfold writeOverrideCode
  split
  · exact .refl p
  · split
    · split
      · exact hwritten _
      · exact .refl p
    · exact .refl p

theorem configWrite_gains (port : Port) (number : BitVec 16) (bytes : List Byte) (p : Part) :
    portsOnlyGainEvents p (configWrite port number bytes p).part := by
  unfold configWrite writeValue
  split
  · exact .refl p
  · split
    · exact .refl p
    · split
      · exact writeOverrideCode_gains ..
      · split
        · exact .refl p
        · split
          · exact .refl p
          · split
            · exact .refl p
            · exact applyWrite_gains ..

theorem forceDerate_gains (v : Byte) (p : Part) : portsOnlyGainEvents p (forceDerate v p).part := by
  have hforced (d : Derate) : portsOnlyGainEvents p (reformFactors (p.setDerate d)) :=
    (portsOnlyGainEvents.of_frame (setDerate_frame p d)).trans (reformFactors_gains _)
  unfold forceDerate
  split
  · exact hforced _
  · exact hforced _
  · exact .refl p

/-! ### The run reset -/

theorem runReset_gains (cause : ResetCause) (p : Part) :
    portsOnlyGainEvents ((resetRunDomain p).setPower { p.power with held := none }) (runReset cause p) := by
  have hleave (q : Part) : portsOnlyGainEvents q (leaveReset q) := (evalSource_gains .safeStop q).trans
    (.of_frame ((formFactorsAtReset_frame _).trans (n := [.derate, .watch]) (moveWatch_frame _)))
  rw [runReset_eq]
  refine .trans ?_ (hleave _)
  unfold restarted
  split
  · exact ⟨rfl, fun _ => ⟨rfl, rfl, rfl, BitVec.and_self⟩⟩
  · unfold loseKeepAlive
    exact .trans ⟨rfl, fun _ => ⟨rfl, rfl, rfl, BitVec.and_self⟩⟩ (setEvent_gains ..)

end Sys2Proof.Machine
end

