-- ==== Sys2Proof/Proofs/TransmittersKept.lean ====
section
/-! SUPPORT. What every step keeps of the transmitters: one that sends nothing has nothing queued (R184), and at most
four replies wait on a port (R182). A reply is queued only where fewer than four wait, and no other frame that the part
sends is a reply. -/

set_option Elab.async false

namespace Sys2Proof.Machine

variable {p q : Part}

/-! ### The transmitters -/

/-- From `p` to `q` no transmitter changes. -/
def sameTransmitters (p q : Part) : Prop :=
  (∀ port, (q.port port).tx = (p.port port).tx) ∧ q.links.a.tx = p.links.a.tx ∧ q.links.b.tx = p.links.b.tx

theorem sameTransmitters_of_gains (h : portsOnlyGainEvents p q) (hlinks : q.links = p.links) : sameTransmitters p q :=
  ⟨fun port => (h.2 port).2.2.1, by rw [hlinks], by rw [hlinks]⟩

theorem transmittersSound_of_same (h : sameTransmitters p q) (hp : transmittersSound p) : transmittersSound q := by
  obtain ⟨hports, ha, hb⟩ := h
  obtain ⟨hsound, hsoundA, hsoundB⟩ := hp
  refine ⟨fun port => ?_, ha ▸ hsoundA, hb ▸ hsoundB⟩
  unfold PortState.waitingReplies
  rw [hports]
  exact hsound port

theorem transmittersSound_reads : readsOnly [.ports, .links] transmittersSound := fun {p q} h => by
  have hports : q.ports = p.ports := h .ports (by decide)
  have hlinks : q.links = p.links := h .links (by decide)
  exact transmittersSound_of_same ⟨fun port => by simp only [Part.port, hports], by rw [hlinks], by rw [hlinks]⟩

theorem waiting_enqueue_le {t : Transmitter} {f : OutFrame} (h : txSound t) :
    (t.enqueue f).queue.countP OutFrame.isReply ≤ t.queue.countP OutFrame.isReply + f.isReply.toNat := by
  obtain ⟨sending, queue⟩ := t
  cases sending with
  | none =>
    cases (h rfl : queue = [])
    exact Nat.zero_le _
  | some g => cases hf : f.isReply <;> simp [Transmitter.enqueue, hf]

theorem waiting_complete_le (t : Transmitter) :
    t.complete.queue.countP OutFrame.isReply ≤ t.queue.countP OutFrame.isReply := by
  obtain ⟨sending, queue⟩ := t
  cases sending with
  | none => exact Nat.le_refl _
  | some g => cases queue with
    | nil => exact Nat.le_refl _
    | cons f l => exact List.Sublist.countP_le (List.sublist_cons_self f l)

/-! ### Frames queued -/

theorem transmittersSound_setPort {port : Port} {s : PortState} (hp : transmittersSound p) (htx : txSound s.tx)
    (hwaiting : s.waitingReplies ≤ Config.replyPlaces) : transmittersSound (p.setPort port s) := by
  obtain ⟨hports, hlinks⟩ := hp
  refine ⟨fun other => ?_, hlinks⟩
  by_cases h : other = port
  · rw [h, port_setPort_self]
    exact ⟨htx, hwaiting⟩
  · rw [port_setPort_other _ _ h]
    exact hports other

theorem transmittersSound_queueOn {port : Port} {f : OutFrame} (hp : transmittersSound p)
    (hroom : f.isReply = true → (p.port port).waitingReplies < Config.replyPlaces) :
    transmittersSound (queueOn port f p) := by
  obtain ⟨htx, hwaiting⟩ := hp.1 port
  refine transmittersSound_setPort hp (Transmitter.enqueue_sound _ _) ?_
  have hle := waiting_enqueue_le (f := f) htx
  unfold PortState.waitingReplies at *
  cases hf : f.isReply
  · rw [hf] at hle
    exact Nat.le_trans hle hwaiting
  · rw [hf] at hle
    exact Nat.le_trans hle (hroom hf)

theorem transmittersSound_setLink {motor : Motor} {l : MotorLink} (hp : transmittersSound p) (htx : txSound l.tx) :
    transmittersSound (p.setLink motor l) := by
  obtain ⟨hports, ha, hb⟩ := hp
  cases motor
  · exact ⟨hports, htx, hb⟩
  · exact ⟨hports, ha, htx⟩

theorem transmittersSound_link {motor : Motor} (hp : transmittersSound p) : txSound (p.links.get motor).tx := by
  cases motor
  · exact hp.2.1
  · exact hp.2.2

/-- A request whose owner leaves the transmitters alone queues its reply where fewer than four wait (R181, R182). -/
theorem transmittersSound_request {port : Port} {kind : Kind} {ok : Bool} {owner : Part → Answered}
    (hp : transmittersSound p) (howner : sameTransmitters p (owner p).part) :
    transmittersSound (request port kind ok owner p) := by
  obtain hr | ⟨cause, hr⟩ | ⟨⟨-, hroom⟩, hr⟩ | ⟨⟨-, hroom⟩, -, -, hr⟩ := request_cases port kind ok owner p <;> rw [hr]
  · exact hp
  · exact transmittersSound_setPort hp (hp.1 port).1 (hp.1 port).2
  · exact transmittersSound_queueOn hp fun _ => hroom
  · refine transmittersSound_queueOn (transmittersSound_of_same howner hp) fun _ => ?_
    unfold PortState.waitingReplies
    rw [howner.1]
    exact hroom

/-! ### The close -/

theorem transmittersSound_sendTorque {motor : Motor} {seq : BitVec 32} {o : TorqueOrder} (hp : transmittersSound p) :
    transmittersSound (sendTorque motor seq o p) := by
  unfold sendTorque queueOnLink
  dsimp only
  refine transmittersSound_setLink (transmittersSound_setLink hp (Transmitter.enqueue_sound _ _)) ?_
  rw [link_setLink_self]
  exact Transmitter.enqueue_sound _ _

theorem transmittersSound_settledPart {s : Settling} (hp : transmittersSound p) :
    transmittersSound (settledPart s p) := by
  have hclosed : transmittersSound (closeAccount s p) := transmittersSound_of_same
    (sameTransmitters_of_gains ((portsOnlyGainEvents.of_frame (setAccount_frame p _)).trans (setEventIf_gains ..))
      ((closeAccount_frame s p).same .links (by decide))) hp
  have htorque : transmittersSound (torqueStage s (closeAccount s p)) :=
    transmittersSound_sendTorque (transmittersSound_sendTorque hclosed)
  have hlinks : (settledPart s p).links = (torqueStage s (closeAccount s p)).links :=
    ((((((keepRegPrev_frame s.record _).trans (n := [.blend, .image]) (decayStorage_frame _)).trans
      (n := [.blend, .image, .wear, .warnings, .derate, .ports]) (integrateRecord_frame ..)).trans
      (n := [.blend, .image, .wear, .warnings, .derate, .gen, .ports]) (sequencerSettled_frame ..)).trans
      (n := [.blend, .image, .wear, .warnings, .derate, .gen, .hold, .auth, .ports]) (socFloorJudged_frame ..))).same
      .links (by decide)
  have hports := (settledPart_gains s p).2
  have hclosedPorts (port : Port) : ((torqueStage s (closeAccount s p)).port port).tx = (p.port port).tx :=
    (((portsOnlyGainEvents.of_frame (setAccount_frame p _)).trans (setEventIf_gains ..)).trans
      (.of_frame (torqueStage_frame s _)) : portsOnlyGainEvents p _).2 port |>.2.2.1
  exact transmittersSound_of_same
    ⟨fun port => ((hports port).2.2.1).trans (hclosedPorts port).symm, by rw [hlinks], by rw [hlinks]⟩ htorque

theorem isReply_frictionDemandOf {s : Settling} {f : OutFrame} (h : frictionDemandOf s = some f) : f.isReply = false := by
  unfold frictionDemandOf at h
  dsimp only at h
  split at h
  · cases h
    rfl
  · split at h
    · cases h
      rfl
    · cases h

theorem transmittersSound_settlementFrames {s : Settling} (hp : transmittersSound p) :
    transmittersSound (settlementFrames s p) := by
  have hevent {q : Part} {c : Bool} {e : Event} (hq : transmittersSound q) : transmittersSound (setEventIf c e q) :=
    transmittersSound_of_same (sameTransmitters_of_gains (setEventIf_gains ..)
      ((setEventIf_frame ..).same .links (by decide))) hq
  unfold settlementFrames
  extract_lets p1 p2 p3 p4 p5
  have h4 : transmittersSound p4 := transmittersSound_queueOn (transmittersSound_queueOn (hevent (hevent hp))
    fun h => (nomatch h)) fun h => (nomatch h)
  have h5 : transmittersSound p5 := by
    show transmittersSound (queueSome .pb (frictionDemandOf s) p4)
    unfold queueSome
    split
    · exact h4
    · next f hf => exact transmittersSound_queueOn h4 fun h => by rw [isReply_frictionDemandOf hf] at h; cases h
  unfold driveReport
  split
  · exact transmittersSound_of_same ⟨fun _ => rfl, rfl, rfl⟩ h5
  · exact transmittersSound_queueOn (transmittersSound_of_same (p := p5) ⟨fun _ => rfl, rfl, rfl⟩ h5) fun h => nomatch h

/-! ### Every step -/

theorem transmittersSound_resetPorts (hports : ∀ port, (p.port port).tx = resetTransmitter)
    (hlinks : p.links = ⟨resetLink, resetLink⟩) : transmittersSound p := by
  refine ⟨fun port => ?_, ?_⟩
  · unfold PortState.waitingReplies
    rw [hports]
    exact ⟨fun _ => rfl, Nat.zero_le _⟩
  · rw [hlinks]
    exact ⟨fun _ => rfl, fun _ => rfl⟩

theorem sameTransmitters_readItem (port : Port) (item : Byte) (index : BitVec 16) (part : Byte) (p : Part) :
    sameTransmitters p (readItem port item index part p).part := by
  have hsame (q : Part) (h : q = p) : sameTransmitters p q := h ▸ ⟨fun _ => rfl, rfl, rfl⟩
  have hfirst (content : List Byte) : sameTransmitters p (readFirst port item index content p).part := by
    refine ⟨fun other => ?_, rfl, rfl⟩
    show ((p.setPort port _).port other).tx = _
    by_cases h : other = port
    · rw [h, port_setPort_self]
    · rw [port_setPort_other _ _ h]
  have hlater : (readLater port item index part p).part = p := by
    unfold readLater
    split
    · rfl
    · split <;> rfl
  unfold readItem
  split
  · exact hsame _ rfl
  · exact hsame _ rfl
  · split
    · exact hfirst _
    · exact hsame _ hlater

theorem sameTransmitters_clearStatus (port : Port) (m : BitVec 16) (p : Part) :
    sameTransmitters p (clearStatus port m p).part := by
  unfold clearStatus
  split
  · exact ⟨fun other => tx_clearEvents port other _ p, rfl, rfl⟩
  · exact ⟨fun _ => rfl, rfl, rfl⟩

theorem transmittersSound_frameSent {line : Line} (hp : transmittersSound p) : transmittersSound (frameSent line p) := by
  cases line with
  | port port =>
    exact transmittersSound_setPort hp (Transmitter.complete_sound _ (hp.1 port).1)
      (Nat.le_trans (waiting_complete_le _) (hp.1 port).2)
  | link motor =>
    exact transmittersSound_setLink hp (Transmitter.complete_sound _ (transmittersSound_link hp))

theorem transmittersSound_effect (i : Instr) (p : Part) (_ : ∃ b ∈ [Block.ports, .links], b ∈ effectBlocks i)
    (hp : transmittersSound p) : transmittersSound (effect i p) := by
  have hgains {q : Part} {l : List Block} (h : portsOnlyGainEvents p q) (hframe : changesOnly l p q)
      (hl : .links ∉ l := by decide) : sameTransmitters p q := sameTransmitters_of_gains h (hframe.same .links hl)
  have hevents {q : Part} {l : List Block} (h : portsOnlyGainEvents p q) (hframe : changesOnly l p q)
      (hl : .links ∉ l := by decide) : transmittersSound q := transmittersSound_of_same (hgains h hframe hl) hp
  have hquiet {q : Part} {l : List Block} (hframe : changesOnly l p q)
      (hl : ∀ b ∈ [Block.ports, .links], b ∉ l := by decide) : sameTransmitters p q :=
    sameTransmitters_of_gains (.of_frame hframe (hl _ (by decide))) (hframe.same .links (hl _ (by decide)))
  have hkeep {q : Part} {l : List Block} (hframe : changesOnly l p q)
      (hl : ∀ b ∈ [Block.ports, .links], b ∉ l := by decide) : transmittersSound q :=
    transmittersSound_reads.keeps hframe hp hl
  have hcontrol := portsOnlyGainEvents_controlClosed p
  have hwear := (portsOnlyGainEvents_resultClosed p).toWearClosed
  by_cases hdomains : movesDomains i = true
  · exact effect_keeps_of_movesDomains transmittersSound_reads hdomains hp
      (fun p' v _ => transmittersSound_resetPorts (fun port => by cases port <;> rfl) rfl)
      fun cause v => transmittersSound_resetPorts (fun port => ((runReset_gains cause _).2 port).2.2.1.trans
        (by cases port <;> rfl)) (runReset_links ..)
  cases i with
  | runDomainPowerUp | resetLineAssert | resetLineRelease | combinationHoldExpiry | runDomainPowerDown
  | keepAliveSupplyFailure => exact absurd rfl hdomains
  | emergencyLineChange => exact hevents (hcontrol.lineChanges (.refl p)) (lineChanges_frame ..)
  | driveStatus => exact whenRunning_keeps hp fun _ => hevents (driveArrival_gains ..) (driveArrival_frame ..)
  | storageStatus => exact whenRunning_keeps hp fun _ => hkeep (storageArrival_frame ..)
  | genStatus => exact whenRunning_keeps hp fun _ => hevents (genArrival_gains ..) (genArrival_frame ..)
  | brakeStatus => exact whenRunning_keeps hp fun _ => hevents (brakeArrival_gains ..) (brakeArrival_frame ..)
  | invStatus => exact whenRunning_keeps hp fun _ => transmittersSound_setLink hp (transmittersSound_link hp)
  | frameError =>
    refine whenRunning_keeps hp fun _ => ?_
    unfold frameJudged
    split
    · exact transmittersSound_setPort hp (hp.1 _).1 (hp.1 _).2
    all_goals exact hp
  | read => exact transmittersSound_request hp (sameTransmitters_readItem ..)
  | configWrite => exact transmittersSound_request hp (hgains (configWrite_gains ..) (configWrite_frame ..))
  | clearStatus => exact transmittersSound_request hp (sameTransmitters_clearStatus ..)
  | loadBlend => exact transmittersSound_request hp (hquiet (loadBlend_frame ..))
  | ackWarning => exact transmittersSound_request hp (hquiet (ackWarning_frame ..))
  | forceDerate => exact transmittersSound_request hp (hgains (forceDerate_gains ..) (forceDerate_frame ..))
  | wearWrite => exact transmittersSound_request hp (hgains (hwear.wearWrite (.refl p)) (wearWrite_frame ..))
  | wearReset => exact transmittersSound_request hp (hgains (hwear.wearReset (.refl p)) (wearReset_frame ..))
  | calibrate => exact transmittersSound_request hp (hquiet (calibrate_frame p))
  | clearLockout => exact transmittersSound_request hp (hquiet (clearLockout_frame p))
  | frameSent => exact whenRunning_keeps hp fun _ => transmittersSound_frameSent hp
  | settlementTimerExpiry => exact whenDue_keeps hp fun _ _ => hkeep (settlementExpires_frame p)
  | conversionComplete =>
    exact whenRunning_keeps hp fun _ => hevents (conversionCompletes_gains ..) (conversionCompletes_frame ..)
  | routineTrigger => exact whenDue_keeps hp fun _ _ => hkeep (routineExpires_frame p)
  | calibrationEnd => exact whenDue_keeps hp fun _ _ => hkeep (calibrationEnds_frame p)
  | settlementBegin =>
    refine whenDue_keeps hp fun _ _ => ?_
    unfold beginWaiting
    split
    · exact hevents (beginSettlement_gains ..) (beginSettlement_frame ..)
    · exact hp
  | accountSettled =>
    refine whenRunning_keeps hp fun _ => ?_
    unfold settleCurrent
    split
    · exact transmittersSound_settlementFrames (transmittersSound_settledPart hp)
    · exact hp
  | promotionTimerExpiry => exact whenDue_keeps hp fun _ _ => hevents (changeHold_gains ..) (promote_frame p)
  | layoverTimerExpiry =>
    exact whenDue_keeps hp fun _ _ => hevents (hcontrol.layoverExpires (.refl p)) (layoverExpires_frame p)
  | startTimeout | stopTimeout =>
    exact whenDue_keeps hp fun _ _ => hevents (enterFailed_gains ..) (enterFailed_frame ..)
  | genSettleExpiry => exact whenDue_keeps hp fun _ _ => hkeep (enterRun_frame p)
  | retryDelayExpiry => exact whenDue_keeps hp fun _ _ => hkeep (enterOff_frame p)
  | partnerStale =>
    exact whenDue_keeps hp fun _ _ => hevents (hcontrol.becomeStale (.refl p)) (becomeStale_frame ..)
  | partnerLost =>
    exact whenDue_keeps hp fun _ _ => hevents (hcontrol.becomeLost (.refl p)) (becomeLost_frame ..)
  | startWindowExpiry =>
    exact whenDue_keeps hp fun _ _ => hevents (hcontrol.startWindowExpires (.refl p)) (startWindowExpires_frame p)
  | motorLinkStale => exact whenDue_keeps hp fun _ _ => transmittersSound_setLink hp (transmittersSound_link hp)
  | armingTimerExpiry =>
    exact whenDue_keeps hp fun _ _ => hevents (((portsOnlyGainEvents.of_frame (setDerate_frame p _)).trans
      (setEvent_gains ..)).trans (reformFactors_gains _)) (armingExpires_frame p)
  | clearingTimerExpiry =>
    exact whenDue_keeps hp fun _ _ => hevents ((portsOnlyGainEvents.of_frame (setDerate_frame p _)).trans
      (reformFactors_gains _)) (clearingExpires_frame p)

/-- Settles O55: frames are queued by requests, which find a free place for their reply, and by a close, which queues no
reply; FRAME_SENT completes one, and every other command leaves the transmitters alone. -/
theorem stepKeepsTransmittersSound : Obligations.StepKeepsTransmittersSound :=
  fun _ _ => step_keeps transmittersSound_reads transmittersSound_effect

end Sys2Proof.Machine
end

