-- ==== Sys2Proof/Proofs/ProgramsKept.lean ====
section
/-! SUPPORT. What every step keeps of the program store: whole, legal programs in every slot and eight legal steps in
every open assembly (R75, R76, R78). A program comes into a slot from a load that passes the tests of R80, by promotion
from the slot's own pending one (R69), or as the built-in one (R82). -/

set_option Elab.async false

namespace Sys2Proof.Machine

variable {p q : Part} {l steps : List BlendStep}

/-! ### Steps as they are loaded (R76, R80) -/

theorem modifierOk_of_stepOf {b : Byte × Byte} {s : BlendStep} (h : stepOf b = some s) :
    modifierOk s.op s.modifier = true := by
  unfold stepOf at h
  split at h
  · cases h
  · split at h
    · next hok =>
      cases h
      exact hok
    · cases h

theorem stepsOf_cons_eq_some {b : Byte × Byte} {bytes : List (Byte × Byte)} (h : stepsOf (b :: bytes) = some l) :
    ∃ s rest, stepOf b = some s ∧ stepsOf bytes = some rest ∧ l = s :: rest := by
  simp only [stepsOf] at h
  split at h
  · next s rest hs hrest =>
    cases h
    exact ⟨s, rest, hs, hrest, rfl⟩
  · cases h

theorem programLegal_of_stepsOf : ∀ {bytes : List (Byte × Byte)} {l : List BlendStep}, stepsOf bytes = some l →
    programLegal l ∧ l.length = bytes.length
  | [], _, h => by
    cases h
    exact ⟨fun _ hs => (nomatch hs), rfl⟩
  | b :: bytes, _, h => by
    obtain ⟨s, rest, hs, hrest, rfl⟩ := stepsOf_cons_eq_some h
    obtain ⟨hlegal, hlength⟩ := programLegal_of_stepsOf hrest
    exact ⟨List.forall_mem_cons.mpr ⟨modifierOk_of_stepOf hs, hlegal⟩, congrArg (· + 1) hlength⟩

/-! ### The last flag -/

theorem endsLast_append (h : endsLast l = true) : endsLast (steps ++ l) = true := by
  unfold endsLast at *
  have hl : l ≠ [] := fun hnil => by simp [hnil] at h
  rwa [List.getLast?_append_of_ne_nil _ hl]

theorem lastFlagsOk_append (hsteps : ∀ s ∈ steps, s.last = false) (h : lastFlagsOk l = true) :
    lastFlagsOk (steps ++ l) = true := by
  induction steps with
  | nil => exact h
  | cons s rest ih =>
    obtain ⟨hs, hrest⟩ := List.forall_mem_cons.mp hsteps
    have htail := ih hrest
    cases hr : rest ++ l with
    | nil => simp [hr, lastFlagsOk]
    | cons s' rest' =>
      rw [List.cons_append, hr, lastFlagsOk, hs, ← hr, htail]
      · rfl
      · exact List.cons_ne_nil _ _

/-- Steps whose last flags are legal and do not end the program carry none. -/
theorem last_eq_false_of_not_endsLast : ∀ {l : List BlendStep}, lastFlagsOk l = true → endsLast l = false →
    ∀ s ∈ l, s.last = false
  | [], _, _, _, hs => (nomatch hs)
  | [s], _, hend, s', hs' => by
    rw [List.mem_singleton.mp hs']
    exact hend
  | s :: s' :: rest, h, hend, _, hmem => by
    have hsplit : (!s.last && lastFlagsOk (s' :: rest)) = true := h
    obtain ⟨hs, hrest⟩ := Bool.and_eq_true_iff.mp hsplit
    exact List.forall_mem_cons.mpr ⟨by simpa using hs, last_eq_false_of_not_endsLast hrest hend⟩ _ hmem

/-! ### The store and the assemblies -/

/-- A slot holds whole programs alone. -/
def slotSound (s : Slot) : Prop := programWhole s.active ∧ ∀ program, s.pending = some program → programWhole program

/-- Every open assembly of the blend engine is sound. -/
def assembliesSound (b : BlendEngine) : Prop := ∀ port a, assemblyOf port b = some a → assemblySound a

theorem programsSound_iff : programsSound p ↔
    (∀ slot : SlotNo, slotSound p.slots[slot]) ∧ assembliesSound p.blend := Iff.rfl

theorem programsSound_reads : readsOnly [.slots, .blend] programsSound := fun {p q} h => by
  rw [programsSound_iff, programsSound_iff, (h .slots (by decide) : q.slots = p.slots),
    (h .blend (by decide) : q.blend = p.blend)]
  exact id

theorem slotSound_loadedSlot {episode : Bool} {s : Slot} (hl : programWhole l) (hs : slotSound s) :
    slotSound (loadedSlot episode l s) := by
  unfold loadedSlot
  split
  · exact ⟨hs.1, fun _ h => Option.some.inj h ▸ hl⟩
  · exact ⟨hl, fun _ h => (nomatch h)⟩

theorem slotSound_promotedSlot {s : Slot} (hs : slotSound s) : slotSound (promotedSlot s) := by
  unfold promotedSlot
  split
  · next h => exact ⟨hs.2 _ h, fun _ h => (nomatch h)⟩
  · exact hs

theorem programsSound_takeProgram {slot : SlotNo} (hl : programWhole l) (h : programsSound p) :
    programsSound (takeProgram slot l p) := by
  obtain ⟨hslots, hassemblies⟩ := programsSound_iff.mp h
  refine programsSound_iff.mpr ⟨fun other => ?_, hassemblies⟩
  show slotSound (p.slots.set slot _)[other]
  by_cases hother : slot = other
  · subst hother
    rw [Fin.getElem_fin, Vector.getElem_set_self]
    exact slotSound_loadedSlot hl (hslots slot)
  · rw [Fin.getElem_fin, Vector.getElem_set_ne _ _ fun hval => hother (Fin.ext hval)]
    exact hslots other

theorem assembliesSound_of_same {b b' : BlendEngine} (hpb : b'.assemblyPB = b.assemblyPB)
    (hsv : b'.assemblySV = b.assemblySV) (h : assembliesSound b) : assembliesSound b' := by
  intro port a ha
  refine h port a ?_
  cases port
  case pb => exact hpb.symm.trans ha
  case sv => exact hsv.symm.trans ha
  all_goals exact ha

theorem programsSound_setAssembly {port : Port} {a : Option Assembly} (ha : ∀ a', a = some a' → assemblySound a')
    (h : programsSound p) : programsSound (setAssembly port a p) := by
  obtain ⟨hslots, hassemblies⟩ := programsSound_iff.mp h
  have hslots' : (setAssembly port a p).slots = p.slots := (setAssembly_frame ..).same .slots (by decide)
  rw [programsSound_iff, hslots']
  refine ⟨hslots, fun other a' ha' => ?_⟩
  cases port
  case pb =>
    cases other
    case pb => exact ha a' ha'
    case sv => exact hassemblies .sv a' ha'
    all_goals cases ha'
  case sv =>
    cases other
    case pb => exact hassemblies .pb a' ha'
    case sv => exact ha a' ha'
    all_goals cases ha'
  all_goals exact hassemblies other a' ha'

theorem programsSound_closeAssembly {port : Port} (h : programsSound p) : programsSound (setAssembly port none p) :=
  programsSound_setAssembly (fun _ h => (nomatch h)) h

/-! ### LOAD_BLEND (R78 to R81) -/

theorem programWhole_of_first (hlegal : programLegal l) (hlength : l.length ≤ 8) (hflags : lastFlagsOk l = true)
    (hend : endsLast l = true) : programWhole l := by
  refine ⟨?_, Nat.le_trans hlength (by decide), hlegal, hflags, hend⟩
  cases l
  · cases hend
  · exact Nat.succ_le_succ (Nat.zero_le _)

theorem programWhole_of_continuation {a : Assembly} (ha : assemblySound a) (hlegal : programLegal l)
    (hlength : l.length ≤ 8) (hflags : lastFlagsOk l = true) (hend : endsLast l = true) :
    programWhole (a.steps ++ l) := by
  obtain ⟨height, hsteps, hlast⟩ := ha
  refine ⟨?_, ?_, ?_, lastFlagsOk_append hlast hflags, endsLast_append hend⟩
  · rw [List.length_append, height]
    exact Nat.le_add_right_of_le (by decide)
  · rw [List.length_append, height]
    exact Nat.add_le_add_left hlength 8
  · exact List.forall_mem_append.mpr ⟨hsteps, hlegal⟩

theorem programsSound_loadBlend {port : Port} {slot first : Byte} {bytes : List (Byte × Byte)}
    (hlength : stepsLengthOk bytes = true) (h : programsSound p) :
    programsSound (loadBlend port slot first bytes p).part := by
  have hrefused : programsSound (refuseLoad port p).part := programsSound_closeAssembly h
  unfold loadBlend
  split
  · next k l _ hl =>
    obtain ⟨hlegal, hlen⟩ := programLegal_of_stepsOf hl
    have hmost : l.length ≤ 8 := hlen ▸ of_decide_eq_true (Bool.and_eq_true_iff.mp hlength).2
    split
    · exact hrefused
    · next hflags =>
      have hflags : lastFlagsOk l = true := by simpa using hflags
      split
      · unfold loadFirst
        split
        · next hend =>
          exact programsSound_takeProgram (programWhole_of_first hlegal hmost hflags hend)
            (programsSound_closeAssembly h)
        · next hend =>
          split
          · next height =>
            have hassembly : assemblySound ⟨k, l⟩ :=
              ⟨height, hlegal, last_eq_false_of_not_endsLast hflags (by simpa using hend)⟩
            exact programsSound_setAssembly (fun a' ha' => Option.some.inj ha' ▸ hassembly) h
          · exact hrefused
      · unfold loadNext
        split
        · exact hrefused
        · next a ha =>
          split
          · next hgood =>
            obtain ⟨-, hend⟩ := Bool.and_eq_true_iff.mp hgood
            exact programsSound_takeProgram
              (programWhole_of_continuation (h.2 port a ha) hlegal hmost hflags hend) (programsSound_closeAssembly h)
          · exact hrefused
      · exact hrefused
  · exact hrefused

/-! ### The episode and the pass -/

theorem programsSound_of_same {q : Part} (hslots : q.slots = p.slots) (hpb : q.blend.assemblyPB = p.blend.assemblyPB)
    (hsv : q.blend.assemblySV = p.blend.assemblySV) (h : programsSound p) : programsSound q := by
  obtain ⟨hsound, hassemblies⟩ := programsSound_iff.mp h
  rw [programsSound_iff, hslots]
  exact ⟨hsound, assembliesSound_of_same hpb hsv hassemblies⟩

theorem slotSound_promotedSlots (h : programsSound p) : ∀ slot : SlotNo, slotSound (promotedSlots p.slots)[slot] := by
  intro slot
  have hsound (slot : SlotNo) := slotSound_promotedSlot (h.1 slot)
  match slot with
  | 0 => exact hsound 0
  | 1 => exact hsound 1
  | 2 => exact hsound 2
  | 3 => exact hsound 3

theorem programsSound_judgeEpisode {aDem : Nat} (h : programsSound p) : programsSound (judgeEpisode aDem p) := by
  have hepisode (b : Bool) : programsSound (p.setBlend { p.blend with episode := b }) :=
    programsSound_of_same rfl rfl rfl h
  unfold judgeEpisode
  split
  · split
    · exact programsSound_reads.keeps (evalSource_frame ..) (hepisode false)
    · exact h
  · split
    · exact h
    · have hpromoted : programsSound ((p.setBlend { p.blend with episode := true }).setSlots (promotedSlots p.slots)) :=
        programsSound_iff.mpr ⟨slotSound_promotedSlots h, (hepisode true).2⟩
      exact programsSound_reads.keeps (((setEventIf_frame ..).trans (n := [.auth, .ports]) (evalSource_frame ..)).trans
        (n := [.auth, .cal, .scan, .ports]) (ceaseStanding_frame _)) hpromoted

theorem programsSound_beginSettlement {senseHeld : Bool} (h : programsSound p) :
    programsSound (beginSettlement senseHeld p) := by
  rw [beginSettlement_eq]
  have hjudged := programsSound_judgeEpisode (aDem := effADem (acceptance p))
    (programsSound_reads.keeps (acceptance_frame p) h)
  have hbegun : programsSound (begunPart p) := by
    unfold begunPart keepPass
    split
    · exact programsSound_of_same rfl rfl rfl hjudged
    · exact hjudged
  exact programsSound_reads.keeps (setAccount_frame (begunPart p) _) hbegun

/-- What follows at a close once the blend engine has its REG_applied_prev (R22, R90). -/
theorem settle_frame_of_regPrev (s : Settling) (p : Part) :
    changesOnly [.image, .wear, .warnings, .derate, .gen, .hold, .auth, .ports]
      (keepRegPrev s.record (torqueStage s (closeAccount s p))) (settle s p) := by
  rw [settle_eq]
  unfold settledPart
  generalize keepRegPrev s.record (torqueStage s (closeAccount s p)) = q
  have hwear := (decayStorage_frame q).trans (n := [.image, .wear, .warnings, .derate, .ports])
    (integrateRecord_frame s.record s.working _)
  have hgen := hwear.trans (n := [.image, .wear, .warnings, .derate, .gen, .ports])
    (sequencerSettled_frame s.record s.working _)
  have hhold := hgen.trans (n := [.image, .wear, .warnings, .derate, .gen, .hold, .auth, .ports])
    (socFloorJudged_frame s.working.soc _)
  exact hhold.trans (settlementFrames_frame s _)

theorem programsSound_keepRegPrev {r : AccountRecord} (h : programsSound p) : programsSound (keepRegPrev r p) :=
  programsSound_of_same rfl rfl rfl h

theorem programsSound_settle {s : Settling} (h : programsSound p) : programsSound (settle s p) := by
  have hclosed : programsSound (torqueStage s (closeAccount s p)) := programsSound_reads.keeps
    ((closeAccount_frame s p).trans (n := [.account, .links, .ports]) (torqueStage_frame s _)) h
  exact programsSound_reads.keeps (settle_frame_of_regPrev s p) (programsSound_keepRegPrev hclosed)

/-! ### Every step -/

theorem programWhole_builtIn : programWhole builtInProgram := by
  unfold programWhole programLegal
  decide

theorem assembliesSound_reset : assembliesSound resetBlend := fun port _ h => by cases port <;> cases h

theorem programsSound_runReset {cause : ResetCause} (h : programsSound p) : programsSound (runReset cause p) := by
  rw [programsSound_iff, runReset_blend]
  refine ⟨fun slot => ?_, assembliesSound_reset⟩
  cases hm : p.marker
  case true =>
    rw [show (runReset cause p).slots = p.slots from (runReset_frame_whole cause p hm).same .slots (by decide)]
    exact h.1 slot
  case false =>
    obtain ⟨-, -, hslots, -⟩ := runReset_of_lost cause p hm
    rw [hslots, Fin.getElem_fin, Vector.getElem_replicate]
    exact ⟨programWhole_builtIn, fun _ h => (nomatch h)⟩

theorem programsSound_effect (i : Instr) (p : Part) (hreach : ∃ b ∈ [Block.slots, .blend], b ∈ effectBlocks i)
    (h : programsSound p) : programsSound (effect i p) := by
  by_cases hdomains : movesDomains i = true
  · refine effect_keeps_of_movesDomains programsSound_reads hdomains h (fun p' v hcal => ?_) fun cause v => ?_
    · refine programsSound_iff.mpr ⟨fun slot => ?_, assembliesSound_reset⟩
      show slotSound p'.slots[slot]
      rw [show p'.slots = p.slots from hcal.same .slots (by decide)]
      exact h.1 slot
    · exact programsSound_runReset (programsSound_reads.keeps (setPower_frame p v) h)
  cases i with
  | loadBlend port slot first steps =>
    obtain hr | ⟨cause, hr⟩ | ⟨-, hr⟩ | ⟨-, hok, -, hr⟩ := request_cases port .loadBlend (stepsLengthOk steps)
      (loadBlend port slot first steps) p <;> rw [effect, hr]
    · exact h
    · exact programsSound_reads.keeps (portFrameError_frame ..) h
    · exact programsSound_reads.keeps (queueOn_frame ..) h
    · exact programsSound_reads.keeps (queueOn_frame ..) (programsSound_loadBlend hok h)
  | settlementBegin =>
    refine whenDue_keeps h fun _ _ => ?_
    unfold beginWaiting
    split
    · exact programsSound_beginSettlement h
    · exact h
  | accountSettled =>
    refine whenRunning_keeps h fun _ => ?_
    unfold settleCurrent
    split
    · exact programsSound_settle h
    · exact h
  | _ => first | exact absurd rfl hdomains | exact absurd hreach (by
      simp [effectBlocks, resultBlocks, writeBlocks, brakeBlocks, driveBlocks, holdBlocks, silenceBlocks])

/-- Settles O56: a load takes only legal steps with the last flag where it belongs, an episode start only promotes, and
no other command touches a program but keep-alive loss, which puts the built-in one into every slot. -/
theorem stepKeepsProgramsSound : Obligations.StepKeepsProgramsSound :=
  fun _ _ => step_keeps programsSound_reads programsSound_effect

end Sys2Proof.Machine
end

