-- ==== Sys2Proof/Proofs/Commands.lean ====
section
/-! SUPPORT. How a command acts, in the form in which the statements about single commands ask for it: the state that
a command leaves is the part it leaves, with the queue as it was. From this the queue, the reset state, the motor links
and the transmitters. -/

set_option Elab.async false

namespace Sys2Proof.Machine

/-! ### The state that a command leaves -/

section
variable {i : Instr} {s : State} {f : Part → Part} {due : Part → Bool} {owner : Part → Answered} {port : Port}
  {kind : Kind} {ok : Bool} {q : Part}

theorem exec_of_effect (h : effect i s.part = q) : exec i s = .next ⟨s.pending, q⟩ := by
  rw [exec_eq_effect, ← h]
  rfl

theorem exec_of_whenRunning (hrun : s.part.running = true) (h : effect i = whenRunning f) :
    exec i s = .next ⟨s.pending, f s.part⟩ :=
  exec_of_effect (h ▸ whenRunning_of_running hrun)

theorem exec_of_whenDue (hrun : s.part.running = true) (hdue : due s.part = true) (h : effect i = whenDue due f) :
    exec i s = .next ⟨s.pending, f s.part⟩ :=
  exec_of_effect (h ▸ whenDue_of_due hrun hdue)

/-- A request that is taken and permitted is answered by its owner (R181). -/
theorem exec_of_request (htaken : takesRequest port s.part) (hkind : kind.requestOn port = true) (hok : ok = true)
    (h : effect i = request port kind ok owner) :
    exec i s = .next ⟨s.pending, replyOn port kind (owner s.part)⟩ :=
  exec_of_effect (by rw [h, hok, request_taken _ _ _ _ htaken, if_pos hkind])

/-- In reset and without the run supply no command but those of the supplies, the reset line and the emergency lines
acts (R201). -/
theorem effect_of_stopped {p : Part} (hrun : p.running = false) (hi : ofSupplies i = false) : effect i p = p := by
  cases i with
  | runDomainPowerUp | resetLineAssert | resetLineRelease | emergencyLineChange | runDomainPowerDown
  | keepAliveSupplyFailure => cases hi
  | driveStatus | storageStatus | genStatus | brakeStatus | invStatus | frameError | frameSent | conversionComplete
  | accountSettled => exact whenRunning_of_stopped hrun
  | read | configWrite | clearStatus | loadBlend | ackWarning | forceDerate | wearWrite | wearReset | calibrate
  | clearLockout => exact request_notRunning _ _ _ _ _ hrun
  | combinationHoldExpiry | settlementTimerExpiry | routineTrigger | calibrationEnd | settlementBegin
  | promotionTimerExpiry | layoverTimerExpiry | startTimeout | genSettleExpiry | stopTimeout | retryDelayExpiry
  | partnerStale | partnerLost | startWindowExpiry | motorLinkStale | armingTimerExpiry | clearingTimerExpiry =>
    exact whenDue_of_stopped hrun

end

/-! ### The queue -/

theorem step_nil (p : Part) : step ⟨[], p⟩ = .next (idle ⟨[], p⟩) := rfl

theorem idle_of_stopped {s : State} (h : s.part.running = false) : idle s = s := if_neg (by simp [h])

theorem idle_of_quiet {s : State} (hrun : s.part.running = true) (hdue : dueEvents s.part = []) :
    idle s = { s with part := advanceTime s.part } := by
  simp [idle, hrun, hdue]

theorem idle_of_due {s : State} (hrun : s.part.running = true) (hdue : dueEvents s.part ≠ []) :
    idle s = { s with pending := dueEvents s.part } := by
  unfold idle
  rw [if_pos hrun]
  split
  · next hnil => exact absurd hnil hdue
  · rfl

/-- Settles O1: the step takes the front command by its definition. -/
theorem stepRunsFrontCommand : Obligations.StepRunsFrontCommand := fun _ _ _ => rfl

/-- Settles O2, by the three cases of the empty queue. -/
theorem idleStepIsTheTick : Obligations.IdleStepIsTheTick := by
  intro p
  simp only [step_nil]
  refine ⟨fun hrun => ?_, fun hrun hdue => ⟨_, rfl, ?_⟩, fun hrun hdue => ?_⟩
  · rw [idle_of_stopped hrun]
  · rw [idle_of_quiet hrun hdue]
    exact ⟨rfl, rfl, rfl, setTime_frame p _⟩
  · rw [idle_of_due hrun hdue]

/-- Settles O3: whatever acts in reset is a command of the supplies or lines. -/
theorem nothingHappensInReset : Obligations.NothingHappensInReset :=
  fun _ _ hrun hi => exec_of_effect (effect_of_stopped hrun hi)

/-! ### The reset state -/

theorem resetPart_running : resetPart.running = true := rfl

theorem accountSound_resetPart : accountSound resetPart :=
  ⟨fun _ h => absurd h (by simp [resetPart, resetAccount]), fun _ h => (nomatch h), by decide, trivial, rfl,
    fun _ h => (nomatch h)⟩

theorem stackSound_resetPart : stackSound resetPart := by
  refine ⟨?_, ?_⟩
  · unfold levelsConfigured
    decide
  · exact ⟨.nil, trivial, fun _ h => absurd h (by simp [resetPart, resetArbiter])⟩

theorem holdSound_resetPart : holdSound resetPart := by
  refine ⟨by decide, ⟨fun r h => ?_, fun c h => ?_, fun st h => ?_, by decide⟩, by decide, by decide, by decide,
    by decide, by decide, by decide, by decide, by decide⟩
  · exact absurd h (by simp [resetPart, resetAccount])
  · cases h
  · cases h

theorem warningsSound_resetPart : warningsSound resetPart := by
  unfold warningsSound
  decide +kernel

theorem factorsCurrent_resetPart : factorsCurrent resetPart := by
  refine ⟨fun _ h => (nomatch h), fun _ => ?_⟩
  unfold factorsFormed leastCap overriding liningLimited
  refine ⟨?_, ?_, ?_, ?_, ?_, ?_⟩
  all_goals decide +kernel

theorem transmittersSound_resetPart : transmittersSound resetPart := by
  refine ⟨fun port => ?_, fun _ => rfl, fun _ => rfl⟩
  cases port <;> exact ⟨fun _ => rfl, by decide⟩

theorem programsSound_resetPart : programsSound resetPart := by
  refine ⟨fun slot => ?_, fun port a h => by cases port <;> cases h⟩
  rw [show resetPart.slots[slot] = defaultSlot from Vector.getElem_replicate ..]
  unfold programWhole programLegal
  exact ⟨by decide, fun program h => (nomatch h)⟩

/-- Settles O57, invariant by invariant. -/
theorem resetMeetsInvariants : Obligations.ResetMeetsInvariants :=
  ⟨accountSound_resetPart, stackSound_resetPart, holdSound_resetPart, warningsSound_resetPart,
    factorsCurrent_resetPart, transmittersSound_resetPart, programsSound_resetPart⟩

/-! ### The motor links -/

theorem inService_iff {l : MotorLink} : l.inService = true ↔ l.freshness = .fresh ∧ l.ready = true ∧ l.fault = false := by
  simp [MotorLink.inService, and_assoc]

theorem clampNat_zero (high n : Nat) : clampNat 0 high n = min n high := by
  simp [clampNat, Nat.min_comm]

/-- Settles O9: an INV_STATUS and the expiry of its limit each set one link. -/
theorem motorLinkFollowsReports : Obligations.MotorLinkFollowsReports := by
  intro motor s hrun
  refine ⟨fun n tMot tGen flags => ⟨_, exec_of_whenRunning hrun rfl, rfl, ?_, ?_, ?_, setLink_frame ..⟩,
    fun hfresh hdue => ⟨_, exec_of_whenDue hrun ?_ rfl, rfl, ?_, ?_, ?_, setLink_frame ..⟩⟩
  · simp [invArrival, clampNat_zero, flagBit, Part.now]
  · simp [invArrival, inService_iff, flagBit]
  · intro other hother
    simp [invArrival, hother]
  · exact Bool.and_eq_true_iff.mpr ⟨decide_eq_true hfresh, decide_eq_true hdue⟩
  · simp [linkBecomesStale]
  · simp [linkBecomesStale, MotorLink.inService]
  · intro other hother
    simp [linkBecomesStale, hother]

/-! ### Frames sent -/

theorem beginNext_eq (l : List OutFrame) : beginNext l = ⟨l.head?, l.tail⟩ := by
  cases l <;> rfl

theorem Transmitter.complete_of_sending {t : Transmitter} {f : OutFrame} (h : t.sending = some f) :
    t.complete = ⟨t.queue.head?, t.queue.tail⟩ := by
  rw [Transmitter.complete, h]
  exact beginNext_eq t.queue

/-- Settles O24, on a port and on a motor link. -/
theorem frameSentBeginsNext : Obligations.FrameSentBeginsNext := by
  intro f s hrun
  refine ⟨fun port hsending => ⟨_, exec_of_whenRunning hrun rfl, ?_, ?_, rfl, setPort_frame ..⟩,
    fun motor hsending => ⟨_, exec_of_whenRunning hrun rfl, ?_, ?_, setLink_frame ..⟩⟩
  · simp [frameSent, Transmitter.complete_of_sending hsending]
  · intro other hother
    simp [frameSent, hother]
  · simp [frameSent, Transmitter.complete_of_sending hsending]
  · intro other hother
    simp [frameSent, hother]

end Sys2Proof.Machine
end

