-- ==== Sys2Proof/Proofs/AuthorityMoves.lean ====
section
/-! SUPPORT. How the arbiter's flags and stack move: what an evaluation of a source does to both (R43, R50), how
releases one after another add up, what the acceptance of an offer does (R48), and what an emergency line does (R52). -/

set_option Elab.async false

namespace Sys2Proof.Machine

variable {p q r : Part} {src other : Source} {e e' : Event} {port : Port} {l : List Block} {f g : Source → Bool}

/-! ### Events not set -/

/-- From `p` to `q` no port gains the event. -/
def gainsNo (e : Event) (p q : Part) : Prop := ∀ port, hasEvent e port q → hasEvent e port p

theorem gainsNo.refl (e : Event) (p : Part) : gainsNo e p p := fun _ h => h

theorem gainsNo.trans (h1 : gainsNo e p q) (h2 : gainsNo e q r) : gainsNo e p r := fun port h => h1 port (h2 port h)

theorem gainsNo.of_frame (h : changesOnly l p q) (hl : .ports ∉ l := by decide) : gainsNo e p q := fun port hq => by
  have hports : q.ports = p.ports := h.same .ports hl
  unfold hasEvent Part.port at *
  rwa [hports] at hq

theorem gainsNo.ite {c : Prop} [Decidable c] (h1 : gainsNo e p q) (h2 : gainsNo e p r) :
    gainsNo e p (if c then q else r) := by
  split <;> assumption

theorem Event.mask_ne_zero (e : Event) : e.mask ≠ 0#16 := by
  cases e <;> decide

theorem hasEvent_iff : hasEvent e port p ↔ (p.port port).status.getLsbD e.number = true := by
  rw [← and_mask_ne_zero_iff]
  unfold hasEvent
  refine ⟨fun h => h.trans_ne (Event.mask_ne_zero e), fun h => ?_⟩
  rw [show e.mask = BitVec.twoPow 16 e.number from rfl, BitVec.and_twoPow,
    if_pos (and_mask_ne_zero_iff.mp h)]

theorem getLsbD_mask (e e' : Event) : e.mask.getLsbD e'.number = decide (e = e') := by
  cases e <;> cases e' <;> rfl

theorem setEvent_gainsNo (h : e' ≠ e) : gainsNo e p (setEvent e' p) := fun port hq => by
  rw [hasEvent_iff, port_setEvent] at hq
  rw [hasEvent_iff]
  unfold addEventAt PortState.addEvent at hq
  split at hq
  · simpa [getLsbD_mask, h] using hq
  · exact hq

theorem setEventIf_gainsNo {c : Bool} (h : e' ≠ e) : gainsNo e p (setEventIf c e' p) := .ite (setEvent_gainsNo h) (.refl e p)

theorem setEventIf_gainsNo_of_false {c : Bool} (h : c = false) : gainsNo e p (setEventIf c e' p) := by
  rw [h]
  exact .refl e p

/-! ### Releases in sequence -/

theorem entriesReleased.of_frame (h : changesOnly l p q) (hev : gainsNo .authorityChange p q)
    (hl : .auth ∉ l := by decide) : entriesReleased (fun _ => false) p q := by
  have hauth : q.auth = p.auth := h.same .auth hl
  refine ⟨?_, fun e _ hfell => (nomatch hfell), fun _ => hev .pd⟩
  rw [hauth]
  exact (List.filter_eq_self.mpr fun _ _ => rfl).symm

theorem entriesReleased.refl (p : Part) : entriesReleased (fun _ => false) p p := .of_frame (.refl [] p) (.refl _ p)

theorem entriesReleased.congr (h : entriesReleased f p q) (hfg : ∀ src, f src = g src) : entriesReleased g p q := by
  rwa [← show f = g from funext hfg]

theorem entriesReleased.trans (h1 : entriesReleased f p q) (h2 : entriesReleased g q r)
    (hgains : portsOnlyGainEvents q r) : entriesReleased (fun src => f src || g src) p r := by
  obtain ⟨hstack1, hset1, hkept1⟩ := h1
  obtain ⟨hstack2, hset2, hkept2⟩ := h2
  have hhead (e : StackEntry) (he : p.auth.stack.head? = some e) (hf : f e.source = false) :
      q.auth.stack.head? = some e := by
    obtain ⟨rest, hrest⟩ := List.head?_eq_some_iff.mp he
    simp [hstack1, hrest, hf]
  refine ⟨?_, fun e he hfell => ?_, fun htop hev => ?_⟩
  · rw [hstack2, hstack1, List.filter_filter]
    exact List.filter_congr fun e _ => by rw [Bool.not_or, Bool.and_comm]
  · cases hf : f e.source
    case true => exact (hset1 e he hf).of_gains hgains
    case false =>
      replace hfell : (f e.source || g e.source) = true := hfell
      rw [hf, Bool.false_or] at hfell
      exact hset2 e (hhead e he hf) hfell
  · refine hkept1 (fun e he => (Bool.or_eq_false_iff.mp (htop e he)).1) (hkept2 (fun e he => ?_) hev)
    cases hp : p.auth.stack.head? with
    | none => simp [hstack1, List.head?_eq_none_iff.mp hp] at he
    | some top =>
      obtain ⟨hf, hg⟩ := Bool.or_eq_false_iff.mp (htop top hp)
      cases (hhead top hp hf).symm.trans he
      exact hg

/-- An operation that leaves the arbiter alone, after releases. -/
theorem entriesReleased.frame (h : entriesReleased f p q) (hframe : changesOnly l q r)
    (hgains : portsOnlyGainEvents q r) (hev : gainsNo .authorityChange q r) (hl : .auth ∉ l := by decide) :
    entriesReleased f p r :=
  (h.trans (.of_frame hframe hev hl) hgains).congr fun src => Bool.or_false (f src)

/-- An operation that leaves the arbiter alone, before releases. -/
theorem entriesReleased.after (h : entriesReleased f q r) (hframe : changesOnly l p q)
    (hev : gainsNo .authorityChange p q) (hgains : portsOnlyGainEvents q r) (hl : .auth ∉ l := by decide) :
    entriesReleased f p r :=
  ((entriesReleased.of_frame hframe hev hl).trans h hgains).congr fun _ => rfl

/-! ### A source evaluated -/

/-- The condition of a source's flag reads four blocks, and that of HOLD reads the hold controller (R43). -/
theorem requested_of_same (hlines : q.lines = p.lines) (himage : q.image = p.image) (hcfg : q.cfg = p.cfg)
    (hblend : q.blend = p.blend) (hhold : src = .hold → q.hold = p.hold) : requested src q = requested src p := by
  cases p
  cases q
  cases hlines
  cases himage
  cases hcfg
  cases hblend
  cases src with
  | hold => cases hhold rfl; rfl
  | safeStop | slip | blend | limp | traction => rfl

theorem requested_congr (h : changesOnly l p q)
    (hl : ∀ b ∈ [Block.lines, .image, .cfg, .blend, .hold], b ∉ l := by decide) : requested src q = requested src p :=
  requested_of_same (h.same .lines (hl _ (by decide))) (h.same .image (hl _ (by decide)))
    (h.same .cfg (hl _ (by decide))) (h.same .blend (hl _ (by decide))) fun _ => h.same .hold (hl _ (by decide))

theorem requested_congr_of_ne_hold (hsrc : src ≠ .hold) (h : changesOnly l p q)
    (hl : ∀ b ∈ [Block.lines, .image, .cfg, .blend], b ∉ l := by decide) : requested src q = requested src p :=
  requested_of_same (h.same .lines (hl _ (by decide))) (h.same .image (hl _ (by decide)))
    (h.same .cfg (hl _ (by decide))) (h.same .blend (hl _ (by decide))) fun h => absurd h hsrc

theorem evalSource_flags (src : Source) (p : Part) :
    (evalSource src p).auth.flags = p.auth.flags.set src (requested src p) := by
  rw [evalSource_auth]
  split
  · next h => rw [h]
  · next h => rw [Bool.eq_false_of_not_eq_true h]

theorem evalSource_of_requested (h : requested src p = true) :
    evalSource src p = p.setAuth { p.auth with flags := p.auth.flags.set src true } := if_pos h

theorem evalSource_of_not_requested (h : requested src p = false) : evalSource src p =
    setEventIf (isTop src p.auth.stack) .authorityChange
      (p.setAuth ⟨p.auth.flags.set src false, released src p.auth.stack⟩) := if_neg (by simp [h])

theorem isTop_of_head? {stack : List StackEntry} {top : StackEntry} (h : stack.head? = some top) :
    isTop src stack = decide (top.source = src) := by
  obtain ⟨rest, rfl⟩ := List.head?_eq_some_iff.mp h
  rfl

theorem evalSource_gainsNo (h : .authorityChange ≠ e) : gainsNo e p (evalSource src p) := by
  unfold evalSource
  split
  · exact .of_frame (setAuth_frame p _)
  · exact (gainsNo.of_frame (setAuth_frame p _)).trans (setEventIf_gainsNo h)

/-- An evaluation releases the source's entry when the flag's condition does not hold, and no other (R50). -/
theorem evalSource_released (src : Source) (p : Part) :
    entriesReleased (fun s => s = src && !requested src p) p (evalSource src p) := by
  cases hreq : requested src p
  case true =>
    rw [evalSource_of_requested hreq]
    refine ⟨?_, fun e _ hfell => by simp at hfell, fun _ => id⟩
    exact (List.filter_eq_self.mpr fun _ _ => by simp).symm
  case false =>
    rw [evalSource_of_not_requested hreq]
    refine ⟨?_, fun e he hfell => ?_, fun htop => ?_⟩
    · rw [(setEventIf_frame ..).same .auth (by decide)]
      exact List.filter_congr fun e _ => by simp
    · refine hasEvent_setEventIf ?_ rfl
      rw [isTop_of_head? he]
      simpa using hfell
    · refine (gainsNo.of_frame (setAuth_frame p _)).trans (setEventIf_gainsNo_of_false ?_) .pd
      cases hhead : p.auth.stack.head? with
      | none =>
        rw [List.head?_eq_none_iff.mp hhead]
        rfl
      | some top =>
        rw [isTop_of_head? hhead]
        simpa using htop top hhead

theorem isTop_iff : isTop src p.auth.stack = true ↔ p.auth.stack.head?.map (·.source) = some src := by
  cases p.auth.stack <;> simp [isTop]

theorem inStack_iff : inStack src p.auth = true ↔ src ∈ p.auth.stack.map (·.source) := by
  simp [inStack]

/-! ### The acceptance of an offer -/

theorem sourceState_eq (src : Source) (p : Part) : sourceState src p =
    if p.auth.stack.head?.map (·.source) = some src then .governing
    else if src ∈ p.auth.stack.map (·.source) then .suspended
    else if p.auth.flags.get src = true then .pending else .idle := by
  simp only [sourceState, isTop_iff, inStack_iff]

theorem qualifies_iff : qualifies src p = true ↔ ∀ e, p.auth.stack.head? = some e → e.level < levelOf src p := by
  unfold qualifies
  cases p.auth.stack <;> simp

theorem acceptOffer_of_none (h : accepted p = none) : acceptOffer p = p := by
  unfold acceptOffer
  rw [h]

theorem acceptOffer_of_some (h : accepted p = some src) : acceptOffer p = pushSource src p := by
  unfold acceptOffer
  rw [h]

theorem pushSource_auth : (pushSource src p).auth = { p.auth with stack := ⟨src, levelOf src p⟩ :: p.auth.stack } := rfl

theorem accepted_of_no_offer (h : offer p = none) : accepted p = none := by
  unfold accepted
  rw [h]

theorem accepted_of_offer (h : offer p = some src) : accepted p = if qualifies src p then some src else none := by
  unfold accepted
  rw [h]

/-- A waiting source is not in the stack, so that the top it suspends is another (R44). -/
theorem not_mem_stack_of_offer (h : offer p = some src) : src ∉ p.auth.stack.map (·.source) := by
  obtain ⟨⟨hpending, -⟩, -⟩ := (offer_eq_some_iff.mp h).imp_left offerable_iff.mp
  rw [sourceState_eq] at hpending
  intro hmem
  simp only [hmem, if_true] at hpending
  split at hpending <;> cases hpending

/-- Settles O34: the acceptance pushes a qualifying offer and nothing else. -/
theorem offerAccepted : Obligations.OfferAccepted := by
  intro p
  refine ⟨⟨rfl, rfl, rfl, rfl, rfl, rfl⟩, fun src => sourceState_eq src p, fun hnone => ?_, fun src hoffer => ⟨?_, ?_⟩⟩
  · have := accepted_of_no_offer hnone
    exact ⟨this, acceptOffer_of_none this⟩
  · intro hlevel
    have haccepted : accepted p = some src := by
      rw [accepted_of_offer hoffer, if_pos (qualifies_iff.mpr hlevel)]
    rw [acceptOffer_of_some haccepted]
    refine ⟨haccepted, pushSource_auth, ?_, fun e he => ?_, hasEvent_setEvent _ _ rfl, pushSource_frame ..⟩
    · rw [sourceState_eq]
      exact if_pos rfl
    · have hmem : e.source ∈ p.auth.stack.map (·.source) := List.mem_map_of_mem (List.mem_of_mem_head? he)
      have hne : ¬ src = e.source := fun h => not_mem_stack_of_offer hoffer (h ▸ hmem)
      rw [sourceState_eq, pushSource_auth]
      simp only [List.head?_cons, Option.map_some, Option.some.injEq, hne, List.map_cons, List.mem_cons, hmem, or_true,
        if_true, if_false]
  · intro e he hlevel
    have haccepted : accepted p = none := by
      rw [accepted_of_offer hoffer, if_neg fun hq => absurd (qualifies_iff.mp hq e he) (by omega)]
    exact ⟨haccepted, acceptOffer_of_none haccepted⟩

/-! ### The emergency lines -/

section
variable {line : EmergencyLine} {active : Bool}

theorem lineChanges_of_running (h : p.running = true) :
    lineChanges line active p = moveWatch (evalSource .safeStop (p.setLines (p.lines.set line active))) := if_pos h

theorem requested_safeStop : requested .safeStop p = (anyLineActive p || p.image.brake.data.emergency) := rfl

theorem lineChanges_lines (h : p.running = true) : (lineChanges line active p).lines = p.lines.set line active := by
  rw [lineChanges_of_running h]
  exact ((evalSource_frame ..).trans (n := [.auth, .watch, .ports]) (moveWatch_frame _)).same .lines (by decide)

theorem lineChanges_flags (h : p.running = true) : (lineChanges line active p).auth.flags = p.auth.flags.set .safeStop
    (anyLineActive (lineChanges line active p) || p.image.brake.data.emergency) := by
  have hlines : anyLineActive (lineChanges line active p) = anyLineActive (p.setLines (p.lines.set line active)) := by
    simp only [anyLineActive, lineChanges_lines h, Part.setLines_lines]
  rw [hlines, lineChanges_of_running h]
  exact evalSource_flags .safeStop _

theorem lineChanges_released (h : p.running = true) :
    entriesReleased (fun src => src = .safeStop && !(lineChanges line active p).auth.flags.safeStop) p
      (lineChanges line active p) := by
  rw [lineChanges_of_running h]
  have hmove (q : Part) := moveWatch_frame q
  have hreleased := ((evalSource_released .safeStop (p.setLines (p.lines.set line active))).after
    (setLines_frame ..) (.of_frame (setLines_frame ..)) (evalSource_gains ..)).frame (hmove _) (.of_frame (hmove _))
    (.of_frame (hmove _))
  refine hreleased.congr fun src => ?_
  rw [show (moveWatch (evalSource .safeStop (p.setLines (p.lines.set line active)))).auth.flags =
    (evalSource .safeStop (p.setLines (p.lines.set line active))).auth.flags from rfl, evalSource_flags]
  rfl

/-- The watch judges the new level of the line (R203). -/
theorem lineChanges_watch (h : p.running = true) : (lineChanges line active p).watch =
    watchNext p.cfg.resetMask ((p.lines.set line active).bits &&& p.cfg.resetMask = p.cfg.resetMask) p.time.now
      p.watch := by
  rw [lineChanges_of_running h]
  have heval := evalSource_frame .safeStop (p.setLines (p.lines.set line active))
  generalize evalSource .safeStop (p.setLines (p.lines.set line active)) = q at heval ⊢
  have hcfg : q.cfg = p.cfg := heval.same .cfg (by decide)
  have hl : q.lines = p.lines.set line active := heval.same .lines (by decide)
  have htime : q.time = p.time := heval.same .time (by decide)
  have hw : q.watch = p.watch := heval.same .watch (by decide)
  simp only [moveWatch, Part.setWatch_watch, allMaskedActive, Part.now, hcfg, hl, htime, hw]

end

/-- Settles O49: the arbiter evaluates SAFE_STOP on the new level, then the watch judges. -/
theorem emergencyLineRequestsSafeStop : Obligations.EmergencyLineRequestsSafeStop := by
  intro line active s hrun mask allActive
  refine ⟨_, exec_of_effect rfl, lineChanges_lines hrun, ?flag, ?others, lineChanges_released hrun, ?disarmed, ?armed,
    ?timing, lineChanges_frame ..⟩
  case flag => exact congrArg SourceFlags.safeStop (lineChanges_flags hrun)
  case others =>
    intro src hsrc
    show (lineChanges line active s.part).auth.flags.get src = _
    rw [lineChanges_flags hrun, SourceFlags.get_set_other _ _ hsrc]
  all_goals
    intro hstate
    refine (lineChanges_watch hrun).trans ?_
    simp [watchNext, hstate, mask, allActive]

end Sys2Proof.Machine
end

