-- ==== Sys2Proof/Proofs/ResetCommands.lean ====
section
/-! SUPPORT. What the commands of the supplies and of the reset line leave: after a run reset the reset values, with what
the blocks evaluate at once (R56, R137, R203), and the keep-alive domain as the reset found it (R199, R200, R204). -/

set_option Elab.async false

namespace Sys2Proof.Machine

variable {p q : Part} {cause : ResetCause}

/-! ### What the blocks evaluate at the reset -/

/-- With an empty stack an evaluation has no entry to release, and sets no event. -/
theorem evalSource_of_empty (src : Source) (h : p.auth.stack = []) :
    evalSource src p = p.setAuth ⟨p.auth.flags.set src (requested src p), []⟩ := by
  cases hreq : requested src p
  case true =>
    rw [evalSource_of_requested hreq]
    exact congrArg p.setAuth (by simp [h])
  case false =>
    rw [evalSource_of_not_requested hreq, h]
    rfl

theorem leaveReset_derate (q : Part) :
    (leaveReset q).derate = { q.derate with factors := formFactors (leaveReset q) } := by
  have hderate : (evalSource .safeStop q).derate = q.derate := (evalSource_frame ..).same .derate (by decide)
  unfold leaveReset
  generalize evalSource .safeStop q = x at hderate ⊢
  rw [← hderate]
  rfl

theorem leaveReset_of_empty (h : q.auth.stack = []) :
    (leaveReset q).auth = ⟨q.auth.flags.set .safeStop (requested .safeStop q), []⟩ ∧ (leaveReset q).ports = q.ports := by
  unfold leaveReset
  rw [evalSource_of_empty .safeStop h]
  exact ⟨rfl, rfl⟩

theorem leaveReset_watch (q : Part) :
    (leaveReset q).watch = watchNext q.cfg.resetMask (allMaskedActive q) q.time.now q.watch := by
  have hframe := evalSource_frame .safeStop q
  unfold leaveReset
  generalize evalSource .safeStop q = x at hframe ⊢
  have hcfg : x.cfg = q.cfg := hframe.same .cfg (by decide)
  have hlines : x.lines = q.lines := hframe.same .lines (by decide)
  have htime : x.time = q.time := hframe.same .time (by decide)
  have hwatch : x.watch = q.watch := hframe.same .watch (by decide)
  simp only [allMaskedActive, ← hcfg, ← hlines, ← htime, ← hwatch]
  rfl

/-! ### The run domain after a run reset -/

theorem restarted_auth (cause : ResetCause) (p : Part) : (restarted cause p).auth = resetArbiter :=
  (restarted_frame_stopped cause p).same .auth (by decide)

theorem restarted_frame_runReset (cause : ResetCause) (p : Part) :
    changesOnly [.auth, .derate, .watch, .ports] (restarted cause p) (runReset cause p) := leaveReset_frame _

theorem runReset_auth (cause : ResetCause) (p : Part) :
    (runReset cause p).auth = ⟨⟨anyLineActive (runReset cause p), false, false, false, false, false⟩, []⟩ := by
  have hempty : (restarted cause p).auth.stack = [] := by rw [restarted_auth]; rfl
  have himage : (restarted cause p).image = resetImage := (restarted_frame_stopped cause p).same .image (by decide)
  have hlines : (runReset cause p).lines = (restarted cause p).lines :=
    (restarted_frame_runReset cause p).same .lines (by decide)
  rw [runReset_eq, (leaveReset_of_empty hempty).1, ← runReset_eq, restarted_auth, requested_safeStop, himage]
  simp only [anyLineActive, hlines, resetImage, Bool.or_false]
  rfl

theorem runReset_ports (cause : ResetCause) (p : Part) : (runReset cause p).ports = (restarted cause p).ports := by
  rw [runReset_eq, (leaveReset_of_empty (by rw [restarted_auth]; rfl)).2]

theorem runReset_ports_of_whole (h : p.marker = true) : (runReset cause p).ports = resetPorts := by
  rw [runReset_ports, restarted, if_pos h]
  rfl

theorem runReset_status_of_lost (h : p.marker = false) (port : Port) : ((runReset cause p).port port).status =
    if port = .pd ∨ port = .sv then Event.warningNew.mask else 0#16 := by
  rw [Part.port, runReset_ports, restarted, if_neg (by simp [h])]
  cases port with
  | pd | sv => exact BitVec.zero_or.trans (if_pos (by decide)).symm
  | ps | pg | pb => rfl

theorem runReset_derate (cause : ResetCause) (p : Part) :
    (runReset cause p).derate = { resetDerate with factors := formFactors (runReset cause p) } := by
  have hderate : (restarted cause p).derate = resetDerate := (restarted_frame_stopped cause p).same .derate (by decide)
  rw [runReset_eq, leaveReset_derate, hderate]

theorem runReset_watch_state (cause : ResetCause) (p : Part) : (runReset cause p).watch.state =
    if (runReset cause p).cfg.resetMask ≠ 0#3 ∧
      (runReset cause p).lines.bits &&& (runReset cause p).cfg.resetMask ≠ (runReset cause p).cfg.resetMask
    then .armed else .disarmed := by
  have hframe := restarted_frame_runReset cause p
  have hwatch : (restarted cause p).watch = ⟨.disarmed, 0#32⟩ :=
    (restarted_frame_stopped cause p).same .watch (by decide)
  rw [(hframe.same .cfg (by decide) : (runReset cause p).cfg = _),
    (hframe.same .lines (by decide) : (runReset cause p).lines = _), runReset_eq, leaveReset_watch, hwatch]
  simp only [watchNext, allMaskedActive, Bool.and_eq_true, decide_eq_true_eq, Bool.not_eq_true', decide_eq_false_iff_not]
  split <;> rfl

theorem runDomainReset_runReset (cause : ResetCause) (p : Part) : runDomainReset (runReset cause p) := by
  have hgains := runReset_gains cause p
  refine ⟨runReset_time .., runReset_partState .., runReset_image .., runReset_links .., runReset_account ..,
    runReset_blend .., runReset_hold .., runReset_gen .., runReset_scan .., hgains.1, fun port => ?_, runReset_auth ..,
    runReset_derate .., runReset_watch_state ..⟩
  obtain ⟨hcauses, hsnapshot, htx, -⟩ := hgains.2 port
  refine ⟨hcauses.trans ?_, hsnapshot.trans ?_, htx.trans ?_⟩ <;> cases port <;> rfl

/-! ### The keep-alive domain after a run reset -/

theorem abandonCalibration_cal (p : Part) :
    (p.scan.mode.code = 3 → (abandonCalibration p).cal = ⟨p.cal.offsets, .abandoned, none⟩) ∧
      (p.scan.mode.code ≠ 3 → (abandonCalibration p).cal = p.cal) := by
  unfold abandonCalibration
  cases p.scan.mode with
  | calibrating _ _ => exact ⟨fun _ => rfl, fun h => absurd rfl h⟩
  | idle | routineRun | eventRun _ => exact ⟨fun h => (nomatch h), fun _ => rfl⟩

theorem runReset_cal_of_whole (h : p.marker = true) : (runReset cause p).cal = (abandonCalibration p).cal := by
  rw [(restarted_frame_runReset cause p).same .cal (by decide), restarted, if_pos h]
  rfl

theorem runReset_cause_of_whole (h : p.marker = true) :
    (runReset cause p).cause = ⟨cause, false, min (p.cause.count + 1) 65535⟩ := by
  have habandon : (abandonCalibration p).cause = p.cause := (abandonCalibration_frame p).same .cause (by decide)
  rw [(restarted_frame_runReset cause p).same .cause (by decide), restarted, if_pos h]
  show (⟨cause, false, min ((abandonCalibration p).cause.count + 1) Config.countTop⟩ : ResetRecord) = _
  rw [habandon]
  rfl

theorem keepAliveKept_runReset (h : p.marker = true) : keepAliveKept cause p (runReset cause p) := by
  have hwhole := runReset_frame_whole cause p h
  obtain ⟨habandoned, hstays⟩ := abandonCalibration_cal p
  have hcal := runReset_cal_of_whole (cause := cause) h
  refine ⟨hwhole.same .cfg (by decide), hwhole.same .slots (by decide), hwhole.same .wear (by decide),
    hwhole.same .warnings (by decide), ?_, fun hmode => hcal.trans (hstays hmode), fun hmode => ?_,
    runReset_cause_of_whole h, fun port => ?_⟩
  · by_cases hmode : p.scan.mode.code = 3
    · rw [hcal, habandoned hmode]
    · rw [hcal, hstays hmode]
  · rw [hcal, habandoned hmode]
  · rw [Part.port, runReset_ports_of_whole h]
    cases port <;> rfl

theorem keepAliveLost_runReset (h : p.marker = false) : keepAliveLost (runReset cause p) := by
  obtain ⟨-, hcfg, hslots, hcal, hwear, hwarnings, hcause⟩ := runReset_of_lost cause p h
  exact ⟨hcfg, hslots, hcal, hwear, hwarnings, hcause, runReset_status_of_lost h⟩

theorem runReset_marker (cause : ResetCause) (p : Part) : (runReset cause p).marker = true := by
  cases h : p.marker
  case true => exact ((runReset_frame_whole cause p h).same .marker (by decide)).trans h
  case false => exact (runReset_of_lost cause p h).1

/-- A run reset of a part that is the part before but for its power. -/
theorem runResetMade_setPower (cause : ResetCause) (p : Part) {v : Power} (hrun : (p.setPower v).running = true) :
    runResetMade cause p (runReset cause (p.setPower v)) :=
  ⟨runDomainReset_runReset .., runReset_marker .., runReset_lines .., (runReset_running ..).trans hrun,
    congrArg Power.held (runReset_power ..), keepAliveKept_runReset (p := p.setPower v),
    keepAliveLost_runReset (p := p.setPower v)⟩

theorem powerUp_of_released (hsupply : p.power.supply = false) (hline : p.power.resetLine = false) :
    powerUp p = runReset .powerOn (p.setPower { p.power with supply := true }) := by
  rw [powerUp, if_neg (by simp [hsupply]), if_neg (by simp [hline])]

theorem powerUp_of_asserted (hsupply : p.power.supply = false) (hline : p.power.resetLine = true) :
    powerUp p = p.setPower ⟨true, true, some .powerOn⟩ := by
  rw [powerUp, if_neg (by simp [hsupply]), if_pos hline, ← hline]

theorem releaseReset_of_held (hheld : p.power.held = some cause) :
    releaseReset p = runReset cause (p.setPower { p.power with resetLine := false }) := by
  rw [releaseReset, hheld]

/-- Settles O47, for each of the three sources. -/
theorem runResetsLeaveResetState : Obligations.RunResetsLeaveResetState := by
  intro s
  refine ⟨fun hsupply hline => ⟨_, exec_of_effect (powerUp_of_released hsupply hline), runResetMade_setPower _ _ ?_⟩,
    fun cause hsupply hheld => ⟨_, exec_of_effect (releaseReset_of_held hheld), runResetMade_setPower _ _ ?_⟩,
    fun hrun hstate hdue => ⟨_, exec_of_whenDue hrun ?_ rfl,
      runResetMade_setPower .combination s.part (v := s.part.power) hrun⟩⟩
  · simp [Part.running, hline]
  · simp [Part.running, hsupply]
  · exact Bool.and_eq_true_iff.mpr ⟨decide_eq_true hstate, decide_eq_true hdue⟩

/-! ### The supplies and the reset line -/

theorem assertReset_of_running (h : p.running = true) :
    assertReset p = (resetRunDomain (abandonCalibration p)).setPower ⟨true, true, some .resetLine⟩ := if_pos h

theorem powerDown_frame (p : Part) : changesOnly (.power :: runBlocks) p (powerDown p) :=
  (resetRunDomain_frame p).trans (setPower_frame _ _)

/-- Settles O48, command by command. -/
theorem suppliesAndResetLine : Obligations.SuppliesAndResetLine := by
  intro s
  refine ⟨fun hrun => ⟨_, exec_of_effect (assertReset_of_running hrun), rfl, rfl, rfl, rfl, rfl, ?_, ?_, ?_⟩,
    fun hsupply hline => ⟨_, exec_of_effect (powerUp_of_asserted hsupply hline), rfl, rfl, setPower_frame ..⟩,
    ⟨_, exec_of_effect rfl, rfl, rfl, ?_, powerDown_frame _⟩,
    fun hsupply => ⟨_, exec_of_effect (q := s.part.setMarker false) (if_neg (by simp [hsupply])), rfl, setMarker_frame ..⟩,
    fun hsupply => exec_of_effect (if_pos hsupply)⟩
  · exact (abandonCalibration_cal s.part).1
  · exact (abandonCalibration_cal s.part).2
  · exact ((abandonCalibration_frame s.part).trans (n := .cal :: runBlocks) (resetRunDomain_frame _)).trans
      (setPower_frame _ _)
  · have h := powerDown_frame s.part
    exact ⟨h.same .marker (by decide), h.same .cfg (by decide), h.same .slots (by decide), h.same .cal (by decide),
      h.same .wear (by decide), h.same .warnings (by decide), h.same .cause (by decide)⟩

end Sys2Proof.Machine
end

