-- ==== Sys2Proof/Proofs/SequencerMoves.lean ====
section
/-! SUPPORT. How the generator sequencer moves: what each entry into a link state leaves (R111 to R120), what a hold
start request makes of it (R106), what an engine report does in each link state (R112 to R121), and its timers. -/

set_option Elab.async false

namespace Sys2Proof.Machine

variable {p q r : Part} {counted : Bool} {report : EngineReport}

/-! ### Entries into the link states -/

theorem actOnRequest_of_none (h : p.gen.startRequest = false) : actOnRequest p = p := if_neg (by simp [h])

/-- In a link state that starts or runs the engine a request has what it asks for, and falls (R106). -/
theorem actOnRequest_gen_of_starting (h : p.gen.link.starting = true ∨ p.gen.link = .run) :
    (actOnRequest p).gen = { p.gen with startRequest := false } := by
  unfold actOnRequest
  cases hreq : p.gen.startRequest
  case false =>
    show p.gen = _
    rw [← hreq]
  case true =>
    cases hlink : p.gen.link <;> simp [LinkState.starting, hlink] at h <;> simp [setStartRequest]

theorem enterOff_gen (p : Part) : (enterOff p).gen =
    if p.gen.startRequest then { p.gen with
      link := .startSent
      timer := some ⟨.startTimeout, p.time.now, p.cfg.num .startTimeout⟩
      startRequest := false }
    else { p.gen with link := .off, timer := none } := by
  unfold enterOff actOnRequest
  cases hreq : p.gen.startRequest <;>
    simp [hreq, setGenLink, setStartRequest, enterStartSent, genTimer, Part.now]

theorem enterSettling_gen (p : Part) : (enterSettling p).gen = { p.gen with
    link := .settling
    timer := some ⟨.genSettle, p.time.now, p.cfg.num .genSettle⟩
    startRequest := false } :=
  actOnRequest_gen_of_starting (.inl rfl)

theorem enterRun_gen (p : Part) :
    (enterRun p).gen = { p.gen with link := .run, timer := none, failures := 0, startRequest := false } :=
  actOnRequest_gen_of_starting (.inr rfl)

theorem countOne8_gen (p : Part) : (countOne 8 p).gen = p.gen := (countOne8_frame p).same .gen (by decide)

theorem enterCranking_gen (p : Part) :
    (enterCranking p).gen = { p.gen with link := .cranking, startRequest := false } := by
  unfold enterCranking
  rw [countOne8_gen, actOnRequest_gen_of_starting (.inl rfl)]
  rfl

theorem enterCrankingFirst_gen (p : Part) : (enterCrankingFirst p).gen = { p.gen with
    link := .cranking
    timer := some ⟨.startTimeout, p.time.now, p.cfg.num .startTimeout⟩
    startRequest := false } := by
  unfold enterCrankingFirst
  rw [countOne8_gen, actOnRequest_gen_of_starting (.inl rfl)]
  rfl

theorem enterStopSent_gen (p : Part) : (enterStopSent p).gen =
    { p.gen with link := .stopSent, timer := some ⟨.stopTimeout, p.time.now, p.cfg.num .stopTimeout⟩ } := rfl

/-- The failures counted once a failure is entered (R120, R122). -/
def failuresAfter (counted : Bool) (p : Part) : Nat := p.gen.failures + counted.toNat

theorem enterFailed_gen (counted : Bool) (p : Part) : (enterFailed counted p).gen =
    if failuresAfter counted p = 3 then { p.gen with
      link := .lockedOut, failures := failuresAfter counted p, startRequest := false, timer := none }
    else { p.gen with
      link := .failed
      failures := failuresAfter counted p
      timer := some ⟨.retryDelay, p.time.now, p.cfg.num .retryDelay⟩ } := by
  have hcount : (if counted then p.gen.failures + 1 else p.gen.failures) = failuresAfter counted p := by
    cases counted <;> rfl
  unfold enterFailed
  simp only [hcount]
  split <;> rfl

theorem hasEvent_enterFailed {port : Port} (h : Event.gensetFault.on port = true) :
    hasEvent .gensetFault port (enterFailed counted p) := by
  have hset := hasEvent_setEvent .gensetFault p h
  simp only [enterFailed]
  repeat' split
  all_goals exact hset.of_gains (.of_frame (setGen_frame _ _))

/-! ### The third failure -/

theorem enterFailed_failures : (enterFailed counted p).gen.failures = failuresAfter counted p := by
  rw [enterFailed_gen]
  split <;> rfl

theorem enterFailed_link : (enterFailed counted p).gen.link = if failuresAfter counted p = 3 then .lockedOut else .failed := by
  rw [enterFailed_gen]
  split <;> rfl

/-! ### Engine reports -/

/-- The part as the sequencer judges an engine report: the report and its fields stored (R30, R111). -/
def reportStored (report : EngineReport) (d : GenData) (p : Part) : Part :=
  (readyCheck (storeGenerator d p)).setGen { p.gen with lastReport := some report }

theorem genArrival_eq (report : EngineReport) (d : GenData) (p : Part) :
    genArrival report d p = judgeReport report (reportStored report d p) := by
  have hgen : (readyCheck (storeGenerator d p)).gen = p.gen :=
    ((storeGenerator_frame d p).trans (n := [.image, .partState]) (readyCheck_frame _)).same .gen (by decide)
  unfold genArrival receiveReport reportStored
  rw [hgen]

theorem reportStored_frame (report : EngineReport) (d : GenData) (p : Part) :
    changesOnly [.image, .partState, .gen] p (reportStored report d p) :=
  ((storeGenerator_frame d p).trans (n := [.image, .partState]) (readyCheck_frame _)).trans (setGen_frame _ _)

theorem reportStored_gen (report : EngineReport) (d : GenData) (p : Part) :
    (reportStored report d p).gen = { p.gen with lastReport := some report } := rfl

theorem reportStored_image (report : EngineReport) (d : GenData) (p : Part) : (reportStored report d p).image =
    { p.image with generator := ⟨d, p.time.now, .fresh⟩ } :=
  (readyCheck_frame (storeGenerator d p)).same .image (by decide)

/-- Once counted on a part with the same wear table, at the same time. -/
theorem countedOnce.of_same {i : WearNo} (h : countedOnce i q r) (hwear : q.wear = p.wear) (htime : q.time = p.time) :
    countedOnce i p r := by
  unfold countedOnce unitsAdded levelHandedOn at *
  rw [hwear, htime] at h
  exact h

theorem countedOnce_enterCranking (p : Part) : countedOnce 8 p (enterCranking p) := by
  have hframe := (setGenLink_frame .cranking p.gen.timer p).trans (n := [.gen]) (actOnRequest_frame _)
  exact (countedOnce_countOne 8 _).of_same (hframe.same .wear (by decide)) (hframe.same .time (by decide))

theorem countedOnce_enterCrankingFirst (p : Part) : countedOnce 8 p (enterCrankingFirst p) := by
  have hframe := (setGenLink_frame .cranking (genTimer .startTimeout .startTimeout p) p).trans (n := [.gen])
    (actOnRequest_frame _)
  exact (countedOnce_countOne 8 _).of_same (hframe.same .wear (by decide)) (hframe.same .time (by decide))

theorem enterOff_link (p : Part) : (enterOff p).gen.link = if p.gen.startRequest then .startSent else .off := by
  rw [enterOff_gen]
  split <;> rfl

/-- No entry into a link state forgets the engine's last report. -/
theorem judgeReport_lastReport (report : EngineReport) (p : Part) :
    (judgeReport report p).gen.lastReport = p.gen.lastReport := by
  have hfailed (counted : Bool) : (enterFailed counted p).gen.lastReport = p.gen.lastReport := by
    rw [enterFailed_gen]
    split <;> rfl
  have hoff : (enterOff p).gen.lastReport = p.gen.lastReport := by
    rw [enterOff_gen]
    split <;> rfl
  have hsettling : (enterSettling p).gen.lastReport = p.gen.lastReport := by rw [enterSettling_gen]
  have hcranking : (enterCranking p).gen.lastReport = p.gen.lastReport := by rw [enterCranking_gen]
  have hfirst : (firstReport report p).gen.lastReport = p.gen.lastReport := by
    unfold firstReport
    split
    · exact hoff
    · split
      · rfl
      · rw [enterCrankingFirst_gen]
    · split
      · rfl
      · exact hsettling
    · exact hfailed false
  unfold judgeReport
  split
  all_goals first | exact hfirst | exact hfailed true | exact hoff | exact hsettling | exact hcranking | rfl

/-- What a failure in the link leaves, for a part that is the part before but for the image and the report (R120). -/
theorem failure_of_reportStored (counted : Bool) (report : EngineReport) (d : GenData) (p : Part) :
    let t := enterFailed counted (reportStored report d p)
    hasEvent .gensetFault .pd t ∧ hasEvent .gensetFault .pg t ∧ hasEvent .gensetFault .sv t ∧
      t.gen.failures = p.gen.failures + counted.toNat ∧
      (t.gen.failures = 3 → t.gen.link = .lockedOut ∧ t.gen.startRequest = false ∧ t.gen.timer = none) ∧
      (t.gen.failures ≠ 3 → t.gen.link = .failed ∧
        t.gen.timer = some ⟨.retryDelay, p.time.now, p.cfg.num .retryDelay⟩) := by
  have hframe := reportStored_frame report d p
  have htime : (reportStored report d p).time = p.time := hframe.same .time (by decide)
  have hcfg : (reportStored report d p).cfg = p.cfg := hframe.same .cfg (by decide)
  refine ⟨hasEvent_enterFailed rfl, hasEvent_enterFailed rfl, hasEvent_enterFailed rfl, enterFailed_failures,
    fun h => ?_, fun h => ?_⟩
  · rw [enterFailed_failures] at h
    rw [enterFailed_gen, if_pos h]
    exact ⟨rfl, rfl, rfl⟩
  · rw [enterFailed_failures] at h
    rw [enterFailed_gen, if_neg h, htime, hcfg]
    exact ⟨rfl, rfl⟩

/-- Settles O12: one entry of the sequencer for each link state and report. -/
theorem engineReportsMoveTheLink : Obligations.EngineReportsMoveTheLink := by
  intro report avail s hrun r link silent timer failed counted
  refine ⟨_, exec_of_whenRunning hrun rfl, ?_⟩
  rw [genArrival_eq, show reportOf report = r from rfl]
  have hframe := reportStored_frame r (genDataOf report avail) s.part
  have hgen := reportStored_gen r (genDataOf report avail) s.part
  have hfailure (c : Bool) := failure_of_reportStored c r (genDataOf report avail) s.part
  have himage := reportStored_image r (genDataOf report avail) s.part
  generalize reportStored r (genDataOf report avail) s.part = q at hframe hgen hfailure himage ⊢
  have hlink : q.gen.link = link := by rw [hgen]
  have hrequest : q.gen.startRequest = s.part.gen.startRequest := by rw [hgen]
  have htime : q.time = s.part.time := hframe.same .time (by decide)
  have hcfg : q.cfg = s.part.cfg := hframe.same .cfg (by decide)
  have hwear : q.wear = s.part.wear := hframe.same .wear (by decide)
  have hhold : q.hold = s.part.hold := hframe.same .hold (by decide)
  have hsilent : (effQuietZone q || quietHold q) = true ↔ silent := by
    have hzone : effQuietZone q = s.part.image.drive.data.quietZone := by rw [effQuietZone, himage]
    have hquiet : quietHold q = quietHold s.part := by unfold quietHold; rw [hhold]
    rw [hzone, hquiet, Bool.or_eq_true]
  have hcount {t : Part} (h : countedOnce 8 q t) : countedOnce 8 s.part t := h.of_same hwear htime
  have hsettling : (enterSettling q).wear = s.part.wear := ((enterSettling_frame q).same .wear (by decide)).trans hwear
  clear_value r link
  refine ⟨?kept, ?stopped, ?silenced, ?cranks, ?settles, ?fault, ?offFault, ?off, ?started, ?runs, ?fails, ?cranking,
    ?working, ?drops, ?stops, ?stopFault, ?stopping, ?idle⟩
  case kept => rw [judgeReport_lastReport, hgen]
  case stopped =>
    rintro rfl rfl
    simp only [judgeReport, hlink, firstReport, enterOff_link, hrequest]
  case silenced =>
    rintro rfl hr hs
    have : judgeReport r q = enterStopSent q := by
      obtain rfl | rfl := hr <;> simp [judgeReport, hlink, firstReport, hsilent.mpr hs]
    rw [this]
    exact ⟨rfl, by rw [enterStopSent_gen, htime, hcfg], hwear⟩
  case cranks =>
    rintro rfl rfl hs
    have : judgeReport .cranking q = enterCrankingFirst q := by
      simp [judgeReport, hlink, firstReport, hsilent.not.mpr hs]
    rw [this]
    refine ⟨by rw [enterCrankingFirst_gen], by rw [enterCrankingFirst_gen, htime, hcfg], hcount ?_⟩
    exact countedOnce_enterCrankingFirst q
  case settles =>
    rintro rfl rfl hs
    have : judgeReport .running q = enterSettling q := by
      simp [judgeReport, hlink, firstReport, hsilent.not.mpr hs]
    rw [this]
    exact ⟨by rw [enterSettling_gen], by rw [enterSettling_gen, htime, hcfg], hsettling⟩
  case fault =>
    rintro rfl rfl
    simp only [judgeReport, hlink, firstReport]
    exact hfailure false
  case offFault =>
    rintro rfl rfl
    simp only [judgeReport, hlink]
    exact hfailure true
  case off =>
    rintro rfl hr
    have : judgeReport r q = q := by
      cases r <;> simp [judgeReport, hlink] at hr ⊢
    rw [this]
    exact hgen
  case started =>
    rintro rfl rfl
    have : judgeReport .cranking q = enterCranking q := by simp only [judgeReport, hlink]
    rw [this]
    exact ⟨by rw [enterCranking_gen], by rw [enterCranking_gen, hgen], hcount (countedOnce_enterCranking q)⟩
  case runs =>
    rintro hl rfl
    have : judgeReport .running q = enterSettling q := by
      obtain rfl | rfl := hl <;> simp only [judgeReport, hlink]
    rw [this]
    exact ⟨by rw [enterSettling_gen], by rw [enterSettling_gen, htime, hcfg], hsettling⟩
  case fails =>
    rintro hl hr
    have : judgeReport r q = enterFailed true q := by
      obtain rfl | rfl := hl <;> obtain rfl | rfl := hr <;> simp only [judgeReport, hlink]
    rw [this]
    exact hfailure true
  case cranking =>
    rintro rfl rfl
    simp only [judgeReport, hlink]
    exact ⟨hgen, hwear⟩
  case working =>
    rintro hl rfl
    have : judgeReport .running q = q := by
      obtain rfl | rfl | rfl := hl <;> simp only [judgeReport, hlink]
    rw [this]
    exact hgen
  case drops =>
    rintro hl hr
    have : judgeReport r q = enterFailed true q := by
      obtain rfl | rfl | rfl := hl <;> cases r <;> simp [judgeReport, hlink] at hr ⊢
    rw [this]
    exact hfailure true
  case stops =>
    rintro rfl rfl
    simp only [judgeReport, hlink, enterOff_link, hrequest]
  case stopFault =>
    rintro rfl rfl
    simp only [judgeReport, hlink]
    exact hfailure true
  case stopping =>
    rintro rfl hr
    have : judgeReport r q = q := by
      obtain rfl | rfl := hr <;> simp only [judgeReport, hlink]
    rw [this]
    exact ⟨hgen, hwear⟩
  case idle =>
    rintro hl
    have : judgeReport r q = q := by
      obtain rfl | rfl := hl <;> simp only [judgeReport, hlink]
    rw [this]
    exact ⟨hgen, hwear⟩

/-! ### The sequencer's timers -/

theorem genTimerDue_of_elapsed {timer : GenTimer} (h : p.gen.timer = some timer)
    (hdue : timer.length ≤ (p.time.now - timer.start).toNat) : genTimerDue timer.name p = true := by
  simp only [genTimerDue, h, decide_true, Bool.true_and]
  exact decide_eq_true hdue

/-- What the expiry of the start or the stop timer leaves: a counted failure (R114, R119). -/
theorem counted_failure (p : Part) : (enterFailed true p).gen.failures = p.gen.failures + 1 ∧
    (enterFailed true p).gen.link = (if p.gen.failures = 2 then .lockedOut else .failed) ∧
    hasEvent .gensetFault .pg (enterFailed true p) ∧ changesOnly [.gen, .ports] p (enterFailed true p) := by
  refine ⟨enterFailed_failures, ?_, hasEvent_enterFailed rfl, enterFailed_frame ..⟩
  simp [enterFailed_link, failuresAfter]

/-- Settles O44, timer by timer. -/
theorem sequencerTimersExpire : Obligations.SequencerTimersExpire := by
  intro timer s hrun htimer hdue
  have helapsed := genTimerDue_of_elapsed htimer hdue
  refine ⟨fun hname hlink => ⟨_, exec_of_whenDue hrun ?_ rfl, counted_failure s.part⟩,
    fun hname hlink => ⟨_, exec_of_whenDue hrun ?_ rfl, ?_, ?_, ?_, enterRun_frame _⟩,
    fun hname hlink => ⟨_, exec_of_whenDue hrun ?_ rfl, counted_failure s.part⟩,
    fun hname hlink => ⟨_, exec_of_whenDue hrun ?_ rfl, ?_, enterOff_link s.part, enterOff_frame _⟩⟩
  · obtain hlink | hlink := hlink <;> simp [startTimeoutDue, hlink, ← hname, helapsed]
  · simp [genSettleDue, hlink, ← hname, helapsed]
  · exact congrArg Sequencer.link (enterRun_gen s.part)
  · exact congrArg Sequencer.failures (enterRun_gen s.part)
  · exact congrArg Sequencer.timer (enterRun_gen s.part)
  · simp [stopTimeoutDue, hlink, ← hname, helapsed]
  · simp [retryDue, hlink, ← hname, helapsed]
  · refine (congrArg Sequencer.failures (enterOff_gen s.part)).trans ?_
    split <;> rfl

end Sys2Proof.Machine
end

