-- ==== Sys2Proof/Proofs/RequestAnswers.lean ====
section
/-! SUPPORT. What a request leaves at its port: turned away (R180 to R182), refused, or carried out and replied to
(R181, R183). From this the requests that one block carries out: ACK_WARNING (R175), FORCE_DERATE (R131), CALIBRATE
(R148) and CLEAR_LOCKOUT (R121); and the thermal timers, which form the factors again as FORCE_DERATE does. -/

set_option Elab.async false

namespace Sys2Proof.Machine

variable {p q : Part} {port other : Port} {kind : Kind} {a : Answered} {code : ReplyCode} {f : OutFrame} {e : Event}
  {l : List Block}

/-! ### The reply on its port -/

theorem status_queueOn (port other : Port) (f : OutFrame) (p : Part) :
    ((queueOn port f p).port other).status = (p.port other).status := by
  by_cases h : other = port
  · rw [h, port_queueOn_self]
  · rw [port_queueOn_other _ _ h]

theorem hasEvent_queueOn : hasEvent e other (queueOn port f p) ↔ hasEvent e other p := by
  unfold hasEvent
  rw [status_queueOn]

/-- A refused request leaves its reply alone (R183). -/
theorem refusedWith_replyOn (h : a = refuse code p) : refusedWith port kind code p (replyOn port kind a) := by
  rw [h]
  exact replyOn_refuse ..

theorem replyOn_accept (h : a = accept q) : replyOn port kind a = queueOn port (.reply kind .accepted none) q := by
  rw [h]
  rfl

theorem replied_accept (h : a = accept q) (htx : ∀ other, (q.port other).tx = (p.port other).tx) :
    replied port kind .accepted none p (replyOn port kind a) := by
  subst h
  exact replyOn_replied port kind (accept q) p htx

theorem tx_of_gains (h : portsOnlyGainEvents p q) (other : Port) : (q.port other).tx = (p.port other).tx :=
  (h.2 other).2.2.1

theorem tx_of_frame (h : changesOnly l p q) (hl : .ports ∉ l := by decide) (other : Port) :
    (q.port other).tx = (p.port other).tx := tx_of_gains (.of_frame h hl) other

/-- The factors formed again stay so when a reply is queued: it sets no event. -/
theorem factorsReformed_queueOn (h : factorsReformed p q) : factorsReformed p (queueOn port f q) := by
  obtain ⟨hformed, hset, hkept⟩ := h
  refine ⟨factorsFormed_reads.keeps (queueOn_frame ..) hformed, fun hne => hasEvent_queueOn.mpr (hset hne),
    fun heq hev => hkept heq (hasEvent_queueOn.mp hev)⟩

theorem derateChangeSet_queueOn (h : derateChangeSet p q) : derateChangeSet p (queueOn port f q) :=
  fun hne => hasEvent_queueOn.mpr (h hne)

/-! ### Requests turned away -/

/-- A frame error adds its event and its cause on one port (R180, R182). -/
theorem portFrameError_recorded (port : Port) (cause : FrameCause) (p : Part) :
    frameErrorRecorded port cause p (portFrameError port cause p) :=
  ⟨port_setPort_self .., fun _ h => port_setPort_other _ _ h, rfl, portFrameError_frame ..⟩

/-- A request with its length and its port, when four replies wait (R182). -/
theorem request_overrun {ok : Bool} {owner : Part → Answered} (hrun : p.running = true) (hok : ok = true)
    (hfull : 4 ≤ (p.port port).waitingReplies) : request port kind ok owner p = portFrameError port .overrun p := by
  have hfull' : Config.replyPlaces ≤ (p.port port).waitingReplies := hfull
  simp [request, hrun, hok, hfull']

/-- A request on a port that does not permit its kind (R180 check 6). -/
theorem exec_of_notPermitted {i : Instr} {s : State} {ok : Bool} {owner : Part → Answered}
    (htaken : takesRequest port s.part) (hkind : kind.requestOn port = false) (hok : ok = true)
    (h : effect i = request port kind ok owner) :
    ∃ t, exec i s = .next t ∧ refusedWith port kind .notPermitted s.part t.part :=
  ⟨_, exec_of_effect (by rw [h, hok, request_taken _ _ _ _ htaken, hkind]; rfl), rfl⟩

theorem requestOn_service (h : port ≠ .sv) : Kind.wearWrite.requestOn port = false ∧
    Kind.wearReset.requestOn port = false ∧ Kind.calibrate.requestOn port = false ∧
    Kind.clearLockout.requestOn port = false := by
  cases port <;> simp at h <;> decide

theorem requestOn_drive (h : port ≠ .pd) (hsv : port ≠ .sv) :
    Kind.ackWarning.requestOn port = false ∧ Kind.forceDerate.requestOn port = false := by
  cases port <;> simp at h hsv <;> decide

theorem requestOn_brake (h : port ≠ .pb) (hsv : port ≠ .sv) : Kind.loadBlend.requestOn port = false := by
  cases port <;> simp at h hsv <;> decide

theorem wearLengthOk_of_le {bytes : List Byte} (h : bytes.length ≤ 13) : wearLengthOk bytes = true := decide_eq_true h

theorem stepsLengthOk_of_le {steps : List (Byte × Byte)} (hlow : 1 ≤ steps.length) (hhigh : steps.length ≤ 8) :
    stepsLengthOk steps = true := Bool.and_eq_true_iff.mpr ⟨decide_eq_true hlow, decide_eq_true hhigh⟩

/-- What a well-formed request command does is the judgement of a request of its kind on its port. -/
theorem effect_of_requestKind {i : Instr} (h : requestKind i = some (port, kind)) :
    ∃ owner, effect i = request port kind i.wellFormed owner := by
  cases i with
  | read | configWrite | clearStatus | loadBlend | ackWarning | forceDerate | wearWrite | wearReset | calibrate
  | clearLockout => cases h; exact ⟨_, rfl⟩
  | _ => cases h

/-- Settles O23: the port that does not permit the kind, and the full reply queue. -/
theorem requestsTurnedAway : Obligations.RequestsTurnedAway := by
  refine ⟨fun port item presence value slot first fields steps s htaken hfields hlow hhigh => ?_,
    fun i port kind s hkind hwell _ hrun hfull => ?_⟩
  · have hwear := wearLengthOk_of_le hfields
    have hsteps := stepsLengthOk_of_le hlow hhigh
    refine ⟨fun h => ?_, fun h => ?_, fun h => ?_, fun h => ?_, fun h hsv => ?_, fun h hsv => ?_, fun h hsv => ?_⟩
    · exact exec_of_notPermitted htaken (requestOn_service h).1 hwear rfl
    · exact exec_of_notPermitted htaken (requestOn_service h).2.1 rfl rfl
    · exact exec_of_notPermitted htaken (requestOn_service h).2.2.1 rfl rfl
    · exact exec_of_notPermitted htaken (requestOn_service h).2.2.2 rfl rfl
    · exact exec_of_notPermitted htaken (requestOn_drive h hsv).1 rfl rfl
    · exact exec_of_notPermitted htaken (requestOn_drive h hsv).2 rfl rfl
    · exact exec_of_notPermitted htaken (requestOn_brake h hsv) hsteps rfl
  · obtain ⟨owner, heffect⟩ := effect_of_requestKind hkind
    exact ⟨_, exec_of_effect ((congrFun heffect s.part).trans (request_overrun hrun hwell hfull)),
      portFrameError_recorded ..⟩

/-! ### ACK_WARNING and FORCE_DERATE -/

theorem wearNoOf_of_lt {item : Byte} (h : item.toNat < 12) : wearNoOf item = some ⟨item.toNat, h⟩ := dif_pos h

theorem wearNoOf_of_ge {item : Byte} (h : 12 ≤ item.toNat) : wearNoOf item = none := dif_neg (Nat.not_lt.mpr h)

theorem ackWarning_of_unlisted {item : Byte} {i : WearNo} (hi : wearNoOf item = some i)
    (h : ∀ w ∈ p.warnings, w.item ≠ i) : ackWarning item p = refuse .range p := by
  simp only [ackWarning, hi]
  exact if_neg (by simpa using h)

theorem ackWarning_of_listed {item : Byte} {i : WearNo} (hi : wearNoOf item = some i)
    (h : ∃ w ∈ p.warnings, w.item = i) : ackWarning item p = accept (p.setWarnings (p.warnings.map fun w =>
      if w.item = i then { w with acknowledged := true } else w)) := by
  simp only [ackWarning, hi]
  exact if_pos (by simpa using h)

/-- The part with another forced-derate setting, its factors formed again (R131). -/
def forcedSet (b : Bool) (p : Part) : Part := reformFactors (p.setDerate { p.derate with forced := b })

theorem forcedSet_derate (b : Bool) (p : Part) : (forcedSet b p).derate =
    { p.derate with forced := b, factors := (forcedSet b p).derate.factors } := by
  unfold forcedSet
  rw [reformFactors_derate]
  rfl

theorem forcedSet_gains (b : Bool) (p : Part) : portsOnlyGainEvents p (forcedSet b p) :=
  (portsOnlyGainEvents.of_frame (setDerate_frame ..)).trans (reformFactors_gains _)

theorem forceDerate_of_le {value : Byte} (h : value.toNat ≤ 1) : forceDerate value p =
    accept (forcedSet (decide (value = 1#8)) p) := by
  have hcases : value.toNat = 0 ∨ value.toNat = 1 := by omega
  obtain h | h := hcases
  · obtain rfl : value = 0#8 := BitVec.eq_of_toNat_eq h
    rfl
  · obtain rfl : value = 1#8 := BitVec.eq_of_toNat_eq h
    rfl

theorem forceDerate_of_gt {value : Byte} (h : 1 < value.toNat) : forceDerate value p = refuse .range p := by
  unfold forceDerate
  split
  · omega
  · omega
  · rfl

/-- The override in force gives d_regen its code's factor (R134). -/
theorem dRegen_of_overriding (h : factorsFormed p) (hover : overriding p) :
    p.derate.factors.dRegen = 1000 - 125 * p.derate.overrideCode := h.2.1 hover

/-- Settles O20, request by request. -/
theorem ackWarningAndForceDerate : Obligations.AckWarningAndForceDerate := by
  refine ⟨fun port item s htaken hport => ?_, fun port value s htaken hport => ?_⟩
  · have hkind : Kind.ackWarning.requestOn port = true := by obtain rfl | rfl := hport <;> rfl
    refine ⟨_, exec_of_request htaken hkind rfl rfl, fun hitem => refusedWith_replyOn ?_, fun hitem hnone => ?_,
      fun hitem hsome => ?_⟩
    · simp only [ackWarning, wearNoOf_of_ge hitem]
    · exact refusedWith_replyOn (ackWarning_of_unlisted (wearNoOf_of_lt hitem) hnone)
    · have hack := ackWarning_of_listed (wearNoOf_of_lt hitem) hsome
      refine ⟨?_, replied_accept hack fun _ => rfl, replyOn_frame _ _ _ _ (ackWarning_frame ..).mono⟩
      rw [hack]
      rfl
  · have hkind : Kind.forceDerate.requestOn port = true := by obtain rfl | rfl := hport <;> rfl
    refine ⟨_, exec_of_request htaken hkind rfl rfl, fun hvalue => ?_,
      fun hvalue => refusedWith_replyOn (forceDerate_of_gt hvalue)⟩
    have hforce := forceDerate_of_le (p := s.part) hvalue
    have hderate := forcedSet_derate (decide (value = 1#8)) s.part
    have hreformed : factorsReformed s.part (forcedSet (decide (value = 1#8)) s.part) :=
      factorsReformed_reformFactors rfl rfl
    refine ⟨?_, ?_, fun hone => ?_, replied_accept hforce (tx_of_gains (forcedSet_gains ..)),
      replyOn_frame _ _ _ _ (forceDerate_frame ..)⟩ <;> rw [replyOn_accept hforce]
    · exact hderate
    · exact factorsReformed_queueOn hreformed
    · refine (dRegen_of_overriding hreformed.1 (.inr ?_)).trans ?_ <;> rw [hderate]
      exact decide_eq_true hone

/-! ### The thermal timers -/

theorem timerDue_of_elapsed {timer : RunTimer} (h : p.derate.timer = some timer)
    (hdue : timer.length ≤ (p.time.now - timer.start).toNat) : p.derate.timer.elim false p.timerDue = true := by
  rw [h]
  exact decide_eq_true hdue

theorem armingExpires_derate (p : Part) : (armingExpires p).derate =
    { p.derate with thermal := .active, timer := none, factors := (armingExpires p).derate.factors } := by
  unfold armingExpires
  rw [reformFactors_derate]
  rfl

theorem clearingExpires_derate (p : Part) : (clearingExpires p).derate =
    { p.derate with thermal := .off, timer := none, factors := (clearingExpires p).derate.factors } := by
  unfold clearingExpires
  rw [reformFactors_derate]
  rfl

/-- THERMAL_OVERRIDE is set before the factors are formed again, and is no DERATE_CHANGE. -/
theorem factorsReformed_armingExpires (p : Part) : factorsReformed p (armingExpires p) := by
  obtain ⟨hformed, hset, hkept⟩ := factorsReformed_reformFactors
    (p := setEvent .thermalOverride (p.setDerate { p.derate with thermal := .active, timer := none }))
    (q := setEvent .thermalOverride (p.setDerate { p.derate with thermal := .active, timer := none })) rfl rfl
  exact ⟨hformed, hset, fun heq hev => setEvent_gainsNo (p := p) (e' := .thermalOverride) (by decide) .pd
    (hkept heq hev)⟩

/-- Settles O46, timer by timer. -/
theorem thermalTimersExpire : Obligations.ThermalTimersExpire := by
  intro timer s hrun htimer hdue
  have helapsed := timerDue_of_elapsed htimer hdue
  refine ⟨fun hthermal => ?_, fun hthermal => ?_⟩
  · have hreformed := factorsReformed_armingExpires s.part
    have hderate := armingExpires_derate s.part
    refine ⟨_, exec_of_whenDue hrun (Bool.and_eq_true_iff.mpr ⟨decide_eq_true hthermal, helapsed⟩) rfl, hderate,
      hreformed, ?_, (hasEvent_setEvent .thermalOverride _ rfl).of_gains (reformFactors_gains _),
      armingExpires_frame _⟩
    refine (dRegen_of_overriding hreformed.1 (.inl ?_)).trans ?_ <;> rw [hderate]
  · have hreformed : factorsReformed s.part (clearingExpires s.part) := factorsReformed_reformFactors rfl rfl
    have hderate := clearingExpires_derate s.part
    refine ⟨_, exec_of_whenDue hrun (Bool.and_eq_true_iff.mpr ⟨decide_eq_true hthermal, helapsed⟩) rfl, hderate,
      hreformed, fun hforced => hreformed.1.2.2.1 ?_, clearingExpires_frame _⟩
    unfold overriding
    rw [hderate]
    simp [hforced]

/-! ### CALIBRATE and CLEAR_LOCKOUT -/

theorem mode_code_eq_calibrating_iff {m : ScanMode} : m.code = 3 ↔ ∃ start codes, m = .calibrating start codes := by
  cases m <;> simp [ScanMode.code]

theorem mode_code_eq_eventRun_iff {m : ScanMode} : m.code = 2 ↔ ∃ rest, m = .eventRun rest := by
  cases m <;> simp [ScanMode.code]

theorem clearLockout_gen_of_locked (hlink : p.gen.link = .lockedOut) (hrequest : p.gen.startRequest = false) :
    clearLockout p = accept (enterOff (p.setGen { p.gen with failures := 0 })) ∧
      (enterOff (p.setGen { p.gen with failures := 0 })).gen =
        { p.gen with link := .off, failures := 0, timer := none } := by
  refine ⟨if_pos hlink, ?_⟩
  rw [enterOff_gen]
  exact if_neg (by simp [hrequest])

/-- Settles O22, request by request. -/
theorem calibrateAndClearLockout : Obligations.CalibrateAndClearLockout := by
  refine ⟨fun s htaken => ?_, fun s htaken => ?_⟩
  · have hframe : changesOnly [.scan, .ports] s.part (replyOn .sv .calibrate (calibrate s.part)) :=
      replyOn_frame _ _ _ _ (calibrate_frame _).mono
    have haccept {q : Part} (h : calibrate s.part = accept q) (hq : changesOnly [.scan] s.part q) :
        replied .sv .calibrate .accepted none s.part (replyOn .sv .calibrate (calibrate s.part)) :=
      replied_accept h (tx_of_frame hq)
    refine ⟨_, exec_of_request htaken rfl rfl rfl, fun hmoves => ?moves, fun hstands hbusy => ?busy,
      fun hstands hfree hmode => ?enters, fun hstands hfree hmode => ?waits⟩
    case moves => exact refusedWith_replyOn (by simp [calibrate, hmoves])
    case busy =>
      refine refusedWith_replyOn ?_
      obtain hwaiting | hmode := hbusy
      · simp [calibrate, hstands, hwaiting]
      · obtain ⟨start, codes, hmode⟩ := mode_code_eq_calibrating_iff.mp hmode
        simp [calibrate, hstands, hmode]
    case enters =>
      have henters : calibrate s.part = accept (enterCalibrating s.part) := by
        obtain hmode | hmode := hmode <;> simp [calibrate, hstands, hfree, hmode]
      refine ⟨?_, haccept henters (setScan_frame ..), hframe⟩
      rw [henters]
      show (enterCalibrating s.part).scan = _
      simp [enterCalibrating, Part.now, hfree]
    case waits =>
      obtain ⟨rest, hmode⟩ := mode_code_eq_eventRun_iff.mp hmode
      have hwaits : calibrate s.part = accept (s.part.setScan { s.part.scan with calWaiting := true }) := by
        simp [calibrate, hstands, hfree, hmode]
      refine ⟨?_, haccept hwaits (setScan_frame ..), hframe⟩
      rw [hwaits]
      rfl
  · refine ⟨_, exec_of_request htaken rfl rfl rfl, fun hlink hrequest => ?_, fun hlink => ?_, ?_,
      replyOn_frame _ _ _ _ (clearLockout_frame _).mono⟩
    · obtain ⟨haccept, hgen⟩ := clearLockout_gen_of_locked hlink hrequest
      rw [haccept]
      exact hgen
    · rw [show clearLockout s.part = _ from if_neg hlink]
      rfl
    · unfold clearLockout
      split
      · exact replied_accept rfl (tx_of_frame ((setGen_frame _ _).trans (n := [.gen]) (enterOff_frame _)))
      · exact replied_accept rfl (tx_of_frame (setGen_frame _ _))

end Sys2Proof.Machine
end

