-- ==== Sys2Proof/Proofs/WearMoves.lean ====
section
/-! SUPPORT. How the wear unit moves: what a judgement hands on (R168, R173), what stays of an item while others are
counted and judged, how quantities are integrated (R160 to R163, R167), and the service writes (R170, R171). -/

set_option Elab.async false

namespace Sys2Proof.Machine

variable {p q r : Part} {i j : WearNo} {k quantity unit : Nat} {e : Event} {port : Port} {l : List Block}

/-! ### Events kept -/

/-- From `p` to `q` no event leaves a port. -/
def eventsKept (p q : Part) : Prop := ∀ e port, hasEvent e port p → hasEvent e port q

theorem eventsKept.of_gains (h : portsOnlyGainEvents p q) : eventsKept p q := fun _ _ hev => hev.of_gains h

theorem eventsKept.refl (p : Part) : eventsKept p p := fun _ _ h => h

theorem eventsKept.trans (h1 : eventsKept p q) (h2 : eventsKept q r) : eventsKept p r :=
  fun e port hev => h2 e port (h1 e port hev)

theorem eventsKept_queueOn (port : Port) (f : OutFrame) (p : Part) : eventsKept p (queueOn port f p) :=
  fun _ _ h => hasEvent_queueOn.mpr h

/-! ### DERATE_CHANGE -/

theorem derateChangeSet.of_frame (h : changesOnly l p q) (hl : .derate ∉ l := by decide) : derateChangeSet p q :=
  fun hne => absurd (by rw [(h.same .derate hl : q.derate = p.derate)]) hne

theorem derateChangeSet.trans (h1 : derateChangeSet p q) (h2 : derateChangeSet q r) (hkept : eventsKept q r) :
    derateChangeSet p r := fun hne => by
  by_cases hpq : q.derate.factors.dTrac = p.derate.factors.dTrac
  · exact h2 (fun h => hne (h.trans hpq))
  · exact hkept _ _ (h1 hpq)

theorem derateChangeSet_reformFactors (p : Part) : derateChangeSet p (reformFactors p) :=
  (factorsReformed_reformFactors rfl rfl).2.1

/-- The factors formed again on a part that has gained other events since. -/
theorem factorsReformed_of_gainsNo (hfactors : q.derate.factors = p.derate.factors)
    (hev : gainsNo .derateChange p q) : factorsReformed p (reformFactors q) := by
  obtain ⟨hformed, hset, hkept⟩ := factorsReformed_reformFactors (p := q) (q := q) rfl rfl
  unfold derateChangeSet at hset
  rw [hfactors] at hset hkept
  exact ⟨hformed, hset, fun heq h => hev .pd (hkept heq h)⟩

/-- The rule reads d_trac and the ports of the part before. -/
theorem factorsReformed.before (h : factorsReformed q r) (hframe : changesOnly l p q)
    (hl : ∀ b ∈ [Block.derate, .ports], b ∉ l := by decide) : factorsReformed p r := by
  have hderate : q.derate = p.derate := hframe.same .derate (hl _ (by decide))
  have hports : q.ports = p.ports := hframe.same .ports (hl _ (by decide))
  unfold factorsReformed derateChangeSet hasEvent Part.port at *
  rwa [hderate, hports] at h

/-! ### A level handed on -/

section
variable {old new : Level}

theorem portsToldOfLevel_gainsNo (h : e ≠ .liningLimit) (h' : e ≠ .warningNew) :
    gainsNo e p (portsToldOfLevel i old new p) :=
  ((gainsNo.of_frame (setWarnings_frame ..)).trans (setEventIf_gainsNo h'.symm)).trans (setEventIf_gainsNo h.symm)

theorem handOnLevel_gainsNo_warningNew (h : ¬ levelRises old new) :
    gainsNo .warningNew p (handOnLevel i old new p) := by
  have happends : appendsWarning old new = false := Bool.eq_false_iff.mpr (mt appendsWarning_iff.mp h)
  have htold : gainsNo .warningNew p (portsToldOfLevel i old new p) :=
    ((gainsNo.of_frame (setWarnings_frame ..)).trans (setEventIf_gainsNo_of_false happends)).trans
      (setEventIf_gainsNo (by decide))
  have hreform (q : Part) : gainsNo .warningNew q (reformFactors q) :=
    (gainsNo.of_frame (setDerate_frame ..)).trans (setEventIf_gainsNo (by decide))
  exact handOnLevel_eq i old new p ▸ .ite (htold.trans (hreform _)) htold

theorem handOnLevel_gainsNo_liningLimit (h : 2 < i.val ∨ new ≠ .limit) :
    gainsNo .liningLimit p (handOnLevel i old new p) := by
  have hlining : (isLining i && decide (new = .limit)) = false := by
    obtain h | h := h
    · simp [isLining, h]
    · simp [h]
  have htold : gainsNo .liningLimit p (portsToldOfLevel i old new p) :=
    ((gainsNo.of_frame (setWarnings_frame ..)).trans (setEventIf_gainsNo (by decide))).trans
      (setEventIf_gainsNo_of_false hlining)
  have hreform (q : Part) : gainsNo .liningLimit q (reformFactors q) :=
    (gainsNo.of_frame (setDerate_frame ..)).trans (setEventIf_gainsNo (by decide))
  exact handOnLevel_eq i old new p ▸ .ite (htold.trans (hreform _)) htold

theorem factorsReformed_handOnLevel (h : i.val ≤ 7) : factorsReformed p (handOnLevel i old new p) := by
  rw [handOnLevel_eq, if_pos h]
  refine factorsReformed_of_gainsNo ?_ (portsToldOfLevel_gainsNo (by decide) (by decide))
  rw [(portsToldOfLevel_frame i old new p).same .derate (by decide)]
  rfl

theorem updateWarnings_of_rise {stamp : Stamp} {l : List Warning} (h : levelRises old new) :
    updateWarnings i old new stamp l = l.filter (·.item ≠ i) ++ [⟨i, new, stamp, false⟩] := by
  have happends := appendsWarning_iff.mpr h
  simp only [appendsWarning, Bool.and_eq_true, decide_eq_true_eq] at happends
  obtain ⟨hnew, hrank⟩ := happends
  rw [updateWarnings, if_neg hnew, if_pos hrank]
  rfl

theorem updateWarnings_of_fall {stamp : Stamp} {l : List Warning} (hnew : new ≠ .ok) (h : ¬ levelRises old new) :
    updateWarnings i old new stamp l = l.map fun w => if w.item = i then { w with level := new } else w := by
  have hrank : ¬ old.rank < new.rank := fun hrank =>
    h (appendsWarning_iff.mp (Bool.and_eq_true_iff.mpr ⟨decide_eq_true hnew, decide_eq_true hrank⟩))
  rw [updateWarnings, if_neg hnew, if_neg hrank]

end

theorem judgeItem_wear_other (h : j ≠ i) : (judgeItem i p).wear[j] = p.wear[j] := by
  rw [judgeItem_wear, setWearItem_wear_other h]

/-- Settles O59: a judgement that finds the level as it was stores the record; a change is handed on. -/
theorem wearChangesHandedOn : Obligations.WearChangesHandedOn := by
  intro i p q old new
  have hnew : new = judgedItem i p.now p.wear[i] := judgeItem_wear_self
  have hlevel : new.level = formedLevel i p.wear[i] := by rw [hnew]; rfl
  refine ⟨levelFormed_judgeItem i p, levelHandedOn_judgeItem i p, ?_, fun other h => judgeItem_wear_other h,
    fun hsame => ?_, fun hchange => ?_, fun hlimit => ?_, judgeItem_gains i p, judgeItem_frame i p⟩
  · rw [hnew]
    rfl
  · rw [show q = _ from judgeItem_of_same (hlevel ▸ hsame)]
    exact setWearItem_frame ..
  · rw [hlevel] at hchange ⊢
    have hq : q = _ := judgeItem_of_change hchange
    have hwarnings : q.warnings = updateWarnings i old.level (formedLevel i p.wear[i]) p.now p.warnings := by
      rw [hq, handOnLevel_warnings]
      rfl
    refine ⟨fun hrise => hwarnings.trans (updateWarnings_of_rise hrise), fun hok => ?_,
      fun hok hfall => hwarnings.trans (updateWarnings_of_fall hok hfall), fun hfall => ?_, fun h => ?_,
      judgeItem_derate_of_gt⟩
    · rw [hwarnings, hok]
      rfl
    · rw [hq]
      exact (gainsNo.of_frame (setWearItem_frame ..)).trans (handOnLevel_gainsNo_warningNew hfall) .pd
    · rw [hq]
      exact (factorsReformed_handOnLevel h).before (setWearItem_frame ..)
  · rw [hlevel] at hlimit
    by_cases hsame : formedLevel i p.wear[i] = p.wear[i].level
    · rw [show q = _ from judgeItem_of_same hsame]
      exact (gainsNo.of_frame (setWearItem_frame ..)) .pb
    · rw [show q = _ from judgeItem_of_change hsame]
      exact (gainsNo.of_frame (setWearItem_frame ..)).trans (handOnLevel_gainsNo_liningLimit hlimit) .pb

theorem derateChangeSet_judgeItem (i : WearNo) (p : Part) : derateChangeSet p (judgeItem i p) := by
  by_cases hsame : formedLevel i p.wear[i] = p.wear[i].level
  · rw [judgeItem_of_same hsame]
    exact .of_frame (setWearItem_frame ..)
  · by_cases hread : i.val ≤ 7
    · rw [judgeItem_of_change hsame]
      exact (factorsReformed_handOnLevel (p := p.setWearItem i _) hread).2.1
    · exact fun hne => absurd (by rw [judgeItem_derate_of_gt (Nat.lt_of_not_le hread)]) hne

/-! ### An item while others are counted and judged -/

/-- From `p` to `q` the item, the entries of the warning list for it and every event set stay. -/
structure itemKept (i : WearNo) (p q : Part) : Prop where
  item : q.wear[i] = p.wear[i]
  entries : ∀ w : Warning, w.item = i → (w ∈ q.warnings ↔ w ∈ p.warnings)
  events : eventsKept p q
  time : q.time = p.time

theorem itemKept.refl (i : WearNo) (p : Part) : itemKept i p p := ⟨rfl, fun _ _ => .rfl, .refl p, rfl⟩

theorem itemKept.trans (h1 : itemKept i p q) (h2 : itemKept i q r) : itemKept i p r :=
  ⟨h2.item.trans h1.item, fun w hw => (h2.entries w hw).trans (h1.entries w hw), h1.events.trans h2.events,
    h2.time.trans h1.time⟩

theorem itemKept.of_frame (h : changesOnly l p q) (hev : eventsKept p q)
    (hl : ∀ b ∈ [Block.wear, .warnings, .time], b ∉ l := by decide) : itemKept i p q :=
  ⟨by rw [(h.same .wear (hl _ (by decide)) : q.wear = p.wear)],
    fun w _ => by rw [(h.same .warnings (hl _ (by decide)) : q.warnings = p.warnings)], hev,
    h.same .time (hl _ (by decide))⟩

theorem mem_updateWarnings_other {old new : Level} {stamp : Stamp} {l : List Warning} {w : Warning} (h : w.item ≠ i) :
    w ∈ updateWarnings i old new stamp l ↔ w ∈ l := by
  have hfilter : w ∈ removeWarning i l ↔ w ∈ l := by simp [removeWarning, h]
  unfold updateWarnings
  split
  · exact hfilter
  · split
    · rw [List.mem_append, hfilter]
      refine or_iff_left fun hmem => h ?_
      rw [List.mem_singleton.mp hmem]
    · refine List.mem_map.trans ⟨fun ⟨v, hv, hvw⟩ => ?_, fun hw => ⟨w, hw, if_neg h⟩⟩
      split at hvw
      · next hvi => exact absurd (by rw [← hvw]; exact hvi) h
      · rwa [← hvw]

theorem itemKept_judgeItem (h : j ≠ i) (p : Part) : itemKept j p (judgeItem i p) := by
  refine ⟨judgeItem_wear_other h, fun w hw => ?_, .of_gains (judgeItem_gains i p),
    (judgeItem_frame i p).same .time (by decide)⟩
  by_cases hsame : formedLevel i p.wear[i] = p.wear[i].level
  · rw [judgeItem_of_same hsame]
    exact .rfl
  · rw [judgeItem_of_change hsame, handOnLevel_warnings]
    exact mem_updateWarnings_other (hw ▸ h)

theorem itemKept_setWearItem (h : j ≠ i) (it : WearItem) (p : Part) : itemKept j p (p.setWearItem i it) :=
  ⟨setWearItem_wear_other h, fun _ _ => .rfl, .of_gains (.of_frame (setWearItem_frame ..)), rfl⟩

theorem itemKept_addUnits (h : j ≠ i) (k : Nat) (p : Part) : itemKept j p (addUnits i k p) :=
  (itemKept_setWearItem h _ p).trans (.of_frame (setEventIf_frame ..) (.of_gains (setEventIf_gains ..)))

theorem itemKept_integrate (h : j ≠ i) (quantity unit : Nat) (p : Part) : itemKept j p (integrate i quantity unit p) :=
  (itemKept_setWearItem h _ p).trans (itemKept_addUnits h _ _)

theorem itemKept_countOne (h : j ≠ i) (p : Part) : itemKept j p (countOne i p) :=
  (itemKept_addUnits h 1 p).trans (itemKept_judgeItem h _)

/-- A change handed on stays handed on while other items are judged. -/
theorem levelHandedOn.after (h : levelHandedOn i p q) (hkept : itemKept i q r) : levelHandedOn i p r := by
  obtain ⟨hsame, hchange, hrise, hok, hlimit⟩ := h
  unfold levelHandedOn
  dsimp only
  rw [hkept.item]
  refine ⟨hsame, hchange, fun h => ?_, fun hne h w hw hitem => ?_, fun hi hne h => hkept.events _ _ (hlimit hi hne h)⟩
  · obtain ⟨hmem, hpd, hsv⟩ := hrise h
    exact ⟨(hkept.entries _ rfl).mpr hmem, hkept.events _ _ hpd, hkept.events _ _ hsv⟩
  · exact hok hne h w ((hkept.entries w hitem).mp hw) hitem

/-- The judgement looks at the item's level and its stamp of change alone. -/
theorem levelHandedOn.before (h : levelHandedOn i q r) (hlevel : q.wear[i].level = p.wear[i].level)
    (hchanged : q.wear[i].changed = p.wear[i].changed) (htime : q.time = p.time) : levelHandedOn i p r := by
  unfold levelHandedOn at *
  rw [hlevel, hchanged, htime] at h
  exact h

theorem unitsAdded.after (h : unitsAdded i k p q) (hkept : itemKept i q r) : unitsAdded i k p r := by
  obtain ⟨hacc, hunknown, hsat, hevent, hrest⟩ := h
  unfold unitsAdded
  dsimp only
  rw [hkept.item]
  exact ⟨hacc, hunknown, hsat, fun hover hclear hnotice => hkept.events _ _ (hevent hover hclear hnotice), hrest⟩

theorem unitsAdded.before (h : unitsAdded i k q r) (hkept : itemKept i p q) : unitsAdded i k p r := by
  unfold unitsAdded at *
  rwa [hkept.item] at h

/-! ### Quantities integrated -/

/-- From `p` to `q` the quantity was integrated on the item, whose level is not judged yet. -/
structure integratedOnce (i : WearNo) (quantity unit : Nat) (p q : Part) : Prop where
  residual : q.wear[i].residual = (p.wear[i].residual + quantity) % unit
  units : unitsAdded i ((p.wear[i].residual + quantity) / unit) p q
  level : q.wear[i].level = p.wear[i].level
  changed : q.wear[i].changed = p.wear[i].changed

theorem integrate_wear_self : (integrate i quantity unit p).wear[i] =
    raisedItem ((p.wear[i].residual + quantity) / unit)
      { p.wear[i] with residual := (p.wear[i].residual + quantity) % unit } := by
  simp only [integrate, addUnits_wear_self, setWearItem_wear_self]

theorem integratedOnce_integrate (i : WearNo) (quantity unit : Nat) (p : Part) :
    integratedOnce i quantity unit p (integrate i quantity unit p) := by
  have hself : (integrate i quantity unit p).wear[i] = _ := integrate_wear_self
  refine ⟨by rw [hself]; rfl, ?_, by rw [hself]; rfl, by rw [hself]; rfl⟩
  simp only [unitsAdded, hself]
  refine ⟨rfl, rfl, ?_, fun hover hclear hnotice => ?_, rfl, rfl, rfl, rfl⟩
  · simp only [raisedItem, Config.wearTop, Bool.or_eq_true]
    exact or_congr_right decide_eq_true_iff
  · refine hasEvent_setEventIf ?_ (by decide)
    simp only [setWearItem_wear_self, hclear, hnotice, Bool.not_false, Bool.and_true]
    exact decide_eq_true hover

theorem integratedOnce.before (h : integratedOnce i quantity unit q r) (hkept : itemKept i p q) :
    integratedOnce i quantity unit p r := by
  obtain ⟨hresidual, hunits, hlevel, hchanged⟩ := h
  rw [hkept.item] at hresidual hunits hlevel hchanged
  exact ⟨hresidual, hunits.before hkept, hlevel, hchanged⟩

theorem integratedOnce.after (h : integratedOnce i quantity unit p q) (hkept : itemKept i q r) :
    integratedOnce i quantity unit p r :=
  ⟨by rw [hkept.item, h.residual], h.units.after hkept, by rw [hkept.item, h.level], by rw [hkept.item, h.changed]⟩

/-- Quantities integrated one after another, each on its item. -/
def integrateAll (l : List (WearNo × Nat × Nat)) (p : Part) : Part :=
  l.foldl (fun p (i, quantity, unit) => integrate i quantity unit p) p

theorem itemKept_integrateAll {l : List (WearNo × Nat × Nat)} (h : j ∉ l.map (·.1)) (p : Part) :
    itemKept j p (integrateAll l p) := by
  induction l generalizing p with
  | nil => exact .refl j p
  | cons x l ih =>
    obtain ⟨hne, htail⟩ := not_or.mp (mt List.mem_cons.mpr h)
    exact (itemKept_integrate hne _ _ p).trans (ih htail _)

theorem integratedOnce_integrateAll {l : List (WearNo × Nat × Nat)} (hnodup : (l.map (·.1)).Nodup)
    (h : (i, quantity, unit) ∈ l) (p : Part) : integratedOnce i quantity unit p (integrateAll l p) := by
  induction l generalizing p with
  | nil => cases h
  | cons x l ih =>
    obtain ⟨hhead, htail⟩ := List.nodup_cons.mp hnodup
    obtain rfl | hmem := List.mem_cons.mp h
    · exact (integratedOnce_integrate i quantity unit p).after (itemKept_integrateAll hhead _)
    · have hne : i ≠ x.1 := fun heq => hhead (List.mem_map.mpr ⟨_, hmem, heq⟩)
      exact (ih htail hmem _).before (itemKept_integrate hne _ _ p)

theorem integrateAll_frame (l : List (WearNo × Nat × Nat)) (p : Part) :
    changesOnly [.wear, .ports] p (integrateAll l p) := by
  induction l generalizing p with
  | nil => exact .refl _ p
  | cons x l ih => exact (integrate_frame ..).seq (ih _)

/-- Items judged one after another. -/
def judgeAll (l : List WearNo) (p : Part) : Part := l.foldl (fun p i => judgeItem i p) p

theorem itemKept_judgeAll {l : List WearNo} (h : j ∉ l) (p : Part) : itemKept j p (judgeAll l p) := by
  induction l generalizing p with
  | nil => exact .refl j p
  | cons i l ih =>
    obtain ⟨hne, htail⟩ := not_or.mp (mt List.mem_cons.mpr h)
    exact (itemKept_judgeItem hne p).trans (ih htail _)

theorem judgeAll_gains (l : List WearNo) (p : Part) : portsOnlyGainEvents p (judgeAll l p) := by
  induction l generalizing p with
  | nil => exact .refl p
  | cons i l ih => exact (judgeItem_gains i p).trans (ih _)

theorem derateChangeSet_judgeAll (l : List WearNo) (p : Part) : derateChangeSet p (judgeAll l p) := by
  induction l generalizing p with
  | nil => exact .of_frame (.refl [] p)
  | cons i l ih => exact (derateChangeSet_judgeItem i p).trans (ih _) (.of_gains (judgeAll_gains l _))

/-- From `p` to `q` the item's level was formed again and a change handed on, and nothing else of the item moved. -/
structure judgedOnce (i : WearNo) (p q : Part) : Prop where
  formed : levelFormed i q.wear[i]
  handedOn : levelHandedOn i p q
  item : q.wear[i] = judgedItem i p.time.now p.wear[i]
  events : eventsKept p q

theorem judgedOnce_judgeItem (i : WearNo) (p : Part) : judgedOnce i p (judgeItem i p) :=
  ⟨levelFormed_judgeItem i p, levelHandedOn_judgeItem i p, judgeItem_wear_self, .of_gains (judgeItem_gains i p)⟩

theorem judgedOnce.before (h : judgedOnce i q r) (hkept : itemKept i p q) : judgedOnce i p r := by
  obtain ⟨hformed, hhanded, hitem, hevents⟩ := h
  rw [hkept.item, hkept.time] at hitem
  exact ⟨hformed, hhanded.before (by rw [hkept.item]) (by rw [hkept.item]) hkept.time, hitem, hkept.events.trans hevents⟩

theorem judgedOnce.after (h : judgedOnce i p q) (hkept : itemKept i q r) : judgedOnce i p r :=
  ⟨by rw [hkept.item]; exact h.formed, h.handedOn.after hkept, hkept.item.trans h.item, h.events.trans hkept.events⟩

theorem judgedOnce_judgeAll {l : List WearNo} (hnodup : l.Nodup) (h : i ∈ l) (p : Part) :
    judgedOnce i p (judgeAll l p) := by
  induction l generalizing p with
  | nil => cases h
  | cons x l ih =>
    obtain ⟨hhead, htail⟩ := List.nodup_cons.mp hnodup
    obtain rfl | hmem := List.mem_cons.mp h
    · exact (judgedOnce_judgeItem i p).after (itemKept_judgeAll hhead _)
    · have hne : i ≠ x := fun heq => hhead (heq ▸ hmem)
      exact (ih htail hmem _).before (itemKept_judgeItem hne p)

/-- A judgement moves none of the fields that a count or an integration moves. -/
theorem unitsAdded.judged (h : unitsAdded i k p q) (hjudged : judgedOnce i q r) : unitsAdded i k p r := by
  obtain ⟨hacc, hunknown, hsat, hevent, hrest⟩ := h
  unfold unitsAdded
  dsimp only
  rw [hjudged.item]
  exact ⟨hacc, hunknown, hsat, fun hover hclear hnotice => hjudged.events _ _ (hevent hover hclear hnotice), hrest⟩

end Sys2Proof.Machine
end

