-- ==== Sys2Proof/Proofs/WearService.lean ====
section
/-! SUPPORT. The service writes of the wear unit: the fields of a WEAR_WRITE as its presence byte tells them, what a
write and a WEAR_RESET leave of the item, and what they hand on (R170, R171, R194). -/

set_option Elab.async false

namespace Sys2Proof.Machine

variable {p : Part} {i other : WearNo} {f : WearFields} {it : WearItem}

/-! ### The carried fields -/

theorem take4_cases (present : Bool) (bytes : List Byte) :
    take4 present bytes = none ∧ bytes.length < 4 * present.toNat ∨
      ∃ v rest, take4 present bytes = some (v, rest) ∧ bytes.length = 4 * present.toNat + rest.length ∧
        rest <:+ bytes := by
  cases present with
  | false => exact .inr ⟨none, bytes, rfl, by simp, List.suffix_rfl⟩
  | true =>
    match bytes with
    | [] | [_] | [_, _] | [_, _, _] => exact .inl ⟨rfl, by simp⟩
    | a :: b :: c :: d :: rest => exact .inr ⟨_, rest, rfl, by simp; omega, [a, b, c, d], rfl⟩

theorem take1_cases (present : Bool) (bytes : List Byte) :
    take1 present bytes = none ∧ bytes.length < present.toNat ∨
      (∃ rest, take1 present bytes = some (none, rest) ∧ present = false ∧ bytes = rest) ∨
      ∃ a rest, take1 present bytes = some (some a, rest) ∧ present = true ∧ bytes = a :: rest := by
  cases present with
  | false => exact .inr (.inl ⟨bytes, rfl, rfl, rfl⟩)
  | true =>
    match bytes with
    | [] => exact .inl ⟨rfl, by simp⟩
    | a :: rest => exact .inr (.inr ⟨a, rest, rfl, rfl, rfl⟩)

/-- The number of bytes that a presence byte tells (R194). -/
def carriedLength (presence : Byte) : Nat :=
  4 * (presence.getLsbD 0).toNat + 4 * (presence.getLsbD 1).toNat + 4 * (presence.getLsbD 2).toNat +
    (presence.getLsbD 3).toNat

/-- The presence byte tells the length, and the notice is the last byte (R170, R194). -/
theorem wearFieldsOf_cases (presence : Byte) (bytes : List Byte) :
    wearFieldsOf presence bytes = none ∧ bytes.length ≠ carriedLength presence ∨
      ∃ f, wearFieldsOf presence bytes = some f ∧ bytes.length = carriedLength presence ∧
        f.notice = if presence.getLsbD 3 then bytes.getLast? else none := by
  unfold wearFieldsOf carriedLength
  simp only [flagBit]
  obtain ⟨h0, hlen0⟩ | ⟨acc, b1, h0, hlen0, hsuffix0⟩ := take4_cases (presence.getLsbD 0) bytes
  · rw [h0]
    exact .inl ⟨rfl, by omega⟩
  obtain ⟨h1, hlen1⟩ | ⟨warn, b2, h1, hlen1, hsuffix1⟩ := take4_cases (presence.getLsbD 1) b1
  · simp only [h0, h1]
    exact .inl ⟨trivial, by omega⟩
  obtain ⟨h2, hlen2⟩ | ⟨limit, b3, h2, hlen2, hsuffix2⟩ := take4_cases (presence.getLsbD 2) b2
  · simp only [h0, h1, h2]
    exact .inl ⟨trivial, by omega⟩
  obtain ⟨h3, hlen3⟩ | ⟨b4, h3, hbit, hb3⟩ | ⟨a, b4, h3, hbit, hb3⟩ := take1_cases (presence.getLsbD 3) b3
  · simp only [h0, h1, h2, h3]
    exact .inl ⟨trivial, by omega⟩
  · simp only [h0, h1, h2, h3]
    rw [hbit]
    have hfalse : false.toNat = 0 := rfl
    have hlen3 : b3.length = b4.length := by rw [hb3]
    by_cases hrest : b4 = []
    · have : b4.length = 0 := List.length_eq_zero_iff.mpr hrest
      exact .inr ⟨_, if_pos hrest, by omega, rfl⟩
    · have := List.length_pos_iff.mpr hrest
      exact .inl ⟨if_neg hrest, by omega⟩
  · simp only [h0, h1, h2, h3]
    rw [hbit]
    have htrue : true.toNat = 1 := rfl
    have hlen3 : b3.length = b4.length + 1 := by rw [hb3]; rfl
    by_cases hrest : b4 = []
    · have : b4.length = 0 := List.length_eq_zero_iff.mpr hrest
      refine .inr ⟨_, if_pos hrest, by omega, ?_⟩
      obtain ⟨front, hfront⟩ := (hsuffix2.trans hsuffix1).trans hsuffix0
      simp [← hfront, hb3, hrest]
    · have := List.length_pos_iff.mpr hrest
      exact .inl ⟨if_neg hrest, by omega⟩

/-- A carried notice byte above 1 is the one the check refuses. -/
theorem noticeOk_eq_false_iff {carried : Bool} {last : Option Byte} :
    noticeOk (if carried then last else none) = false ↔ carried = true ∧ ∃ b, last = some b ∧ 1 < b.toNat := by
  cases carried with
  | false => exact ⟨fun h => (nomatch h), fun h => (nomatch h.1)⟩
  | true => cases last <;> simp [noticeOk]

/-! ### The item that a write leaves -/

theorem wearFieldsBad_iff : wearFieldsBad i f it = true ↔
    (i.val = 11 ∧ (f.warn.isSome = true ∨ f.limit.isSome = true)) ∨
      (f.warn.getD it.warn ≠ 0 ∧ f.limit.getD it.limit ≠ 0 ∧ f.limit.getD it.limit ≤ f.warn.getD it.warn) := by
  simp [wearFieldsBad, hasLevel, and_assoc]

/-- A write stores what it carries and leaves the level to the judgement (R170). -/
theorem writtenItem_cases (f : WearFields) (it : WearItem) :
    let new := writtenItem f it
    (∀ v, f.acc = some v → new.acc = min (v + it.unknown.getD 0) 4294967295 ∧ new.unknown = none ∧
      new.saturated = decide (new.acc = 4294967295)) ∧
    (f.acc = none → new.acc = it.acc ∧ new.unknown = it.unknown ∧ new.saturated = it.saturated) ∧
    new.warn = f.warn.getD it.warn ∧ new.limit = f.limit.getD it.limit ∧
    new.notice = ((f.notice.map fun b => decide (b = 1#8)).getD it.notice) ∧
    new.residual = it.residual ∧ new.stage = it.stage ∧ new.armed = it.armed ∧ new.level = it.level ∧
    new.changed = it.changed := by
  have hone (b : Byte) : decide (b.toNat = 1) = decide (b = 1#8) :=
    decide_eq_decide.mpr ⟨fun h => BitVec.eq_of_toNat_eq h, fun h => by rw [h]; rfl⟩
  unfold writtenItem
  cases hacc : f.acc with
  | none => simp [hone]
  | some v =>
    refine ⟨fun w hw => ?_, fun h => (nomatch h), rfl, rfl, by simp only [hone], rfl, rfl, rfl, rfl, rfl⟩
    cases hw
    exact ⟨rfl, rfl, rfl⟩

/-- The part whose item an accepted WEAR_WRITE has stored, before the level is formed again. -/
def storedWrite (i : WearNo) (f : WearFields) (p : Part) : Part :=
  setEventIf (writeSaturates f p.wear[i]) .wearSaturated (p.setWearItem i (writtenItem f p.wear[i]))

theorem applyWearWrite_eq (i : WearNo) (f : WearFields) (p : Part) :
    applyWearWrite i f p = judgeItem i (storedWrite i f p) := rfl

theorem storedWrite_frame (i : WearNo) (f : WearFields) (p : Part) : changesOnly [.wear, .ports] p (storedWrite i f p) :=
  (setWearItem_frame ..).trans (setEventIf_frame ..)

theorem storedWrite_gains (i : WearNo) (f : WearFields) (p : Part) : portsOnlyGainEvents p (storedWrite i f p) :=
  (portsOnlyGainEvents.of_frame (setWearItem_frame ..)).trans (setEventIf_gains ..)

theorem storedWrite_wear_self : (storedWrite i f p).wear[i] = writtenItem f p.wear[i] := by
  have hwear : (storedWrite i f p).wear = (p.setWearItem i (writtenItem f p.wear[i])).wear :=
    (setEventIf_frame ..).same .wear (by decide)
  rw [hwear, setWearItem_wear_self]

theorem storedWrite_wear_other (h : other ≠ i) : (storedWrite i f p).wear[other] = p.wear[other] := by
  have hwear : (storedWrite i f p).wear = (p.setWearItem i (writtenItem f p.wear[i])).wear :=
    (setEventIf_frame ..).same .wear (by decide)
  rw [hwear, setWearItem_wear_other h]

theorem wearWrite_of_accepted {item presence : Byte} {bytes : List Byte} (hfields : wearFieldsOf presence bytes = some f)
    (hnotice : noticeOk f.notice = true) (hitem : wearNoOf item = some i) (hgood : wearFieldsBad i f p.wear[i] = false) :
    wearWrite item presence bytes p = accept (applyWearWrite i f p) := by
  simp only [wearWrite, hfields, hnotice, hitem, hgood, Bool.not_true, Bool.false_eq_true, if_false]

theorem wearWrite_of_bad {item presence : Byte} {bytes : List Byte} (hfields : wearFieldsOf presence bytes = some f)
    (hnotice : noticeOk f.notice = true) (hitem : wearNoOf item = some i) (hbad : wearFieldsBad i f p.wear[i] = true) :
    wearWrite item presence bytes p = refuse .range p := by
  simp only [wearWrite, hfields, hnotice, hitem, hbad, Bool.not_true, Bool.false_eq_true, if_false, if_true]

theorem wearNoOf_ofNat (i : WearNo) : wearNoOf (BitVec.ofNat 8 i.val) = some i := by
  have htoNat : (BitVec.ofNat 8 i.val).toNat = i.val := by
    rw [BitVec.toNat_ofNat, Nat.mod_eq_of_lt (by omega)]
  rw [wearNoOf_of_lt (by rw [htoNat]; exact i.isLt)]
  exact congrArg some (Fin.ext htoNat)

/-- The notice of saturation is told when a write brings the accumulator to its maximum (R167, R170). -/
theorem hasEvent_storedWrite {v : Nat} (hacc : f.acc = some v) (hv : 4294967295 ≤ v + p.wear[i].unknown.getD 0)
    (hclear : p.wear[i].saturated = false) (hnotice : (writtenItem f p.wear[i]).notice = true) :
    hasEvent .wearSaturated .sv (storedWrite i f p) := by
  obtain ⟨hcarried, -⟩ := writtenItem_cases f p.wear[i]
  obtain ⟨hnew, -, hsat⟩ := hcarried v hacc
  have hsat' : (writtenItem f p.wear[i]).saturated = true := by
    rw [hsat, hnew, Nat.min_eq_right hv]
    rfl
  exact hasEvent_setEventIf (by simp only [writeSaturates, hacc, hsat', hclear, hnotice]; rfl) rfl

/-! ### The item that a reset leaves -/

theorem thresholdLevel_resetItem (it : WearItem) : thresholdLevel (resetItem it) = .ok := by
  have hlimit : ¬ (it.limit ≠ 0 ∧ it.limit ≤ 0) := fun ⟨hne, hle⟩ => hne (Nat.le_zero.mp hle)
  have hwarn : ¬ (it.warn ≠ 0 ∧ it.warn ≤ 0) := fun ⟨hne, hle⟩ => hne (Nat.le_zero.mp hle)
  rw [thresholdLevel_eq]
  exact (if_neg hlimit).trans (if_neg hwarn)

theorem formedLevel_resetItem (i : WearNo) (it : WearItem) :
    formedLevel i (resetItem it) = if i.val = 11 then it.level else .ok := by
  have hthreshold := thresholdLevel_resetItem it
  have hsensor : sensorLevel (resetItem it).stage = .ok := rfl
  split
  · next h =>
    obtain rfl : i = 11 := Fin.ext h
    rfl
  · next h =>
    unfold formedLevel
    rw [hthreshold, hsensor]
    simp [hasLevel, h, higherLevel]

theorem judgedItem_resetItem (i : WearNo) (now : Stamp) (it : WearItem) : judgedItem i now (resetItem it) = { it with
    acc := 0, residual := 0, saturated := false, unknown := none, stage := 0, disagree := false, armed := false
    level := if i.val = 11 then it.level else .ok
    changed := if i.val = 11 ∨ it.level = .ok then it.changed else now } := by
  have hdisagree : formedDisagree i (resetItem it) = false := by
    have : sensorLevel (resetItem it).stage = .ok := rfl
    simp [formedDisagree, this, thresholdLevel_resetItem]
  unfold judgedItem
  rw [hdisagree, formedLevel_resetItem]
  have hlevel : (resetItem it).level = it.level := rfl
  rw [hlevel]
  have hchanged : (if (if i.val = 11 then it.level else .ok) = it.level then (resetItem it).changed else now) =
      if i.val = 11 ∨ it.level = .ok then it.changed else now := by
    by_cases h11 : i.val = 11
    · simp [h11, resetItem]
    · simp [h11, resetItem, eq_comm]
  rw [hchanged]
  rfl

theorem wearReset_of_item {item : Byte} (h : wearNoOf item = some i) :
    wearReset item p = accept (judgeItem i (p.setWearItem i (resetItem p.wear[i]))) := by
  simp only [wearReset, h]

/-! ### The answers -/

/-- The item as stored and judged, whatever reply is queued after it. -/
theorem queueOn_judgeItem_wear_self (port : Port) (frame : OutFrame) :
    (queueOn port frame (judgeItem i q)).wear[i] = judgedItem i q.now q.wear[i] := by
  have hwear : (queueOn port frame (judgeItem i q)).wear = (judgeItem i q).wear :=
    (queueOn_frame ..).same .wear (by decide)
  rw [hwear, judgeItem_wear_self]

theorem queueOn_judgeItem_wear_other (port : Port) (frame : OutFrame) (h : other ≠ i) :
    (queueOn port frame (judgeItem i q)).wear[other] = q.wear[other] := by
  have hwear : (queueOn port frame (judgeItem i q)).wear = (judgeItem i q).wear :=
    (queueOn_frame ..).same .wear (by decide)
  rw [hwear, judgeItem_wear_other h]

/-- What a judgement hands on and its DERATE_CHANGE stand when the reply is queued. -/
theorem itemKept_queueOn (port : Port) (frame : OutFrame) (i : WearNo) (p : Part) :
    itemKept i p (queueOn port frame p) := .of_frame (queueOn_frame ..) (eventsKept_queueOn port frame p)

theorem derateChangeSet_answered (hframe : changesOnly [.wear, .ports] p q) (port : Port) (frame : OutFrame) :
    derateChangeSet p (queueOn port frame (judgeItem i q)) :=
  derateChangeSet_queueOn ((derateChangeSet.of_frame hframe).trans (derateChangeSet_judgeItem i q)
    (.of_gains (judgeItem_gains i q)))

theorem level_of_item11 (h : i.val = 11) (now : Stamp) (it : WearItem) : (judgedItem i now it).level = it.level := by
  obtain rfl : i = 11 := Fin.ext h
  rfl

/-- Settles O21: what is carried is stored, then the level is formed again; refusals by length, item and thresholds. -/
theorem wearServiceWrites : Obligations.WearServiceWrites := by
  refine ⟨fun item presence bytes f s htaken hlength hfields hnotice => ?write,
    fun item presence bytes s htaken hlength => ?refuse, fun item s htaken => ?reset⟩
  case write =>
    intro before warn limit refused
    have hitem := wearNoOf_ofNat item
    refine ⟨_, exec_of_request htaken rfl (wearLengthOk_of_le hlength) rfl, fun hrefused => ?bad, fun hgood => ?good⟩
    case bad => exact refusedWith_replyOn (wearWrite_of_bad hfields hnotice hitem (wearFieldsBad_iff.mpr hrefused))
    case good =>
      have haccept := wearWrite_of_accepted hfields hnotice hitem
        (Bool.eq_false_iff.mpr fun h => hgood (wearFieldsBad_iff.mp h) : wearFieldsBad item f s.part.wear[item] = false)
      have hreplied := replied_accept (port := .sv) (kind := .wearWrite) haccept
        (tx_of_gains ((storedWrite_gains item f s.part).trans (judgeItem_gains item _)))
      have hall := replyOn_frame .sv .wearWrite _ _ (wearWrite_frame (BitVec.ofNat 8 item.val) presence bytes s.part)
      rw [replyOn_accept haccept, applyWearWrite_eq] at hreplied hall ⊢
      have hself := queueOn_judgeItem_wear_self (i := item) (q := storedWrite item f s.part) .sv
        (.reply .wearWrite .accepted none)
      rw [storedWrite_wear_self] at hself
      obtain ⟨hcarried, hlacking, hwarn, hlimit, hnoticeStored, hresidual, hstage, harmed, hlevel, hchanged⟩ :=
        writtenItem_cases f s.part.wear[item]
      have hhanded := ((levelHandedOn_judgeItem item (storedWrite item f s.part)).after
        (itemKept_queueOn .sv (.reply .wearWrite .accepted none) item _)).before
          (p := s.part) (by rw [storedWrite_wear_self, hlevel]) (by rw [storedWrite_wear_self, hchanged])
          ((storedWrite_frame ..).same .time (by decide))
      have hderate := derateChangeSet_answered (i := item) (storedWrite_frame item f s.part) .sv
        (.reply .wearWrite .accepted none)
      simp only [hself]
      refine ⟨hcarried, hlacking, hwarn, hlimit, hnoticeStored, hresidual, hstage, harmed, levelFormed_judgedItem _,
        hhanded, fun h11 => (level_of_item11 h11 _ _).trans hlevel, hderate, fun v hacc hv hclear hon => ?_,
        fun other hother => ?_, hreplied, hall⟩
      · exact eventsKept_queueOn _ _ _ _ _
          ((hasEvent_storedWrite hacc hv hclear hon).of_gains (judgeItem_gains item _))
      · exact (queueOn_judgeItem_wear_other _ _ hother).trans (storedWrite_wear_other hother)
  case refuse =>
    intro carried fits noticeIll
    obtain ⟨hnone, hlen⟩ | ⟨f, hsome, hlen, hlast⟩ := wearFieldsOf_cases presence bytes
    · refine ⟨_, exec_of_request htaken rfl (wearLengthOk_of_le hlength) rfl, fun _ => refusedWith_replyOn ?_,
        fun hfits => absurd hfits hlen⟩
      simp only [wearWrite, hnone]
    · have hill : noticeIll ↔ noticeOk f.notice = false := hlast ▸ noticeOk_eq_false_iff.symm
      refine ⟨_, exec_of_request htaken rfl (wearLengthOk_of_le hlength) rfl, fun h => refusedWith_replyOn ?_,
        fun _ hfine hitem => refusedWith_replyOn ?_⟩
      · have hbad := hill.mp (h.resolve_left (not_not_intro hlen))
        simp only [wearWrite, hsome, hbad]
        rfl
      · have hok : noticeOk f.notice = true := (Bool.not_eq_false _).mp (mt hill.mpr hfine)
        simp only [wearWrite, hsome, hok, wearNoOf_of_ge hitem]
        rfl
  case reset =>
    refine ⟨_, exec_of_request htaken rfl rfl rfl, fun hitem => refusedWith_replyOn ?_, fun h => ?_⟩
    · simp only [wearReset, wearNoOf_of_ge hitem]
    · intro i
      have haccept := wearReset_of_item (p := s.part) (wearNoOf_of_lt h)
      have hstored := setWearItem_frame i (resetItem s.part.wear[i]) s.part
      have hself := queueOn_judgeItem_wear_self (i := i) (q := s.part.setWearItem i (resetItem s.part.wear[i])) .sv
        (.reply .wearReset .accepted none)
      rw [setWearItem_wear_self, judgedItem_resetItem] at hself
      have hreplied := replied_accept (port := .sv) (kind := .wearReset) haccept
        (tx_of_gains ((portsOnlyGainEvents.of_frame hstored).trans (judgeItem_gains i _)))
      have hall := replyOn_frame .sv .wearReset _ _ (wearReset_frame item s.part)
      rw [replyOn_accept haccept] at hreplied hall ⊢
      refine ⟨hself, fun other hother => ?_, fun h11 hlevel => ?_, derateChangeSet_answered hstored.mono _ _, hreplied,
        hall⟩
      · exact (queueOn_judgeItem_wear_other _ _ hother).trans (setWearItem_wear_other hother)
      · have hformed : formedLevel i (s.part.setWearItem i (resetItem s.part.wear[i])).wear[i] = .ok := by
          rw [setWearItem_wear_self, formedLevel_resetItem]
          exact if_neg h11
        have hchange : formedLevel i (s.part.setWearItem i (resetItem s.part.wear[i])).wear[i] ≠
            (s.part.setWearItem i (resetItem s.part.wear[i])).wear[i].level := by
          rw [hformed, setWearItem_wear_self]
          exact hlevel.symm
        show (judgeItem i _).warnings = _
        rw [judgeItem_of_change hchange, handOnLevel_warnings, hformed]
        rfl

end Sys2Proof.Machine
end

