-- ==== Sys2Proof/Proofs/HoldMoves.lean ====
section
/-! SUPPORT. How the hold controller moves: what a change of hold state leaves (R98, R106, R108), the move to HOLD_RUN
with a hold start request (R104 to R106), and the breaks (R107, R108). -/

set_option Elab.async false

namespace Sys2Proof.Machine

variable {p q : Part} {new : HoldState} {rule : Option Nat} {e : Event} {port : Port}

/-! ### A change of hold state -/

/-- The part whose hold controller has changed its state, before the arbiter looks at the HOLD flag (R98). -/
def holdChanged (new : HoldState) (rule : Option Nat) (p : Part) : Part :=
  let quiet := new = .holdQuiet || new = .layover
  setEvent .holdChange (setStartRequest (p.gen.startRequest && new = .holdRun) (p.setHold
    { state := new
      entered := p.now
      rule := rule
      latch := p.hold.latch && quiet
      promotion := new = .holdQuiet && p.cfg.on .deepPromotion
      layover := new = .layover }))

theorem changeHold_eq (new : HoldState) (rule : Option Nat) (p : Part) :
    changeHold new rule p = evalSource .hold (holdChanged new rule p) := rfl

theorem holdChanged_frame (new : HoldState) (rule : Option Nat) (p : Part) :
    changesOnly [.hold, .gen, .ports] p (holdChanged new rule p) :=
  ((setHold_frame p _).trans (n := [.hold, .gen]) (setStartRequest_frame ..)).trans (setEvent_frame ..)

theorem changeHold_hold (new : HoldState) (rule : Option Nat) (p : Part) : (changeHold new rule p).hold =
    { state := new
      entered := p.time.now
      rule := rule
      latch := p.hold.latch && (new = .holdQuiet || new = .layover)
      promotion := new = .holdQuiet && p.cfg.on .deepPromotion
      layover := new = .layover } :=
  (evalSource_frame .hold (holdChanged new rule p)).same .hold (by decide)

theorem changeHold_gen (new : HoldState) (rule : Option Nat) (p : Part) :
    (changeHold new rule p).gen = { p.gen with startRequest := p.gen.startRequest && new = .holdRun } :=
  (evalSource_frame .hold (holdChanged new rule p)).same .gen (by decide)

theorem requested_holdChanged : requested .hold (holdChanged new rule p) = decide (new ≠ .drive) := rfl

theorem changeHold_flags (new : HoldState) (rule : Option Nat) (p : Part) :
    (changeHold new rule p).auth.flags = { p.auth.flags with hold := decide (new ≠ .drive) } := by
  rw [changeHold_eq, evalSource_flags, requested_holdChanged]
  rfl

theorem hasEvent_changeHold (h : Event.holdChange.on port = true) :
    hasEvent .holdChange port (changeHold new rule p) :=
  (hasEvent_setEvent .holdChange _ h).of_gains (evalSource_gains ..)

theorem holdChanged_gainsNo (h : .holdChange ≠ e) : gainsNo e p (holdChanged new rule p) :=
  (gainsNo.of_frame ((setHold_frame p _).trans (n := [.hold, .gen]) (setStartRequest_frame ..))).trans
    (setEvent_gainsNo h)

theorem changeHold_gainsNo (h : .holdChange ≠ e) (hauth : .authorityChange ≠ e) :
    gainsNo e p (changeHold new rule p) := (holdChanged_gainsNo h).trans (evalSource_gainsNo hauth)

/-- A return to DRIVE releases the HOLD entry, and no other change of hold state releases any (R50, R108). -/
theorem changeHold_released (new : HoldState) (rule : Option Nat) (p : Part) :
    entriesReleased (fun s => s = .hold && new = .drive) p (changeHold new rule p) := by
  refine ((evalSource_released .hold (holdChanged new rule p)).after (holdChanged_frame ..)
    (holdChanged_gainsNo (by decide)) (evalSource_gains ..)).congr fun s => ?_
  rw [requested_holdChanged]
  cases new <;> rfl

/-! ### HOLD_RUN with a hold start request -/

theorem actOnRequest_gen (p : Part) (h : p.gen.startRequest = true) : (actOnRequest p).gen =
    if p.gen.link = .off then { p.gen with
      link := .startSent
      timer := some ⟨.startTimeout, p.time.now, p.cfg.num .startTimeout⟩
      startRequest := false }
    else if p.gen.link.starting = true ∨ p.gen.link = .run ∨ p.gen.link = .lockedOut then
      { p.gen with startRequest := false }
    else p.gen := by
  unfold actOnRequest
  rw [if_pos h]
  cases hlink : p.gen.link <;> simp [LinkState.starting, setStartRequest, enterStartSent, setGenLink, genTimer, Part.now]

/-- The part in HOLD_RUN with the request standing, before the sequencer acts on it (R106). -/
def startRequested (p : Part) : Part := setStartRequest true (changeHold .holdRun none p)

theorem holdRunWithStart_eq (p : Part) : holdRunWithStart p = actOnRequest (startRequested p) := rfl

theorem startRequested_gen (p : Part) : (startRequested p).gen = { p.gen with startRequest := true } := by
  show { (changeHold .holdRun none p).gen with startRequest := true } = _
  rw [changeHold_gen]

theorem startRequested_frame (p : Part) : changesOnly [.hold, .gen, .auth, .ports] p (startRequested p) :=
  (changeHold_frame ..).trans (setStartRequest_frame ..)

theorem holdRunWithStart_hold (p : Part) :
    (holdRunWithStart p).hold = ⟨.holdRun, p.time.now, none, false, false, false⟩ := by
  have hsame : (holdRunWithStart p).hold = (changeHold .holdRun none p).hold :=
    ((setStartRequest_frame ..).trans (n := [.gen]) (actOnRequest_frame _)).same .hold (by decide)
  rw [hsame, changeHold_hold]
  simp

theorem holdRunWithStart_gen (p : Part) : (holdRunWithStart p).gen =
    if p.gen.link = .off then { p.gen with
      link := .startSent
      timer := some ⟨.startTimeout, p.time.now, p.cfg.num .startTimeout⟩
      startRequest := false }
    else if p.gen.link.starting = true ∨ p.gen.link = .run ∨ p.gen.link = .lockedOut then
      { p.gen with startRequest := false }
    else { p.gen with startRequest := true } := by
  have htime : (startRequested p).time = p.time := (startRequested_frame p).same .time (by decide)
  have hcfg : (startRequested p).cfg = p.cfg := (startRequested_frame p).same .cfg (by decide)
  rw [holdRunWithStart_eq, actOnRequest_gen _ (by rw [startRequested_gen]), startRequested_gen, htime, hcfg]

theorem holdRunWithStart_gains (p : Part) : portsOnlyGainEvents p (holdRunWithStart p) :=
  (changeHold_gains ..).trans (.of_frame ((setStartRequest_frame ..).trans (n := [.gen]) (actOnRequest_frame _)))

theorem hasEvent_holdRunWithStart (h : Event.holdChange.on port = true) :
    hasEvent .holdChange port (holdRunWithStart p) :=
  (hasEvent_changeHold h).of_gains
    (.of_frame ((setStartRequest_frame ..).trans (n := [.gen]) (actOnRequest_frame _)))

theorem holdRunWithStart_gainsNo (h : .holdChange ≠ e) (hauth : .authorityChange ≠ e) :
    gainsNo e p (holdRunWithStart p) :=
  (changeHold_gainsNo h hauth).trans
    (.of_frame ((setStartRequest_frame ..).trans (n := [.gen]) (actOnRequest_frame _)))

theorem holdRunWithStart_flags (p : Part) :
    (holdRunWithStart p).auth.flags = { p.auth.flags with hold := true } := by
  have hsame : (holdRunWithStart p).auth = (changeHold .holdRun none p).auth :=
    ((setStartRequest_frame ..).trans (n := [.gen]) (actOnRequest_frame _)).same .auth (by decide)
  rw [hsame, changeHold_flags]
  rfl

/-! ### Breaks -/

theorem breakHold_of_drive (h : p.hold.state = .drive) : breakHold p = p := if_pos h

theorem breakHold_of_hold (h : p.hold.state ≠ .drive) : breakHold p = changeHold .drive none p := if_neg h

theorem breakHold_state (p : Part) : (breakHold p).hold.state = .drive := by
  unfold breakHold
  split
  · assumption
  · rw [changeHold_hold]

/-- A break releases the HOLD entry of a hold it ends (R108). -/
theorem breakHold_released (p : Part) :
    entriesReleased (fun s => s = .hold && p.hold.state ≠ .drive) p (breakHold p) := by
  unfold breakHold
  split
  · next h => exact (entriesReleased.refl p).congr fun s => by simp [h]
  · next h => exact (changeHold_released .drive none p).congr fun s => by simp [h]

end Sys2Proof.Machine
end

