-- ==== Sys2Proof/Proofs/SettlementClose.lean ====
section
/-! SUPPORT. "Account settled", stage by stage: the record closed and the torque commands sent (R20 to R23, R62 to R67),
the quantities integrated and judged (R160 to R163, R166), the sequencer and the SoC floor (R105, R113, R116, R117),
and the frames queued (R185, R186). -/

set_option Elab.async false

namespace Sys2Proof.Machine

variable {p q r : Part} {i j : WearNo} {e : Event} {port : Port} {st : Settling} {w : Working} {rec : AccountRecord}

/-! ### The stages -/

/-- The part at an "account settled" when the wear unit is about to integrate the record (R22). -/
def closedPart (s : Settling) (p : Part) : Part :=
  decayStorage (keepRegPrev s.record (torqueStage s (closeAccount s p)))

/-- The part once the record's quantities are integrated and judged (R160 to R163). -/
def countedPart (s : Settling) (p : Part) : Part := integrateRecord s.record s.working (closedPart s p)

/-- The part once the sequencer has decided on the record (R113, R116, R117). -/
def decidedPart (s : Settling) (p : Part) : Part := sequencerSettled s.record s.working (countedPart s p)

theorem settledPart_eq (s : Settling) (p : Part) :
    settledPart s p = socFloorJudged s.working.soc (decidedPart s p) := rfl

theorem exec_accountSettled {s : State} (hrun : s.part.running = true) (hst : s.part.account.settling = some st) :
    exec .accountSettled s = .next ⟨s.pending, settle st s.part⟩ :=
  have hsettle : settleCurrent s.part = settle st s.part := by
    unfold settleCurrent
    rw [hst]
  hsettle ▸ exec_of_whenRunning hrun rfl

theorem closedPart_frame (s : Settling) (p : Part) :
    changesOnly [.account, .links, .blend, .image, .ports] p (closedPart s p) :=
  (((closeAccount_frame s p).trans (n := [.account, .links, .ports]) (torqueStage_frame s _)).trans
    (n := [.account, .links, .blend, .ports]) (keepRegPrev_frame s.record _)).trans (decayStorage_frame _)

theorem countedPart_frame (s : Settling) (p : Part) :
    changesOnly [.account, .links, .blend, .image, .wear, .warnings, .derate, .ports] p (countedPart s p) :=
  (closedPart_frame s p).trans (integrateRecord_frame ..)

theorem decidedPart_frame (s : Settling) (p : Part) :
    changesOnly [.account, .links, .blend, .image, .wear, .warnings, .derate, .gen, .ports] p (decidedPart s p) :=
  (countedPart_frame s p).trans (sequencerSettled_frame ..)

/-- What comes after the integration leaves the wear unit alone. -/
theorem settle_frame_of_counted (s : Settling) (p : Part) :
    changesOnly [.gen, .hold, .auth, .ports] (countedPart s p) (settle s p) :=
  ((sequencerSettled_frame s.record s.working (countedPart s p)).trans (n := [.gen, .hold, .auth, .ports])
    (socFloorJudged_frame ..)).trans (settlementFrames_frame s _)

/-! ### The frames queued -/

theorem queueSome_port_other {f : Option OutFrame} {other : Port} (h : other ≠ port) :
    (queueSome port f p).port other = p.port other := by
  unfold queueSome
  split
  · rfl
  · exact port_queueOn_other _ _ h

/-- The part once the frames of the storage, generator and brake ports are queued (R185, R91). -/
def grantsQueued (s : Settling) (p : Part) : Part :=
  queueSome .pb (frictionDemandOf s) (queueOn .pg (genCommandOf s.record p) (queueOn .ps (storageGrantOf s.record) p))

/-- The part once the two flag events of the record are set (R17, R18). -/
def flagsTold (s : Settling) (p : Part) : Part :=
  setEventIf s.record.flags.overcharge .overcharge (setEventIf s.record.flags.overdraw .overdraw p)

theorem settlementFrames_eq (s : Settling) (p : Part) :
    settlementFrames s p = driveReport s (grantsQueued s (flagsTold s p)) := rfl

theorem flagsTold_frame (s : Settling) (p : Part) : changesOnly [.ports] p (flagsTold s p) :=
  (setEventIf_frame ..).seq (setEventIf_frame ..)

theorem flagsTold_gains (s : Settling) (p : Part) : portsOnlyGainEvents p (flagsTold s p) :=
  (setEventIf_gains ..).trans (setEventIf_gains ..)

theorem grantsQueued_frame (s : Settling) (p : Part) : changesOnly [.ports] p (grantsQueued s p) :=
  ((queueOn_frame ..).seq (queueOn_frame ..)).seq (queueSome_frame ..)

theorem driveReport_port_other (h : port ≠ .pd) : (driveReport st p).port port = p.port port := by
  unfold driveReport
  split
  · rfl
  · rw [port_queueOn_other _ _ h]
    rfl

theorem status_grantsQueued (s : Settling) (p : Part) (port : Port) :
    ((grantsQueued s p).port port).status = (p.port port).status := by
  unfold grantsQueued queueSome
  split
  · rw [status_queueOn, status_queueOn]
  · rw [status_queueOn, status_queueOn, status_queueOn]

theorem status_driveReport (s : Settling) (p : Part) (port : Port) :
    ((driveReport s p).port port).status = (p.port port).status := by
  unfold driveReport
  split
  · rfl
  · rw [status_queueOn]
    rfl

/-- Of the frames only the two flag events reach a status. -/
theorem hasEvent_settlementFrames : hasEvent e port (settlementFrames st p) ↔ hasEvent e port (flagsTold st p) := by
  unfold hasEvent
  rw [settlementFrames_eq, status_driveReport, status_grantsQueued]

theorem eventsKept_settlementFrames (s : Settling) (p : Part) : eventsKept p (settlementFrames s p) :=
  fun _ _ h => hasEvent_settlementFrames.mpr (h.of_gains (flagsTold_gains s p))

theorem settlementFrames_gainsNo (hdraw : .overdraw ≠ e) (hcharge : .overcharge ≠ e) :
    gainsNo e p (settlementFrames st p) := fun port h =>
  (setEventIf_gainsNo hdraw).trans (setEventIf_gainsNo hcharge) port (hasEvent_settlementFrames.mp h)

theorem hasEvent_overdraw_settlementFrames (h : st.record.flags.overdraw = true) (hon : Event.overdraw.on port = true) :
    hasEvent .overdraw port (settlementFrames st p) :=
  hasEvent_settlementFrames.mpr ((hasEvent_setEventIf h hon).of_gains (setEventIf_gains ..))

theorem hasEvent_overcharge_settlementFrames (h : st.record.flags.overcharge = true)
    (hon : Event.overcharge.on port = true) : hasEvent .overcharge port (settlementFrames st p) :=
  hasEvent_settlementFrames.mpr (hasEvent_setEventIf h hon)

theorem storage_tx_settlementFrames : ((settlementFrames st p).port .ps).tx =
    (p.port .ps).tx.enqueue (storageGrantOf st.record) := by
  rw [settlementFrames_eq, driveReport_port_other (by decide), grantsQueued, queueSome_port_other (by decide),
    port_queueOn_other _ _ (by decide), port_queueOn_self, tx_of_gains (flagsTold_gains st p)]

theorem generator_tx_settlementFrames : ((settlementFrames st p).port .pg).tx =
    (p.port .pg).tx.enqueue (genCommandOf st.record p) := by
  have hgen : (flagsTold st p).gen = p.gen := (flagsTold_frame st p).same .gen (by decide)
  have hcommand : genCommandOf st.record (flagsTold st p) = genCommandOf st.record p := by
    unfold genCommandOf
    rw [hgen]
  rw [settlementFrames_eq, driveReport_port_other (by decide), grantsQueued, queueSome_port_other (by decide),
    port_queueOn_self, port_queueOn_other _ _ (by decide), tx_of_gains (flagsTold_gains st p), hcommand]

theorem brake_tx_settlementFrames : ((settlementFrames st p).port .pb).tx =
    (frictionDemandOf st).elim (p.port .pb).tx (p.port .pb).tx.enqueue := by
  rw [settlementFrames_eq, driveReport_port_other (by decide), grantsQueued]
  unfold queueSome
  have hbefore : ((queueOn .pg (genCommandOf st.record (flagsTold st p))
      (queueOn .ps (storageGrantOf st.record) (flagsTold st p))).port .pb).tx = (p.port .pb).tx := by
    rw [port_queueOn_other _ _ (by decide), port_queueOn_other _ _ (by decide), tx_of_gains (flagsTold_gains st p)]
  cases frictionDemandOf st with
  | none => exact hbefore
  | some f => rw [port_queueOn_self, hbefore]; rfl

theorem service_tx_settlementFrames : ((settlementFrames st p).port .sv).tx = (p.port .sv).tx := by
  rw [settlementFrames_eq, driveReport_port_other (by decide), grantsQueued, queueSome_port_other (by decide),
    port_queueOn_other _ _ (by decide), port_queueOn_other _ _ (by decide), tx_of_gains (flagsTold_gains st p)]

/-- The frames of the other ports leave the drive port and the report count alone. -/
theorem drive_tx_grantsQueued : ((grantsQueued st (flagsTold st p)).port .pd).tx = (p.port .pd).tx ∧
    (grantsQueued st (flagsTold st p)).ports.reportCount = p.ports.reportCount := by
  refine ⟨?_, ?_⟩
  · rw [grantsQueued, queueSome_port_other (by decide), port_queueOn_other _ _ (by decide),
      port_queueOn_other _ _ (by decide), tx_of_gains (flagsTold_gains st p)]
  · have hcount : (grantsQueued st (flagsTold st p)).ports.reportCount = (flagsTold st p).ports.reportCount := by
      unfold grantsQueued queueSome
      split <;> rfl
    rw [hcount, (flagsTold_gains st p).1]

theorem drive_tx_settlementFrames_of_lt (h : p.ports.reportCount < 4) :
    (settlementFrames st p).ports.reportCount = p.ports.reportCount + 1 ∧
      ((settlementFrames st p).port .pd).tx = (p.port .pd).tx := by
  obtain ⟨htx, hcount⟩ := drive_tx_grantsQueued (st := st) (p := p)
  rw [settlementFrames_eq, driveReport, if_pos (by rw [hcount]; exact h)]
  exact ⟨by rw [← hcount]; rfl, htx⟩

/-- The DRIVE_REPORT is formed of the blocks as they stand, which the frames before it leave alone (R185). -/
theorem drive_tx_settlementFrames_of_ge (h : 4 ≤ p.ports.reportCount) :
    (settlementFrames st p).ports.reportCount = 0 ∧
      ((settlementFrames st p).port .pd).tx = (p.port .pd).tx.enqueue (driveReportOf st p) := by
  obtain ⟨htx, hcount⟩ := drive_tx_grantsQueued (st := st) (p := p)
  have hframe := (flagsTold_frame st p).seq (grantsQueued_frame st _)
  have hhold : (grantsQueued st (flagsTold st p)).hold = p.hold := hframe.same .hold (by decide)
  have hgen : (grantsQueued st (flagsTold st p)).gen = p.gen := hframe.same .gen (by decide)
  have hwarnings : (grantsQueued st (flagsTold st p)).warnings = p.warnings := hframe.same .warnings (by decide)
  have hreport : driveReportOf st (grantsQueued st (flagsTold st p)) = driveReportOf st p := by
    unfold driveReportOf warningCount auxShed
    rw [hhold, hgen, hwarnings]
  rw [settlementFrames_eq, driveReport, if_neg (by rw [hcount]; exact Nat.not_lt.mpr h), hreport]
  refine ⟨rfl, ?_⟩
  rw [port_queueOn_self, ← htx]
  rfl

/-! ### The quantities integrated -/

/-- The quantities of a settled record, each with its item and unit (R160 to R162). -/
def integratedQuantities (r : AccountRecord) (w : Working) (shares : PerAxle Nat) : List (WearNo × Nat × Nat) :=
  [(0, liningWork r w shares.axle1, liningUnit), (1, liningWork r w shares.axle2, liningUnit),
    (2, liningWork r w shares.axle3, liningUnit), (7, r.d + r.c, energyUnit), (11, r.rg, energyUnit)] ++
    if w.link = .run then [(9, 10, 1000)] else []

/-- The items whose level a settled record is judged by (R163). -/
def judgedItems : List WearNo := [0, 1, 2, 7, 9]

theorem integrateRecord_eq (r : AccountRecord) (w : Working) (p : Part) : integrateRecord r w p =
    judgeAll judgedItems (integrateAll (integratedQuantities r w p.cfg.axleShares) p) := by
  have hcfg (i : WearNo) (quantity unit : Nat) (p : Part) : (integrate i quantity unit p).cfg = p.cfg :=
    (integrate_frame ..).same .cfg (by decide)
  unfold integrateRecord
  by_cases hlink : w.link = .run
  · simp only [hcfg, integratedQuantities, if_pos hlink, integrateAll, judgeAll, judgedItems, List.cons_append,
      List.nil_append, List.foldl_cons, List.foldl_nil]
  · simp only [hcfg, integratedQuantities, if_neg hlink, integrateAll, judgeAll, judgedItems, List.append_nil,
      List.foldl_cons, List.foldl_nil]

theorem integratedQuantities_items (r : AccountRecord) (w : Working) (shares : PerAxle Nat) :
    (integratedQuantities r w shares).map (·.1) = [0, 1, 2, 7, 11] ++ if w.link = .run then [9] else [] := by
  unfold integratedQuantities
  split <;> rfl

theorem levelsKept_integrateAll (l : List (WearNo × Nat × Nat)) (i : WearNo) (p : Part) :
    (integrateAll l p).wear[i].level = p.wear[i].level ∧ (integrateAll l p).wear[i].changed = p.wear[i].changed := by
  induction l generalizing p with
  | nil => exact ⟨rfl, rfl⟩
  | cons x l ih =>
    obtain ⟨hlevel, hchanged⟩ := ih (integrate x.1 x.2.1 x.2.2 p)
    refine ⟨hlevel.trans ?_, hchanged.trans ?_⟩ <;> by_cases h : i = x.1
    · rw [h, (integratedOnce_integrate ..).level]
    · rw [(itemKept_integrate h ..).item]
    · rw [h, (integratedOnce_integrate ..).changed]
    · rw [(itemKept_integrate h ..).item]

theorem judgedOnce.residual (h : judgedOnce i p q) : q.wear[i].residual = p.wear[i].residual := by
  rw [h.item]
  rfl

/-- A quantity of the record on its item, whatever becomes of the item's level (R163). -/
theorem integratedRecord {quantity unit : Nat}
    (h : (i, quantity, unit) ∈ integratedQuantities rec w p.cfg.axleShares) :
    (integrateRecord rec w p).wear[i].residual = (p.wear[i].residual + quantity) % unit ∧
      unitsAdded i ((p.wear[i].residual + quantity) / unit) p (integrateRecord rec w p) := by
  have hnodup : ((integratedQuantities rec w p.cfg.axleShares).map (·.1)).Nodup := by
    rw [integratedQuantities_items]
    split <;> decide
  have honce := integratedOnce_integrateAll hnodup h p
  rw [integrateRecord_eq]
  by_cases hjudged : i ∈ judgedItems
  · have hjudge := judgedOnce_judgeAll (l := judgedItems) (by decide) hjudged
      (integrateAll (integratedQuantities rec w p.cfg.axleShares) p)
    exact ⟨hjudge.residual.trans honce.residual, honce.units.judged hjudge⟩
  · have hkept := honce.after (itemKept_judgeAll hjudged _)
    exact ⟨hkept.residual, hkept.units⟩

theorem itemKept_integrateRecord (h : i ∈ [(3 : WearNo), 4, 5, 6, 8, 10]) (rec : AccountRecord) (w : Working)
    (p : Part) : itemKept i p (integrateRecord rec w p) := by
  have hitems : i ∉ (integratedQuantities rec w p.cfg.axleShares).map (·.1) := by
    rw [integratedQuantities_items]
    clear p
    split <;> revert i <;> decide
  have hjudged : i ∉ judgedItems := by
    clear hitems p
    revert i
    decide
  rw [integrateRecord_eq]
  exact (itemKept_integrateAll hitems p).trans (itemKept_judgeAll hjudged _)

/-- The levels formed again by R166 and handed on (R168, R173). -/
theorem levelsJudged_integrateRecord (h : i ∈ judgedItems) (rec : AccountRecord) (w : Working) (p : Part) :
    levelFormed i (integrateRecord rec w p).wear[i] ∧ levelHandedOn i p (integrateRecord rec w p) := by
  have hjudge := judgedOnce_judgeAll (by decide) h (integrateAll (integratedQuantities rec w p.cfg.axleShares) p)
  obtain ⟨hlevel, hchanged⟩ := levelsKept_integrateAll (integratedQuantities rec w p.cfg.axleShares) i p
  rw [integrateRecord_eq]
  exact ⟨hjudge.formed, hjudge.handedOn.before hlevel hchanged ((integrateAll_frame ..).same .time (by decide))⟩

theorem level_item11_integrateRecord (rec : AccountRecord) (w : Working) (p : Part) :
    (integrateRecord rec w p).wear[11].level = p.wear[11].level := by
  rw [integrateRecord_eq]
  have hkept := (itemKept_judgeAll (l := judgedItems) (j := 11) (by decide)
    (integrateAll (integratedQuantities rec w p.cfg.axleShares) p)).item
  exact (congrArg WearItem.level hkept).trans
    (levelsKept_integrateAll (integratedQuantities rec w p.cfg.axleShares) 11 p).1

/-- The engine hours of a settlement that did not take the link in RUN (R162). -/
theorem item9_integrateRecord (h : w.link ≠ .run) (rec : AccountRecord) (p : Part) :
    (integrateRecord rec w p).wear[9] = judgedItem 9 p.time.now p.wear[9] := by
  have hitems : (9 : WearNo) ∉ (integratedQuantities rec w p.cfg.axleShares).map (·.1) := by
    rw [integratedQuantities_items, if_neg h]
    decide
  have hjudge := judgedOnce_judgeAll (l := judgedItems) (i := 9) (by decide) (by decide)
    (integrateAll (integratedQuantities rec w p.cfg.axleShares) p)
  rw [integrateRecord_eq]
  exact (hjudge.before (itemKept_integrateAll hitems p)).item

theorem integrateRecord_gains (rec : AccountRecord) (w : Working) (p : Part) :
    portsOnlyGainEvents p (integrateRecord rec w p) :=
  (portsOnlyGainEvents_resultClosed p).toWearClosed.integrateRecord (.refl p)

theorem derateChangeSet_integrateRecord (rec : AccountRecord) (w : Working) (p : Part) :
    derateChangeSet p (integrateRecord rec w p) := by
  rw [integrateRecord_eq]
  exact (derateChangeSet.of_frame (integrateAll_frame ..)).trans (derateChangeSet_judgeAll judgedItems _)
    (.of_gains (judgeAll_gains ..))

/-! ### Integration at a close -/

theorem eventsKept_of_counted (s : Settling) (p : Part) : eventsKept (countedPart s p) (settle s p) := by
  have hgains : portsOnlyGainEvents (countedPart s p) (settledPart s p) :=
    (portsOnlyGainEvents.of_frame (sequencerSettled_frame ..)).trans
      ((portsOnlyGainEvents_controlClosed _).socFloorJudged (.refl _))
  exact (eventsKept.of_gains hgains).trans (eventsKept_settlementFrames s _)

theorem closedPart_gains (s : Settling) (p : Part) : portsOnlyGainEvents p (closedPart s p) :=
  ((portsOnlyGainEvents.of_frame (setAccount_frame p _)).trans (setEventIf_gains ..)).trans
    (.of_frame (((torqueStage_frame s _).trans (n := [.links, .blend]) (keepRegPrev_frame s.record _)).trans
      (n := [.links, .blend, .image]) (decayStorage_frame _)))

theorem itemKept_closedPart (i : WearNo) (s : Settling) (p : Part) : itemKept i p (closedPart s p) :=
  .of_frame (closedPart_frame s p) (.of_gains (closedPart_gains s p))

theorem itemKept_of_counted (i : WearNo) (s : Settling) (p : Part) : itemKept i (countedPart s p) (settle s p) :=
  .of_frame (settle_frame_of_counted s p) (eventsKept_of_counted s p)

/-- What a close adds to an item is what the record's integration adds to it. -/
theorem integrated_settle {quantity unit : Nat}
    (h : (i, quantity, unit) ∈ integratedQuantities st.record st.working p.cfg.axleShares) :
    (settle st p).wear[i].residual = (p.wear[i].residual + quantity) % unit ∧
      unitsAdded i ((p.wear[i].residual + quantity) / unit) p (settle st p) := by
  have hbefore := itemKept_closedPart i st p
  have hafter := itemKept_of_counted i st p
  have hcfg : (closedPart st p).cfg = p.cfg := (closedPart_frame st p).same .cfg (by decide)
  obtain ⟨hresidual, hunits⟩ := integratedRecord (p := closedPart st p) (hcfg ▸ h)
  rw [hbefore.item] at hresidual hunits
  exact ⟨(congrArg WearItem.residual hafter.item).trans hresidual, (hunits.before hbefore).after hafter⟩

theorem levelsJudged_settle (h : i ∈ judgedItems) (s : Settling) (p : Part) :
    levelFormed i (settle s p).wear[i] ∧ levelHandedOn i p (settle s p) := by
  have hbefore := itemKept_closedPart i s p
  have hafter := itemKept_of_counted i s p
  obtain ⟨hformed, hhanded⟩ : levelFormed i (countedPart s p).wear[i] ∧
      levelHandedOn i (closedPart s p) (countedPart s p) := levelsJudged_integrateRecord h s.record s.working _
  exact ⟨by rw [hafter.item]; exact hformed,
    (hhanded.before (by rw [hbefore.item]) (by rw [hbefore.item]) hbefore.time).after hafter⟩

theorem derateChangeSet_settle (s : Settling) (p : Part) : derateChangeSet p (settle s p) := by
  have hcounted : derateChangeSet p (countedPart s p) :=
    (derateChangeSet.of_frame (closedPart_frame s p)).trans (derateChangeSet_integrateRecord s.record s.working _)
      (.of_gains (integrateRecord_gains ..))
  exact hcounted.trans (.of_frame (settle_frame_of_counted s p)) (eventsKept_of_counted s p)

/-- An integration in numbers: nothing is lost below the maximum, and the maximum holds the rest (R163, R167). -/
theorem integrate_exact (i : WearNo) (quantity unit : Nat) (p : Part) :
    (p.wear[i].acc + (p.wear[i].residual + quantity) / unit ≤ 4294967295 →
      (integrate i quantity unit p).wear[i].acc * unit + (integrate i quantity unit p).wear[i].residual =
        p.wear[i].acc * unit + p.wear[i].residual + quantity ∧
      (integrate i quantity unit p).wear[i].saturated = p.wear[i].saturated) ∧
    (4294967295 < p.wear[i].acc + (p.wear[i].residual + quantity) / unit →
      (integrate i quantity unit p).wear[i].acc = 4294967295 ∧ (integrate i quantity unit p).wear[i].saturated = true) := by
  obtain ⟨hresidual, ⟨hacc, -, hsat, -⟩, -, -⟩ := integratedOnce_integrate i quantity unit p
  rw [hacc, hresidual]
  refine ⟨fun hle => ⟨?_, ?_⟩, fun hlt => ⟨Nat.min_eq_right hlt.le, hsat.mpr (.inr hlt)⟩⟩
  · rw [Nat.min_eq_left hle, Nat.add_mul, Nat.add_assoc, Nat.mul_comm (_ / unit), Nat.div_add_mod, Nat.add_assoc]
  · exact Bool.eq_iff_iff.mpr (hsat.trans (or_iff_left (Nat.not_lt.mpr hle)))

theorem friction_eq (r : AccountRecord) (w : Working) (share : Nat) :
    (r.aDem - r.regApplied) * w.m * w.v * share = liningWork r w share := by
  unfold liningWork
  rw [Nat.mul_comm w.m]

/-- Settles O58: the integration itself, and the record's quantities item by item. -/
theorem integrationIsExact : Obligations.IntegrationIsExact := by
  refine ⟨fun i quantity unit p _ => ?single, fun st s hrun hst => ?close⟩
  case single =>
    obtain ⟨hresidual, hunits, hlevel, -⟩ := integratedOnce_integrate i quantity unit p
    obtain ⟨hlow, hhigh⟩ := integrate_exact i quantity unit p
    exact ⟨hresidual, hlevel, hunits, hlow, hhigh, fun other h => (itemKept_integrate h quantity unit p).item⟩
  case close =>
    intro r w friction
    refine ⟨_, exec_accountSettled hrun hst, fun i quantity unit hmem h9 => integrated_settle ?_, fun hlink => ?hours,
      fun i hi => levelsJudged_settle hi st s.part, ?level11, derateChangeSet_settle st s.part, fun i hi => ?others⟩
    · simp only [friction_eq, friction, r, w] at hmem
      unfold integratedQuantities
      simp only [List.mem_cons, List.mem_append, List.not_mem_nil, or_false] at hmem ⊢
      obtain h | h | h | h | h | h := hmem
      · exact .inl (.inl h)
      · exact .inl (.inr (.inl h))
      · exact .inl (.inr (.inr (.inl h)))
      · exact .inl (.inr (.inr (.inr (.inl h))))
      · exact .inl (.inr (.inr (.inr (.inr h))))
      · right
        rw [if_pos (h9 (congrArg Prod.fst h))]
        exact List.mem_singleton.mpr h
    case hours =>
      have hitem := item9_integrateRecord hlink st.record (closedPart st s.part)
      have hself : (settle st s.part).wear[9] = judgedItem 9 _ s.part.wear[9] :=
        ((itemKept_of_counted 9 st s.part).item.trans hitem).trans
          (congrArg (judgedItem 9 _) (itemKept_closedPart 9 st s.part).item)
      rw [hself]
      exact ⟨rfl, rfl, rfl⟩
    case level11 =>
      exact ((congrArg WearItem.level (itemKept_of_counted 11 st s.part).item).trans
        (level_item11_integrateRecord st.record st.working (closedPart st s.part))).trans
          (congrArg WearItem.level (itemKept_closedPart 11 st s.part).item)
    case others =>
      exact (((itemKept_closedPart i st s.part).trans (itemKept_integrateRecord hi st.record st.working _)).trans
        (itemKept_of_counted i st s.part)).item

/-! ### What a close keeps and sends -/

theorem closeAccount_account (s : Settling) (p : Part) :
    (closeAccount s p).account = closedAccount (p.cfg.num .mismatchTol) s p.account :=
  (setEventIf_frame ..).same .account (by decide)

theorem settle_account (s : Settling) (p : Part) :
    (settle s p).account = closedAccount (p.cfg.num .mismatchTol) s p.account := by
  have hsame : (settle s p).account = (closeAccount s p).account := (settle_frame_of_closed s p).same .account (by decide)
  rw [hsame, closeAccount_account]

/-- What follows the torque stage leaves the motor links alone. -/
theorem settle_links (s : Settling) (p : Part) : (settle s p).links = (torqueStage s (closeAccount s p)).links := by
  have hcounted : (settle s p).links = (countedPart s p).links := (settle_frame_of_counted s p).same .links (by decide)
  have hclosed : (countedPart s p).links = (closedPart s p).links := (integrateRecord_frame ..).same .links (by decide)
  have htorque : (closedPart s p).links = (torqueStage s (closeAccount s p)).links :=
    ((keepRegPrev_frame s.record _).trans (n := [.blend, .image]) (decayStorage_frame _)).same .links (by decide)
  rw [hcounted, hclosed, htorque]

theorem settle_blend (s : Settling) (p : Part) : (settle s p).blend = { p.blend with regPrev := s.record.regApplied } := by
  have hcounted : (settle s p).blend = (countedPart s p).blend := (settle_frame_of_counted s p).same .blend (by decide)
  have hclosed : (countedPart s p).blend = (closedPart s p).blend := (integrateRecord_frame ..).same .blend (by decide)
  have hkept : (closedPart s p).blend = { (torqueStage s (closeAccount s p)).blend with
      regPrev := s.record.regApplied } := (decayStorage_frame _).same .blend (by decide)
  have hbefore : (torqueStage s (closeAccount s p)).blend = p.blend :=
    ((closeAccount_frame s p).trans (n := [.account, .links, .ports]) (torqueStage_frame s _)).same .blend (by decide)
  rw [hcounted, hclosed, hkept, hbefore]

/-- The order for a motor once it is checked, numbered and kept (R66, R67). -/
theorem torqueStage_link (s : Settling) (p : Part) (motor : Motor) :
    (torqueStage s p).links.get motor =
      let l := p.links.get motor
      let o := checkedOrder l s.working ((plannedOrders p.partState (p.cfg.num .shareA) s).get motor)
      { l with
        lastCommand := ⟨s.record.seq, o.mode, o.torque⟩
        tx := l.tx.enqueue (.torqueSet s.record.seq o.mode o.torque o.direction) } := by
  cases motor <;> rfl

/-- The request a link state sends (the table of section 5.5). -/
theorem linkRequest_eq (link : LinkState) : linkRequest link =
    if link = .awaiting ∨ link = .run ∨ link = .unloading then .run
    else if link = .startSent ∨ link = .cranking ∨ link = .settling then .start
    else .stop := by
  cases link <;> rfl

theorem generator_tx_settle (s : Settling) (p : Part) : ((settle s p).port .pg).tx = (p.port .pg).tx.enqueue
    (.genCommand s.record.seq (linkRequest (settle s p).gen.link) s.record.g s.record.flags.dump) := by
  have hgen : (settlementFrames s (settledPart s p)).gen = (settledPart s p).gen :=
    (settlementFrames_frame s _).same .gen (by decide)
  rw [settle_eq, generator_tx_settlementFrames, tx_of_gains (settledPart_gains s p), hgen]
  rfl

theorem frictionDemandOf_of_episode (h : st.record.flags.episode = true) : frictionDemandOf st =
    some (.frictionDemand st.record.seq st.record.aDem (st.record.aDem - st.record.regApplied) st.record.regApplied
      (liningFlags st.working)) := if_pos h

theorem frictionDemandOf_of_none (h : st.record.flags.episode = false) : frictionDemandOf st =
    if st.endedEpisode then some (.frictionDemand st.record.seq 0 0 0 (liningFlags st.working)) else none :=
  if_neg (by simp [h])

/-- Settles O36: the account, the motor links and the frames, each from its stage of the close. -/
theorem accountSettledCloses : Obligations.AccountSettledCloses := by
  intro st s hrun hst request lining worn
  have hgains := settledPart_gains st s.part
  have htx := tx_of_gains hgains
  have hcounts : (settledPart st s.part).ports.reportCount = s.part.ports.reportCount := hgains.1
  have hframes := settlementFrames_frame st (settledPart st s.part)
  have hgen : (settle st s.part).gen = (settledPart st s.part).gen := hframes.same .gen (by decide)
  have hhold : (settle st s.part).hold = (settledPart st s.part).hold := hframes.same .hold (by decide)
  have hwarnings : (settle st s.part).warnings = (settledPart st s.part).warnings := hframes.same .warnings (by decide)
  have hclosed := closeAccount_frame st s.part
  have hlinks : (closeAccount st s.part).links = s.part.links := hclosed.same .links (by decide)
  have hcfg : (closeAccount st s.part).cfg = s.part.cfg := hclosed.same .cfg (by decide)
  have hstate : (closeAccount st s.part).partState = s.part.partState := hclosed.same .partState (by decide)
  have hbrake := brake_tx_settlementFrames (st := st) (p := settledPart st s.part)
  rw [htx] at hbrake
  refine ⟨_, exec_accountSettled hrun hst, ?_, ?_, ?_, ?_, ?_, ?_, ?_, settle_blend st s.part, ?storage, ?generator,
    fun hepisode => ?episode, fun hepisode hended => ?ended, fun hepisode hended => ?outside, fun hcount => ?waits,
    fun hcount => ?reports, ?service, fun hdraw => ⟨?_, ?_⟩, fun hcharge => ⟨?_, ?_⟩, fun motor => ?link,
    (settle_frame st s.part).mono⟩
  case storage => rw [← htx]; exact storage_tx_settlementFrames
  case generator =>
    exact (generator_tx_settle st s.part).trans (congrArg (fun r => (s.part.port .pg).tx.enqueue
      (.genCommand st.record.seq r st.record.g st.record.flags.dump)) (linkRequest_eq (settle st s.part).gen.link))
  case episode =>
    rw [frictionDemandOf_of_episode hepisode] at hbrake
    exact hbrake
  case ended =>
    rw [frictionDemandOf_of_none hepisode, if_pos hended] at hbrake
    exact hbrake
  case outside =>
    rw [frictionDemandOf_of_none hepisode, if_neg (by simp [hended])] at hbrake
    exact hbrake
  case waits =>
    obtain ⟨hnext, hsame⟩ := drive_tx_settlementFrames_of_lt (st := st) (p := settledPart st s.part)
      (by rw [hcounts]; exact hcount)
    exact ⟨hnext.trans (congrArg (· + 1) hcounts), hsame.trans (htx .pd)⟩
  case reports =>
    obtain ⟨hnext, hsent⟩ := drive_tx_settlementFrames_of_ge (st := st) (p := settledPart st s.part)
      (by rw [hcounts, hcount])
    refine ⟨hnext, hsent.trans ?_⟩
    rw [htx, hgen, hhold, hwarnings]
    rfl
  case service => exact service_tx_settlementFrames.trans (htx .sv)
  case link =>
    rw [settle_links, torqueStage_link, hlinks, hcfg, hstate]
  case refine_8 | refine_9 => exact hasEvent_overdraw_settlementFrames hdraw rfl
  case refine_10 | refine_11 => exact hasEvent_overcharge_settlementFrames hcharge rfl
  all_goals exact settle_account st s.part ▸ rfl

end Sys2Proof.Machine
end

