-- ==== Sys2Proof/Proofs/SettledBlocks.lean ====
section
/-! SUPPORT. What the blocks make of a settled record: the mismatch check (R23), the storage decay (R38), the
sequencer's decisions (R113, R116, R117) and the SoC floor (R105). -/

set_option Elab.async false

namespace Sys2Proof.Machine

variable {p q : Part} {i : WearNo} {e : Event} {st : Settling} {w : Working} {rec : AccountRecord}

/-! ### The events of the wear unit -/

/-- The events that the wear unit sets (R133, R167, R173). -/
def wearEvents : List Event := [.wearSaturated, .warningNew, .liningLimit, .derateChange]

theorem judgeItem_gainsNo (h : e ∉ wearEvents) : gainsNo e p (judgeItem i p) := by
  simp only [wearEvents, List.mem_cons, List.not_mem_nil, or_false, not_or] at h
  obtain ⟨-, hwarning, hlining, hderate⟩ := h
  have hstored := gainsNo.of_frame (e := e) (setWearItem_frame i (judgedItem i p.now p.wear[i]) p)
  by_cases hsame : formedLevel i p.wear[i] = p.wear[i].level
  · rw [judgeItem_of_same hsame]
    exact hstored
  · rw [judgeItem_of_change hsame, handOnLevel_eq]
    have htold := hstored.trans (portsToldOfLevel_gainsNo (i := i) (old := p.wear[i].level)
      (new := formedLevel i p.wear[i]) hlining hwarning)
    exact .ite (htold.trans ((gainsNo.of_frame (setDerate_frame ..)).trans (setEventIf_gainsNo (Ne.symm hderate)))) htold

theorem integrate_gainsNo (h : e ≠ .wearSaturated) {quantity unit : Nat} : gainsNo e p (integrate i quantity unit p) :=
  (gainsNo.of_frame (setWearItem_frame ..)).trans
    ((gainsNo.of_frame (setWearItem_frame ..)).trans (setEventIf_gainsNo h.symm))

theorem integrateRecord_gainsNo (h : e ∉ wearEvents) : gainsNo e p (integrateRecord rec w p) := by
  have hsaturated : e ≠ .wearSaturated := fun heq => h (heq ▸ List.mem_cons_self)
  have hall (l : List (WearNo × Nat × Nat)) (p : Part) : gainsNo e p (integrateAll l p) := by
    induction l generalizing p with
    | nil => exact .refl e p
    | cons x l ih => exact (integrate_gainsNo hsaturated).trans (ih _)
  have hjudged (l : List WearNo) (p : Part) : gainsNo e p (judgeAll l p) := by
    induction l generalizing p with
    | nil => exact .refl e p
    | cons i l ih => exact (judgeItem_gainsNo h).trans (ih _)
  rw [integrateRecord_eq]
  exact (hall _ p).trans (hjudged _ _)

/-! ### The sequencer's decisions -/

theorem quietHold_of_same (h : q.hold = p.hold) : quietHold q = quietHold p := by
  unfold quietHold
  rw [h]

theorem quietHold_iff : quietHold p = false ↔ p.hold.state = .drive ∨ p.hold.state = .holdRun := by
  unfold quietHold
  cases p.hold.state <;> decide

theorem startDecided_iff : startDecided rec w p = true ↔ p.image.drive.data.quietZone = false ∧ quietHold p = false ∧
    (w.soc < p.cfg.num .socStart ∨ w.pDisEff < w.pReq + rec.x) := by
  rw [quietHold_iff]
  simp [startDecided, effQuietZone, and_assoc]

theorem sequencerSettled_gen_of_off (h : p.gen.link = .off) : (sequencerSettled rec w p).gen =
    if p.image.drive.data.quietZone = false ∧ quietHold p = false ∧
      (w.soc < p.cfg.num .socStart ∨ w.pDisEff < w.pReq + rec.x)
    then { p.gen with
      link := .startSent
      timer := some ⟨.startTimeout, p.time.now, p.cfg.num .startTimeout⟩ }
    else p.gen := by
  rw [← if_congr startDecided_iff rfl rfl]
  unfold sequencerSettled
  rw [h]
  exact apply_ite Part.gen ..

theorem sequencerSettled_gen_of_run (h : p.gen.link = .run) : (sequencerSettled rec w p).gen =
    if p.cfg.num .socStop ≤ w.soc ∧ rec.t + rec.x < w.pDisEff / 2
    then { p.gen with link := .unloading, timer := none } else p.gen := by
  have hiff : stopDecided rec w p = true ↔ p.cfg.num .socStop ≤ w.soc ∧ rec.t + rec.x < w.pDisEff / 2 := by
    simp [stopDecided]
  rw [← if_congr hiff rfl rfl]
  unfold sequencerSettled
  rw [h]
  exact apply_ite Part.gen ..

theorem sequencerSettled_gen_of_unloading (h : p.gen.link = .unloading) : (sequencerSettled rec w p).gen =
    if rec.g = 0 then { p.gen with
      link := .stopSent
      timer := some ⟨.stopTimeout, p.time.now, p.cfg.num .stopTimeout⟩ }
    else p.gen := by
  unfold sequencerSettled
  rw [h]
  exact apply_ite Part.gen ..

theorem sequencerSettled_of_other (hoff : p.gen.link ≠ .off) (hrun : p.gen.link ≠ .run)
    (hunloading : p.gen.link ≠ .unloading) : sequencerSettled rec w p = p := by
  unfold sequencerSettled
  split
  · exact absurd ‹_› hoff
  · exact absurd ‹_› hrun
  · exact absurd ‹_› hunloading
  all_goals rfl

/-! ### The SoC floor -/

section
variable {soc : Nat}

theorem socFloorJudged_of_clear (h : quietHold p = false) : socFloorJudged soc p = p := if_pos (by simp [h])

theorem socFloorJudged_of_leaves (hquiet : quietHold p = true) (hlow : soc < p.cfg.num .socFloor)
    (hzone : p.image.drive.data.quietZone = false) : socFloorJudged soc p = holdRunWithStart p := by
  unfold socFloorJudged effQuietZone
  rw [if_neg (by simp [hquiet]), if_pos hlow, if_neg (by simp [hzone])]

theorem socFloorJudged_of_zone (hquiet : quietHold p = true) (hlow : soc < p.cfg.num .socFloor)
    (hzone : p.image.drive.data.quietZone = true) : socFloorJudged soc p =
      if p.hold.latch then p else setEvent .socLowQuiet (p.setHold { p.hold with latch := true }) := by
  unfold socFloorJudged effQuietZone
  rw [if_neg (by simp [hquiet]), if_pos hlow, if_pos hzone]

theorem socFloorJudged_of_above (hquiet : quietHold p = true) (hhigh : p.cfg.num .socFloor ≤ soc) :
    socFloorJudged soc p = p.setHold { p.hold with latch := false } := by
  unfold socFloorJudged
  rw [if_neg (by simp [hquiet]), if_neg (Nat.not_lt.mpr hhigh)]

theorem socFloorJudged_gainsNo (hlow : .socLowQuiet ≠ e) (hhold : .holdChange ≠ e) (hauth : .authorityChange ≠ e) :
    gainsNo e p (socFloorJudged soc p) := by
  unfold socFloorJudged
  repeat' split
  · exact .refl e p
  · exact .refl e p
  · exact (gainsNo.of_frame (setHold_frame p _)).trans (setEvent_gainsNo hlow)
  · exact holdRunWithStart_gainsNo hhold hauth
  · exact .of_frame (setHold_frame p _)

/-- While no quiet hold is left for want of charge the sequencer is left alone. -/
theorem socFloorJudged_gen (h : ¬ ((quietHold p = true ∧ soc < p.cfg.num .socFloor) ∧
    p.image.drive.data.quietZone = false)) : (socFloorJudged soc p).gen = p.gen := by
  cases hquiet : quietHold p with
  | false => rw [socFloorJudged_of_clear hquiet]
  | true =>
    by_cases hlow : soc < p.cfg.num .socFloor
    · have hzone : p.image.drive.data.quietZone = true :=
        (Bool.not_eq_false _).mp fun hzone => h ⟨⟨hquiet, hlow⟩, hzone⟩
      rw [socFloorJudged_of_zone hquiet hlow hzone]
      split <;> rfl
    · rw [socFloorJudged_of_above hquiet (Nat.not_lt.mp hlow)]
      rfl

end

/-! ### The mismatch check -/

theorem settle_gainsNo_mismatch : gainsNo .accountMismatch (closeAccount st p) (settle st p) := by
  have hclosed : gainsNo .accountMismatch (closeAccount st p) (closedPart st p) :=
    .of_frame (((torqueStage_frame st _).trans (n := [.links, .blend]) (keepRegPrev_frame st.record _)).trans
      (n := [.links, .blend, .image]) (decayStorage_frame _))
  have hdecided : gainsNo .accountMismatch (closedPart st p) (decidedPart st p) :=
    (integrateRecord_gainsNo (by decide)).trans (.of_frame (sequencerSettled_frame ..))
  have hsettled : gainsNo .accountMismatch (decidedPart st p) (settledPart st p) :=
    socFloorJudged_gainsNo (by decide) (by decide) (by decide)
  exact ((hclosed.trans hdecided).trans hsettled).trans (settlementFrames_gainsNo (by decide) (by decide))

theorem settle_mismatch (s : Settling) (p : Part) : (settle s p).account.mismatch =
    mismatchAfter (p.cfg.num .mismatchTol) p.account.mismatch s (p.account.current.map (·.1)) := by
  rw [settle_account]
  rfl

theorem mismatch_not_set (h : mismatchReported (p.cfg.num .mismatchTol) p.account.mismatch st
    (p.account.current.map (·.1)) = false) : gainsNo .accountMismatch p (settle st p) :=
  ((gainsNo.of_frame (setAccount_frame p _)).trans (setEventIf_gainsNo_of_false h)).trans settle_gainsNo_mismatch

theorem hasEvent_mismatch {port : Port} (h : mismatchReported (p.cfg.num .mismatchTol) p.account.mismatch st
    (p.account.current.map (·.1)) = true) (hon : Event.accountMismatch.on port = true) :
    hasEvent .accountMismatch port (settle st p) := by
  have hset : hasEvent .accountMismatch port (closeAccount st p) := hasEvent_setEventIf h hon
  have hgains : portsOnlyGainEvents (closeAccount st p) (closedPart st p) :=
    .of_frame (((torqueStage_frame st _).trans (n := [.links, .blend]) (keepRegPrev_frame st.record _)).trans
      (n := [.links, .blend, .image]) (decayStorage_frame _))
  exact eventsKept_of_counted st p _ _ ((hset.of_gains hgains).of_gains (integrateRecord_gains ..))

/-! ### The blocks before the sequencer -/

theorem closedPart_image (s : Settling) (p : Part) : (closedPart s p).image =
    if p.image.storage.freshness = .lost then { p.image with
      disCopy := p.image.disCopy - p.cfg.num .storageDecay
      chgCopy := p.image.chgCopy - p.cfg.num .storageDecay } else p.image := by
  have hbefore := ((closeAccount_frame s p).trans (n := [.account, .links, .ports]) (torqueStage_frame s _)).trans
    (n := [.account, .links, .blend, .ports]) (keepRegPrev_frame s.record _)
  have himage : (keepRegPrev s.record (torqueStage s (closeAccount s p))).image = p.image :=
    hbefore.same .image (by decide)
  have hcfg : (keepRegPrev s.record (torqueStage s (closeAccount s p))).cfg = p.cfg := hbefore.same .cfg (by decide)
  unfold closedPart decayStorage
  rw [himage, hcfg]
  split
  · rfl
  · exact himage

theorem settle_image (s : Settling) (p : Part) : (settle s p).image = (closedPart s p).image := by
  have hcounted : (settle s p).image = (countedPart s p).image := (settle_frame_of_counted s p).same .image (by decide)
  exact hcounted.trans ((integrateRecord_frame ..).same .image (by decide))

/-- The decay leaves what the drive partner reported. -/
theorem countedPart_zone (s : Settling) (p : Part) :
    (countedPart s p).image.drive.data.quietZone = p.image.drive.data.quietZone := by
  have himage : (countedPart s p).image = (closedPart s p).image := (integrateRecord_frame ..).same .image (by decide)
  rw [himage, closedPart_image]
  split <;> rfl

theorem settle_gen (s : Settling) (p : Part) : (settle s p).gen = (settledPart s p).gen :=
  (settlementFrames_frame s _).same .gen (by decide)

theorem settle_hold (s : Settling) (p : Part) : (settle s p).hold = (settledPart s p).hold :=
  (settlementFrames_frame s _).same .hold (by decide)

/-- What the sequencer and the hold controller look at is as it stood before the close. -/
theorem countedPart_same (s : Settling) (p : Part) : (countedPart s p).gen = p.gen ∧ (countedPart s p).hold = p.hold ∧
    (countedPart s p).cfg = p.cfg ∧ (countedPart s p).time = p.time :=
  ⟨(countedPart_frame s p).same .gen (by decide), (countedPart_frame s p).same .hold (by decide),
    (countedPart_frame s p).same .cfg (by decide), (countedPart_frame s p).same .time (by decide)⟩

theorem decidedPart_same (s : Settling) (p : Part) : (decidedPart s p).hold = p.hold ∧ (decidedPart s p).cfg = p.cfg ∧
    (decidedPart s p).time = p.time ∧ (decidedPart s p).image.drive.data.quietZone = p.image.drive.data.quietZone := by
  obtain ⟨-, hhold, hcfg, htime⟩ := countedPart_same s p
  have hframe := sequencerSettled_frame s.record s.working (countedPart s p)
  have himage : (decidedPart s p).image = (countedPart s p).image := hframe.same .image (by decide)
  exact ⟨Eq.trans (hframe.same .hold (by decide)) hhold, Eq.trans (hframe.same .cfg (by decide)) hcfg,
    Eq.trans (hframe.same .time (by decide)) htime, by rw [himage, countedPart_zone]⟩

/-- The frames leave every event that the blocks have set. -/
theorem hasEvent_settle {port : Port} (h : hasEvent e port (settledPart st p)) : hasEvent e port (settle st p) :=
  eventsKept_settlementFrames st _ _ _ h

/-! ### The decisions of a close -/

theorem decidedPart_gen_of_off (h : p.gen.link = .off) : (decidedPart st p).gen =
    if p.image.drive.data.quietZone = false ∧ quietHold p = false ∧
      (st.working.soc < p.cfg.num .socStart ∨ st.working.pDisEff < st.working.pReq + st.record.x)
    then { p.gen with
      link := .startSent
      timer := some ⟨.startTimeout, p.time.now, p.cfg.num .startTimeout⟩ }
    else p.gen := by
  obtain ⟨hgen, hhold, hcfg, htime⟩ := countedPart_same st p
  unfold decidedPart
  rw [sequencerSettled_gen_of_off (by rw [hgen]; exact h), countedPart_zone, quietHold_of_same hhold, hcfg, htime, hgen]

theorem decidedPart_gen_of_run (h : p.gen.link = .run) : (decidedPart st p).gen =
    if p.cfg.num .socStop ≤ st.working.soc ∧ st.record.t + st.record.x < st.working.pDisEff / 2
    then { p.gen with link := .unloading, timer := none } else p.gen := by
  obtain ⟨hgen, -, hcfg, -⟩ := countedPart_same st p
  unfold decidedPart
  rw [sequencerSettled_gen_of_run (by rw [hgen]; exact h), hcfg, hgen]

theorem decidedPart_gen_of_unloading (h : p.gen.link = .unloading) : (decidedPart st p).gen =
    if st.record.g = 0 then { p.gen with
      link := .stopSent
      timer := some ⟨.stopTimeout, p.time.now, p.cfg.num .stopTimeout⟩ }
    else p.gen := by
  obtain ⟨hgen, -, hcfg, htime⟩ := countedPart_same st p
  unfold decidedPart
  rw [sequencerSettled_gen_of_unloading (by rw [hgen]; exact h), hcfg, htime, hgen]

theorem decidedPart_gen_of_other (hoff : p.gen.link ≠ .off) (hrun : p.gen.link ≠ .run)
    (hunloading : p.gen.link ≠ .unloading) : (decidedPart st p).gen = p.gen := by
  obtain ⟨hgen, -, -, -⟩ := countedPart_same st p
  unfold decidedPart
  rw [sequencerSettled_of_other (by rw [hgen]; exact hoff) (by rw [hgen]; exact hrun)
    (by rw [hgen]; exact hunloading), hgen]

/-! ### The start request that the SoC floor makes -/

/-- In a quiet hold no link in OFF was started by the record; the request starts it (R105, R106). -/
theorem startRequested_of_off (hquiet : quietHold p = true) (hlink : p.gen.link = .off) :
    (holdRunWithStart (decidedPart st p)).gen.link = .startSent ∧
      (holdRunWithStart (decidedPart st p)).gen.startRequest = false := by
  have hkept : (decidedPart st p).gen = p.gen :=
    (decidedPart_gen_of_off hlink).trans (if_neg fun ⟨_, hclear, _⟩ => Bool.noConfusion (hclear.symm.trans hquiet))
  rw [holdRunWithStart_gen, hkept, if_pos hlink]
  exact ⟨rfl, rfl⟩

/-- A link that the record took to STOP_SENT keeps the request for later (R106, R117). -/
theorem startRequested_of_unloading (hlink : p.gen.link = .unloading) (hg : st.record.g = 0) :
    (holdRunWithStart (decidedPart st p)).gen.link = .stopSent ∧
      (holdRunWithStart (decidedPart st p)).gen.startRequest = true := by
  have hstopped := (decidedPart_gen_of_unloading (st := st) hlink).trans (if_pos hg)
  rw [holdRunWithStart_gen, hstopped, if_neg (by decide : ¬ LinkState.stopSent = .off),
    if_neg (by decide : ¬ (LinkState.starting .stopSent = true ∨ LinkState.stopSent = .run ∨
      LinkState.stopSent = .lockedOut))]
  exact ⟨rfl, rfl⟩

theorem startRequested_of_waiting (hlink : p.gen.link = .awaiting ∨ p.gen.link = .stopSent ∨ p.gen.link = .failed) :
    (holdRunWithStart (decidedPart st p)).gen = { p.gen with startRequest := true } := by
  have hlinks : p.gen.link ≠ .off ∧ p.gen.link ≠ .run ∧ p.gen.link ≠ .unloading ∧
      ¬ (p.gen.link.starting = true ∨ p.gen.link = .run ∨ p.gen.link = .lockedOut) := by
    obtain h | h | h := hlink <;> rw [h] <;> decide
  obtain ⟨hoff, hrun, hunloading, hserved⟩ := hlinks
  rw [holdRunWithStart_gen, decidedPart_gen_of_other hoff hrun hunloading, if_neg hoff, if_neg hserved]

theorem startRequested_of_lockedOut (hlink : p.gen.link = .lockedOut) :
    (holdRunWithStart (decidedPart st p)).gen = { p.gen with startRequest := false } := by
  have hlinks : p.gen.link ≠ .off ∧ p.gen.link ≠ .run ∧ p.gen.link ≠ .unloading := by
    rw [hlink]
    decide
  obtain ⟨hoff, hrun, hunloading⟩ := hlinks
  rw [holdRunWithStart_gen, decidedPart_gen_of_other hoff hrun hunloading, if_neg hoff, if_pos (.inr (.inr hlink))]

/-- Settles O37: the mismatch check, the decay, the sequencer's decisions and the SoC floor. -/
theorem settledRecordMovesBlocks : Obligations.SettledRecordMovesBlocks := by
  intro st s hrun hst p r w below leaves
  obtain ⟨hhold, hcfg, htime, hzone⟩ := decidedPart_same st p
  have hquiet : quietHold (decidedPart st p) = quietHold p := quietHold_of_same hhold
  have hmismatch := settle_mismatch st p
  have hgen := settle_gen st p
  have hheld := settle_hold st p
  rw [settledPart_eq] at hgen hheld
  have hleft (h : leaves) : socFloorJudged st.working.soc (decidedPart st p) = holdRunWithStart (decidedPart st p) := by
    obtain ⟨⟨hq, hlow⟩, hz⟩ := h
    exact socFloorJudged_of_leaves (by rw [hquiet]; exact hq) (by rw [hcfg]; exact hlow) (by rw [hzone]; exact hz)
  refine ⟨_, exec_accountSettled hrun hst, fun hskip => ?skip, fun c volts hcurrent hsense hvolts => ?judged,
    (settle_image st p).trans (closedPart_image st p), fun hstays => ?stays, fun hleaves => ?leaves,
    fun hbelow hquietZone => ?latched, fun hq hhigh => ?above, fun hq => ?clear⟩
  case skip =>
    have hnone : mismatchAfter (p.cfg.num .mismatchTol) p.account.mismatch st (p.account.current.map (·.1)) =
        p.account.mismatch ∧ mismatchReported (p.cfg.num .mismatchTol) p.account.mismatch st
          (p.account.current.map (·.1)) = false := by
      obtain hnone | hsense := hskip
      · rw [hnone]
        exact ⟨rfl, rfl⟩
      · cases p.account.current with
        | none => exact ⟨rfl, rfl⟩
        | some c => simp [mismatchAfter, mismatchReported, show st.record.flags.senseHeld = true from hsense]
    exact ⟨hmismatch.trans hnone.1, mismatch_not_set hnone.2 .ps⟩
  case judged =>
    intro magnitude measured difference
    have hpower : batteryPower st.working.linkVoltage st.working.batteryCurrent = measured := by
      unfold batteryPower
      rw [show st.working.linkVoltage = (volts : Int) from hvolts, Int.toNat_natCast]
    have hfound : mismatchFound (p.cfg.num .mismatchTol) st.working c.1 =
        decide (p.cfg.num .mismatchTol < difference) := by
      unfold mismatchFound
      rw [hpower]
    have hsense' : st.record.flags.senseHeld = false := hsense
    have hafter : (settle st p).account.mismatch = if p.cfg.num .mismatchTol < difference then
        min (p.account.mismatch + 1) 50 else 0 := by
      rw [hmismatch, hcurrent]
      simp [mismatchAfter, hsense', hfound, Config.mismatchTop]
    have hreported : mismatchReported (p.cfg.num .mismatchTol) p.account.mismatch st (p.account.current.map (·.1)) =
        (decide (p.cfg.num .mismatchTol < difference) && decide (50 ≤ p.account.mismatch + 1)) := by
      rw [hcurrent]
      simp [mismatchReported, hsense', hfound, Config.mismatchTop]
    refine ⟨fun hwithin => ⟨?_, mismatch_not_set ?_ .ps⟩, fun hbeyond => ⟨?_, fun hcount => ⟨?_, ?_⟩, fun hcount =>
      mismatch_not_set ?_ .ps⟩⟩
    · exact hafter.trans (if_neg (Nat.not_lt.mpr hwithin))
    · rw [hreported, decide_eq_false (Nat.not_lt.mpr hwithin), Bool.false_and]
    · exact hafter.trans (if_pos hbeyond)
    · exact hasEvent_mismatch (by rw [hreported]; simp; omega) rfl
    · exact hasEvent_mismatch (by rw [hreported]; simp; omega) rfl
    · rw [hreported, decide_eq_false (by omega : ¬ 50 ≤ p.account.mismatch + 1), Bool.and_false]
  case stays =>
    have hkept : (settle st p).gen = (decidedPart st p).gen := by
      refine hgen.trans (socFloorJudged_gen ?_)
      rw [hquiet, hcfg, hzone]
      exact hstays
    exact ⟨fun h => hkept.trans (decidedPart_gen_of_off h), fun h => hkept.trans (decidedPart_gen_of_run h),
      fun h => hkept.trans (decidedPart_gen_of_unloading h),
      fun hoff hrun hunloading => hkept.trans (decidedPart_gen_of_other hoff hrun hunloading)⟩
  case leaves =>
    rw [hleft hleaves] at hgen hheld
    rw [holdRunWithStart_hold, htime] at hheld
    have hsettled : settledPart st p = holdRunWithStart (decidedPart st p) := hleft hleaves
    obtain ⟨⟨hq, hlow⟩, hz⟩ := hleaves
    refine ⟨hheld, ?_, fun hlink => ?_, fun hlink hg => ?_, fun hlink => hgen.trans (startRequested_of_waiting hlink),
      fun hlink => hgen.trans (startRequested_of_lockedOut hlink)⟩
    · exact hasEvent_settle (by rw [hsettled]; exact hasEvent_holdRunWithStart rfl)
    · rw [hgen]
      exact startRequested_of_off hq hlink
    · rw [hgen]
      exact startRequested_of_unloading hlink hg
  case latched =>
    obtain ⟨hq, hlow⟩ := hbelow
    have hzoned := socFloorJudged_of_zone (by rw [hquiet]; exact hq) (by rw [hcfg]; exact hlow)
      (by rw [hzone]; exact hquietZone)
    rw [hzoned] at hheld
    refine ⟨?_, fun hclear => ?_⟩
    · refine hheld.trans ?_
      rw [← hhold]
      split
      · next hlatch => rw [← hlatch]
      · rfl
    · rw [hhold, hclear] at hzoned
      exact hasEvent_settle (by rw [settledPart_eq, hzoned]; exact hasEvent_setEvent .socLowQuiet _ rfl)
  case above =>
    rw [socFloorJudged_of_above (by rw [hquiet]; exact hq) (by rw [hcfg]; exact hhigh)] at hheld
    exact hheld.trans (by rw [Part.setHold_hold, hhold])
  case clear =>
    rw [socFloorJudged_of_clear (by rw [hquiet]; exact hq)] at hheld
    exact hheld.trans hhold

end Sys2Proof.Machine
end

