-- ==== Sys2Proof/Proofs/HoldKept.lean ====
section
/-! SUPPORT. What every step keeps of the hold controller and the link: no engine starts or runs in a quiet hold or a
quiet zone, and G is zero there (R101, R118); the timers, the latch and the start request in their states (R103 to
R106); the lockout at three failures (R120). -/

set_option Elab.async false

namespace Sys2Proof.Machine

variable {p q : Part} {new : HoldState} {rule : Option Nat} {l : List Block}

/-! ### The law in parts -/

/-- The timers and the latch of a hold, its start request, and the count of failures (R103 to R106, R120). -/
structure holdOrdered (h : Hold) (g : Sequencer) : Prop where
  promotion : h.promotion = true → h.state = .holdQuiet
  layover : h.layover = true → h.state = .layover
  latch : h.latch = true → h.state = .holdQuiet ∨ h.state = .layover
  request : g.startRequest = true → h.state = .holdRun
  failures : g.failures ≤ 3
  locked : g.failures = 3 ↔ g.link = .lockedOut
  discarded : g.link = .lockedOut → g.startRequest = false

/-- G is zero in every record made in a quiet hold, and in the settlement that took a DUMP request (R101). -/
def recordsQuiet (a : Account) : Prop :=
  (∀ r ∈ a.history, quietRecord r) ∧ (∀ c, a.current = some c → quietRecord c.1) ∧
    ∀ st, a.settling = some st → quietRecord st.record ∧ (st.tookDump = true → st.record.g = 0)

/-- The link makes no power or is about to make none (R101). -/
def linkQuiet (p : Part) : Prop :=
  p.gen.link.starting = false ∧ p.gen.link ≠ .run ∧ (p.gen.link = .unloading → p.account.dump = true)

/-- No engine is at work in a quiet zone, nor is the state HOLD_RUN (R100, R102, R104, R118). -/
def zoneQuiet (p : Part) : Prop :=
  p.gen.link.starting = false ∧ p.gen.link ≠ .run ∧ p.gen.link ≠ .unloading ∧ p.hold.state ≠ .holdRun

theorem quietHold_eq_true_iff : quietHold p = true ↔ p.hold.state = .holdQuiet ∨ p.hold.state = .layover := by
  simp [quietHold]

theorem holdSound_iff : holdSound p ↔ holdOrdered p.hold p.gen ∧ recordsQuiet p.account ∧
    (quietHold p = true → linkQuiet p) ∧ (effQuietZone p = true → zoneQuiet p) := by
  constructor
  · rintro ⟨hquiet, ⟨hhistory, hcurrent, hsettling, hdump⟩, hzone, hrequest, hpromotion, hlayover, hlatch, hfailures,
      hlocked, hdiscarded⟩
    exact ⟨⟨hpromotion, hlayover, fun h => quietHold_eq_true_iff.mp (hlatch h), hrequest, hfailures, hlocked, hdiscarded⟩,
      ⟨hhistory, hcurrent, hsettling⟩, fun h => ⟨(hquiet h).1, (hquiet h).2, hdump h⟩, hzone⟩
  · rintro ⟨⟨hpromotion, hlayover, hlatch, hrequest, hfailures, hlocked, hdiscarded⟩, ⟨hhistory, hcurrent, hsettling⟩,
      hquiet, hzone⟩
    refine ⟨fun h => ?_, ⟨hhistory, hcurrent, hsettling, fun h => ?_⟩, hzone, hrequest, hpromotion, hlayover,
      fun h => quietHold_eq_true_iff.mpr (hlatch h), hfailures, hlocked, hdiscarded⟩
    · obtain ⟨hstarting, hrun, -⟩ := hquiet h
      exact ⟨hstarting, hrun⟩
    · obtain ⟨-, -, hdump⟩ := hquiet h
      exact hdump

theorem holdSound_reads : readsOnly [.image, .account, .hold, .gen] holdSound := fun {p q} h hp => by
  have himage : q.image = p.image := h .image (by decide)
  have haccount : q.account = p.account := h .account (by decide)
  have hhold : q.hold = p.hold := h .hold (by decide)
  have hgen : q.gen = p.gen := h .gen (by decide)
  unfold holdSound quietSetPoint quietHold effQuietZone at *
  rwa [himage, haccount, hhold, hgen]

/-- The engine may start or run: neither a quiet hold nor a quiet zone stands. -/
def mayRun (p : Part) : Prop := quietHold p = false ∧ effQuietZone p = false

theorem mayRun_of_working (h : holdSound p) (hlink : p.gen.link.starting = true ∨ p.gen.link = .run) : mayRun p := by
  obtain ⟨-, -, hquiet, hzone⟩ := holdSound_iff.mp h
  refine ⟨Bool.eq_false_iff.mpr fun hq => ?_, Bool.eq_false_iff.mpr fun hz => ?_⟩
  · obtain ⟨hstarting, hrun, -⟩ := hquiet hq
    exact hlink.elim (fun h => Bool.noConfusion (hstarting.symm.trans h)) hrun
  · obtain ⟨hstarting, hrun, -⟩ := hzone hz
    exact hlink.elim (fun h => Bool.noConfusion (hstarting.symm.trans h)) hrun

/-- A standing start request has the state HOLD_RUN, and so no quiet zone. -/
theorem mayRun_of_request (h : holdSound p) (hrequest : p.gen.startRequest = true) : mayRun p := by
  obtain ⟨hordered, -, -, hzone⟩ := holdSound_iff.mp h
  have hstate := hordered.request hrequest
  refine ⟨Bool.eq_false_iff.mpr fun hq => ?_, Bool.eq_false_iff.mpr fun hz => ?_⟩
  · obtain hq | hq := quietHold_eq_true_iff.mp hq <;> cases hstate.symm.trans hq
  · obtain ⟨-, -, -, hrun⟩ := hzone hz
    exact hrun hstate

/-! ### The link moves -/

/-- The counts of failures of a link agree with its state, and a locked-out link holds no request (R120). -/
def linkOrdered (g : Sequencer) : Prop :=
  g.failures ≤ 3 ∧ (g.failures = 3 ↔ g.link = .lockedOut) ∧ (g.link = .lockedOut → g.startRequest = false)

theorem holdOrdered.linkOrdered {h : Hold} {g : Sequencer} (ho : holdOrdered h g) : linkOrdered g :=
  ⟨ho.failures, ho.locked, ho.discarded⟩

theorem linkOrdered_of_sound (h : holdSound p) : linkOrdered p.gen := (holdSound_iff.mp h).1.linkOrdered

/-- A move of the link is in order when it makes no request, starts or runs the engine only where that may be, and
unloads only an engine that ran or unloaded. -/
theorem holdSound_of_gen (h : holdSound p) (hframe : changesOnly l p q) (hordered : linkOrdered q.gen)
    (hrequest : q.gen.startRequest = true → p.gen.startRequest = true)
    (hwork : q.gen.link.starting = true ∨ q.gen.link = .run → mayRun p)
    (hunload : q.gen.link = .unloading → p.gen.link = .unloading ∨ mayRun p)
    (hl : ∀ b ∈ [Block.image, .account, .hold], b ∉ l := by decide) : holdSound q := by
  have himage : q.image = p.image := hframe.same .image (hl _ (by decide))
  have haccount : q.account = p.account := hframe.same .account (hl _ (by decide))
  have hhold : q.hold = p.hold := hframe.same .hold (hl _ (by decide))
  have hheld : quietHold q = quietHold p := quietHold_of_same hhold
  have hzones : effQuietZone q = effQuietZone p := by unfold effQuietZone; rw [himage]
  obtain ⟨hord, hrecords, hquiet, hzone⟩ := holdSound_iff.mp h
  obtain ⟨hfailures, hlocked, hdiscarded⟩ := hordered
  refine holdSound_iff.mpr ⟨⟨?_, ?_, ?_, ?_, hfailures, hlocked, hdiscarded⟩, haccount ▸ hrecords, fun hq => ?_,
    fun hz => ?_⟩
  · exact hhold ▸ hord.promotion
  · exact hhold ▸ hord.layover
  · exact hhold ▸ hord.latch
  · exact fun hreq => hhold ▸ hord.request (hrequest hreq)
  · rw [hheld] at hq
    have hstill : ¬ mayRun p := fun ⟨hclear, _⟩ => Bool.noConfusion (hclear.symm.trans hq)
    obtain ⟨-, -, hdump⟩ := hquiet hq
    refine ⟨Bool.eq_false_iff.mpr fun hs => hstill (hwork (.inl hs)), fun hr => hstill (hwork (.inr hr)), fun hu => ?_⟩
    rw [haccount]
    exact hdump ((hunload hu).resolve_right hstill)
  · rw [hzones] at hz
    have hstill : ¬ mayRun p := fun ⟨_, hclear⟩ => Bool.noConfusion (hclear.symm.trans hz)
    obtain ⟨-, -, hunloading, hstate⟩ := hzone hz
    exact ⟨Bool.eq_false_iff.mpr fun hs => hstill (hwork (.inl hs)), fun hr => hstill (hwork (.inr hr)),
      fun hu => hunloading ((hunload hu).resolve_right hstill), hhold ▸ hstate⟩

/-- A link that is locked out only if it was, with its failures counted as before. -/
theorem linkOrdered_of_moved {g g' : Sequencer} (h : linkOrdered g) (hfailures : g'.failures = g.failures)
    (hbefore : g.link ≠ .lockedOut) (hafter : g'.link ≠ .lockedOut) : linkOrdered g' := by
  obtain ⟨hle, hlocked, -⟩ := h
  refine ⟨hfailures ▸ hle, ⟨fun h3 => absurd (hlocked.mp (hfailures ▸ h3)) hbefore, fun h => absurd h hafter⟩,
    fun h => absurd h hafter⟩

theorem linkOrdered_of_cleared {g : Sequencer} (hfailures : g.failures = 0) (hafter : g.link ≠ .lockedOut) :
    linkOrdered g :=
  ⟨by omega, ⟨fun h => by omega, fun h => absurd h hafter⟩, fun h => absurd h hafter⟩

section
variable {counted : Bool}

theorem linkOrdered_enterFailed (h : linkOrdered p.gen) (hlink : p.gen.link ≠ .lockedOut) :
    linkOrdered (enterFailed counted p).gen := by
  obtain ⟨hle, hlocked, -⟩ := h
  have hne : p.gen.failures ≠ 3 := mt hlocked.mp hlink
  have hcount : failuresAfter counted p ≤ 3 := by
    have : counted.toNat ≤ 1 := Bool.toNat_le counted
    unfold failuresAfter
    omega
  rw [enterFailed_gen]
  split
  · next h3 => exact ⟨hcount, ⟨fun _ => rfl, fun _ => h3⟩, fun _ => rfl⟩
  · next h3 => exact ⟨hcount, ⟨fun h => absurd h h3, fun h => (nomatch h)⟩, fun h => (nomatch h)⟩

theorem holdSound_enterFailed (h : holdSound p) (hlink : p.gen.link ≠ .lockedOut) : holdSound (enterFailed counted p) := by
  have hto : (enterFailed counted p).gen.link = .lockedOut ∨ (enterFailed counted p).gen.link = .failed := by
    rw [enterFailed_link]
    split
    · exact .inl rfl
    · exact .inr rfl
  refine holdSound_of_gen h (enterFailed_frame ..) (linkOrdered_enterFailed (linkOrdered_of_sound h) hlink)
    (fun hreq => ?_) (fun hwork => ?_) fun hunload => ?_
  · rw [enterFailed_gen] at hreq
    split at hreq
    · cases hreq
    · exact hreq
  · obtain hto | hto := hto <;> rw [hto] at hwork <;> exact absurd hwork (by decide)
  · obtain hto | hto := hto <;> rw [hto] at hunload <;> cases hunload

end

theorem holdSound_enterOff (h : holdSound p) (hlink : p.gen.link ≠ .lockedOut) : holdSound (enterOff p) := by
  refine holdSound_of_gen h (enterOff_frame p) (linkOrdered_of_moved (linkOrdered_of_sound h) ?_ hlink ?_) ?_ ?_ ?_ <;>
    rw [enterOff_gen] <;> split
  · rfl
  · rfl
  · exact fun h => (nomatch h)
  · exact fun h => (nomatch h)
  · exact fun h => (nomatch h)
  · exact id
  · next hreq => exact fun _ => mayRun_of_request h hreq
  · exact fun hwork => absurd (show LinkState.starting .off = true ∨ LinkState.off = .run from hwork) (by decide)
  · exact fun h => (nomatch h)
  · exact fun h => (nomatch h)

theorem holdSound_enterStopSent (h : holdSound p) (hlink : p.gen.link ≠ .lockedOut) : holdSound (enterStopSent p) :=
  holdSound_of_gen h (setGen_frame p _) (linkOrdered_of_moved (linkOrdered_of_sound h) rfl hlink
    fun h => (nomatch (show LinkState.stopSent = .lockedOut from h)))
    id (fun hwork => absurd (show LinkState.starting .stopSent = true ∨ LinkState.stopSent = .run from hwork) (by decide))
    fun hunload => (nomatch hunload)

/-- An entry into a link state that starts or runs the engine, where the engine may run. -/
theorem holdSound_of_working (h : holdSound p) (hframe : changesOnly l p q) (hmay : mayRun p)
    (hordered : linkOrdered q.gen) (hclear : q.gen.startRequest = false)
    (hl : ∀ b ∈ [Block.image, .account, .hold], b ∉ l := by decide) : holdSound q :=
  holdSound_of_gen h hframe hordered (fun hreq => Bool.noConfusion (hclear.symm.trans hreq)) (fun _ => hmay)
    (fun _ => .inr hmay) hl

theorem holdSound_enterSettling (h : holdSound p) (hmay : mayRun p) (hlink : p.gen.link ≠ .lockedOut) :
    holdSound (enterSettling p) :=
  holdSound_of_working h (enterSettling_frame p) hmay (linkOrdered_of_moved (linkOrdered_of_sound h)
    (by rw [enterSettling_gen]) hlink (by rw [enterSettling_gen]; exact fun h => (nomatch h)))
    (by rw [enterSettling_gen])

theorem holdSound_enterCranking (h : holdSound p) (hmay : mayRun p) (hlink : p.gen.link ≠ .lockedOut) :
    holdSound (enterCranking p) :=
  holdSound_of_working h (enterCranking_frame p) hmay (linkOrdered_of_moved (linkOrdered_of_sound h)
    (by rw [enterCranking_gen]) hlink (by rw [enterCranking_gen]; exact fun h => (nomatch h)))
    (by rw [enterCranking_gen])

theorem holdSound_enterCrankingFirst (h : holdSound p) (hmay : mayRun p) (hlink : p.gen.link ≠ .lockedOut) :
    holdSound (enterCrankingFirst p) :=
  holdSound_of_working h (enterCrankingFirst_frame p) hmay (linkOrdered_of_moved (linkOrdered_of_sound h)
    (by rw [enterCrankingFirst_gen]) hlink (by rw [enterCrankingFirst_gen]; exact fun h => (nomatch h)))
    (by rw [enterCrankingFirst_gen])

theorem holdSound_enterRun (h : holdSound p) (hmay : mayRun p) : holdSound (enterRun p) :=
  holdSound_of_working h (enterRun_frame p) hmay (linkOrdered_of_cleared (by rw [enterRun_gen])
    (by rw [enterRun_gen]; exact fun h => (nomatch h))) (by rw [enterRun_gen])

theorem holdSound_firstReport {r : EngineReport} (h : holdSound p) (hlink : p.gen.link = .awaiting) :
    holdSound (firstReport r p) := by
  have hunlocked : p.gen.link ≠ .lockedOut := by rw [hlink]; exact fun h => (nomatch h)
  have hmay (hclear : ¬ (effQuietZone p || quietHold p) = true) : mayRun p := by
    rw [Bool.not_eq_true, Bool.or_eq_false_iff] at hclear
    exact hclear.symm
  unfold firstReport
  split
  · exact holdSound_enterOff h hunlocked
  · split
    · exact holdSound_enterStopSent h hunlocked
    · next hclear => exact holdSound_enterCrankingFirst h (hmay hclear) hunlocked
  · split
    · exact holdSound_enterStopSent h hunlocked
    · next hclear => exact holdSound_enterSettling h (hmay hclear) hunlocked
  · exact holdSound_enterFailed h hunlocked

theorem holdSound_judgeReport {r : EngineReport} (h : holdSound p) : holdSound (judgeReport r p) := by
  have hmay (hlink : p.gen.link.starting = true) : mayRun p := mayRun_of_working h (.inl hlink)
  unfold judgeReport
  split
  case h_1 r hlink => exact holdSound_firstReport h hlink
  case h_3 | h_8 | h_10 | h_12 | h_14 | h_18 | h_19 | h_20 => exact h
  case h_4 hlink => exact holdSound_enterCranking h (hmay (by rw [hlink]; rfl)) (by simp [hlink])
  case h_5 hlink | h_7 hlink => exact holdSound_enterSettling h (hmay (by rw [hlink]; rfl)) (by simp [hlink])
  case h_16 hlink => exact holdSound_enterOff h (by simp [hlink])
  case h_2 | h_6 | h_9 | h_11 | h_13 | h_15 | h_17 => exact holdSound_enterFailed h (by simp [*])

/-! ### The hold controller moves -/

/-- The link of a part is judged by its state and by the DUMP request that stands. -/
theorem linkQuiet_of_same (h : linkQuiet p) (hlink : q.gen.link = p.gen.link) (haccount : q.account = p.account) :
    linkQuiet q := by
  unfold linkQuiet at *
  rwa [hlink, haccount]

/-- What a change of hold state puts in order by itself: the timers, the latch and the request (R98, R103 to R106). -/
theorem holdOrdered_changeHold (h : holdOrdered p.hold p.gen) :
    holdOrdered (changeHold new rule p).hold (changeHold new rule p).gen := by
  rw [changeHold_hold, changeHold_gen]
  refine ⟨fun h => ?_, fun h => ?_, fun h => ?_, fun h => ?_, h.failures, h.locked, fun hlink => ?_⟩
  · exact of_decide_eq_true (Bool.and_eq_true_iff.mp h).1
  · exact of_decide_eq_true h
  · simpa using (Bool.and_eq_true_iff.mp h).2
  · exact of_decide_eq_true (Bool.and_eq_true_iff.mp h).2
  · show (p.gen.startRequest && _) = false
    rw [h.discarded hlink, Bool.false_and]

theorem holdSound_changeHold (h : holdSound p) (hquiet : new = .holdQuiet ∨ new = .layover → linkQuiet p)
    (hzone : new = .holdRun → effQuietZone p = false) : holdSound (changeHold new rule p) := by
  obtain ⟨hordered, hrecords, -, hzoned⟩ := holdSound_iff.mp h
  have hframe := changeHold_frame new rule p
  have haccount : (changeHold new rule p).account = p.account := hframe.same .account (by decide)
  have himage : (changeHold new rule p).image = p.image := hframe.same .image (by decide)
  have hlink : (changeHold new rule p).gen.link = p.gen.link := by rw [changeHold_gen]
  have hstate : (changeHold new rule p).hold.state = new := by rw [changeHold_hold]
  refine holdSound_iff.mpr ⟨holdOrdered_changeHold hordered, haccount ▸ hrecords, fun hq => ?_, fun hz => ?_⟩
  · rw [quietHold_eq_true_iff, hstate] at hq
    exact linkQuiet_of_same (hquiet hq) hlink haccount
  · unfold effQuietZone at hz
    rw [himage] at hz
    obtain ⟨hstarting, hrun, hunloading, -⟩ := hzoned hz
    unfold zoneQuiet
    rw [hlink, hstate]
    exact ⟨hstarting, hrun, hunloading, fun hnew => Bool.noConfusion ((hzone hnew).symm.trans hz)⟩

theorem holdSound_breakHold (h : holdSound p) : holdSound (breakHold p) := by
  unfold breakHold
  split
  · exact h
  · exact holdSound_changeHold h (fun hnew => by simp at hnew) fun hnew => (nomatch hnew)

theorem holdSound.ite {c : Prop} [Decidable c] (h1 : holdSound p) (h2 : holdSound q) :
    holdSound (if c then p else q) := by
  split <;> assumption

/-- In a quiet hold the link is quiet, and stays so through a change to another one. -/
theorem holdSound_changeHold_of_quiet (h : holdSound p) (hquiet : quietHold p = true) (hnew : new ≠ .holdRun) :
    holdSound (changeHold new rule p) := by
  obtain ⟨-, -, hlink, -⟩ := holdSound_iff.mp h
  exact holdSound_changeHold h (fun _ => hlink hquiet) fun hrun => absurd hrun hnew

/-- The request that a move to HOLD_RUN makes starts an engine where it may start (R104 to R106). -/
theorem holdOrdered_holdRunWithStart (h : holdOrdered p.hold p.gen) :
    holdOrdered (holdRunWithStart p).hold (holdRunWithStart p).gen := by
  obtain ⟨-, -, -, -, hle, hlocked, hdiscarded⟩ := h
  rw [holdRunWithStart_hold, holdRunWithStart_gen]
  split
  · next hoff =>
    have hne : p.gen.failures ≠ 3 := fun h3 => by
      rw [hoff] at hlocked
      cases hlocked.mp h3
    exact ⟨fun h => (nomatch h), fun h => (nomatch h), fun h => (nomatch h), fun _ => rfl, hle,
      ⟨fun h3 => absurd h3 hne, fun h => (nomatch h)⟩, fun h => (nomatch h)⟩
  · split
    · exact ⟨fun h => (nomatch h), fun h => (nomatch h), fun h => (nomatch h), fun _ => rfl, hle, hlocked, fun _ => rfl⟩
    · next hother =>
      exact ⟨fun h => (nomatch h), fun h => (nomatch h), fun h => (nomatch h), fun _ => rfl, hle, hlocked,
        fun hlock => absurd (.inr (.inr hlock)) hother⟩

theorem holdSound_holdRunWithStart (h : holdSound p) (hzone : effQuietZone p = false) :
    holdSound (holdRunWithStart p) := by
  obtain ⟨hordered, hrecords, -, -⟩ := holdSound_iff.mp h
  have hframe := holdRunWithStart_frame p
  have haccount : (holdRunWithStart p).account = p.account := hframe.same .account (by decide)
  have himage : (holdRunWithStart p).image = p.image := hframe.same .image (by decide)
  refine holdSound_iff.mpr ⟨holdOrdered_holdRunWithStart hordered, haccount ▸ hrecords, fun hq => ?_, fun hz => ?_⟩
  · rw [quietHold_eq_true_iff, holdRunWithStart_hold] at hq
    simp at hq
  · unfold effQuietZone at hz hzone
    rw [himage, hzone] at hz
    cases hz

/-! ### The entry into a hold -/

theorem enteredHold_eq (p : Part) : ∃ state, chosenState (choiceRule p) p.image.drive.data.layoverRequest = state ∧
    changesOnly [.scan] (changeHold state (some (choiceRule p)) p) (enteredHold p) := by
  refine ⟨_, rfl, ?_⟩
  unfold enteredHold
  exact .ite (routineTrigger_frame ..) (.refl _ _)

theorem chosenState_ne_drive (n : Nat) (b : Bool) : chosenState n b ≠ .drive := by
  unfold chosenState
  split
  · exact fun h => (nomatch h)
  · split <;> exact fun h => (nomatch h)

/-- In a quiet zone rule 1 chooses a quiet hold (R100). -/
theorem chosenState_of_zone (hzone : effQuietZone p = true) (b : Bool) : chosenState (choiceRule p) b ≠ .holdRun := by
  have hrule : choiceRule p = 1 := if_pos hzone
  rw [hrule]
  cases b <;> exact fun h => (nomatch h)

theorem recordsQuiet_withDump {a : Account} (h : recordsQuiet a) : recordsQuiet a.withDump := by
  obtain ⟨hhistory, hcurrent, hsettling⟩ := h
  refine ⟨hhistory, hcurrent, fun st hst => ?_⟩
  obtain ⟨st', hst', rfl⟩ := Option.map_eq_some_iff.mp hst
  exact hsettling st' hst'

/-- What the entry into a quiet hold makes of the link, outside a quiet zone (R101). -/
theorem linkQuiet_quietEntryLink (hmay : p.gen.link = .run → effQuietZone p = false) :
    linkQuiet (quietEntryLink p) := by
  unfold quietEntryLink
  split
  case h_1 hlink =>
    rw [if_neg (by simp [hmay hlink])]
    exact ⟨rfl, fun h => (nomatch h), fun _ => rfl⟩
  case h_2 | h_3 | h_4 | h_5 => exact ⟨rfl, fun h => (nomatch h), fun h => (nomatch h)⟩
  all_goals
    next hlink =>
    unfold linkQuiet
    rw [hlink]
    exact ⟨rfl, fun h => (nomatch h), fun h => (nomatch h)⟩

theorem quietEntryLink_of_stopped (hstarting : p.gen.link.starting = false) (hrun : p.gen.link ≠ .run)
    (hunloading : p.gen.link ≠ .unloading) : quietEntryLink p = p := by
  unfold quietEntryLink
  cases hlink : p.gen.link <;> simp [hlink, LinkState.starting] at hstarting hrun hunloading <;> rfl

/-- The action on the link leaves the hold, the request and the count of failures. -/
theorem quietEntryLink_ordered (h : holdOrdered p.hold p.gen) :
    holdOrdered (quietEntryLink p).hold (quietEntryLink p).gen := by
  have hmoved (link : LinkState) (timer : Option GenTimer) (hbefore : p.gen.link ≠ .lockedOut)
      (hafter : link ≠ .lockedOut) : holdOrdered p.hold { p.gen with link := link, timer := timer } := by
    obtain ⟨hle, hlocked, hdiscarded⟩ := linkOrdered_of_moved (g' := { p.gen with link := link, timer := timer })
      h.linkOrdered rfl hbefore hafter
    exact ⟨h.promotion, h.layover, h.latch, h.request, hle, hlocked, hdiscarded⟩
  unfold quietEntryLink
  split
  case h_1 hlink =>
    split
    · exact h
    · exact hmoved _ _ (by simp [hlink]) fun h => (nomatch h)
  case h_2 hlink | h_3 hlink | h_4 hlink | h_5 hlink => exact hmoved _ _ (by simp [hlink]) fun h => (nomatch h)
  all_goals exact h

/-- A hold entered with the link acted on, where no engine runs in a quiet zone. -/
theorem holdSound_enterHold (h : holdSound p) : holdSound (enterHold p) := by
  obtain ⟨hordered, hrecords, -, hzoned⟩ := holdSound_iff.mp h
  obtain ⟨state, hstate, hscan⟩ := enteredHold_eq p
  rw [enterHold_eq, hstate]
  split
  · next hrun =>
    subst hrun
    refine holdSound_reads.keeps hscan (holdSound_changeHold h (fun hq => by simp at hq) fun _ => ?_)
    exact Bool.eq_false_iff.mpr fun hz => chosenState_of_zone hz _ hstate
  · next hrun =>
    have hframe := (changeHold_frame state (some (choiceRule p)) p).trans (n := [.hold, .gen, .auth, .scan, .ports]) hscan
    have hheld : (enteredHold p).hold = (changeHold state (some (choiceRule p)) p).hold := hscan.same .hold (by decide)
    have hgen : (enteredHold p).gen = (changeHold state (some (choiceRule p)) p).gen := hscan.same .gen (by decide)
    have haccount : (enteredHold p).account = p.account := hframe.same .account (by decide)
    have himage : (enteredHold p).image = p.image := hframe.same .image (by decide)
    have hlink : (enteredHold p).gen.link = p.gen.link := by rw [hgen, changeHold_gen]
    have hzones : effQuietZone (enteredHold p) = effQuietZone p := by unfold effQuietZone; rw [himage]
    have hentry := quietEntryLink_frame (enteredHold p)
    have hheld' : (quietEntryLink (enteredHold p)).hold = (enteredHold p).hold := hentry.same .hold (by decide)
    have himage' : (quietEntryLink (enteredHold p)).image = p.image :=
      (show _ = (enteredHold p).image from hentry.same .image (by decide)).trans himage
    refine holdSound_iff.mpr ⟨quietEntryLink_ordered ?_, ?_, fun _ => linkQuiet_quietEntryLink fun hr => ?_, fun hz => ?_⟩
    · rw [hheld, hgen]
      exact holdOrdered_changeHold hordered
    · obtain hsame | hdump := quietEntryLink_account (enteredHold p)
      · rw [hsame, haccount]
        exact hrecords
      · rw [hdump, haccount]
        exact recordsQuiet_withDump hrecords
    · rw [hlink] at hr
      rw [hzones]
      exact (mayRun_of_working h (.inr hr)).2
    · unfold effQuietZone at hz
      rw [himage'] at hz
      obtain ⟨hstarting, hr, hunloading, -⟩ := hzoned hz
      unfold zoneQuiet
      rw [hheld', hheld, changeHold_hold, quietEntryLink_of_stopped (hlink ▸ hstarting) (hlink ▸ hr)
        (hlink ▸ hunloading), hlink]
      exact ⟨hstarting, hr, hunloading, hrun⟩

/-! ### The arrival of a DRIVE_STATUS -/

theorem enteredHold_hold (p : Part) : (enteredHold p).hold.state =
    chosenState (choiceRule p) p.image.drive.data.layoverRequest := by
  obtain ⟨state, hstate, hscan⟩ := enteredHold_eq p
  have hheld : (enteredHold p).hold = (changeHold state (some (choiceRule p)) p).hold := hscan.same .hold (by decide)
  rw [hheld, changeHold_hold, hstate]

theorem enterHold_state (p : Part) : (enterHold p).hold.state =
    chosenState (choiceRule p) p.image.drive.data.layoverRequest := by
  rw [enterHold_eq]
  split
  · exact enteredHold_hold p
  · have hheld : (quietEntryLink (enteredHold p)).hold = (enteredHold p).hold :=
      (quietEntryLink_frame _).same .hold (by decide)
    rw [hheld, enteredHold_hold]

theorem holdOrdered_enterHold (h : holdOrdered p.hold p.gen) : holdOrdered (enterHold p).hold (enterHold p).gen := by
  obtain ⟨state, -, hscan⟩ := enteredHold_eq p
  have hheld : (enteredHold p).hold = (changeHold state (some (choiceRule p)) p).hold := hscan.same .hold (by decide)
  have hgen : (enteredHold p).gen = (changeHold state (some (choiceRule p)) p).gen := hscan.same .gen (by decide)
  have hentered : holdOrdered (enteredHold p).hold (enteredHold p).gen := by
    rw [hheld, hgen]
    exact holdOrdered_changeHold h
  rw [enterHold_eq]
  split
  · exact hentered
  · exact quietEntryLink_ordered hentered

/-- A DRIVE_STATUS that brings no quiet zone keeps the law. -/
theorem holdSound_holdArrival {before : DriveData} (h : holdSound p)
    (hsteady : effQuietZone p = true → before.quietZone = true) : holdSound (holdArrival before p) := by
  unfold holdArrival
  split
  · exact .ite (holdSound_enterHold h) h
  · unfold holdRunArrival
    refine .ite (holdSound_breakHold h) ?_
    rw [if_neg]
    · exact h
    · rw [Bool.and_eq_true_iff, Bool.not_eq_true']
      exact fun ⟨hbefore, hzone⟩ => Bool.noConfusion (hbefore.symm.trans (hsteady hzone))
  · next hstate =>
    have hquiet : quietHold p = true := quietHold_eq_true_iff.mpr (.inl hstate)
    exact .ite (holdSound_breakHold h) (.ite (holdSound_changeHold_of_quiet h hquiet fun h => (nomatch h)) h)
  · next hstate =>
    have hquiet : quietHold p = true := quietHold_eq_true_iff.mpr (.inr hstate)
    unfold layoverArrival
    refine .ite (holdSound_breakHold h) ?_
    split
    · next hover =>
      simp only [Bool.and_eq_true, Bool.not_eq_true'] at hover
      exact holdSound_holdRunWithStart h hover.1.2
    · exact .ite (holdSound_changeHold_of_quiet h hquiet fun h => (nomatch h)) h

/-- The hold once a quiet zone has come on: it is not HOLD_RUN, whatever the link still does (R100, R102, R104). -/
theorem holdOrdered_holdArrival {before : DriveData} (h : holdOrdered p.hold p.gen) (hbefore : before.quietZone = false)
    (hzone : effQuietZone p = true) : holdOrdered (holdArrival before p).hold (holdArrival before p).gen ∧
      (holdArrival before p).hold.state ≠ .holdRun := by
  have hchange {new : HoldState} {rule : Option Nat} (hnew : new ≠ .holdRun) :
      holdOrdered (changeHold new rule p).hold (changeHold new rule p).gen ∧
        (changeHold new rule p).hold.state ≠ .holdRun :=
    ⟨holdOrdered_changeHold h, by rw [changeHold_hold]; exact hnew⟩
  have hbreak (hstate : p.hold.state ≠ .drive) : holdOrdered (breakHold p).hold (breakHold p).gen ∧
      (breakHold p).hold.state ≠ .holdRun := by
    rw [breakHold_of_hold hstate]
    exact hchange fun h => (nomatch h)
  unfold holdArrival
  split
  · next hstate =>
    split
    · exact ⟨holdOrdered_enterHold h, enterHold_state p ▸ chosenState_of_zone hzone _⟩
    · exact ⟨h, by rw [hstate]; exact fun h => (nomatch h)⟩
  · next hstate =>
    split
    · exact hbreak (by rw [hstate]; exact fun h => (nomatch h))
    · unfold holdRunArrival
      rw [hbefore, hzone]
      exact hchange (by split <;> exact fun h => (nomatch h))
  · next hstate =>
    split
    · exact hbreak (by rw [hstate]; exact fun h => (nomatch h))
    · unfold holdQuietArrival
      split
      · exact hchange fun h => (nomatch h)
      · exact ⟨h, by rw [hstate]; exact fun h => (nomatch h)⟩
  · next hstate =>
    split
    · exact hbreak (by rw [hstate]; exact fun h => (nomatch h))
    · unfold layoverArrival
      rw [hbefore, hzone]
      split
      · next hover => cases hover
      · split
        · exact hchange fun h => (nomatch h)
        · exact ⟨h, by rw [hstate]; exact fun h => (nomatch h)⟩

/-- The stop that a quiet zone makes leaves no engine at work (R118). -/
theorem quietZoneStop_stops (p : Part) : (quietZoneStop p).gen.link.starting = false ∧
    (quietZoneStop p).gen.link ≠ .run ∧ (quietZoneStop p).gen.link ≠ .unloading := by
  unfold quietZoneStop
  split
  case h_1 | h_2 | h_3 | h_4 | h_5 => exact ⟨rfl, fun h => (nomatch h), fun h => (nomatch h)⟩
  all_goals
    next hlink =>
    rw [hlink]
    exact ⟨rfl, fun h => (nomatch h), fun h => (nomatch h)⟩

theorem holdOrdered_quietZoneStop (h : holdOrdered p.hold p.gen) :
    holdOrdered (quietZoneStop p).hold (quietZoneStop p).gen := by
  have hstop (hbefore : p.gen.link ≠ .lockedOut) : holdOrdered (enterStopSent p).hold (enterStopSent p).gen := by
    obtain ⟨hle, hlocked, hdiscarded⟩ := linkOrdered_of_moved (g' := (enterStopSent p).gen) h.linkOrdered rfl hbefore
      fun h => (nomatch (show LinkState.stopSent = .lockedOut from h))
    exact ⟨h.promotion, h.layover, h.latch, h.request, hle, hlocked, hdiscarded⟩
  unfold quietZoneStop
  split
  case h_1 hlink | h_2 hlink | h_3 hlink | h_4 hlink | h_5 hlink => exact hstop (by simp [hlink])
  all_goals exact h

theorem holdSound_quietZoneStop (hordered : holdOrdered p.hold p.gen) (hrecords : recordsQuiet p.account)
    (hstate : p.hold.state ≠ .holdRun) : holdSound (quietZoneStop p) := by
  have hframe := quietZoneStop_frame p
  have haccount : (quietZoneStop p).account = p.account := hframe.same .account (by decide)
  have hheld : (quietZoneStop p).hold = p.hold := hframe.same .hold (by decide)
  obtain ⟨hstarting, hrun, hunloading⟩ := quietZoneStop_stops p
  exact holdSound_iff.mpr ⟨holdOrdered_quietZoneStop hordered, haccount ▸ hrecords,
    fun _ => ⟨hstarting, hrun, fun h => absurd h hunloading⟩,
    fun _ => ⟨hstarting, hrun, hunloading, by rw [hheld]; exact hstate⟩⟩

theorem holdSound_driveArrival {d : DriveData} (h : holdSound p) : holdSound (driveArrival d p) := by
  obtain ⟨hordered, hrecords, hquiet, hzone⟩ := holdSound_iff.mp h
  have hready := readyCheck_frame (storeDrive d p)
  have hstore := (storeDrive_frame d p).trans (n := [.image, .partState]) hready
  have hheld : (readyCheck (storeDrive d p)).hold = p.hold := hstore.same .hold (by decide)
  have hgen : (readyCheck (storeDrive d p)).gen = p.gen := hstore.same .gen (by decide)
  have haccount : (readyCheck (storeDrive d p)).account = p.account := hstore.same .account (by decide)
  have hzones : effQuietZone (readyCheck (storeDrive d p)) = d.quietZone := by
    unfold effQuietZone
    rw [hready.same .image (by decide)]
    rfl
  refine holdSound_reads.keeps ((evalSource_frame .blend _).trans (n := [.auth, .ports]) (evalSource_frame ..)) ?_
  unfold quietZoneArrival
  by_cases hrise : p.image.drive.data.quietZone = false ∧ d.quietZone = true
  · obtain ⟨hbefore, hnow⟩ := hrise
    obtain ⟨hordered', hstate⟩ := holdOrdered_holdArrival (p := readyCheck (storeDrive d p)) (by rwa [hheld, hgen]) hbefore
      (hzones.trans hnow)
    have hrecords' : recordsQuiet (holdArrival p.image.drive.data (readyCheck (storeDrive d p))).account := by
      obtain hsame | hdump := holdArrival_account p.image.drive.data (readyCheck (storeDrive d p))
      · rw [hsame, haccount]
        exact hrecords
      · rw [hdump, haccount]
        exact recordsQuiet_withDump hrecords
    have hzoned : effQuietZone (holdArrival p.image.drive.data (readyCheck (storeDrive d p))) = true := by
      unfold effQuietZone at hzones ⊢
      rw [(holdArrival_frame ..).same .image (by decide), hzones, hnow]
    rw [if_pos (by rw [hbefore, hzoned]; rfl)]
    exact holdSound_quietZoneStop hordered' hrecords' hstate
  · have hsteady : d.quietZone = true → p.image.drive.data.quietZone = true :=
      fun hnow => (Bool.not_eq_false _).mp fun hbefore => hrise ⟨hbefore, hnow⟩
    have hstored : holdSound (readyCheck (storeDrive d p)) := by
      refine holdSound_iff.mpr ⟨by rwa [hheld, hgen], by rwa [haccount], fun hq => ?_, fun hz => ?_⟩
      · exact linkQuiet_of_same (hquiet ((quietHold_of_same hheld).symm.trans hq)) (by rw [hgen]) haccount
      · unfold zoneQuiet
        rw [hgen, hheld]
        exact hzone (hsteady (hzones.symm.trans hz))
    have harrived := holdSound_holdArrival hstored (before := p.image.drive.data)
      fun hz => hsteady (hzones.symm.trans hz)
    have hzoned : effQuietZone (holdArrival p.image.drive.data (readyCheck (storeDrive d p))) = d.quietZone := by
      unfold effQuietZone at hzones ⊢
      rw [(holdArrival_frame ..).same .image (by decide), hzones]
    rw [if_neg]
    · exact harrived
    · rw [hzoned, Bool.and_eq_true_iff, Bool.not_eq_true']
      exact hrise

/-! ### A settlement -/

theorem g_of_stopped {i : SettleInputs} (hrun : i.link ≠ .run) (hunloading : i.link ≠ .unloading) : i.g = 0 :=
  Nat.le_zero.mp ((i.g_le_gReach.trans i.gReach_le_pGenEff).trans (i.pGenEff_of_link hrun hunloading).le)

theorem acceptance_link (p : Part) : (acceptance p).gen.link = p.gen.link := by
  have hoffer : (acceptOffer p).gen = p.gen := (acceptOffer_frame p).same .gen (by decide)
  unfold acceptance breakHold
  split
  · split
    · rw [hoffer]
    · rw [changeHold_gen, hoffer]
  · rw [hoffer]

/-- A settlement that begins in a quiet hold makes no power (R8, R101). -/
theorem quietRecord_settlingOf {senseHeld : Bool} (h : holdSound p) :
    quietRecord (settlingOf p.hold.state senseHeld (acceptance p)).record := by
  obtain ⟨-, -, hquiet, -⟩ := holdSound_iff.mp h
  intro hstate
  obtain ⟨-, hrun, hdump⟩ := hquiet (quietHold_eq_true_iff.mpr hstate)
  have haccount : (acceptance p).account = p.account := (acceptance_frame p).same .account (by decide)
  have hlink := acceptance_link p
  show (settleInputs p.hold.state (acceptance p)).g = 0
  by_cases hunloading : p.gen.link = .unloading
  · refine SettleInputs.g_of_dropped (Bool.or_eq_true_iff.mpr (.inl ?_))
    show (acceptance p).account.dump = true
    rw [haccount, hdump hunloading]
  · have hlink' : (settleInputs p.hold.state (acceptance p)).link = p.gen.link := hlink
    exact g_of_stopped (by rw [hlink']; exact hrun) (by rw [hlink']; exact hunloading)

theorem holdSound_of_account (h : holdSound p) {a : Account} (hrecords : recordsQuiet a)
    (hdump : quietHold p = true → p.gen.link = .unloading → a.dump = true) : holdSound (p.setAccount a) := by
  obtain ⟨hordered, -, hquiet, hzone⟩ := holdSound_iff.mp h
  refine holdSound_iff.mpr ⟨hordered, hrecords, fun hq => ?_, hzone⟩
  obtain ⟨hstarting, hrun, -⟩ := hquiet hq
  exact ⟨hstarting, hrun, hdump hq⟩

theorem holdSound_beginSettlement {senseHeld : Bool} (h : holdSound p) : holdSound (beginSettlement senseHeld p) := by
  have hoffer : holdSound (acceptOffer p) := holdSound_reads.keeps (acceptOffer_frame p) h
  have haccepted : holdSound (acceptance p) := by
    unfold acceptance
    exact .ite (holdSound_breakHold hoffer) hoffer
  have hbegun : holdSound (begunPart p) :=
    holdSound_reads.keeps ((judgeEpisode_frame ..).trans (n := [.blend, .slots, .auth, .cal, .scan, .ports])
      (keepPass_frame ..)) haccepted
  obtain ⟨-, ⟨hhistory, hcurrent, -⟩, hquiet, -⟩ := holdSound_iff.mp hbegun
  rw [beginSettlement_eq]
  refine holdSound_of_account hbegun ⟨hhistory, hcurrent, fun st hst => ?_⟩ fun hq hunloading => ?_
  · cases hst
    exact ⟨quietRecord_settlingOf h, fun htook => SettleInputs.g_of_dropped (Bool.or_eq_true_iff.mpr (.inl htook))⟩
  · obtain ⟨-, -, hdump⟩ := hquiet hq
    exact hdump hunloading

theorem recordsQuiet_closed {st : Settling} {a : Account} {tol : Nat} (h : recordsQuiet a)
    (hst : a.settling = some st) : recordsQuiet (closedAccount tol st a) := by
  obtain ⟨hhistory, hcurrent, hsettling⟩ := h
  obtain ⟨hrecord, -⟩ := hsettling st hst
  refine ⟨fun r hr => ?_, fun c hc => ?_, fun _ hnone => (nomatch hnone)⟩
  · obtain ⟨kept, hpush, hkept⟩ := pushHistory_eq a.history st.record
    rw [show (closedAccount tol st a).history = _ from hpush] at hr
    obtain hr | hr := List.mem_append.mp hr
    · refine hhistory r ?_
      obtain ⟨rfl, -⟩ | rfl := hkept
      · exact hr
      · exact List.mem_of_mem_tail hr
    · exact List.mem_singleton.mp hr ▸ hrecord
  · cases hc
    exact hrecord

section
variable {st : Settling}

/-- The sequencer's decisions on a settled record keep the law, and an engine that still unloads after a record of G
zero did not unload before (R113, R116, R117). -/
theorem holdSound_decided (h : holdSound p) : holdSound (p.setGen (decidedPart st p).gen) ∧
    ((decidedPart st p).gen.link = .unloading → mayRun p ∨ p.gen.link = .unloading ∧ st.record.g ≠ 0) := by
  have hlinks := linkOrdered_of_sound h
  have hmoved {g : Sequencer} (hg : (decidedPart st p).gen = g) (hordered : linkOrdered g)
      (hrequest : g.startRequest = true → p.gen.startRequest = true)
      (hwork : g.link.starting = true ∨ g.link = .run → mayRun p)
      (hunload : g.link = .unloading → mayRun p ∨ p.gen.link = .unloading ∧ st.record.g ≠ 0) :
      holdSound (p.setGen (decidedPart st p).gen) ∧
        ((decidedPart st p).gen.link = .unloading → mayRun p ∨ p.gen.link = .unloading ∧ st.record.g ≠ 0) := by
    rw [hg]
    exact ⟨holdSound_of_gen h (setGen_frame p g) hordered hrequest hwork fun hu =>
      (hunload hu).elim .inr fun ⟨hbefore, _⟩ => .inl hbefore, hunload⟩
  have hkept (hg : (decidedPart st p).gen = p.gen)
      (hunload : p.gen.link = .unloading → mayRun p ∨ p.gen.link = .unloading ∧ st.record.g ≠ 0) :=
    hmoved hg hlinks id (mayRun_of_working h) hunload
  by_cases hoff : p.gen.link = .off
  · have hg := decidedPart_gen_of_off (st := st) hoff
    split at hg
    · next hdecided =>
      obtain ⟨hzone, hquiet, -⟩ := hdecided
      exact hmoved hg (linkOrdered_of_moved hlinks rfl (by simp [hoff]) fun h => (nomatch h)) id
        (fun _ => ⟨hquiet, hzone⟩) fun h => (nomatch h)
    · exact hkept hg fun hu => by simp [hoff] at hu
  by_cases hrun : p.gen.link = .run
  · have hg := decidedPart_gen_of_run (st := st) hrun
    have hmay : mayRun p := mayRun_of_working h (.inr hrun)
    split at hg
    · exact hmoved hg (linkOrdered_of_moved hlinks rfl (by simp [hrun]) fun h => (nomatch h)) id (fun _ => hmay)
        fun _ => .inl hmay
    · exact hkept hg fun _ => .inl hmay
  by_cases hunloading : p.gen.link = .unloading
  · have hg := decidedPart_gen_of_unloading (st := st) hunloading
    split at hg
    · exact hmoved hg (linkOrdered_of_moved hlinks rfl (by simp [hunloading]) fun h => (nomatch h)) id
        (fun hwork => absurd (show LinkState.starting .stopSent = true ∨ LinkState.stopSent = .run from hwork) (by decide))
        fun h => (nomatch h)
    · next hg0 => exact hkept hg fun hu => .inr ⟨hu, hg0⟩
  · exact hkept (decidedPart_gen_of_other hoff hrun hunloading) fun hu => absurd hu hunloading

/-- A DUMP request that a settlement took has done its work: the record's G is zero, and the link is stopped (R19,
R117). -/
theorem holdSound_decidedPart (h : holdSound p) (hst : p.account.settling = some st) : holdSound (decidedPart st p) := by
  obtain ⟨-, hrecords, hquiet, hzone⟩ := holdSound_iff.mp h
  obtain ⟨hdecided, hunload⟩ := holdSound_decided (st := st) h
  obtain ⟨hhold, -, -, hzones⟩ := decidedPart_same st p
  have hclosed : holdSound ((p.setGen (decidedPart st p).gen).setAccount
      (closedAccount (p.cfg.num .mismatchTol) st p.account)) := by
    refine holdSound_of_account hdecided (recordsQuiet_closed hrecords hst) fun hq hlink => ?_
    rw [Part.setGen_gen] at hlink
    rw [quietHold_of_same (Part.setGen_hold ..)] at hq
    obtain hmay | ⟨hbefore, hg⟩ := hunload hlink
    · exact Bool.noConfusion (hmay.1.symm.trans hq)
    · obtain ⟨-, -, hdump⟩ := hquiet hq
      obtain ⟨-, -, hsettling⟩ := hrecords
      obtain ⟨-, htook⟩ := hsettling st hst
      show dumpAfter st p.account.dump = true
      unfold dumpAfter
      rw [if_neg (mt htook hg), hdump hbefore, Bool.or_true]
  have haccount : (decidedPart st p).account = closedAccount (p.cfg.num .mismatchTol) st p.account := by
    have hframe := (socFloorJudged_frame st.working.soc (decidedPart st p)).trans (n := [.hold, .gen, .auth, .ports])
      (settlementFrames_frame st _)
    have hsame : (settlementFrames st (settledPart st p)).account = (decidedPart st p).account :=
      hframe.same .account (by decide)
    rw [← hsame, ← settle_eq, settle_account]
  obtain ⟨hordered, hrecords', hquiet', hzone'⟩ := holdSound_iff.mp hclosed
  unfold quietHold linkQuiet at hquiet'
  unfold effQuietZone zoneQuiet at hzone'
  simp only [Part.setAccount_hold, Part.setAccount_gen, Part.setAccount_account, Part.setAccount_image, Part.setGen_hold,
    Part.setGen_gen, Part.setGen_image] at hordered hrecords' hquiet' hzone'
  refine holdSound_iff.mpr ?_
  unfold quietHold linkQuiet effQuietZone zoneQuiet
  rw [hhold, haccount, hzones]
  exact ⟨hordered, hrecords', hquiet', hzone'⟩

theorem holdSound_socFloorJudged {soc : Nat} (h : holdSound p) : holdSound (socFloorJudged soc p) := by
  have hlatch (b : Bool) (hquiet : quietHold p = true) : holdSound (p.setHold { p.hold with latch := b }) := by
    obtain ⟨hordered, hrecords, hlink, hzone⟩ := holdSound_iff.mp h
    exact holdSound_iff.mpr ⟨⟨hordered.promotion, hordered.layover, fun _ => quietHold_eq_true_iff.mp hquiet,
      hordered.request, hordered.failures, hordered.locked, hordered.discarded⟩, hrecords, hlink, hzone⟩
  unfold socFloorJudged
  split
  · exact h
  · next hq =>
    have hquiet : quietHold p = true := by simpa using hq
    split
    · split
      · split
        · exact h
        · exact holdSound_reads.keeps (setEvent_frame ..) (hlatch true hquiet)
      · next hzone => exact holdSound_holdRunWithStart h (Bool.eq_false_of_not_eq_true hzone)
    · exact hlatch false hquiet

theorem holdSound_settle (h : holdSound p) (hst : p.account.settling = some st) : holdSound (settle st p) :=
  holdSound_reads.keeps (settlementFrames_frame ..) (holdSound_socFloorJudged (holdSound_decidedPart h hst))

end

/-! ### Partners, timers and writes -/

theorem holdSound_setFreshness {partner : Partner} {f : Freshness} (h : holdSound p) :
    holdSound (setFreshness partner f p) := by
  have hzones : effQuietZone (setFreshness partner f p) = effQuietZone p := by cases partner <;> rfl
  obtain ⟨hordered, hrecords, hquiet, hzone⟩ := holdSound_iff.mp h
  exact holdSound_iff.mpr ⟨hordered, hrecords, hquiet, fun hz => hzone (hzones.symm.trans hz)⟩

theorem holdSound_driveSilent (h : holdSound p) : holdSound (driveSilent p) :=
  holdSound_breakHold (holdSound_reads.keeps (evalSource_frame ..) h)

theorem holdSound_brakeSilent (h : holdSound p) :
    holdSound (evalSource .limp (evalSource .blend (evalSource .slip p))) :=
  holdSound_reads.keeps (((evalSource_frame .slip p).seq (evalSource_frame ..)).seq (evalSource_frame ..)) h

theorem holdSound_generatorLost (h : holdSound p) : holdSound (generatorLost p) := by
  unfold generatorLost
  split
  case h_1 | h_2 => exact h
  all_goals exact holdSound_enterFailed h (by simp [*])

theorem holdSound_becomeStale {partner : Partner} (h : holdSound p) : holdSound (becomeStale partner p) := by
  have hfresh := holdSound_setFreshness (partner := partner) (f := .stale) h
  cases partner with
  | drive => exact holdSound_driveSilent hfresh
  | storage | generator => exact hfresh
  | brake => exact holdSound_brakeSilent hfresh

theorem holdSound_becomeLost {partner : Partner} (h : holdSound p) : holdSound (becomeLost partner p) := by
  have hfresh := holdSound_setFreshness (partner := partner) (f := .lost) h
  cases partner with
  | drive => exact holdSound_driveSilent hfresh
  | storage => exact hfresh
  | generator => exact holdSound_generatorLost hfresh
  | brake => exact holdSound_brakeSilent hfresh

theorem holdSound_lostIfNever {partner : Partner} (h : holdSound p) : holdSound (lostIfNever partner p) := by
  unfold lostIfNever
  exact .ite (holdSound_becomeLost h) h

theorem holdSound_freshnessLimitWritten {partner : Partner} (h : holdSound p) :
    holdSound (freshnessLimitWritten partner p) := by
  have hstale : holdSound (if staleDue partner p then becomeStale partner p else p) := .ite (holdSound_becomeStale h) h
  unfold freshnessLimitWritten
  exact .ite (holdSound_becomeLost hstale) hstale

theorem holdSound_layoverExpires (h : holdSound p) : holdSound (layoverExpires p) := by
  unfold layoverExpires
  split
  · obtain ⟨hordered, hrecords, hquiet, hzone⟩ := holdSound_iff.mp h
    exact holdSound_iff.mpr ⟨⟨hordered.promotion, fun h => (nomatch h), hordered.latch, hordered.request,
      hordered.failures, hordered.locked, hordered.discarded⟩, hrecords, hquiet, hzone⟩
  · next hzone => exact holdSound_holdRunWithStart h (Bool.eq_false_of_not_eq_true hzone)

/-- The promotion timer runs in HOLD_QUIET alone. -/
theorem holdSound_promote (h : holdSound p) (hdue : promotionDue p = true) : holdSound (promote p) := by
  obtain ⟨hordered, -, -, -⟩ := holdSound_iff.mp h
  have hstate := hordered.promotion (Bool.and_eq_true_iff.mp hdue).1
  exact holdSound_changeHold_of_quiet h (quietHold_eq_true_iff.mpr (.inl hstate)) fun h => (nomatch h)

theorem holdSound_expireHoldTimers (h : holdSound p) : holdSound (expireHoldTimers p) := by
  unfold expireHoldTimers
  split
  · next hdue => exact holdSound_promote h hdue
  · exact .ite (holdSound_layoverExpires h) h

theorem holdSound_deepPromotionWritten (h : holdSound p) : holdSound (deepPromotionWritten p) := by
  obtain ⟨hordered, hrecords, hquiet, hzone⟩ := holdSound_iff.mp h
  exact holdSound_expireHoldTimers (holdSound_iff.mpr ⟨⟨fun hp => of_decide_eq_true (Bool.and_eq_true_iff.mp hp).1,
    hordered.layover, hordered.latch, hordered.request, hordered.failures, hordered.locked, hordered.discarded⟩,
    hrecords, hquiet, hzone⟩)

theorem holdSound_numWritten {i : NumItem} (h : holdSound p) : holdSound (numWritten i p) := by
  unfold numWritten
  split
  case h_1 => exact holdSound_reads.keeps (evalSource_frame ..) h
  case h_2 | h_3 | h_4 | h_5 => exact holdSound_freshnessLimitWritten h
  case h_6 => exact holdSound_deepPromotionWritten h
  case h_7 | h_8 => exact holdSound_expireHoldTimers h
  case h_9 | h_10 => exact holdSound_reads.keeps (reformFactors_frame p) h
  case h_11 => exact holdSound_reads.keeps (setScan_frame ..) h
  all_goals exact h

theorem holdSound_applyWrite {it : ConfigItem} {v : ConfigValue} (h : holdSound p) : holdSound (applyWrite it v p) := by
  have hcfg (c : ConfigStore) : holdSound (p.setCfg c) := holdSound_reads.keeps (setCfg_frame p c) h
  unfold applyWrite
  split
  · exact holdSound_numWritten (hcfg _)
  · exact hcfg _
  · exact hcfg _
  · exact holdSound_reads.keeps (replaceRoutineList_frame ..) h
  · exact holdSound_reads.keeps (reconfigureMonitor_frame ..) h
  · exact hcfg _
  · exact holdSound_reads.keeps ((setWatch_frame _ _).trans (n := [.watch]) (moveWatch_frame _)) (hcfg _)
  · exact h

theorem holdSound_configWrite {port : Port} {number : BitVec 16} {bytes : List Byte} (h : holdSound p) :
    holdSound (configWrite port number bytes p).part := by
  unfold configWrite writeValue
  repeat' split
  all_goals first
    | exact h
    | exact holdSound_reads.keeps (writeOverrideCode_frame ..) h
    | exact holdSound_applyWrite h

theorem holdSound_clearLockout (h : holdSound p) : holdSound (clearLockout p).part := by
  have hclear (hlink : p.gen.link ≠ .lockedOut) : holdSound (p.setGen { p.gen with failures := 0 }) :=
    holdSound_of_gen h (setGen_frame p _) (linkOrdered_of_cleared rfl hlink) id
      (fun hwork => mayRun_of_working h hwork) fun hunload => .inl hunload
  unfold clearLockout
  split
  · next hlocked =>
    obtain ⟨-, -, hdiscarded⟩ := linkOrdered_of_sound h
    have hrequest := hdiscarded hlocked
    have hgen : (enterOff (p.setGen { p.gen with failures := 0 })).gen =
        { p.gen with link := .off, failures := 0, timer := none } := (clearLockout_gen_of_locked hlocked hrequest).2
    show holdSound (enterOff (p.setGen { p.gen with failures := 0 }))
    refine holdSound_of_gen h ((setGen_frame p _).trans (n := [.gen]) (enterOff_frame _)) ?_ ?_ ?_ ?_ <;> rw [hgen]
    · exact linkOrdered_of_cleared rfl fun h => (nomatch h)
    · exact id
    · exact fun hwork => absurd (show LinkState.starting .off = true ∨ LinkState.off = .run from hwork) (by decide)
    · exact fun h => (nomatch h)
  · next hlink => exact hclear hlink

theorem holdSound_of_reset (hhold : p.hold = resetHold) (hgen : p.gen = resetSequencer)
    (haccount : p.account = resetAccount) : holdSound p := by
  refine holdSound_iff.mpr ?_
  unfold quietHold linkQuiet zoneQuiet
  rw [hhold, hgen, haccount]
  exact ⟨⟨fun h => (nomatch h), fun h => (nomatch h), fun h => (nomatch h), fun h => (nomatch h), by decide, by decide,
    fun h => (nomatch h)⟩, ⟨fun _ h => (nomatch h), fun _ h => (nomatch h), fun _ h => (nomatch h)⟩,
    fun h => (nomatch h), fun _ => by decide⟩

/-! ### Every step -/

/-- A status frame of another partner than the drive changes no quiet zone. -/
theorem holdSound_of_image (h : holdSound p) (hframe : changesOnly l p q)
    (hzones : q.image.drive.data.quietZone = p.image.drive.data.quietZone)
    (hl : ∀ b ∈ [Block.account, .hold, .gen], b ∉ l := by decide) : holdSound q := by
  have haccount : q.account = p.account := hframe.same .account (hl _ (by decide))
  have hhold : q.hold = p.hold := hframe.same .hold (hl _ (by decide))
  have hgen : q.gen = p.gen := hframe.same .gen (hl _ (by decide))
  unfold holdSound quietSetPoint quietHold effQuietZone at *
  rwa [hzones, haccount, hhold, hgen]

theorem holdSound_readyCheck (h : holdSound p) : holdSound (readyCheck p) :=
  holdSound_reads.keeps (readyCheck_frame p) h

theorem holdSound_genArrival {report : EngineReport} {d : GenData} (h : holdSound p) :
    holdSound (genArrival report d p) := by
  have hstored : holdSound (readyCheck (storeGenerator d p)) :=
    holdSound_readyCheck (holdSound_of_image h (storeGenerator_frame d p) rfl)
  exact holdSound_judgeReport (holdSound_of_gen hstored (setGen_frame ..) (linkOrdered_of_sound hstored) id
    (fun hwork => mayRun_of_working hstored hwork) fun hunload => .inl hunload)

theorem holdSound_brakeArrival {d : BrakeData} (h : holdSound p) : holdSound (brakeArrival d p) := by
  have hstored : holdSound (readyCheck (storeBrake d p)) :=
    holdSound_readyCheck (holdSound_of_image h (storeBrake_frame d p) rfl)
  have hevaluated : holdSound (evalBrakeSources (readyCheck (storeBrake d p))) :=
    holdSound_reads.keeps (((evalSource_frame .safeStop _).seq (evalSource_frame .slip _)).seq
      ((evalSource_frame .blend _).seq (evalSource_frame .limp _))) hstored
  have hheld : holdSound (holdRoll (evalBrakeSources (readyCheck (storeBrake d p)))) := by
    unfold holdRoll
    exact .ite (holdSound_breakHold (holdSound_reads.keeps (setEvent_frame ..) hevaluated)) hevaluated
  unfold brakeArrival speedArrival
  exact .ite (holdSound_reads.keeps (ceaseStanding_frame _) hheld) hheld

theorem sameRecords_arriveBeginning (b : Bool) (p : Part) : (arriveBeginning b p).account.history = p.account.history ∧
    (arriveBeginning b p).account.current = p.account.current ∧
    (arriveBeginning b p).account.settling = p.account.settling ∧
    (arriveBeginning b p).account.dump = p.account.dump := by
  unfold arriveBeginning
  split <;> exact ⟨rfl, rfl, rfl, rfl⟩

/-- A beginning that arrives waits at the settlement unit, which keeps its records and its request. -/
theorem holdSound_arriveBeginning {b : Bool} (h : holdSound p) : holdSound (arriveBeginning b p) := by
  obtain ⟨hhistory, hcurrent, hsettling, hdump⟩ := sameRecords_arriveBeginning b p
  have hframe := arriveBeginning_frame b p
  have himage : (arriveBeginning b p).image = p.image := hframe.same .image (by decide)
  have hhold : (arriveBeginning b p).hold = p.hold := hframe.same .hold (by decide)
  have hgen : (arriveBeginning b p).gen = p.gen := hframe.same .gen (by decide)
  unfold holdSound quietSetPoint quietHold effQuietZone at *
  rwa [himage, hhold, hgen, hhistory, hcurrent, hsettling, hdump]

theorem holdSound_resultClosed : ResultClosed holdSound where
  item _ hp := holdSound_reads.keeps (setWearItem_frame ..) hp
  event hp := holdSound_reads.keeps (setEvent_frame ..) hp
  judge hp := holdSound_reads.keeps (judgeItem_frame ..) hp
  scan hp := holdSound_reads.keeps (setScan_frame ..) hp
  thermal hp := holdSound_reads.keeps (setThermalSet_frame ..) hp
  beginning hp := holdSound_arriveBeginning hp

theorem holdSound_eventTrigger (h : holdSound p) : holdSound (eventTrigger p) := by
  unfold eventTrigger
  split
  · exact holdSound_reads.keeps (setMode_frame ..) h
  · exact holdSound_reads.keeps (setMode_frame ..) h
  · exact h
  · exact holdSound_arriveBeginning h

theorem holdSound_effect (i : Instr) (p : Part) (hreach : ∃ b ∈ [Block.image, .account, .hold, .gen], b ∈ effectBlocks i)
    (h : holdSound p) : holdSound (effect i p) := by
  by_cases hdomains : movesDomains i = true
  · exact effect_keeps_of_movesDomains holdSound_reads hdomains h (fun _ _ _ => holdSound_of_reset rfl rfl rfl)
      fun _ _ => holdSound_of_reset (runReset_hold ..) (runReset_gen ..) (runReset_account ..)
  cases i with
  | driveStatus => exact whenRunning_keeps h fun _ => holdSound_driveArrival h
  | storageStatus =>
    exact whenRunning_keeps h fun _ => holdSound_readyCheck (holdSound_of_image h (storeStorage_frame ..) rfl)
  | genStatus => exact whenRunning_keeps h fun _ => holdSound_genArrival h
  | brakeStatus => exact whenRunning_keeps h fun _ => holdSound_brakeArrival h
  | configWrite => exact request_keeps (fun hq => holdSound_reads.keeps hq) h (holdSound_configWrite h)
  | clearLockout => exact request_keeps (fun hq => holdSound_reads.keeps hq) h (holdSound_clearLockout h)
  | settlementTimerExpiry =>
    exact whenDue_keeps h fun _ _ => holdSound_eventTrigger (holdSound_reads.keeps (setTime_frame p _) h)
  | conversionComplete => exact whenRunning_keeps h fun _ => holdSound_resultClosed.conversionCompletes h
  | settlementBegin =>
    refine whenDue_keeps h fun _ _ => ?_
    unfold beginWaiting
    split
    · exact holdSound_beginSettlement h
    · exact h
  | accountSettled =>
    refine whenRunning_keeps h fun _ => ?_
    unfold settleCurrent
    split
    · next hs => exact holdSound_settle h hs
    · exact h
  | promotionTimerExpiry => exact whenDue_keeps h fun _ hdue => holdSound_promote h hdue
  | layoverTimerExpiry => exact whenDue_keeps h fun _ _ => holdSound_layoverExpires h
  | startTimeout =>
    refine whenDue_keeps h fun _ hdue => holdSound_enterFailed h fun hlocked => ?_
    simp [startTimeoutDue, hlocked] at hdue
  | stopTimeout =>
    refine whenDue_keeps h fun _ hdue => holdSound_enterFailed h fun hlocked => ?_
    simp [stopTimeoutDue, hlocked] at hdue
  | genSettleExpiry =>
    refine whenDue_keeps h fun _ hdue => holdSound_enterRun h (mayRun_of_working h (.inl ?_))
    have hlink : p.gen.link = .settling := of_decide_eq_true (Bool.and_eq_true_iff.mp hdue).1
    rw [hlink]
    rfl
  | retryDelayExpiry =>
    refine whenDue_keeps h fun _ hdue => holdSound_enterOff h fun hlocked => ?_
    simp [retryDue, hlocked] at hdue
  | partnerStale => exact whenDue_keeps h fun _ _ => holdSound_becomeStale h
  | partnerLost => exact whenDue_keeps h fun _ _ => holdSound_becomeLost h
  | startWindowExpiry =>
    exact whenDue_keeps h fun _ _ => holdSound_reads.keeps (setPartState_frame ..)
      (holdSound_lostIfNever (holdSound_lostIfNever (holdSound_lostIfNever (holdSound_lostIfNever h))))
  | _ => first | exact absurd rfl hdomains | exact absurd hreach (by simp [effectBlocks])

/-- Settles O52: the link works only where it may, a quiet zone stops it at its arrival, and a DUMP request stands until
a settlement of G zero has stopped an unloading engine. -/
theorem stepKeepsHoldSound : Obligations.StepKeepsHoldSound :=
  fun _ _ => step_keeps holdSound_reads holdSound_effect

end Sys2Proof.Machine
end

