-- ==== Sys2Proof/Proofs/StatusArrivals.lean ====
section
/-! SUPPORT. The arrivals of the four status frames: the image and the part state (R28 to R33, R205), the hold
controller's judgement (R99 to R108), the quiet zone at the link (R118), and the flags and entries of the arbiter (R43,
R50). -/

set_option Elab.async false

namespace Sys2Proof.Machine

variable {p q r : Part} {new : HoldState} {rule : Option Nat} {l : List Block} {before : DriveData}

/-! ### Fields, freshness and the part state -/

theorem directionOf_eq (code : Byte) : directionOf code =
    if code = 1#8 then .forward else if code = 2#8 then .reverse else .neutral := by
  have htoNat (k : Nat) (hk : k < 256) : code.toNat = k ↔ code = BitVec.ofNat 8 k := by
    constructor
    · exact fun h => BitVec.eq_of_toNat_eq (by rw [h, BitVec.toNat_ofNat, Nat.mod_eq_of_lt hk])
    · rintro rfl
      rw [BitVec.toNat_ofNat, Nat.mod_eq_of_lt hk]
  by_cases h1 : code = 1#8
  · rw [if_pos h1, h1]
    rfl
  · by_cases h2 : code = 2#8
    · rw [if_neg h1, if_pos h2, h2]
      rfl
    · rw [if_neg h1, if_neg h2]
      unfold directionOf
      split
      · next h => exact absurd ((htoNat 1 (by decide)).mp h) h1
      · next h => exact absurd ((htoNat 2 (by decide)).mp h) h2
      · rfl

theorem directionOf_forward_iff {code : Byte} : directionOf code = .forward ↔ code = 1#8 := by
  rw [directionOf_eq]
  split
  · simp [*]
  · split <;> simp [*]

theorem directionOf_reverse_iff {code : Byte} : directionOf code = .reverse ↔ code = 2#8 := by
  rw [directionOf_eq]
  split
  · next h => simp [h]
  · split <;> simp [*]

theorem reportOf_eq (code : Byte) : reportOf code =
    if code = 0#8 then .stopped else if code = 1#8 then .cranking else if code = 2#8 then .running else .fault := by
  have htoNat (k : Nat) (hk : k < 256) (h : code.toNat = k) : code = BitVec.ofNat 8 k :=
    BitVec.eq_of_toNat_eq (by rw [h, BitVec.toNat_ofNat, Nat.mod_eq_of_lt hk])
  by_cases h0 : code = 0#8
  · rw [if_pos h0, h0]
    rfl
  · by_cases h1 : code = 1#8
    · rw [if_neg h0, if_pos h1, h1]
      rfl
    · by_cases h2 : code = 2#8
      · rw [if_neg h0, if_neg h1, if_pos h2, h2]
        rfl
      · rw [if_neg h0, if_neg h1, if_neg h2]
        unfold reportOf
        split
        · next h => exact absurd (htoNat 0 (by decide) h) h0
        · next h => exact absurd (htoNat 1 (by decide) h) h1
        · next h => exact absurd (htoNat 2 (by decide) h) h2
        · rfl

theorem readyCheck_partState (p : Part) : (readyCheck p).partState = .ready ↔
    p.partState = .ready ∨ ∀ partner, p.fresh partner ≠ .never := by
  have hall : (∀ partner, p.fresh partner ≠ .never) ↔ (decide (p.fresh .drive ≠ .never) &&
      decide (p.fresh .storage ≠ .never) && decide (p.fresh .generator ≠ .never) &&
      decide (p.fresh .brake ≠ .never)) = true := by
    simp only [Bool.and_eq_true, decide_eq_true_eq]
    exact ⟨fun h => ⟨⟨⟨h .drive, h .storage⟩, h .generator⟩, h .brake⟩,
      fun ⟨⟨⟨hd, hs⟩, hg⟩, hb⟩ partner => by cases partner <;> assumption⟩
  rw [hall]
  unfold readyCheck
  split
  · next h => exact iff_of_true rfl (.inr h)
  · next h => exact ⟨.inl, fun hor => hor.resolve_right h⟩

/-- A status frame makes its partner FRESH and leaves the freshness of the others (R33, R205). -/
theorem readyAfter_of_stored {partner : Partner} (hself : q.fresh partner = .fresh)
    (hother : ∀ other, other ≠ partner → q.fresh other = p.fresh other) (hstate : q.partState = p.partState)
    (hr : r.partState = (readyCheck q).partState) : readyAfter partner p r := by
  unfold readyAfter
  rw [hr, readyCheck_partState, hstate]
  refine or_congr_right ⟨fun h other hne => hother other hne ▸ h other, fun h other => ?_⟩
  by_cases heq : other = partner
  · rw [heq, hself]
    exact fun h => (nomatch h)
  · rw [hother other heq]
    exact h other heq

/-- Settles O7: the image of each of the two partners, and the report at the sequencer. -/
theorem storageAndGenStatusTaken : Obligations.StorageAndGenStatusTaken := by
  refine ⟨fun soc pDisLim pChgLim flags s hrun => ?_, fun report pGenAvail s hrun => ?_⟩
  · have himage : (readyCheck (storeStorage (storageDataOf soc pDisLim pChgLim flags) s.part)).image = _ :=
      (readyCheck_frame _).same .image (by decide)
    refine ⟨_, exec_of_whenRunning hrun rfl, rfl, himage.trans ?_, ?_,
      (storeStorage_frame ..).trans (readyCheck_frame _)⟩
    · simp only [storeStorage, storageDataOf, Part.setImage_image, clampNat_zero]
      rfl
    · exact readyAfter_of_stored (q := storeStorage (storageDataOf soc pDisLim pChgLim flags) s.part) rfl
        (fun other h => by cases other <;> first | rfl | exact absurd rfl h) rfl rfl
  · have hstate : (genArrival (reportOf report) (genDataOf report pGenAvail) s.part).partState =
        (readyCheck (storeGenerator (genDataOf report pGenAvail) s.part)).partState := by
      rw [genArrival_eq]
      exact ((setGen_frame _ _).trans (n := [.gen, .wear, .warnings, .ports]) (judgeReport_frame ..)).same .partState
        (by decide)
    have hlast : (genArrival (reportOf report) (genDataOf report pGenAvail) s.part).gen.lastReport =
        some (reportOf report) := by
      rw [genArrival_eq, judgeReport_lastReport, reportStored_gen]
    have himage : (genArrival (reportOf report) (genDataOf report pGenAvail) s.part).image =
        { s.part.image with generator := ⟨genDataOf report pGenAvail, s.part.time.now, .fresh⟩ } := by
      rw [genArrival_eq, (judgeReport_frame ..).same .image (by decide), reportStored_image]
    refine ⟨_, exec_of_whenRunning hrun rfl, rfl, hlast.trans (congrArg some (reportOf_eq report)), himage.trans ?_, ?_,
      genArrival_gains .., genArrival_frame ..⟩
    · dsimp only
      rw [hlast, genDataOf, clampNat_zero]
    · exact readyAfter_of_stored (q := storeGenerator (genDataOf report pGenAvail) s.part) rfl
        (fun other h => by cases other <;> first | rfl | exact absurd rfl h) rfl hstate

/-! ### What the hold controller makes of an arrival -/

/-- From `p` to `q` the hold controller went to another state, with the arbiter's part of it (R50, R98, R108). -/
structure holdMoved (new : HoldState) (p q : Part) : Prop where
  state : q.hold.state = new
  flags : q.auth.flags = { p.auth.flags with hold := decide (new ≠ .drive) }
  released : entriesReleased (fun src => src = .hold && new = .drive) p q
  event : hasEvent .holdChange .pd q

theorem holdMoved_changeHold (new : HoldState) (rule : Option Nat) (p : Part) :
    holdMoved new p (changeHold new rule p) :=
  ⟨by rw [changeHold_hold], changeHold_flags .., changeHold_released .., hasEvent_changeHold rfl⟩

theorem holdMoved.frame (h : holdMoved new p q) (hframe : changesOnly l q r)
    (hl : ∀ b ∈ [Block.hold, .auth, .ports], b ∉ l := by decide) : holdMoved new p r := by
  have hhold : r.hold = q.hold := hframe.same .hold (hl _ (by decide))
  have hauth : r.auth = q.auth := hframe.same .auth (hl _ (by decide))
  have hports : Block.ports ∉ l := hl _ (by decide)
  obtain ⟨hstate, hflags, hreleased, hevent⟩ := h
  exact ⟨hhold ▸ hstate, hauth ▸ hflags, hreleased.frame hframe (.of_frame hframe hports)
    (.of_frame hframe hports) (hl _ (by decide)), hevent.of_gains (.of_frame hframe hports)⟩

theorem holdMoved_holdRunWithStart (p : Part) : holdMoved .holdRun p (holdRunWithStart p) :=
  (holdMoved_changeHold .holdRun none p).frame ((setStartRequest_frame ..).trans (n := [.gen]) (actOnRequest_frame _))

theorem enteredHold_moved (p : Part) : holdMoved (enteredHold p).hold.state p (enteredHold p) := by
  obtain ⟨state, hstate, hscan⟩ := enteredHold_eq p
  rw [enteredHold_hold, hstate]
  exact (holdMoved_changeHold state _ p).frame hscan

theorem holdMoved_enterHold (p : Part) : holdMoved (enterHold p).hold.state p (enterHold p) := by
  have hsame : (enterHold p).hold.state = (enteredHold p).hold.state := by
    rw [enterHold_state, enteredHold_hold]
  rw [hsame, enterHold_eq]
  split
  · exact enteredHold_moved p
  · exact (enteredHold_moved p).frame (quietEntryLink_frame _)

theorem holdMoved_breakHold (h : p.hold.state ≠ .drive) : holdMoved .drive p (breakHold p) := by
  rw [breakHold_of_hold h]
  exact holdMoved_changeHold ..

/-- A DRIVE_STATUS leaves the hold controller where it is, or takes it to another state. -/
theorem holdArrival_outcome (before : DriveData) (p : Part) : holdArrival before p = p ∨
    ∃ new, new ≠ p.hold.state ∧ holdMoved new p (holdArrival before p) := by
  have hbreak (hheld : p.hold.state ≠ .drive) : breakHold p = p ∨
      ∃ new, new ≠ p.hold.state ∧ holdMoved new p (breakHold p) :=
    .inr ⟨.drive, hheld.symm, holdMoved_breakHold hheld⟩
  unfold holdArrival
  split
  · next hstate =>
    split
    · refine .inr ⟨_, ?_, holdMoved_enterHold p⟩
      rw [hstate, enterHold_state]
      exact chosenState_ne_drive _ _
    · exact .inl rfl
  · next hstate =>
    split
    · exact hbreak (by rw [hstate]; exact fun h => (nomatch h))
    · unfold holdRunArrival
      split
      · refine .inr ⟨_, ?_, holdMoved_changeHold ..⟩
        rw [hstate]
        split <;> exact fun h => (nomatch h)
      · exact .inl rfl
  · next hstate =>
    split
    · exact hbreak (by rw [hstate]; exact fun h => (nomatch h))
    · unfold holdQuietArrival
      split
      · exact .inr ⟨_, by rw [hstate]; exact fun h => (nomatch h), holdMoved_changeHold ..⟩
      · exact .inl rfl
  · next hstate =>
    split
    · exact hbreak (by rw [hstate]; exact fun h => (nomatch h))
    · unfold layoverArrival
      split
      · exact .inr ⟨_, by rw [hstate]; exact fun h => (nomatch h), holdMoved_holdRunWithStart p⟩
      · split
        · exact .inr ⟨_, by rw [hstate]; exact fun h => (nomatch h), holdMoved_changeHold ..⟩
        · exact .inl rfl

/-- The HOLD flag and entry after an arrival, by the state before and after (R43, R50). -/
theorem holdArrival_flags (before : DriveData) (p : Part) : (holdArrival before p).auth.flags = { p.auth.flags with
    hold := if (holdArrival before p).hold.state = p.hold.state then p.auth.flags.hold
      else decide ((holdArrival before p).hold.state ≠ .drive) } := by
  obtain hsame | ⟨new, hne, hmoved⟩ := holdArrival_outcome before p
  · rw [hsame, if_pos rfl]
  · rw [hmoved.flags, hmoved.state, if_neg hne]

theorem holdArrival_released (before : DriveData) (p : Part) : entriesReleased (fun src => src = .hold &&
    p.hold.state ≠ .drive && (holdArrival before p).hold.state = .drive) p (holdArrival before p) := by
  obtain hsame | ⟨new, hne, hmoved⟩ := holdArrival_outcome before p
  · rw [hsame]
    refine (entriesReleased.refl p).congr fun src => ?_
    cases p.hold.state <;> simp
  · refine hmoved.released.congr fun src => ?_
    rw [hmoved.state]
    cases new <;> simp at hne ⊢
    exact fun _ => Ne.symm hne

/-! ### The quiet zone at the link -/

/-- The stop timer as it starts when the link is stopped now. -/
def stopTimer (p : Part) : Option GenTimer := some ⟨.stopTimeout, p.time.now, p.cfg.num .stopTimeout⟩

/-- A link that a quiet hold or a quiet zone stops at once (R101, R118). -/
def LinkState.stoppable (link : LinkState) : Prop := link = .run ∨ link = .unloading ∨ link.starting = true

theorem quietZoneStop_of_stoppable (h : p.gen.link.stoppable) :
    (quietZoneStop p).gen.link = .stopSent ∧ (quietZoneStop p).gen.timer = stopTimer p := by
  unfold quietZoneStop LinkState.stoppable at *
  cases hlink : p.gen.link <;> simp [hlink, LinkState.starting] at h <;> exact ⟨rfl, rfl⟩

theorem quietZoneStop_of_not_stoppable (h : ¬ p.gen.link.stoppable) : quietZoneStop p = p := by
  unfold quietZoneStop LinkState.stoppable at *
  cases hlink : p.gen.link <;> simp [hlink, LinkState.starting] at h <;> rfl

theorem quietEntryLink_of_zone (hzone : effQuietZone p = true) : quietEntryLink p = p ∨
    p.gen.link.stoppable ∧ (quietEntryLink p).gen.link = .stopSent ∧ (quietEntryLink p).gen.timer = stopTimer p := by
  unfold quietEntryLink
  split
  case h_1 =>
    rw [if_pos hzone]
    exact .inl rfl
  case h_2 hlink | h_3 hlink | h_4 hlink | h_5 hlink =>
    exact .inr ⟨by rw [hlink]; simp [LinkState.stoppable, LinkState.starting], rfl, rfl⟩
  all_goals exact .inl rfl

theorem changeHold_link (new : HoldState) (rule : Option Nat) (p : Part) :
    (changeHold new rule p).gen.link = p.gen.link ∧ (changeHold new rule p).gen.timer = p.gen.timer := by
  rw [changeHold_gen]
  exact ⟨rfl, rfl⟩

theorem breakHold_link (p : Part) : (breakHold p).gen.link = p.gen.link ∧ (breakHold p).gen.timer = p.gen.timer := by
  unfold breakHold
  split
  · exact ⟨rfl, rfl⟩
  · exact changeHold_link ..

/-- When a quiet zone comes on the hold controller leaves the link, or stops it as the zone is about to. -/
theorem holdArrival_link_of_rise (hbefore : before.quietZone = false) (hzone : effQuietZone p = true) :
    (holdArrival before p).gen.link = p.gen.link ∧ (holdArrival before p).gen.timer = p.gen.timer ∨
      p.gen.link.stoppable ∧ (holdArrival before p).gen.link = .stopSent ∧
        (holdArrival before p).gen.timer = stopTimer p := by
  unfold holdArrival
  split
  · split
    · obtain ⟨state, -, hscan⟩ := enteredHold_eq p
      have hframe := (changeHold_frame state (some (choiceRule p)) p).trans (n := [.hold, .gen, .auth, .scan, .ports])
        hscan
      have hgen : (enteredHold p).gen = (changeHold state (some (choiceRule p)) p).gen := hscan.same .gen (by decide)
      have hlink : (enteredHold p).gen.link = p.gen.link ∧ (enteredHold p).gen.timer = p.gen.timer := by
        rw [hgen]
        exact changeHold_link ..
      have hzone' : effQuietZone (enteredHold p) = true := by
        unfold effQuietZone at hzone ⊢
        rw [hframe.same .image (by decide), hzone]
      have htimer : stopTimer (enteredHold p) = stopTimer p := by
        unfold stopTimer
        rw [(hframe.same .time (by decide) : (enteredHold p).time = p.time),
          (hframe.same .cfg (by decide) : (enteredHold p).cfg = p.cfg)]
      rw [enterHold_eq]
      split
      · exact .inl hlink
      · obtain hkept | ⟨hstoppable, hstopped, hstarted⟩ := quietEntryLink_of_zone hzone'
        · rw [hkept]
          exact .inl hlink
        · exact .inr ⟨hlink.1 ▸ hstoppable, hstopped, hstarted.trans htimer⟩
    · exact .inl ⟨rfl, rfl⟩
  · refine .inl ?_
    unfold holdRunArrival
    split
    · exact breakHold_link p
    · split
      · exact changeHold_link ..
      · exact ⟨rfl, rfl⟩
  · refine .inl ?_
    unfold holdQuietArrival
    split
    · exact breakHold_link p
    · split
      · exact changeHold_link ..
      · exact ⟨rfl, rfl⟩
  · refine .inl ?_
    unfold layoverArrival
    rw [hbefore]
    split
    · exact breakHold_link p
    · split
      · next hover => cases hover
      · split
        · exact changeHold_link ..
        · exact ⟨rfl, rfl⟩

/-! ### DRIVE_STATUS -/

/-- The part with a DRIVE_STATUS in the image (R28, R33, R205). -/
def driveStored (d : DriveData) (p : Part) : Part := readyCheck (storeDrive d p)

/-- The part once the hold controller has judged the DRIVE_STATUS (R99 to R107). -/
def driveHeld (d : DriveData) (p : Part) : Part := holdArrival p.image.drive.data (driveStored d p)

/-- The part once the quiet zone has reached the link (R118). -/
def driveZoned (d : DriveData) (p : Part) : Part := quietZoneArrival p.image.drive.data (driveHeld d p)

theorem driveArrival_eq (d : DriveData) (p : Part) :
    driveArrival d p = evalSource .traction (evalSource .blend (driveZoned d p)) := rfl

theorem driveStored_frame (d : DriveData) (p : Part) : changesOnly [.image, .partState] p (driveStored d p) :=
  (storeDrive_frame d p).trans (readyCheck_frame _)

theorem driveHeld_frame (d : DriveData) (p : Part) :
    changesOnly [.hold, .gen, .auth, .scan, .account, .ports] (driveStored d p) (driveHeld d p) :=
  (holdArrival_frame ..).mono

theorem driveZoned_frame (d : DriveData) (p : Part) : changesOnly [.gen] (driveHeld d p) (driveZoned d p) :=
  quietZoneArrival_frame ..

theorem driveEvaluated_frame (d : DriveData) (p : Part) :
    changesOnly [.auth, .ports] (driveZoned d p) (driveArrival d p) :=
  (evalSource_frame .blend _).seq (evalSource_frame ..)

theorem driveStored_image (d : DriveData) (p : Part) :
    (driveStored d p).image = { p.image with drive := ⟨d, p.time.now, .fresh⟩ } :=
  (readyCheck_frame (storeDrive d p)).same .image (by decide)

theorem driveZoned_image (d : DriveData) (p : Part) : (driveZoned d p).image = (driveStored d p).image :=
  ((driveHeld_frame d p).trans (n := [.hold, .gen, .auth, .scan, .account, .ports]) (driveZoned_frame d p)).same .image
    (by decide)

theorem driveArrival_image (d : DriveData) (p : Part) :
    (driveArrival d p).image = { p.image with drive := ⟨d, p.time.now, .fresh⟩ } := by
  have hsame : (driveArrival d p).image = (driveZoned d p).image := (driveEvaluated_frame d p).same .image (by decide)
  rw [hsame, driveZoned_image, driveStored_image]

theorem driveArrival_hold (d : DriveData) (p : Part) : (driveArrival d p).hold = (driveHeld d p).hold :=
  ((driveZoned_frame d p).trans (n := [.gen, .auth, .ports]) (driveEvaluated_frame d p)).same .hold (by decide)

theorem driveArrival_gen (d : DriveData) (p : Part) : (driveArrival d p).gen = (driveZoned d p).gen :=
  (driveEvaluated_frame d p).same .gen (by decide)

theorem driveArrival_account' (d : DriveData) (p : Part) : (driveArrival d p).account = (driveHeld d p).account :=
  ((driveZoned_frame d p).trans (n := [.gen, .auth, .ports]) (driveEvaluated_frame d p)).same .account (by decide)

theorem driveArrival_scan (d : DriveData) (p : Part) : (driveArrival d p).scan = (driveHeld d p).scan :=
  ((driveZoned_frame d p).trans (n := [.gen, .auth, .ports]) (driveEvaluated_frame d p)).same .scan (by decide)

/-- What has come before the hold controller's judgement leaves hold, link, account and scanner. -/
theorem driveStored_same (d : DriveData) (p : Part) : (driveStored d p).hold = p.hold ∧ (driveStored d p).gen = p.gen ∧
    (driveStored d p).account = p.account ∧ (driveStored d p).scan = p.scan ∧ (driveStored d p).auth = p.auth ∧
    (driveStored d p).cfg = p.cfg ∧ (driveStored d p).time = p.time :=
  have h := driveStored_frame d p
  ⟨h.same .hold (by decide), h.same .gen (by decide), h.same .account (by decide), h.same .scan (by decide),
    h.same .auth (by decide), h.same .cfg (by decide), h.same .time (by decide)⟩

theorem requested_traction_driveZoned (d : DriveData) (p : Part) : requested .traction (driveZoned d p) =
    (decide (d.direction = .forward) || decide (d.direction = .reverse)) := by
  unfold requested effDirection Part.fresh
  rw [driveZoned_image, driveStored_image]
  exact Bool.and_true _

/-- Once the frame is in the image the direction and the speed are the stored ones (R43). -/
theorem requested_blend_driveZoned (d : DriveData) (p : Part) : requested .blend (driveZoned d p) =
    (p.blend.episode && decide (d.direction = .forward) && decide (p.cfg.num .vMinRegen ≤ p.image.brake.data.v) &&
      (decide (p.image.brake.freshness = .fresh) || decide (p.image.brake.freshness = .stale))) := by
  have hframe := ((driveStored_frame d p).trans (n := [.image, .partState, .hold, .gen, .auth, .scan, .account, .ports])
    (driveHeld_frame d p)).trans (n := [.image, .partState, .hold, .gen, .auth, .scan, .account, .ports])
    (driveZoned_frame d p)
  have hblend : (driveZoned d p).blend = p.blend := hframe.same .blend (by decide)
  have hcfg : (driveZoned d p).cfg = p.cfg := hframe.same .cfg (by decide)
  unfold requested effDirection effV Part.fresh
  rw [hblend, hcfg, driveZoned_image, driveStored_image]
  rfl

theorem driveArrival_flags (d : DriveData) (p : Part) : (driveArrival d p).auth.flags = { p.auth.flags with
    traction := requested .traction (driveZoned d p)
    blend := requested .blend (driveZoned d p)
    hold := if (driveHeld d p).hold.state = p.hold.state then p.auth.flags.hold
      else decide ((driveHeld d p).hold.state ≠ .drive) } := by
  obtain ⟨hhold, -, -, -, hauth, -, -⟩ := driveStored_same d p
  have hheld := holdArrival_flags p.image.drive.data (driveStored d p)
  rw [hhold, hauth] at hheld
  have hzoned : (driveZoned d p).auth = (driveHeld d p).auth := (driveZoned_frame d p).same .auth (by decide)
  rw [driveArrival_eq, evalSource_flags, evalSource_flags, requested_congr (evalSource_frame .blend (driveZoned d p)),
    hzoned, show (driveHeld d p).auth.flags = _ from hheld]
  rfl

theorem driveArrival_released (d : DriveData) (p : Part) : entriesReleased (fun src =>
    (src = .traction && !requested .traction (driveZoned d p)) || (src = .blend && !requested .blend (driveZoned d p)) ||
      (src = .hold && p.hold.state ≠ .drive && (driveHeld d p).hold.state = .drive)) p (driveArrival d p) := by
  obtain ⟨hhold, -⟩ := driveStored_same d p
  have hheld := holdArrival_released p.image.drive.data (driveStored d p)
  rw [hhold] at hheld
  have hgains : portsOnlyGainEvents (driveStored d p) (driveHeld d p) :=
    (portsOnlyGainEvents_controlClosed _).holdArrival (.refl _)
  have hzoned := (hheld.after (driveStored_frame d p) (.of_frame (driveStored_frame d p)) hgains).frame
    (driveZoned_frame d p) (.of_frame (driveZoned_frame d p)) (.of_frame (driveZoned_frame d p))
  have hblend := hzoned.trans (evalSource_released .blend _) (evalSource_gains ..)
  have htraction := hblend.trans (evalSource_released .traction _) (evalSource_gains ..)
  rw [requested_congr (evalSource_frame .blend (driveZoned d p))] at htraction
  refine htraction.congr fun src => ?_
  unfold driveHeld
  ac_rfl

theorem driveZoned_of_rise {d : DriveData} (hbefore : p.image.drive.data.quietZone = false) (hnow : d.quietZone = true) :
    driveZoned d p = quietZoneStop (driveHeld d p) := by
  have hzone : effQuietZone (driveHeld d p) = true := by
    unfold effQuietZone
    rw [(driveHeld_frame d p).same .image (by decide), driveStored_image, hnow]
  unfold driveZoned quietZoneArrival
  rw [if_pos (by rw [hbefore, hzone]; rfl)]

theorem driveZoned_of_steady {d : DriveData} (h : d.quietZone = false ∨ p.image.drive.data.quietZone = true) :
    driveZoned d p = driveHeld d p := by
  have hzone : effQuietZone (driveHeld d p) = d.quietZone := by
    unfold effQuietZone
    rw [(driveHeld_frame d p).same .image (by decide), driveStored_image]
  unfold driveZoned quietZoneArrival
  rw [if_neg]
  rw [hzone, Bool.and_eq_true_iff, Bool.not_eq_true']
  rintro ⟨hbefore, hnow⟩
  obtain h | h := h
  · cases h.symm.trans hnow
  · cases h.symm.trans hbefore

/-- A quiet zone that comes on stops a link at work and leaves another (R118). -/
theorem driveArrival_link_of_rise {d : DriveData} (hbefore : p.image.drive.data.quietZone = false)
    (hnow : d.quietZone = true) :
    (p.gen.link.stoppable → (driveArrival d p).gen.link = .stopSent ∧ (driveArrival d p).gen.timer = stopTimer p) ∧
      (¬ p.gen.link.stoppable →
        (driveArrival d p).gen.link = p.gen.link ∧ (driveArrival d p).gen.timer = p.gen.timer) := by
  obtain ⟨-, hgen, -, -, -, hcfg, htime⟩ := driveStored_same d p
  have hzone : effQuietZone (driveStored d p) = true := by
    unfold effQuietZone
    rw [driveStored_image, hnow]
  have htimer : stopTimer (driveStored d p) = stopTimer p := by
    unfold stopTimer
    rw [htime, hcfg]
  have htimer' : stopTimer (driveHeld d p) = stopTimer p := by
    unfold stopTimer
    rw [((driveHeld_frame d p).same .time (by decide) : (driveHeld d p).time = (driveStored d p).time), htime,
      ((driveHeld_frame d p).same .cfg (by decide) : (driveHeld d p).cfg = (driveStored d p).cfg), hcfg]
  have hheld := holdArrival_link_of_rise hbefore hzone
  rw [hgen, htimer] at hheld
  rw [driveArrival_gen, driveZoned_of_rise hbefore hnow, ← htimer']
  obtain ⟨hlink, hkept⟩ | ⟨hstoppable, hlink, hkept⟩ := hheld
  · refine ⟨fun hs => quietZoneStop_of_stoppable (by rw [show (driveHeld d p).gen.link = _ from hlink]; exact hs),
      fun hs => ?_⟩
    rw [quietZoneStop_of_not_stoppable (by rw [show (driveHeld d p).gen.link = _ from hlink]; exact hs)]
    exact ⟨hlink, hkept⟩
  · refine ⟨fun _ => ?_, fun hs => absurd hstoppable hs⟩
    rw [quietZoneStop_of_not_stoppable (by rw [show (driveHeld d p).gen.link = _ from hlink]; simp [LinkState.stoppable, LinkState.starting])]
    exact ⟨hlink, hkept.trans htimer'.symm⟩

/-- In DRIVE without a hold request the hold controller does nothing (R99). -/
theorem driveHeld_of_no_request {d : DriveData} (hstate : p.hold.state = .drive) (hrequest : d.holdRequest = false) :
    driveHeld d p = driveStored d p := by
  obtain ⟨hhold, -⟩ := driveStored_same d p
  have hentry : entryConditions (driveStored d p) = false := by
    unfold entryConditions
    rw [driveStored_image, hrequest]
    simp
  unfold driveHeld holdArrival
  rw [hhold, hstate]
  exact if_neg (by simp [hentry])

/-- Settles O6: the image, the hold controller, the link and the arbiter in their order. -/
theorem driveStatusTaken : Obligations.DriveStatusTaken := by
  intro pedal aDem direction flags s hrun
  have hflags := driveArrival_flags (driveDataOf pedal aDem direction flags) s.part
  have hreleased := driveArrival_released (driveDataOf pedal aDem direction flags) s.part
  have hheld := driveArrival_hold (driveDataOf pedal aDem direction flags) s.part
  refine ⟨_, exec_of_whenRunning hrun rfl, rfl, (driveArrival_image ..).trans ?image, ?ready, ?flags, ?released,
    fun hbefore hnow => ⟨fun hlink => ?_, fun hrun hunloading hstarting => ?_⟩, driveArrival_gains .., ?frame,
    fun hstate hrequest hzone => ?idle⟩
  case image =>
    simp only [driveDataOf, clampNat_zero, directionOf_eq]
    rfl
  case ready =>
    refine readyAfter_of_stored (q := storeDrive (driveDataOf pedal aDem direction flags) s.part) rfl
      (fun other h => by cases other <;> first | rfl | exact absurd rfl h) rfl ?_
    exact ((driveHeld_frame _ _).trans (n := [.hold, .gen, .auth, .scan, .account, .ports]) ((driveZoned_frame _ _).trans
      (n := [.gen, .auth, .ports]) (driveEvaluated_frame _ _))).same .partState (by decide)
  case flags =>
    refine hflags.trans ?_
    rw [hheld, requested_traction_driveZoned, requested_blend_driveZoned]
    simp only [driveDataOf, directionOf_forward_iff, directionOf_reverse_iff]
  case released =>
    rw [hflags, hheld]
    exact hreleased
  case frame => exact (driveArrival_frame ..).mono
  case idle =>
    obtain hkept := driveHeld_of_no_request (d := driveDataOf pedal aDem direction flags) hstate hrequest
    have hsteady := driveZoned_of_steady (d := driveDataOf pedal aDem direction flags) hzone
    rw [hkept] at hsteady
    exact (driveStored_frame _ _).trans (hsteady ▸ driveEvaluated_frame (driveDataOf pedal aDem direction flags) s.part)
  · exact (driveArrival_link_of_rise hbefore hnow).1 hlink
  · exact (driveArrival_link_of_rise hbefore hnow).2 (by simp [LinkState.stoppable, hrun, hunloading, hstarting])

end Sys2Proof.Machine
end

