-- ==== Sys2Proof/Proofs/HoldEntries.lean ====
section
/-! SUPPORT. The entry into a hold with what it does to link, account and scanner (R99 to R101, R146), the moves inside
the holds (R102 to R104) and the breaks (R107, R108), at arrivals and at the timers. -/

set_option Elab.async false

namespace Sys2Proof.Machine

variable {p q : Part} {d : DriveData} {new : HoldState} {rule : Option Nat}

/-! ### The action on the link at an entry -/

theorem quietEntryLink_of_run (hlink : p.gen.link = .run) (hzone : effQuietZone p = false) :
    (quietEntryLink p).gen.link = .unloading ∧ (quietEntryLink p).account.dump = true := by
  unfold quietEntryLink
  rw [hlink]
  dsimp only
  rw [if_neg (by simp [hzone])]
  exact ⟨rfl, rfl⟩

theorem quietEntryLink_of_run_in_zone (hlink : p.gen.link = .run) (hzone : effQuietZone p = true) :
    quietEntryLink p = p := by
  unfold quietEntryLink
  rw [hlink]
  exact if_pos hzone

theorem quietEntryLink_of_working (hlink : p.gen.link = .unloading ∨ p.gen.link.starting = true) :
    quietEntryLink p = enterStopSent p := by
  unfold quietEntryLink
  cases h : p.gen.link <;> simp [h, LinkState.starting] at hlink <;> rfl

/-- The zone's stop finds nothing to stop where the hold controller has left the link at rest. -/
theorem driveZoned_of_not_stoppable (h : ¬ (driveHeld d p).gen.link.stoppable) : driveZoned d p = driveHeld d p := by
  unfold driveZoned quietZoneArrival
  split
  · exact quietZoneStop_of_not_stoppable h
  · rfl

theorem quietZoneStop_startRequest (p : Part) : (quietZoneStop p).gen.startRequest = p.gen.startRequest := by
  unfold quietZoneStop
  split <;> rfl

theorem driveArrival_startRequest (d : DriveData) (p : Part) :
    (driveArrival d p).gen.startRequest = (driveHeld d p).gen.startRequest := by
  rw [driveArrival_gen]
  unfold driveZoned quietZoneArrival
  split
  · exact quietZoneStop_startRequest _
  · rfl

/-! ### The values that the hold controller judges -/

theorem effPedal_driveStored (d : DriveData) (p : Part) : effPedal (driveStored d p) = d.pedal := by
  unfold effPedal
  rw [driveStored_image]

theorem effV_driveStored (d : DriveData) (p : Part) : effV (driveStored d p) = p.image.brake.data.v := by
  unfold effV
  rw [driveStored_image]

theorem effQuietZone_driveStored (d : DriveData) (p : Part) : effQuietZone (driveStored d p) = d.quietZone := by
  unfold effQuietZone
  rw [driveStored_image]

/-- The hold entry's conditions on what the frame brings and what stands (R99). -/
theorem driveHeld_of_entry (hstate : p.hold.state = .drive) (hrequest : d.holdRequest = true)
    (hv : p.image.brake.data.v < 5) (hpedal : d.pedal < p.cfg.num .breakPedal) :
    driveHeld d p = enterHold (driveStored d p) := by
  obtain ⟨hhold, -, -, -, -, hcfg, -⟩ := driveStored_same d p
  have hentry : entryConditions (driveStored d p) = true := by
    unfold entryConditions Part.fresh
    rw [effV_driveStored, effPedal_driveStored, hhold, hcfg, driveStored_image, hstate, hrequest]
    simp [Image.freshness, Config.standingSpeed, hv, hpedal]
  unfold driveHeld holdArrival
  rw [hhold, hstate]
  exact if_pos hentry

theorem breakEvent_driveStored (d : DriveData) (p : Part) :
    breakEvent p.image.drive.data (driveStored d p) = true ↔ p.cfg.num .breakPedal ≤ d.pedal ∨ d.holdRequest = false ∨
      d.direction ≠ p.image.drive.data.direction := by
  obtain ⟨-, -, -, -, -, hcfg, -⟩ := driveStored_same d p
  unfold breakEvent effDirection
  rw [effPedal_driveStored, hcfg, driveStored_image]
  simp [or_assoc]

/-- A break event ends every hold (R107). -/
theorem driveHeld_of_break (hstate : p.hold.state ≠ .drive) (hbreak : p.cfg.num .breakPedal ≤ d.pedal ∨
    d.holdRequest = false ∨ d.direction ≠ p.image.drive.data.direction) :
    driveHeld d p = changeHold .drive none (driveStored d p) := by
  obtain ⟨hhold, -⟩ := driveStored_same d p
  have hevent := (breakEvent_driveStored d p).mpr hbreak
  rw [← breakHold_of_hold (by rw [hhold]; exact hstate)]
  unfold driveHeld holdArrival
  rw [hhold]
  cases h : p.hold.state with
  | drive => exact absurd h hstate
  | holdRun | holdQuiet | layover => exact if_pos hevent

/-- The rule of R100 that applies, in what the frame brings and what stands. -/
theorem choiceRule_driveStored (d : DriveData) (p : Part) : choiceRule (driveStored d p) =
    if d.quietZone = true then 1
    else if p.wear[8].level = .limit ∧ p.gen.link = .run then 2
    else if p.gen.link = .off ∨ p.gen.link = .failed ∨ p.gen.link = .lockedOut then 3
    else if p.cfg.num .socHold ≤ p.image.storage.data.soc ∧
      ((p.account.current.map fun c => c.1.x).getD 0) ≤ p.cfg.num .auxQuietMax then 4
    else 5 := by
  obtain ⟨-, hgen, haccount, -, -, hcfg, -⟩ := driveStored_same d p
  have hwear : (driveStored d p).wear = p.wear := (driveStored_frame d p).same .wear (by decide)
  have hx : recordX (driveStored d p) = (p.account.current.map fun c => c.1.x).getD 0 := by
    unfold recordX
    rw [haccount]
    cases p.account.current <;> rfl
  unfold choiceRule effSoc
  rw [effQuietZone_driveStored, hx, hgen, hcfg, hwear, driveStored_image]
  simp only [Bool.and_eq_true, Bool.or_eq_true, decide_eq_true_eq, or_assoc]

theorem chosenState_eq (n : Nat) (b : Bool) : chosenState n b =
    if n = 2 ∨ n = 5 then .holdRun else if b = true then .layover else .holdQuiet := by
  simp [chosenState]

/-! ### The entry -/

theorem enterHold_hold (p : Part) : (enterHold p).hold =
    { state := chosenState (choiceRule p) p.image.drive.data.layoverRequest
      entered := p.time.now
      rule := some (choiceRule p)
      latch := p.hold.latch && (chosenState (choiceRule p) p.image.drive.data.layoverRequest = .holdQuiet ||
        chosenState (choiceRule p) p.image.drive.data.layoverRequest = .layover)
      promotion := chosenState (choiceRule p) p.image.drive.data.layoverRequest = .holdQuiet && p.cfg.on .deepPromotion
      layover := chosenState (choiceRule p) p.image.drive.data.layoverRequest = .layover } := by
  obtain ⟨state, hstate, hscan⟩ := enteredHold_eq p
  have hentered : (enteredHold p).hold = (changeHold state (some (choiceRule p)) p).hold := hscan.same .hold (by decide)
  have hheld : (enterHold p).hold = (enteredHold p).hold := by
    rw [enterHold_eq]
    split
    · rfl
    · exact (quietEntryLink_frame _).same .hold (by decide)
  rw [hheld, hentered, changeHold_hold, hstate]

/-- The entry before it acts on the link leaves link and account. -/
theorem enteredHold_same (p : Part) : (enteredHold p).gen.link = p.gen.link ∧ (enteredHold p).account = p.account ∧
    effQuietZone (enteredHold p) = effQuietZone p := by
  obtain ⟨state, -, hscan⟩ := enteredHold_eq p
  have hgen : (enteredHold p).gen = (changeHold state (some (choiceRule p)) p).gen := hscan.same .gen (by decide)
  refine ⟨?_, (enteredHold_frame p).same .account (by decide), ?_⟩
  · rw [hgen]
    exact (changeHold_link ..).1
  · unfold effQuietZone
    rw [(enteredHold_frame p).same .image (by decide)]

theorem enterHold_of_run (h : (enterHold p).hold.state = .holdRun) : enterHold p = enteredHold p := by
  rw [enterHold_state] at h
  rw [enterHold_eq, if_pos h]

theorem enterHold_of_quiet (h : (enterHold p).hold.state ≠ .holdRun) : enterHold p = quietEntryLink (enteredHold p) := by
  rw [enterHold_state] at h
  rw [enterHold_eq, if_neg h]

/-- A link neither at work nor about to stop is left by every entry, and the account with it (R101). -/
theorem enterHold_of_stopped (hstarting : p.gen.link.starting = false) (hrun : p.gen.link ≠ .run)
    (hunloading : p.gen.link ≠ .unloading) : (enterHold p).gen.link = p.gen.link ∧ (enterHold p).account = p.account := by
  obtain ⟨hlink, haccount, -⟩ := enteredHold_same p
  by_cases hstate : (enterHold p).hold.state = .holdRun
  · rw [enterHold_of_run hstate]
    exact ⟨hlink, haccount⟩
  · rw [enterHold_of_quiet hstate, quietEntryLink_of_stopped (by rw [hlink]; exact hstarting) (by rw [hlink]; exact hrun)
      (by rw [hlink]; exact hunloading)]
    exact ⟨hlink, haccount⟩

theorem routineTrigger_scan_of_idle (h : p.scan.mode = .idle) : (routineTrigger .roundCompleting p).scan =
    { p.scan with mode := .routineRun, run := some (startingRun .roundCompleting p) } := by
  unfold routineTrigger
  rw [h]
  rfl

theorem routineTrigger_scan_of_busy (h : p.scan.mode ≠ .idle) : (routineTrigger .roundCompleting p).scan =
    { p.scan with pending := some .roundCompleting } := by
  have hmerge : mergeTrigger p.scan.pending .roundCompleting = .roundCompleting := by
    unfold mergeTrigger
    split <;> rfl
  unfold routineTrigger
  split
  · exact absurd ‹_› h
  all_goals
    rw [hmerge]
    rfl

/-- A routine trigger reads the scanner and the configuration alone. -/
theorem routineTrigger_scan_congr (hscan : q.scan = p.scan) (hcfg : q.cfg = p.cfg) :
    (routineTrigger .roundCompleting q).scan = (routineTrigger .roundCompleting p).scan := by
  have hrun : startingRun .roundCompleting q = startingRun .roundCompleting p := by
    unfold startingRun
    rw [hscan, hcfg]
  by_cases h : p.scan.mode = .idle
  · rw [routineTrigger_scan_of_idle h, routineTrigger_scan_of_idle (by rw [hscan]; exact h), hscan, hrun]
  · rw [routineTrigger_scan_of_busy h, routineTrigger_scan_of_busy (by rw [hscan]; exact h), hscan]

/-- The entry is a round-completing routine trigger while the stop trigger is on (R146). -/
theorem enterHold_scan (p : Part) : (enterHold p).scan =
    if p.cfg.on .stopTrigger then (routineTrigger .roundCompleting p).scan else p.scan := by
  have hentered : (enterHold p).scan = (enteredHold p).scan := by
    rw [enterHold_eq]
    split
    · rfl
    · exact (quietEntryLink_frame _).same .scan (by decide)
  rw [hentered]
  unfold enteredHold
  have hframe := changeHold_frame (chosenState (choiceRule p) p.image.drive.data.layoverRequest)
    (some (choiceRule p)) p
  generalize changeHold (chosenState (choiceRule p) p.image.drive.data.layoverRequest) (some (choiceRule p)) p = q at hframe
  have hscan : q.scan = p.scan := hframe.same .scan (by decide)
  have hcfg : q.cfg = p.cfg := hframe.same .cfg (by decide)
  dsimp only
  split
  · exact routineTrigger_scan_congr hscan hcfg
  · exact hscan

/-! ### HOLD_ENTRY -/

theorem hasEvent_driveArrival (h : hasEvent .holdChange .pd (driveHeld d p)) : hasEvent .holdChange .pd (driveArrival d p) :=
  (h.of_gains (.of_frame (driveZoned_frame d p))).of_gains ((evalSource_gains ..).trans (evalSource_gains ..))

section
variable (hheld : driveHeld d p = enterHold (driveStored d p))
include hheld

/-- HOLD_RUN leaves the link at work: it is not entered in a quiet zone (R100). -/
theorem entry_to_holdRun (hstate : (driveHeld d p).hold.state = .holdRun) :
    (driveArrival d p).gen.link = p.gen.link ∧ (driveArrival d p).account = p.account := by
  obtain ⟨-, hgen, haccount, -⟩ := driveStored_same d p
  obtain ⟨hlink, hkept, -⟩ := enteredHold_same (driveStored d p)
  rw [hheld] at hstate
  have hzone : d.quietZone = false := Bool.eq_false_iff.mpr fun hz => by
    rw [enterHold_state] at hstate
    exact chosenState_of_zone ((effQuietZone_driveStored d p).trans hz) _ hstate
  rw [driveArrival_gen, driveArrival_account', driveZoned_of_steady (.inl hzone), hheld, enterHold_of_run hstate, hlink,
    hkept, hgen, haccount]
  exact ⟨rfl, rfl⟩

theorem entry_from_run (hstate : (driveHeld d p).hold.state ≠ .holdRun) (hrun : p.gen.link = .run)
    (hzone : d.quietZone = false) :
    (driveArrival d p).gen.link = .unloading ∧ (driveArrival d p).account.dump = true := by
  obtain ⟨-, hgen, -⟩ := driveStored_same d p
  obtain ⟨hlink, -, hzones⟩ := enteredHold_same (driveStored d p)
  rw [hheld] at hstate
  rw [driveArrival_gen, driveArrival_account', driveZoned_of_steady (.inl hzone), hheld, enterHold_of_quiet hstate]
  exact quietEntryLink_of_run (by rw [hlink, hgen, hrun]) (by rw [hzones, effQuietZone_driveStored, hzone])

theorem entry_from_run_with_zone (hstate : (driveHeld d p).hold.state ≠ .holdRun) (hrun : p.gen.link = .run)
    (hbefore : p.image.drive.data.quietZone = false) (hzone : d.quietZone = true) :
    (driveArrival d p).gen.link = .stopSent ∧ (driveArrival d p).account = p.account := by
  obtain ⟨-, hgen, haccount, -⟩ := driveStored_same d p
  obtain ⟨hlink, hkept, hzones⟩ := enteredHold_same (driveStored d p)
  rw [hheld] at hstate
  refine ⟨((driveArrival_link_of_rise hbefore hzone).1 (.inl hrun)).1, ?_⟩
  rw [driveArrival_account', hheld, enterHold_of_quiet hstate, quietEntryLink_of_run_in_zone (by rw [hlink, hgen, hrun])
    (by rw [hzones, effQuietZone_driveStored, hzone]), hkept, haccount]

theorem entry_from_working (hstate : (driveHeld d p).hold.state ≠ .holdRun)
    (hwork : p.gen.link = .unloading ∨ p.gen.link.starting = true) :
    (driveArrival d p).gen.link = .stopSent ∧ (driveArrival d p).account = p.account := by
  obtain ⟨-, hgen, haccount, -⟩ := driveStored_same d p
  obtain ⟨hlink, hkept, -⟩ := enteredHold_same (driveStored d p)
  rw [hheld] at hstate
  have hstopped : driveHeld d p = enterStopSent (enteredHold (driveStored d p)) := by
    rw [hheld, enterHold_of_quiet hstate, quietEntryLink_of_working (by rw [hlink, hgen]; exact hwork)]
  have hat : (driveHeld d p).gen.link = .stopSent := by
    rw [hstopped]
    rfl
  have haccount' : (driveHeld d p).account = (enteredHold (driveStored d p)).account := by
    rw [hstopped]
    rfl
  rw [driveArrival_gen, driveArrival_account', driveZoned_of_not_stoppable (by
    rw [hat]; simp [LinkState.stoppable, LinkState.starting]), haccount', hkept, haccount]
  exact ⟨hat, rfl⟩

theorem entry_from_stopped (hrun : p.gen.link ≠ .run) (hunloading : p.gen.link ≠ .unloading)
    (hstarting : p.gen.link.starting = false) :
    (driveArrival d p).gen.link = p.gen.link ∧ (driveArrival d p).account = p.account := by
  obtain ⟨-, hgen, haccount, -⟩ := driveStored_same d p
  obtain ⟨hlink, hkept⟩ := enterHold_of_stopped (p := driveStored d p) (by rw [hgen]; exact hstarting)
    (by rw [hgen]; exact hrun) (by rw [hgen]; exact hunloading)
  rw [← hheld, hgen] at hlink
  rw [← hheld, haccount] at hkept
  rw [driveArrival_gen, driveArrival_account', driveZoned_of_not_stoppable (by
    rw [hlink]; simp [LinkState.stoppable, hrun, hunloading, hstarting])]
  exact ⟨hlink, hkept⟩

end

/-- Settles O10: the entry on the part with the frame stored, then the zone at the link. -/
theorem holdEntryChooses : Obligations.HoldEntryChooses := by
  intro pedal aDem direction flags s hrun hstate hrequest hv hpedal
  refine ⟨_, exec_of_whenRunning hrun rfl, ?_⟩
  generalize hd : driveDataOf pedal aDem direction flags = d
  have hlayover : d.layoverRequest = flags.getLsbD 1 := by rw [← hd]; rfl
  have hzone : d.quietZone = flags.getLsbD 2 := by rw [← hd]; rfl
  have hheld : driveHeld d s.part = enterHold (driveStored d s.part) := by
    refine driveHeld_of_entry hstate ?_ hv ?_
    · rw [← hd]
      exact hrequest
    · rw [← hd]
      simpa only [driveDataOf, clampNat_zero] using hpedal
  obtain ⟨-, -, -, hscan, -, hcfg, htime⟩ := driveStored_same d s.part
  have hsame := driveArrival_hold d s.part
  have hrule := choiceRule_driveStored d s.part
  rw [hzone] at hrule
  intro rule
  have hentered := enterHold_hold (driveStored d s.part)
  rw [show choiceRule (driveStored d s.part) = rule from hrule, driveStored_image, htime, hcfg, ← hheld] at hentered
  have hchosen : (driveHeld d s.part).hold.state = chosenState rule d.layoverRequest := by rw [hentered]
  have hmoved := hheld ▸ holdMoved_enterHold (driveStored d s.part)
  have hdrive : chosenState rule d.layoverRequest ≠ .drive := chosenState_ne_drive _ _
  have hround : (driveArrival d s.part).scan = if s.part.cfg.on .stopTrigger then
      (routineTrigger .roundCompleting s.part).scan else s.part.scan := by
    rw [driveArrival_scan, hheld, enterHold_scan, hcfg, hscan, routineTrigger_scan_congr hscan hcfg]
  rw [hsame]
  refine ⟨by rw [hentered], by rw [hentered], ?state, by rw [hentered], by rw [hentered], ?flag,
    hasEvent_driveArrival (hheld ▸ hmoved.event), entry_to_holdRun hheld, fun hq hlink => ⟨fun hclear => ?_,
      fun hset hbefore => ?_⟩, entry_from_working hheld, entry_from_stopped hheld, fun hoff => ?_, fun hon hidle => ?_,
    fun hon hbusy => ?_⟩
  case state => rw [hchosen, chosenState_eq, hlayover]
  case flag =>
    rw [driveArrival_flags]
    dsimp only
    rw [hchosen, hstate, if_neg hdrive]
    exact decide_eq_true hdrive
  · exact entry_from_run hheld hq hlink (hzone.trans hclear)
  · exact entry_from_run_with_zone hheld hq hlink hbefore (hzone.trans hset)
  · rw [hround, hoff]
    rfl
  · rw [hround, if_pos hon, routineTrigger_scan_of_idle hidle]
  · rw [hround, if_pos hon, routineTrigger_scan_of_busy hbusy]

/-! ### The moves inside the holds -/

section
variable (hpedal : d.pedal < p.cfg.num .breakPedal) (hrequest : d.holdRequest = true)
  (hdirection : d.direction = p.image.drive.data.direction)
include hpedal hrequest hdirection

theorem breakEvent_driveStored_of_none : breakEvent p.image.drive.data (driveStored d p) = false := by
  refine Bool.eq_false_iff.mpr fun h => ?_
  obtain h | h | h := (breakEvent_driveStored d p).mp h
  · omega
  · exact Bool.noConfusion (hrequest.symm.trans h)
  · exact h hdirection

theorem driveHeld_in_holdRun (hstate : p.hold.state = .holdRun) :
    driveHeld d p = holdRunArrival p.image.drive.data (driveStored d p) := by
  obtain ⟨hhold, -⟩ := driveStored_same d p
  unfold driveHeld holdArrival
  rw [hhold, hstate, breakEvent_driveStored_of_none hpedal hrequest hdirection]
  rfl

theorem driveHeld_in_holdQuiet (hstate : p.hold.state = .holdQuiet) :
    driveHeld d p = holdQuietArrival (driveStored d p) := by
  obtain ⟨hhold, -⟩ := driveStored_same d p
  unfold driveHeld holdArrival
  rw [hhold, hstate, breakEvent_driveStored_of_none hpedal hrequest hdirection]
  rfl

theorem driveHeld_in_layover (hstate : p.hold.state = .layover) :
    driveHeld d p = layoverArrival p.image.drive.data (driveStored d p) := by
  obtain ⟨hhold, -⟩ := driveStored_same d p
  unfold driveHeld holdArrival
  rw [hhold, hstate, breakEvent_driveStored_of_none hpedal hrequest hdirection]
  rfl

end

theorem holdRunArrival_of_rise (hbefore : p.image.drive.data.quietZone = false) (hzone : d.quietZone = true) :
    holdRunArrival p.image.drive.data (driveStored d p) =
      changeHold (if d.layoverRequest then .layover else .holdQuiet) (some 1) (driveStored d p) := by
  unfold holdRunArrival
  rw [hbefore, effQuietZone_driveStored, hzone, driveStored_image]
  rfl

theorem holdRunArrival_of_steady (h : p.image.drive.data.quietZone = true ∨ d.quietZone = false) :
    holdRunArrival p.image.drive.data (driveStored d p) = driveStored d p := by
  unfold holdRunArrival
  rw [effQuietZone_driveStored]
  exact if_neg (by obtain h | h := h <;> simp [h])

theorem holdQuietArrival_driveStored (d : DriveData) (p : Part) : holdQuietArrival (driveStored d p) =
    if d.layoverRequest then changeHold .layover p.hold.rule (driveStored d p) else driveStored d p := by
  obtain ⟨hhold, -⟩ := driveStored_same d p
  unfold holdQuietArrival
  rw [hhold, driveStored_image]

/-- The layover timer's interval since the entry (R104). -/
theorem layoverElapsed_iff : layoverElapsed p = true ↔
    1000 * p.cfg.num .layoverMax ≤ (p.time.now - p.hold.entered).toNat := by
  unfold layoverElapsed
  exact decide_eq_true_iff

theorem layoverElapsed_driveStored (d : DriveData) (p : Part) :
    layoverElapsed (driveStored d p) = layoverElapsed p := by
  obtain ⟨hhold, -, -, -, -, hcfg, htime⟩ := driveStored_same d p
  unfold layoverElapsed Part.since Part.now
  rw [hhold, hcfg, htime]

theorem layoverArrival_of_overdue (hbefore : p.image.drive.data.quietZone = true) (hzone : d.quietZone = false)
    (hover : layoverElapsed p = true) :
    layoverArrival p.image.drive.data (driveStored d p) = holdRunWithStart (driveStored d p) := by
  unfold layoverArrival
  rw [effQuietZone_driveStored, layoverElapsed_driveStored, hbefore, hzone, hover]
  rfl

theorem layoverArrival_of_not_overdue (h : p.image.drive.data.quietZone = false ∨ d.quietZone = true ∨
    layoverElapsed p = false) : layoverArrival p.image.drive.data (driveStored d p) =
      if p.image.drive.data.layoverRequest && !d.layoverRequest then
        changeHold .holdQuiet p.hold.rule (driveStored d p) else driveStored d p := by
  obtain ⟨hhold, -⟩ := driveStored_same d p
  unfold layoverArrival
  rw [effQuietZone_driveStored, layoverElapsed_driveStored, if_neg (by obtain h | h | h := h <;> simp [h]), hhold,
    driveStored_image]

/-- A change of hold state on the part with the frame stored, in what stood before. -/
theorem changeHold_driveStored_hold (new : HoldState) (rule : Option Nat) (d : DriveData) (p : Part) :
    (changeHold new rule (driveStored d p)).hold =
      { state := new
        entered := p.time.now
        rule := rule
        latch := p.hold.latch && (new = .holdQuiet || new = .layover)
        promotion := new = .holdQuiet && p.cfg.on .deepPromotion
        layover := new = .layover } := by
  obtain ⟨hhold, -, -, -, -, hcfg, htime⟩ := driveStored_same d p
  rw [changeHold_hold, hhold, hcfg, htime]

theorem hasEvent_driveArrival_of_changeHold (h : driveHeld d p = changeHold new rule (driveStored d p)) :
    hasEvent .holdChange .pd (driveArrival d p) :=
  hasEvent_driveArrival (by rw [h]; exact hasEvent_changeHold rfl)

/-- The link that a hold start request meets (R106). -/
theorem holdRunWithStart_link (p : Part) :
    (p.gen.link = .off → (holdRunWithStart p).gen.link = .startSent ∧ (holdRunWithStart p).gen.startRequest = false) ∧
    (p.gen.link ≠ .off → (holdRunWithStart p).gen.link = p.gen.link) ∧
    (p.gen.link = .stopSent → (holdRunWithStart p).gen.startRequest = true) := by
  rw [holdRunWithStart_gen]
  refine ⟨fun h => ?_, fun h => ?_, fun h => ?_⟩
  · rw [if_pos h]
    exact ⟨rfl, rfl⟩
  · rw [if_neg h]
    split <;> rfl
  · rw [h]
    rfl

theorem promotionDue_of_elapsed (h : p.hold.promotion = true)
    (helapsed : 1000 * p.cfg.num .layoverAfter ≤ (p.time.now - p.hold.entered).toNat) : promotionDue p = true :=
  Bool.and_eq_true_iff.mpr ⟨h, decide_eq_true helapsed⟩

/-- Settles O43: the move of each hold state at an arrival, then the two timers. -/
theorem holdsMoveInside : Obligations.HoldsMoveInside := by
  intro s hrun
  refine ⟨fun pedal aDem direction flags hpedal hrequest hdirection => ?arrival, fun hpromotion helapsed => ?promotion,
    fun hlayover helapsed => ?layover⟩
  case arrival =>
    refine ⟨_, exec_of_whenRunning hrun rfl, ?_⟩
    generalize hd : driveDataOf pedal aDem direction flags = d
    have hpedal' : d.pedal < s.part.cfg.num .breakPedal := by
      rw [← hd]
      simpa only [driveDataOf, clampNat_zero] using hpedal
    have hrequest' : d.holdRequest = true := by rw [← hd]; exact hrequest
    have hdirection' : d.direction = s.part.image.drive.data.direction := by rw [← hd]; exact hdirection
    have hlayover : flags.getLsbD 1 = d.layoverRequest := by rw [← hd]; rfl
    have hzone : flags.getLsbD 2 = d.quietZone := by rw [← hd]; rfl
    rw [hlayover, hzone]
    have hhold := driveArrival_hold d s.part
    obtain ⟨hstored, hgen, -⟩ := driveStored_same d s.part
    have hmoved {new : HoldState} {rule : Option Nat} (h : driveHeld d s.part = changeHold new rule (driveStored d s.part)) :
        (driveArrival d s.part).hold = (changeHold new rule (driveStored d s.part)).hold ∧
          hasEvent .holdChange .pd (driveArrival d s.part) :=
      ⟨by rw [hhold, h], hasEvent_driveArrival_of_changeHold h⟩
    have hkept (h : driveHeld d s.part = driveStored d s.part) : (driveArrival d s.part).hold = s.part.hold := by
      rw [hhold, h, hstored]
    refine ⟨fun hstate hbefore hnow => ?_, fun hstate hsteady => hkept ?_, fun hstate hset => ?_,
      fun hstate hclear => hkept ?_, fun hstate hbefore hnow hover => ?_, fun hstate hstays => ⟨fun hwas hnow => ?_,
        fun hother => hkept ?_⟩⟩
    · have hheld := driveHeld_in_holdRun hpedal' hrequest' hdirection' hstate
      rw [holdRunArrival_of_rise hbefore hnow] at hheld
      obtain ⟨hnew, hevent⟩ := hmoved hheld
      refine ⟨hevent, hnew.trans ?_⟩
      rw [changeHold_driveStored_hold]
      cases d.layoverRequest <;> simp
    · rw [driveHeld_in_holdRun hpedal' hrequest' hdirection' hstate, holdRunArrival_of_steady hsteady]
    · have hheld := driveHeld_in_holdQuiet hpedal' hrequest' hdirection' hstate
      rw [holdQuietArrival_driveStored, if_pos hset] at hheld
      obtain ⟨hnew, hevent⟩ := hmoved hheld
      refine ⟨hevent, hnew.trans ?_⟩
      rw [changeHold_driveStored_hold]
      simp
    · rw [driveHeld_in_holdQuiet hpedal' hrequest' hdirection' hstate, holdQuietArrival_driveStored,
        if_neg (by simp [hclear])]
    · have hheld := driveHeld_in_layover hpedal' hrequest' hdirection' hstate
      rw [layoverArrival_of_overdue hbefore hnow (layoverElapsed_iff.mpr hover)] at hheld
      obtain ⟨hoff, hother, hstop⟩ := holdRunWithStart_link (driveStored d s.part)
      have hlink : (driveArrival d s.part).gen = (holdRunWithStart (driveStored d s.part)).gen := by
        rw [driveArrival_gen, driveZoned_of_steady (.inl hnow), hheld]
      rw [hgen] at hoff hother hstop
      rw [hlink, hhold, hheld, holdRunWithStart_hold]
      refine ⟨hasEvent_driveArrival (by rw [hheld]; exact hasEvent_holdRunWithStart rfl), ?_, hoff,
        fun h => ⟨(hother (by simp [h])).trans h, hstop h⟩⟩
      rw [(driveStored_frame d s.part).same .time (by decide)]
    · have hheld := driveHeld_in_layover hpedal' hrequest' hdirection' hstate
      rw [layoverArrival_of_not_overdue (hstays.imp_right (Or.imp_right fun h =>
        Bool.eq_false_iff.mpr (mt layoverElapsed_iff.mp h))), if_pos (by rw [hwas, hnow]; rfl)] at hheld
      obtain ⟨hnew, hevent⟩ := hmoved hheld
      refine ⟨hevent, hnew.trans ?_⟩
      rw [changeHold_driveStored_hold]
      simp
    · rw [driveHeld_in_layover hpedal' hrequest' hdirection' hstate,
        layoverArrival_of_not_overdue (hstays.imp_right (Or.imp_right fun h =>
          Bool.eq_false_iff.mpr (mt layoverElapsed_iff.mp h))), if_neg (by obtain h | h := hother <;> simp [h])]
  case promotion =>
    refine ⟨_, exec_of_whenDue hrun (promotionDue_of_elapsed hpromotion helapsed) rfl, ?_, hasEvent_changeHold rfl,
      (promote_frame s.part).mono⟩
    show (changeHold .layover s.part.hold.rule s.part).hold = _
    rw [changeHold_hold]
    simp
  case layover =>
    refine ⟨_, exec_of_whenDue hrun (Bool.and_eq_true_iff.mpr ⟨hlayover, layoverElapsed_iff.mpr helapsed⟩) rfl,
      fun hzone => ?_, fun hzone => ?_⟩
    · rw [show layoverExpires s.part = _ from if_pos hzone]
      exact ⟨rfl, setHold_frame ..⟩
    · obtain ⟨hoff, hother, hstop⟩ := holdRunWithStart_link s.part
      have hzone' : ¬ effQuietZone s.part = true := by
        unfold effQuietZone
        simp [hzone]
      rw [show layoverExpires s.part = _ from if_neg hzone']
      exact ⟨holdRunWithStart_hold _, hasEvent_holdRunWithStart rfl, hoff, hother, hstop,
        (holdRunWithStart_frame _).mono⟩

end Sys2Proof.Machine
end

