-- ==== Sys2Proof/Proofs/ScannerMoves.lean ====
section
/-! SUPPORT. The scanner: its next step after a calibration or an event run (R142, R145), its two timers, a completed
conversion with what it does to the wear unit and the monitors (R139, R140, R144), and a calibration's end (R149). -/

set_option Elab.async false

namespace Sys2Proof.Machine

variable {p q r : Part} {kind : RunKind} {ch : Channel} {raw : BitVec 12} {k : MonitorNo} {i j : WearNo}

/-! ### The next step -/

theorem startingRun_left (kind : RunKind) (p : Part) : (startingRun kind p).left = runEntries kind p := by
  cases kind <;> rfl

theorem takePending_of_none (h : p.scan.pending = none) : takePending p = setMode .idle p := by
  rw [takePending, h]

theorem takePending_scan (h : p.scan.pending = some kind) : (takePending p).scan =
    { p.scan with mode := .routineRun, pending := none, run := some (startingRun kind p) } := by
  rw [takePending, h]
  cases kind <;> rfl

theorem resumeOrTake_of_run (h : p.scan.run.isSome = true) : resumeOrTake p = setMode .routineRun p := by
  obtain ⟨run, hrun⟩ := Option.isSome_iff_exists.mp h
  rw [resumeOrTake, hrun]

theorem resumeOrTake_of_none (h : p.scan.run = none) : resumeOrTake p = takePending p := by rw [resumeOrTake, h]

/-- The step is taken from a part whose scanner is that of `p` with calibration waiting clear. -/
theorem nextStepTaken_resumeOrTake (hscan : q.scan = { p.scan with calWaiting := false }) (hcfg : q.cfg = p.cfg) :
    nextStepTaken p (resumeOrTake q) := by
  refine ⟨fun hrun => ?_, fun hrun hpending => ?_, fun kind hrun hpending => ?_⟩
  · rw [resumeOrTake_of_run (by rw [hscan]; exact hrun), setMode, Part.setScan_scan, hscan]
  · rw [resumeOrTake_of_none (by rw [hscan]; exact hrun), takePending_of_none (by rw [hscan]; exact hpending), setMode,
      Part.setScan_scan, hscan]
  · have hstart : startingRun kind q = startingRun kind p := by
      rw [startingRun, startingRun, hscan, hcfg]
    rw [resumeOrTake_of_none (by rw [hscan]; exact hrun), takePending_scan (by rw [hscan]; exact hpending), hstart,
      hscan]

theorem ceaseStanding_of_calibrating (h : p.scan.mode.code = 3) : ceaseStanding p =
    resumeOrTake ((p.setCal (abandonedCal p.cal)).setScan { p.scan with calWaiting := false }) := by
  obtain ⟨start, codes, hmode⟩ := mode_code_eq_calibrating_iff.mp h
  rw [ceaseStanding, hmode]

theorem ceaseStanding_of_other (h : p.scan.mode.code ≠ 3) : ceaseStanding p =
    if p.scan.calWaiting then (p.setScan { p.scan with calWaiting := false }).setCal (abandonedCal p.cal) else p := by
  unfold ceaseStanding
  split
  · next start codes hmode => exact absurd (mode_code_eq_calibrating_iff.mpr ⟨start, codes, hmode⟩) h
  all_goals rfl

theorem standingCeased_ceaseStanding (p : Part) : standingCeased p (ceaseStanding p) := by
  refine ⟨fun hmode => ?_, fun hmode hwaits => ?_, fun hmode hfree => ?_⟩
  · rw [ceaseStanding_of_calibrating hmode]
    exact ⟨(resumeOrTake_frame _).same .cal (by decide), nextStepTaken_resumeOrTake rfl rfl⟩
  · rw [ceaseStanding_of_other hmode, if_pos hwaits]
    exact ⟨rfl, rfl⟩
  · rw [ceaseStanding_of_other hmode, hfree]
    exact ⟨rfl, rfl⟩

/-- It reads and writes the scanner and the offset record, and the configuration for a run's length. -/
theorem standingCeased.congr {p' q' : Part} (h : standingCeased p q) (hscan : p.scan = p'.scan) (hcal : p.cal = p'.cal)
    (hcfg : p.cfg = p'.cfg) (hscan' : q'.scan = q.scan) (hcal' : q'.cal = q.cal) : standingCeased p' q' := by
  unfold standingCeased nextStepTaken startingRun at *
  rw [hscan', hcal', ← hscan, ← hcal, ← hcfg]
  exact h

/-! ### The two timers -/

/-- The part when the settlement timer's mark has moved on by its period (R142). -/
def settlementMarked (p : Part) : Part :=
  p.setTime { p.time with settleMark := p.time.settleMark + BitVec.ofNat 32 Config.settlementPeriod }

theorem settlementExpires_eq (p : Part) : settlementExpires p = eventTrigger (settlementMarked p) := rfl

/-- The part when the routine period timer's mark has moved on by its period (R144). -/
def periodMarked (p : Part) : Part :=
  p.setScan { p.scan with periodMark := p.scan.periodMark + BitVec.ofNat 32 (p.cfg.num .routinePeriod) }

theorem routineExpires_eq (p : Part) : routineExpires p = routineTrigger .ordinary (periodMarked p) := rfl

theorem eventTrigger_of_routine (h : p.scan.mode = .idle ∨ p.scan.mode = .routineRun) :
    eventTrigger p = setMode (.eventRun p.cfg.eventGroup) p := by
  unfold eventTrigger
  obtain h | h := h <;> rw [h]

theorem eventTrigger_of_eventRun (h : p.scan.mode.code = 2) : eventTrigger p = p := by
  obtain ⟨rest, hmode⟩ := mode_code_eq_eventRun_iff.mp h
  rw [eventTrigger, hmode]

theorem eventTrigger_of_calibrating (h : p.scan.mode.code = 3) : eventTrigger p = arriveBeginning true p := by
  obtain ⟨start, codes, hmode⟩ := mode_code_eq_calibrating_iff.mp h
  rw [eventTrigger, hmode]

/-- A merged beginning keeps the mark of the first. -/
theorem arriveBeginning_account (held : Bool) (p : Part) : (arriveBeginning held p).account =
    { p.account with beginning := some (p.account.beginning.getD held) } := by
  unfold arriveBeginning
  cases h : p.account.beginning with
  | none => rfl
  | some b => simp only [Option.getD_some]; rw [← h]

theorem routineTrigger_of_idle (h : p.scan.mode = .idle) : routineTrigger kind p = startRun kind p := by
  rw [routineTrigger, h]

theorem routineTrigger_of_busy (h : p.scan.mode ≠ .idle) : routineTrigger kind p =
    p.setScan { p.scan with pending := some (mergeTrigger p.scan.pending kind) } := by
  unfold routineTrigger
  split
  · exact absurd ‹_› h
  all_goals rfl

theorem mergeTrigger_ordinary (pending : Option RunKind) :
    mergeTrigger pending .ordinary = pending.getD .ordinary := by
  cases pending with
  | none => rfl
  | some kind => cases kind <;> rfl

/-- Settles O25: the mark of each timer moves by its period, and the scanner acts by its state. -/
theorem scannerTimersExpire : Obligations.ScannerTimersExpire := by
  refine ⟨fun s hrun hdue => ?_, fun s hrun hdue => ?_⟩
  · refine ⟨_, exec_of_whenDue hrun (decide_eq_true hdue) rfl, (eventTrigger_frame _).same .time (by decide),
      fun hmode => ?_, fun hmode => ?_, fun hmode => ?_, settlementExpires_frame _⟩
    · rw [settlementExpires_eq, eventTrigger_of_routine (p := settlementMarked s.part) hmode]
      exact ⟨rfl, rfl⟩
    · rw [settlementExpires_eq, eventTrigger_of_eventRun (p := settlementMarked s.part) hmode]
      exact ⟨rfl, rfl⟩
    · rw [settlementExpires_eq, eventTrigger_of_calibrating (p := settlementMarked s.part) hmode]
      exact ⟨(arriveBeginning_frame ..).same .scan (by decide), arriveBeginning_account ..⟩
  · refine ⟨_, exec_of_whenDue hrun (decide_eq_true hdue) rfl, ?_⟩
    by_cases hmode : s.part.scan.mode = .idle
    · rw [routineExpires_eq, routineTrigger_of_idle (p := periodMarked s.part) hmode]
      exact ⟨fun _ => ⟨rfl, rfl, rfl⟩, fun h => absurd hmode h, rfl, rfl, rfl, (setScan_frame _ _).seq (setScan_frame ..)⟩
    · rw [routineExpires_eq, routineTrigger_of_busy (p := periodMarked s.part) hmode]
      exact ⟨fun h => absurd h hmode, fun _ => ⟨rfl, rfl, congrArg some (mergeTrigger_ordinary _)⟩, rfl, rfl, rfl,
        (setScan_frame _ _).seq (setScan_frame ..)⟩

/-! ### What a new result leaves of the scanner -/

/-- From `p` to `q` the scanner keeps everything but its monitors. -/
def scanKept (p q : Part) : Prop := q.scan = { p.scan with monitors := q.scan.monitors }

theorem scanKept.of_frame {l : List Block} (h : changesOnly l p q) (hl : .scan ∉ l := by decide) : scanKept p q := by
  rw [scanKept, (h.same .scan hl : q.scan = p.scan)]

theorem scanKept.trans (h1 : scanKept p q) (h2 : scanKept q r) : scanKept p r := by
  unfold scanKept at *
  rw [h2, h1]

theorem scanKept.run (h : scanKept p q) : q.scan.run = p.scan.run := by rw [h]
theorem scanKept.pending (h : scanKept p q) : q.scan.pending = p.scan.pending := by rw [h]
theorem scanKept.position (h : scanKept p q) : q.scan.position = p.scan.position := by rw [h]
theorem scanKept.calWaiting (h : scanKept p q) : q.scan.calWaiting = p.scan.calWaiting := by rw [h]
theorem scanKept.mode (h : scanKept p q) : q.scan.mode = p.scan.mode := by rw [h]
theorem scanKept.results (h : scanKept p q) : q.scan.results = p.scan.results := by rw [h]

/-- The state of a monitor after a new result of the channel, judged when its scope holds the channel (R153, R154). -/
def monitorAfter (ch : Channel) (k : MonitorNo) (p : Part) : Monitor :=
  if ch ∈ scopeChannels p.cfg.monitors[k].scope then judgedMonitor ch k p else p.scan.monitors[k]

theorem judgeMonitor_of_elsewhere (h : ch ∉ scopeChannels p.cfg.monitors[k].scope) : judgeMonitor ch k p = p := by
  simp only [judgeMonitor, if_neg h]

theorem judgeMonitor_sets (ch : Channel) (k : MonitorNo) (p : Part) : (judgeMonitor ch k p).scan =
    { p.scan with monitors := p.scan.monitors.set k (monitorAfter ch k p) } := by
  unfold monitorAfter
  by_cases hmem : ch ∈ scopeChannels p.cfg.monitors[k].scope
  · rw [if_pos hmem, judgeMonitor_scan hmem]
    rfl
  · rw [if_neg hmem, judgeMonitor_of_elsewhere hmem,
      show p.scan.monitors.set k p.scan.monitors[k] = p.scan.monitors from Vector.set_getElem_self _]

theorem judgeMonitor_scanKept (ch : Channel) (k : MonitorNo) (p : Part) : scanKept p (judgeMonitor ch k p) := by
  rw [scanKept, judgeMonitor_sets]

theorem judgeMonitor_cfg (ch : Channel) (k : MonitorNo) (p : Part) : (judgeMonitor ch k p).cfg = p.cfg :=
  (judgeMonitor_frame ch k p).same .cfg (by decide)

theorem judgeMonitor_monitor_self : (judgeMonitor ch k p).scan.monitors[k] = monitorAfter ch k p := by
  rw [judgeMonitor_sets]
  exact Vector.getElem_set_self _

theorem judgeMonitor_monitor_other {k' : MonitorNo} (h : k' ≠ k) :
    (judgeMonitor ch k p).scan.monitors[k'] = p.scan.monitors[k'] := by
  rw [judgeMonitor_sets]
  exact Vector.getElem_set_ne k.isLt k'.isLt (Fin.val_ne_of_ne h.symm)

/-- A monitor reads its configuration, the results and its own state. -/
theorem monitorAfter_congr (hcfg : q.cfg = p.cfg) (hresults : q.scan.results = p.scan.results)
    (hmonitor : q.scan.monitors[k] = p.scan.monitors[k]) : monitorAfter ch k q = monitorAfter ch k p := by
  unfold monitorAfter judgedMonitor judgedValues
  rw [hcfg, hresults, hmonitor]

/-- Some monitors judging one after another. -/
def judgeEach (ch : Channel) (l : List MonitorNo) (p : Part) : Part := l.foldl (fun q k => judgeMonitor ch k q) p

theorem judgeEach_scanKept (l : List MonitorNo) (p : Part) : scanKept p (judgeEach ch l p) := by
  induction l generalizing p with
  | nil => rfl
  | cons k l ih => exact (judgeMonitor_scanKept ch k p).trans (ih _)

theorem judgeEach_monitor_other {l : List MonitorNo} (h : k ∉ l) (p : Part) :
    (judgeEach ch l p).scan.monitors[k] = p.scan.monitors[k] := by
  induction l generalizing p with
  | nil => rfl
  | cons k' l ih =>
    obtain ⟨hne, htail⟩ := not_or.mp (mt List.mem_cons.mpr h)
    exact (ih htail _).trans (judgeMonitor_monitor_other hne)

theorem judgeEach_monitor {l : List MonitorNo} (hnodup : l.Nodup) (h : k ∈ l) (p : Part) :
    (judgeEach ch l p).scan.monitors[k] = monitorAfter ch k p := by
  induction l generalizing p with
  | nil => cases h
  | cons k' l ih =>
    obtain ⟨hhead, htail⟩ := List.nodup_cons.mp hnodup
    by_cases heq : k = k'
    · subst heq
      exact (judgeEach_monitor_other hhead _).trans judgeMonitor_monitor_self
    · have hmem : k ∈ l := (List.mem_cons.mp h).resolve_left heq
      have hkept : scanKept p (judgeMonitor ch k' p) := judgeMonitor_scanKept ..
      exact (ih htail hmem _).trans (monitorAfter_congr (judgeMonitor_cfg ..) (by rw [hkept])
        (judgeMonitor_monitor_other heq))

theorem judgeMonitors_eq (ch : Channel) (p : Part) : judgeMonitors ch p = judgeEach ch [0, 1, 2, 3, 4, 5, 6, 7] p := rfl

theorem judgeMonitors_monitor (k : MonitorNo) (p : Part) :
    (judgeMonitors ch p).scan.monitors[k] = monitorAfter ch k p := by
  rw [judgeMonitors_eq]
  exact judgeEach_monitor (by decide) (by revert k; decide) p

theorem handResult_scanKept (ch : Channel) (value : Int) (p : Part) : scanKept p (handResult ch value p) :=
  (scanKept.of_frame (wearResult_frame ..)).trans (judgeEach_scanKept _ _)

theorem handResult_monitor (k : MonitorNo) (value : Int) (p : Part) :
    (handResult ch value p).scan.monitors[k] = monitorAfter ch k p := by
  have hframe := wearResult_frame ch value p
  have hscan : (wearResult ch value p).scan = p.scan := hframe.same .scan (by decide)
  rw [handResult, judgeMonitors_monitor]
  exact monitorAfter_congr (hframe.same .cfg (by decide)) (by rw [hscan]) (by rw [hscan])

theorem storeResult_result_self : (storeResult ch raw p).scan.results[ch] =
    ⟨senseValue ch raw p.cal.offsets[ch], raw, p.now, true⟩ := Vector.getElem_set_self _

theorem storeResult_result_other {other : Channel} (h : other ≠ ch) :
    (storeResult ch raw p).scan.results[other] = p.scan.results[other] :=
  Vector.getElem_set_ne ch.isLt other.isLt (Fin.val_ne_of_ne h.symm)

end Sys2Proof.Machine
end

