-- ==== Sys2Proof/Proofs/ScannerResults.lean ====
section
/-! SUPPORT. A completed conversion: its result and the run it belongs to (R139, R140, R142, R144); and the end of a
calibration (R149). -/

set_option Elab.async false

namespace Sys2Proof.Machine

variable {p q r : Part} {kind : RunKind} {ch : Channel} {raw : BitVec 12} {k : MonitorNo} {i j : WearNo} {value : Int}

/-! ### The runs -/

/-- From `p` to `q` the scanner moves its runs only: position, results and monitors stay. -/
def runsMoved (p q : Part) : Prop :=
  q.scan.position = p.scan.position ∧ q.scan.results = p.scan.results ∧ q.scan.monitors = p.scan.monitors

theorem takePending_runsMoved (p : Part) : runsMoved p (takePending p) := by
  unfold takePending
  split <;> exact ⟨rfl, rfl, rfl⟩

theorem resumeOrTake_runsMoved (p : Part) : runsMoved p (resumeOrTake p) := by
  unfold resumeOrTake
  split
  · exact ⟨rfl, rfl, rfl⟩
  · exact takePending_runsMoved p

theorem afterEventRun_runsMoved (p : Part) : runsMoved p (afterEventRun p) := by
  unfold afterEventRun
  split
  · exact ⟨rfl, rfl, rfl⟩
  · exact resumeOrTake_runsMoved p

theorem countEntry_runsMoved (run : RoutineRun) (p : Part) : runsMoved p (countEntry run p) := by
  unfold countEntry
  split
  · exact ⟨rfl, rfl, rfl⟩
  · exact takePending_runsMoved _

theorem afterEventRun_of_waiting (h : p.scan.calWaiting = true) : afterEventRun p = enterCalibrating p := if_pos h

theorem afterEventRun_of_free (h : p.scan.calWaiting = false) : afterEventRun p = resumeOrTake p :=
  if_neg (by rw [h]; exact Bool.false_ne_true)

theorem countEntry_of_more {run : RoutineRun} (h : 1 < run.left) :
    countEntry run p = p.setScan { p.scan with run := some { run with left := run.left - 1 } } := if_pos h

theorem countEntry_of_last {run : RoutineRun} (h : run.left ≤ 1) :
    countEntry run p = takePending (p.setScan { p.scan with run := none }) := if_neg (Nat.not_lt.mpr h)

theorem countEntry_scan_of_none {run : RoutineRun} (h : run.left ≤ 1) (hpending : p.scan.pending = none) :
    (countEntry run p).scan = { p.scan with mode := .idle, run := none } := by
  rw [countEntry_of_last h, takePending_of_none (p := p.setScan { p.scan with run := none }) hpending]
  rfl

theorem countEntry_scan_of_pending {run : RoutineRun} (h : run.left ≤ 1) (hpending : p.scan.pending = some kind) :
    (countEntry run p).scan =
      { p.scan with mode := .routineRun, pending := none, run := some (startingRun kind p) } := by
  rw [countEntry_of_last h, takePending_scan (p := p.setScan { p.scan with run := none }) hpending]
  rfl

/-- The position that follows the one in use (R144). -/
def nextPosition (p : Part) : Nat :=
  if p.scan.position + 1 < p.cfg.routineList.length then p.scan.position + 1 else 0

theorem advancePosition_scan (p : Part) :
    (advancePosition p).scan = { p.scan with position := nextPosition p } := by
  unfold advancePosition nextPosition
  split
  · rfl
  · exact (roundDone_frame _).same .scan (by decide)

theorem startingRun_congr (hposition : q.scan.position = p.scan.position) (hcfg : q.cfg = p.cfg) :
    startingRun kind q = startingRun kind p := by
  rw [startingRun, startingRun, hposition, hcfg]

/-! ### An event-group conversion -/

theorem conversionCompletes_of_eventRun {rest : List Channel} (h : p.scan.mode = .eventRun (ch :: rest)) :
    conversionCompletes raw p = if rest = [] then afterEventRun (arriveBeginning false (newResult ch raw p))
      else setMode (.eventRun rest) (newResult ch raw p) := by
  rw [conversionCompletes, h]

/-- A new result replaces the channel's result and moves monitors (R140). -/
theorem newResult_scanKept (ch : Channel) (raw : BitVec 12) (p : Part) :
    scanKept (storeResult ch raw p) (newResult ch raw p) := by
  rw [newResult]
  exact handResult_scanKept ch _ (storeResult ch raw p)

/-- The part when the last conversion of an event run is handed on, before the scanner's next step (R142). -/
def eventRunDone (ch : Channel) (raw : BitVec 12) (p : Part) : Part := arriveBeginning false (newResult ch raw p)

theorem eventRunDone_scanKept (ch : Channel) (raw : BitVec 12) (p : Part) :
    scanKept (storeResult ch raw p) (eventRunDone ch raw p) :=
  (newResult_scanKept ch raw p).trans (.of_frame (arriveBeginning_frame ..))

theorem eventRunDone_frame (ch : Channel) (raw : BitVec 12) (p : Part) :
    changesOnly (.account :: resultBlocks) p (eventRunDone ch raw p) :=
  (newResult_frame ch raw p).trans (arriveBeginning_frame ..)

theorem conversionCompletes_of_more {rest : List Channel} (h : p.scan.mode = .eventRun (ch :: rest)) (hrest : rest ≠ []) :
    conversionCompletes raw p = setMode (.eventRun rest) (newResult ch raw p) :=
  (conversionCompletes_of_eventRun h).trans (if_neg hrest)

theorem conversionCompletes_of_last (h : p.scan.mode = .eventRun [ch]) :
    conversionCompletes raw p = afterEventRun (eventRunDone ch raw p) :=
  (conversionCompletes_of_eventRun h).trans (if_pos rfl)

theorem conversionCompletes_results_of_eventRun {rest : List Channel} (h : p.scan.mode = .eventRun (ch :: rest)) :
    (conversionCompletes raw p).scan.results = (storeResult ch raw p).scan.results := by
  by_cases hrest : rest = []
  · subst hrest
    obtain ⟨-, hresults, -⟩ := afterEventRun_runsMoved (eventRunDone ch raw p)
    rw [conversionCompletes_of_last h, hresults, (eventRunDone_scanKept ch raw p).results]
  · rw [conversionCompletes_of_more h hrest, setMode, Part.setScan_scan, ← (newResult_scanKept ch raw p).results]

/-- Settles O26: the result is stored and handed on, and the last conversion lets the scanner take its next step. -/
theorem eventConversionCompletes : Obligations.EventConversionCompletes := by
  intro raw ch rest s hrun hmode
  have hresults : (conversionCompletes raw s.part).scan.results = _ := conversionCompletes_results_of_eventRun hmode
  have hframe := eventRunDone_frame ch raw s.part
  have hkept := eventRunDone_scanKept ch raw s.part
  refine ⟨_, exec_of_whenRunning hrun rfl, ?self, fun other hne => ?other, fun hrest => ?more, fun hrest => ?begins,
    fun hrest hwaits => ?calibrates, fun hrest hfree hsuspended => ?resumes, fun hrest hfree hnone hpending => ?idles,
    fun kind hrest hfree hnone hpending => ?takes, (conversionCompletes_frame raw s.part).mono⟩
  all_goals dsimp only
  case self =>
    rw [hresults]
    exact storeResult_result_self
  case other =>
    rw [hresults]
    exact storeResult_result_other hne
  case more =>
    have haccount : (newResult ch raw s.part).account = s.part.account :=
      (newResult_frame ch raw s.part).same .account (by decide)
    rw [conversionCompletes_of_more hmode hrest, setMode, Part.setScan_account, Part.setScan_scan, haccount]
    exact ⟨rfl, rfl⟩
  all_goals
    subst hrest
    rw [conversionCompletes_of_last hmode]
  case begins =>
    have haccount : (newResult ch raw s.part).account = s.part.account :=
      (newResult_frame ch raw s.part).same .account (by decide)
    have hafter : (afterEventRun (eventRunDone ch raw s.part)).account = (eventRunDone ch raw s.part).account :=
      (afterEventRun_frame _).same .account (by decide)
    rw [hafter, eventRunDone, arriveBeginning_account, haccount]
  case calibrates =>
    have htime : (eventRunDone ch raw s.part).time = s.part.time := hframe.same .time (by decide)
    rw [afterEventRun_of_waiting (hkept.calWaiting.trans hwaits), enterCalibrating, Part.now, htime]
    rfl
  all_goals rw [afterEventRun_of_free (hkept.calWaiting.trans hfree)]
  case resumes =>
    have hrun' : (eventRunDone ch raw s.part).scan.run = s.part.scan.run := hkept.run
    rw [resumeOrTake_of_run (by rw [hrun']; exact hsuspended), setMode, Part.setScan_scan, hrun']
    exact ⟨rfl, rfl⟩
  all_goals rw [resumeOrTake_of_none (hkept.run.trans hnone)]
  case idles =>
    rw [takePending_of_none (hkept.pending.trans hpending)]
    rfl
  case takes =>
    rw [takePending_scan (hkept.pending.trans hpending)]
    exact ⟨rfl, rfl, congrArg some (startingRun_congr hkept.position (hframe.same .cfg (by decide)))⟩

/-! ### A routine conversion -/

/-- The part when the result of a routine conversion is stored, the position advanced and the result handed on. -/
def routineResult (ch : Channel) (raw : BitVec 12) (p : Part) : Part :=
  handResult ch (senseValue ch raw p.cal.offsets[ch]) (advancePosition (storeResult ch raw p))

theorem conversionCompletes_of_routineRun {run : RoutineRun} (hmode : p.scan.mode = .routineRun)
    (hrun : p.scan.run = some run) (hentry : p.cfg.routineList[p.scan.position]? = some ch) :
    conversionCompletes raw p = countEntry run (routineResult ch raw p) := by
  rw [conversionCompletes, hmode]
  simp only [routineConversion, hrun, hentry]
  rfl

theorem routineResult_scanKept (ch : Channel) (raw : BitVec 12) (p : Part) :
    scanKept (advancePosition (storeResult ch raw p)) (routineResult ch raw p) := handResult_scanKept ..

theorem routineResult_position (ch : Channel) (raw : BitVec 12) (p : Part) :
    (routineResult ch raw p).scan.position = nextPosition p := by
  rw [(routineResult_scanKept ch raw p).position, advancePosition_scan]
  rfl

theorem routineResult_results (ch : Channel) (raw : BitVec 12) (p : Part) :
    (routineResult ch raw p).scan.results = (storeResult ch raw p).scan.results := by
  rw [(routineResult_scanKept ch raw p).results, advancePosition_scan]

theorem routineResult_mode (ch : Channel) (raw : BitVec 12) (p : Part) :
    (routineResult ch raw p).scan.mode = p.scan.mode := by
  rw [(routineResult_scanKept ch raw p).mode, advancePosition_scan]
  rfl

theorem routineResult_pending (ch : Channel) (raw : BitVec 12) (p : Part) :
    (routineResult ch raw p).scan.pending = p.scan.pending := by
  rw [(routineResult_scanKept ch raw p).pending, advancePosition_scan]
  rfl

theorem routineResult_frame (ch : Channel) (raw : BitVec 12) (p : Part) :
    changesOnly resultBlocks p (routineResult ch raw p) :=
  ((setScan_frame p _).trans (n := resultBlocks) (advancePosition_frame _)).seq (handResult_frame ..)

theorem routineResult_run_frame (run : RoutineRun) (ch : Channel) (raw : BitVec 12) (p : Part) :
    changesOnly resultBlocks p (countEntry run (routineResult ch raw p)) :=
  (routineResult_frame ch raw p).trans (countEntry_frame ..)

theorem conversionCompletes_of_calibrating {start : Stamp} {codes : List (BitVec 12)}
    (hmode : p.scan.mode = .calibrating start codes) (h : codes.length < 352) :
    conversionCompletes raw p = setMode (.calibrating start (codes ++ [raw])) p := by
  rw [conversionCompletes, hmode]
  exact if_pos h

/-- Settles O27: the position advances before the result is handed on, and then the count falls. -/
theorem routineConversionCompletes : Obligations.RoutineConversionCompletes := by
  intro raw s hrunning
  refine ⟨fun run ch hmode hrun hentry => ?_, fun start codes hmode hcodes => ?_⟩
  · obtain ⟨hposition, hresults, -⟩ := countEntry_runsMoved run (routineResult ch raw s.part)
    rw [routineResult_position] at hposition
    rw [routineResult_results] at hresults
    have hpending' := routineResult_pending ch raw s.part
    refine ⟨_, exec_of_whenRunning hrunning rfl, ?_⟩
    dsimp only
    rw [conversionCompletes_of_routineRun hmode hrun hentry]
    refine ⟨?self, fun other hne => ?other, hposition, fun hmore => ?more, fun hlast hpending => ?idles,
      fun kind hlast hpending => ?takes, routineResult_run_frame ..⟩
    case self =>
      rw [hresults]
      exact storeResult_result_self
    case other =>
      rw [hresults]
      exact storeResult_result_other hne
    case more =>
      have hmode' : (routineResult ch raw s.part).scan.mode = .routineRun := (routineResult_mode ch raw s.part).trans hmode
      rw [countEntry_of_more hmore, Part.setScan_scan, hmode']
      exact ⟨rfl, rfl⟩
    case idles =>
      rw [countEntry_scan_of_none hlast (hpending'.trans hpending)]
      exact ⟨rfl, rfl⟩
    case takes =>
      have hcfg : (routineResult ch raw s.part).cfg = s.part.cfg :=
        (routineResult_frame ch raw s.part).same .cfg (by decide)
      rw [hposition, countEntry_scan_of_pending hlast (hpending'.trans hpending), startingRun, hcfg,
        routineResult_position]
      exact ⟨rfl, rfl, rfl⟩
  · refine ⟨_, exec_of_whenRunning hrunning rfl, ?_⟩
    dsimp only
    rw [conversionCompletes_of_calibrating hmode hcodes]
    exact ⟨rfl, setMode_frame ..⟩

/-! ### A calibration's end -/

theorem newOffset_eq (codes : List (BitVec 12)) (ch : Channel) : newOffset codes ch =
    (((((codes.drop (16 * ch.val)).take 16).map (·.toNat)).sum / 16 : Nat) : Int) - 2048 := by
  rw [newOffset, List.sum_eq_foldl, List.foldl_map]

theorem offsetOk_iff {z : Int} : offsetOk z = true ↔ -200 ≤ z ∧ z ≤ 200 := by simp [offsetOk]

theorem calibrationResult_of_inside {codes : List (BitVec 12)} {cal : Calibration}
    (h : ∀ ch : Channel, offsetOk (newOffset codes ch) = true) :
    calibrationResult codes cal = ⟨Vector.ofFn (newOffset codes), .done, none⟩ := by
  have hnone : ((List.finRange 22).find? fun ch => !offsetOk (newOffset codes ch)) = none :=
    List.find?_eq_none.mpr fun ch _ => by simp [h ch]
  rw [calibrationResult, hnone]

/-- The lowest channel outside is the one recorded. -/
theorem calibrationResult_of_outside {codes : List (BitVec 12)} {cal : Calibration}
    (h : offsetOk (newOffset codes ch) = false) (hlower : ∀ lower < ch, offsetOk (newOffset codes lower) = true) :
    calibrationResult codes cal = { cal with outcome := .failed, failedChannel := some ch } := by
  have hsome : ((List.finRange 22).find? fun ch => !offsetOk (newOffset codes ch)) = some ch := by
    refine List.find?_eq_some_iff_getElem.mpr ⟨by simp [h], ch.val, by simp, by simp, fun j hj => ?_⟩
    rw [List.getElem_finRange, hlower _ hj]
    rfl
  rw [calibrationResult, hsome]

theorem calibrationEnds_of_calibrating {start : Stamp} {codes : List (BitVec 12)}
    (h : p.scan.mode = .calibrating start codes) : calibrationEnds p =
      resumeOrTake ((p.setCal (calibrationResult codes p.cal)).setScan { p.scan with calWaiting := false }) := by
  rw [calibrationEnds, h]

/-- Settles O30: the offsets are judged together, and the scanner takes its next step. -/
theorem calibrationEndJudges : Obligations.CalibrationEndJudges := by
  intro start codes s hrun hmode hcodes helapsed sum offset
  have hoffset (ch : Channel) : newOffset codes ch = offset ch := newOffset_eq codes ch
  have hdue : calibrationDue s.part = true := by
    rw [calibrationDue, hmode]
    exact Bool.and_eq_true_iff.mpr ⟨decide_eq_true helapsed, decide_eq_true hcodes⟩
  have heq := calibrationEnds_of_calibrating hmode
  have hcal : (calibrationEnds s.part).cal = calibrationResult codes s.part.cal := by
    rw [heq]
    exact (resumeOrTake_frame _).same .cal (by decide)
  refine ⟨_, exec_of_whenDue hrun hdue rfl, fun hinside => ?_, fun ch houtside hlower => ?_, ?_, calibrationEnds_frame _⟩
  · rw [hcal, calibrationResult_of_inside fun ch => offsetOk_iff.mpr (by rw [hoffset]; exact hinside ch)]
    refine ⟨rfl, rfl, fun ch => ?_⟩
    rw [← hoffset]
    exact Vector.getElem_ofFn ch.isLt
  · rw [hcal, calibrationResult_of_outside (ch := ch)]
    · rw [← Bool.not_eq_true, offsetOk_iff, hoffset]
      omega
    · exact fun lower h => offsetOk_iff.mpr (by rw [hoffset]; exact hlower lower h)
  · rw [heq]
    exact nextStepTaken_resumeOrTake rfl rfl

end Sys2Proof.Machine
end

