-- ==== Sys2Proof/Proofs/ScannerWear.lean ====
section
/-! SUPPORT. What a completed conversion does to the wear unit (R164, R167) and to the monitors (R153 to R155). -/

set_option Elab.async false

namespace Sys2Proof.Machine

variable {p q r : Part} {ch : Channel} {raw : BitVec 12} {k : MonitorNo} {i j : WearNo} {value : Int}

/-! ### DERATE_CHANGE along a conversion -/

/-- From `p` to `q` events are only gained, and a change of d_trac set DERATE_CHANGE. -/
def factorsTold (p q : Part) : Prop := eventsKept p q ∧ derateChangeSet p q

theorem factorsTold.refl (p : Part) : factorsTold p p := ⟨.refl p, .of_frame (.refl [] p)⟩

theorem factorsTold.trans (h1 : factorsTold p q) (h2 : factorsTold q r) : factorsTold p r :=
  ⟨h1.1.trans h2.1, h1.2.trans h2.2 h2.1⟩

theorem factorsTold.of_frame {l : List Block} (hkept : eventsKept p q) (h : changesOnly l p q)
    (hl : .derate ∉ l := by decide) : factorsTold p q := ⟨hkept, .of_frame h hl⟩

theorem setThermalSet_told (set : BitVec 8) (p : Part) : factorsTold p (setThermalSet set p) := by
  refine ⟨.of_gains (setThermalSet_gains set p), ?_⟩
  unfold setThermalSet thermalRises thermalEmpties
  dsimp only
  repeat' split
  all_goals exact (derateChangeSet_reformFactors _)

/-- Every step of a conversion tells of a changed d_trac. -/
theorem factorsTold_closed (p : Part) : ResultClosed (factorsTold p) where
  item _ hp := hp.trans (.of_frame (.of_gains (.of_frame (setWearItem_frame ..))) (setWearItem_frame ..))
  event hp := hp.trans (.of_frame (.of_gains (setEvent_gains ..)) (setEvent_frame ..))
  judge hp := hp.trans ⟨.of_gains (judgeItem_gains ..), derateChangeSet_judgeItem _ _⟩
  scan hp := hp.trans (.of_frame (.of_gains (.of_frame (setScan_frame ..))) (setScan_frame ..))
  thermal hp := hp.trans (setThermalSet_told ..)
  beginning hp := hp.trans (.of_frame (.of_gains (.of_frame (arriveBeginning_frame ..))) (arriveBeginning_frame ..))

theorem derateChangeSet_conversion (raw : BitVec 12) (p : Part) : derateChangeSet p (conversionCompletes raw p) :=
  ((factorsTold_closed p).conversionCompletes (.refl p)).2

/-! ### The monitors and the items -/

theorem itemKept_handTrip {a : MonitorAction} (h : j ≠ 10 ∨ a ≠ .discHot) (p : Part) :
    itemKept j p (handTrip k a p) := by
  cases a with
  | thermalOverride => exact .of_frame (joinThermal_frame k p) (.of_gains (setThermalSet_gains ..))
  | discHot => exact itemKept_countOne (h.resolve_right (absurd rfl)) p
  | resistorInhibit | statusOnly => exact .refl j p

theorem itemKept_handReturn (a : MonitorAction) (p : Part) : itemKept j p (handReturn k a p) := by
  cases a with
  | thermalOverride => exact .of_frame (leaveThermal_frame k p) (.of_gains (setThermalSet_gains ..))
  | discHot | resistorInhibit | statusOnly => exact .refl j p

theorem itemKept_judgeMonitor (h : j ≠ 10 ∨ p.cfg.monitors[k].action ≠ .discHot) :
    itemKept j p (judgeMonitor ch k p) := by
  have hset (m : Monitor) : itemKept j p (p.setMonitor k m) :=
    .of_frame (setMonitor_frame ..) (.of_gains (.of_frame (setMonitor_frame ..)))
  by_cases hmem : ch ∈ scopeChannels p.cfg.monitors[k].scope
  · rw [judgeMonitor_eq hmem]
    dsimp only
    split_ifs
    · exact (hset _).trans (itemKept_handTrip h _)
    · exact (hset _).trans (itemKept_handReturn _ _)
    · exact hset _
  · rw [judgeMonitor_of_elsewhere hmem]
    exact .refl j p

/-- Item 10 counts the entries of the disc monitors; no monitor reaches another item (R165). -/
theorem itemKept_judgeEach {l : List MonitorNo} (h : j ≠ 10 ∨ ∀ k : MonitorNo, p.cfg.monitors[k].action ≠ .discHot) :
    itemKept j p (judgeEach ch l p) := by
  induction l generalizing p with
  | nil => exact .refl j p
  | cons k l ih => exact (itemKept_judgeMonitor (h.imp_right (· k))).trans (ih (by rw [judgeMonitor_cfg]; exact h))

/-! ### The cycle items (R164) -/

theorem cycleItem_eq_some_iff : cycleItem ch = some i ↔ ch.val = i.val + 9 ∧ 3 ≤ i.val ∧ i.val ≤ 6 := by
  revert ch i
  decide

theorem wearResult_of_cycle (h : cycleItem ch = some i) : wearResult ch value p = judgeCycle i value p := by
  rw [wearResult, h]

theorem itemKept_judgeCycle (h : j ≠ i) (p : Part) : itemKept j p (judgeCycle i value p) := by
  unfold judgeCycle
  dsimp only
  split_ifs
  · exact itemKept_setWearItem h _ p
  · exact (itemKept_setWearItem h _ p).trans (itemKept_countOne h _)
  · exact .refl j p

theorem itemKept_wearResult (h : cycleItem ch ≠ some j) (p : Part) : itemKept j p (wearResult ch value p) := by
  unfold wearResult
  split
  · next i hi => exact itemKept_judgeCycle (fun heq => h (hi.trans (congrArg some heq.symm))) p
  · exact .refl j p

/-- The count of a cycle disarms its item first, which no part of a count reads. -/
theorem countedOnce_of_armed {armed : Bool}
    (h : countedOnce i (p.setWearItem i { p.wear[i] with armed := armed }) q) : countedOnce i p q := by
  unfold countedOnce unitsAdded levelHandedOn at *
  rw [setWearItem_wear_self] at h
  exact h

theorem countOne_armed : (countOne i p).wear[i].armed = p.wear[i].armed := by
  rw [countOne, judgeItem_wear_self, addUnits_wear_self]
  rfl

theorem judgeCycle_of_clear (h : p.wear[i].armed = false) : judgeCycle i value p =
    if cycHigh i < value then p.setWearItem i { p.wear[i] with armed := true } else p := by
  simp only [judgeCycle, h, Bool.not_false, Bool.true_and, decide_eq_true_eq, Bool.false_and, Bool.false_eq_true, if_false]

theorem judgeCycle_of_armed (h : p.wear[i].armed = true) : judgeCycle i value p =
    if value < cycLow i then countOne i (p.setWearItem i { p.wear[i] with armed := false }) else p := by
  simp only [judgeCycle, h, Bool.not_true, Bool.false_and, Bool.true_and, decide_eq_true_eq, Bool.false_eq_true, if_false]

theorem cycleJudged_wearResult (ch : Channel) (value : Int) (p : Part) :
    cycleJudged ch value p (wearResult ch value p) := by
  intro i hlow hhigh high low before
  refine ⟨fun hch => ?_, fun hch => (itemKept_wearResult (mt cycleItem_eq_some_iff.mp fun h => hch h.1) p).item⟩
  rw [wearResult_of_cycle (cycleItem_eq_some_iff.mpr ⟨hch, hlow, hhigh⟩)]
  refine ⟨fun hclear habove => ?_, fun harmed hbelow => ?_, fun hclear hnot => ?_, fun harmed hnot => ?_⟩
  · rw [judgeCycle_of_clear hclear, if_pos (show cycHigh i < value from habove), setWearItem_wear_self]
  · rw [judgeCycle_of_armed harmed, if_pos (show value < cycLow i from hbelow)]
    refine ⟨?_, countedOnce_of_armed (countedOnce_countOne ..)⟩
    rw [countOne_armed, setWearItem_wear_self]
  · rw [judgeCycle_of_clear hclear, if_neg (show ¬ cycHigh i < value from Int.not_lt.mpr hnot)]
  · rw [judgeCycle_of_armed harmed, if_neg (show ¬ value < cycLow i from Int.not_lt.mpr hnot)]

/-! ### What a conversion does around the judgement of the cycle items -/

theorem countedOnce.between (h : countedOnce i p q) {p' q' : Part} (hbefore : itemKept i p' p)
    (hafter : itemKept i q q') : countedOnce i p' q' := by
  obtain ⟨hunits, hresidual, hformed, hhanded⟩ := h
  refine ⟨(hunits.before hbefore).after hafter, ?_, by rw [hafter.item]; exact hformed,
    (hhanded.before (by rw [hbefore.item]) (by rw [hbefore.item]) hbefore.time).after hafter⟩
  rw [hafter.item, hresidual, hbefore.item]

theorem cycleJudged.between (h : cycleJudged ch value p q) {p' q' : Part}
    (hbefore : ∀ i : WearNo, 3 ≤ i.val → i.val ≤ 6 → itemKept i p' p)
    (hafter : ∀ i : WearNo, 3 ≤ i.val → i.val ≤ 6 → itemKept i q q') : cycleJudged ch value p' q' := by
  intro i hlow hhigh high low before
  have hsame : before = p.wear[i] := (hbefore i hlow hhigh).item.symm
  obtain ⟨hof, hother⟩ := h i hlow hhigh
  have hitem := (hafter i hlow hhigh).item
  rw [hitem, hsame]
  refine ⟨fun hch => ?_, hother⟩
  obtain ⟨harms, hcounts, hclear, harmed⟩ := hof hch
  refine ⟨harms, fun ha hb => ?_, hclear, harmed⟩
  obtain ⟨hdisarmed, hcounted⟩ := hcounts ha hb
  exact ⟨hdisarmed, hcounted.between (hbefore i hlow hhigh) (hafter i hlow hhigh)⟩

/-! ### The lining stages (R167) -/

/-- The stage that a result shows, 0 for an invalid one (R167). -/
def shownStage (r : SenseResult) : Nat := if r.valid then r.value.toNat else 0

theorem latchStage_of_shown (left right : SenseResult) : latchStage i (axleStage left right) p =
    if p.wear[i].stage < max (shownStage left) (shownStage right) then
      judgeItem i (p.setWearItem i { p.wear[i] with stage := max (shownStage left) (shownStage right) }) else p := by
  unfold latchStage axleStage stageOf shownStage
  cases left.valid <;> cases right.valid <;> simp

theorem itemKept_latchStage (h : j ≠ i) (found : Option Nat) (p : Part) : itemKept j p (latchStage i found p) := by
  unfold latchStage
  dsimp only
  split
  · exact .refl j p
  · split
    · exact (itemKept_setWearItem h _ p).trans (itemKept_judgeItem h _)
    · exact .refl j p

theorem stageLatched_latchStage (i : WearNo) (left right : SenseResult) (p : Part) :
    stageLatched i left right p (latchStage i (axleStage left right) p) := by
  unfold stageLatched
  intro stage found before after
  have heq : latchStage i (axleStage left right) p = if before.stage < found then
      judgeItem i (p.setWearItem i { before with stage := found }) else p := latchStage_of_shown left right
  refine ⟨fun hle => ?_, fun hlt => ?_⟩
  · show (latchStage i (axleStage left right) p).wear[i] = p.wear[i]
    rw [heq, if_neg (Nat.not_lt.mpr hle)]
  · rw [if_pos hlt] at heq
    have hafter : after = judgedItem i p.now { before with stage := found } := by
      show (latchStage i (axleStage left right) p).wear[i] = _
      rw [heq, judgeItem_wear_self, setWearItem_wear_self]
      rfl
    refine ⟨?_, ?_, by rw [hafter]; rfl⟩
    · show levelFormed i (latchStage i (axleStage left right) p).wear[i]
      rw [heq]
      exact levelFormed_judgeItem ..
    · rw [heq]
      exact (levelHandedOn_judgeItem ..).before (by rw [setWearItem_wear_self]) (by rw [setWearItem_wear_self]) rfl

theorem stageLatched.between {left right : SenseResult} (h : stageLatched i left right p q) {p' q' : Part}
    (hbefore : itemKept i p' p) (hafter : itemKept i q q') : stageLatched i left right p' q' := by
  unfold stageLatched at *
  dsimp only at *
  rw [hafter.item, ← hbefore.item]
  obtain ⟨hstays, hlatches⟩ := h
  refine ⟨hstays, fun hlt => ?_⟩
  obtain ⟨hformed, hhanded, hitem⟩ := hlatches hlt
  exact ⟨hformed, (hhanded.before (by rw [hbefore.item]) (by rw [hbefore.item]) hbefore.time).after hafter, hitem⟩

/-- The linings of the axles, each with the channels of its two sensors (R167). -/
def liningSensors : List (WearNo × Channel × Channel) := [((0 : WearNo), (6 : Channel), (7 : Channel)), (1, 8, 9), (2, 10, 11)]

theorem itemKept_roundDone (h : 2 < j.val) (p : Part) : itemKept j p (roundDone p) := by
  have hne (i : WearNo) (hi : i.val ≤ 2) : j ≠ i := fun heq => by rw [heq] at h; omega
  exact ((itemKept_latchStage (hne 0 (by decide)) ..).trans (itemKept_latchStage (hne 1 (by decide)) ..)).trans
    (itemKept_latchStage (hne 2 (by decide)) ..)

theorem stageLatched_roundDone {left right : Channel} (h : (i, left, right) ∈ liningSensors) (p : Part) :
    stageLatched i p.scan.results[left] p.scan.results[right] p (roundDone p) := by
  simp only [liningSensors, List.mem_cons, Prod.mk.injEq, List.not_mem_nil, or_false] at h
  obtain ⟨rfl, rfl, rfl⟩ | ⟨rfl, rfl, rfl⟩ | ⟨rfl, rfl, rfl⟩ := h
  · exact (stageLatched_latchStage 0 ..).between (.refl 0 p)
      ((itemKept_latchStage (by decide) ..).trans (itemKept_latchStage (by decide) ..))
  · exact (stageLatched_latchStage 1 ..).between (itemKept_latchStage (by decide) ..)
      (itemKept_latchStage (by decide) ..)
  · exact (stageLatched_latchStage 2 ..).between
      ((itemKept_latchStage (by decide) ..).trans (itemKept_latchStage (by decide) ..)) (.refl 2 _)

/-! ### The judgements along a conversion -/

/-- What every completed conversion does to the wear unit and the monitors, whatever run it belongs to. -/
def conversionJudged (ch : Channel) (p q : Part) : Prop :=
  cycleJudged ch q.scan.results[ch].value p q ∧
    (∀ k : MonitorNo, q.scan.monitors[k] = (judgeMonitor ch k
      (p.setScan { p.scan with results := q.scan.results })).scan.monitors[k]) ∧
    ((∀ k : MonitorNo, p.cfg.monitors[k].action ≠ .discHot) → q.wear[10] = p.wear[10]) ∧
    (∀ i : WearNo, i ∈ [(7 : WearNo), 8, 9, 11] → q.wear[i] = p.wear[i]) ∧
    derateChangeSet p q

/-- A result handed on from a part that has stored it, up to a part that only moved its runs since. `m` differs from
`p` in the results, the position and the linings. -/
theorem conversionJudged_of_handResult {m : Part} (hcfg : m.cfg = p.cfg) (hmonitors : m.scan.monitors = p.scan.monitors)
    (hbefore : ∀ i : WearNo, 2 < i.val → itemKept i p m)
    (hafter : ∀ i : WearNo, itemKept i (handResult ch value m) q)
    (hresults : q.scan.results = m.scan.results) (hvalue : q.scan.results[ch].value = value)
    (hmoved : q.scan.monitors = (handResult ch value m).scan.monitors) (htold : derateChangeSet p q) :
    conversionJudged ch p q := by
  have hjudged (i : WearNo) (h : i ≠ 10 ∨ ∀ k : MonitorNo, p.cfg.monitors[k].action ≠ .discHot) :
      itemKept i (wearResult ch value m) q := by
    have hcfg' : (wearResult ch value m).cfg = p.cfg := ((wearResult_frame ..).same .cfg (by decide)).trans hcfg
    exact (itemKept_judgeEach (by rw [hcfg']; exact h)).trans (hafter i)
  have hkept (i : WearNo) (hi : 2 < i.val) (hcycle : 6 < i.val)
      (h : i ≠ 10 ∨ ∀ k : MonitorNo, p.cfg.monitors[k].action ≠ .discHot) : q.wear[i] = p.wear[i] :=
    (((hbefore i hi).trans (itemKept_wearResult (fun hch => by
      have := cycleItem_eq_some_iff.mp hch
      omega) m)).trans (hjudged i h)).item
  refine ⟨?_, fun k => ?_, fun h => hkept 10 (by decide) (by decide) (.inr h), fun i hi => ?_, htold⟩
  · rw [hvalue]
    exact (cycleJudged_wearResult ch value m).between (fun i hlow _ => hbefore i (by omega))
      (fun i _ hhigh => hjudged i (.inl fun heq => by rw [heq] at hhigh; exact absurd hhigh (by decide)))
  · rw [hmoved, handResult_monitor, judgeMonitor_monitor_self]
    exact monitorAfter_congr hcfg hresults.symm (by rw [hmonitors]; rfl)
  · simp only [List.mem_cons, List.not_mem_nil, or_false] at hi
    obtain rfl | rfl | rfl | rfl := hi <;> exact hkept _ (by decide) (by decide) (.inl (by decide))

theorem itemKept_runs {l : List Block} (i : WearNo) (h : changesOnly l p q)
    (hl : ∀ b ∈ [Block.wear, .warnings, .time, .ports], b ∉ l := by decide) : itemKept i p q :=
  .of_frame h (.of_gains (.of_frame h (hl _ (by decide))))
    fun b hb => hl b (by revert hb; revert b; decide)

theorem itemKept_wearResult_lining (hi : i.val ≤ 2) (p : Part) : itemKept i p (handResult ch value p) :=
  (itemKept_wearResult (fun hch => by have := cycleItem_eq_some_iff.mp hch; omega) p).trans
    (itemKept_judgeEach (.inl fun heq => by rw [heq] at hi; exact absurd hi (by decide)))

theorem liningSensors_le {left right : Channel} (h : (i, left, right) ∈ liningSensors) : i.val ≤ 2 := by
  simp only [liningSensors, List.mem_cons, Prod.mk.injEq, List.not_mem_nil, or_false] at h
  obtain ⟨rfl, -⟩ | ⟨rfl, -⟩ | ⟨rfl, -⟩ := h <;> decide

/-- In an event run the result is handed on from the part that has stored it. -/
theorem eventConversion_judged {rest : List Channel} (h : p.scan.mode = .eventRun (ch :: rest)) :
    conversionJudged ch p (conversionCompletes raw p) ∧
      ∀ i : WearNo, i.val ≤ 2 → (conversionCompletes raw p).wear[i] = p.wear[i] := by
  have hresults : (conversionCompletes raw p).scan.results = _ := conversionCompletes_results_of_eventRun h
  have hstored (i : WearNo) : itemKept i p (storeResult ch raw p) := itemKept_runs i (setScan_frame ..)
  have hafter : (∀ i : WearNo, itemKept i (newResult ch raw p) (conversionCompletes raw p)) ∧
      (conversionCompletes raw p).scan.monitors = (newResult ch raw p).scan.monitors := by
    by_cases hrest : rest = []
    · subst hrest
      obtain ⟨-, -, hmonitors⟩ := afterEventRun_runsMoved (eventRunDone ch raw p)
      have hbegun : (eventRunDone ch raw p).scan = (newResult ch raw p).scan :=
        (arriveBeginning_frame ..).same .scan (by decide)
      rw [conversionCompletes_of_last h]
      exact ⟨fun i => (itemKept_runs i (arriveBeginning_frame ..)).trans (itemKept_runs i (afterEventRun_frame _)),
        by rw [hmonitors, hbegun]⟩
    · rw [conversionCompletes_of_more h hrest]
      exact ⟨fun i => itemKept_runs i (setMode_frame ..), by rw [setMode, Part.setScan_scan]⟩
  unfold newResult at hafter
  obtain ⟨hitems, hmonitors⟩ := hafter
  refine ⟨conversionJudged_of_handResult (m := storeResult ch raw p) rfl rfl (fun i _ => hstored i) hitems hresults ?_
    hmonitors (derateChangeSet_conversion raw p), fun i hi => ?_⟩
  · rw [hresults, storeResult_result_self]
  · exact (((hstored i).trans (itemKept_wearResult_lining hi _)).trans (hitems i)).item

theorem itemKept_advancePosition (h : 2 < j.val ∨ p.scan.position + 1 < p.cfg.routineList.length) :
    itemKept j p (advancePosition p) := by
  unfold advancePosition
  split
  · exact itemKept_runs j (setScan_frame ..)
  · next hlast => exact (itemKept_runs j (setScan_frame ..)).trans (itemKept_roundDone (h.resolve_right hlast) _)

theorem stageLatched_advancePosition {left right : Channel} (h : (i, left, right) ∈ liningSensors)
    (hlast : p.cfg.routineList.length = p.scan.position + 1) :
    stageLatched i p.scan.results[left] p.scan.results[right] p (advancePosition p) := by
  rw [advancePosition, if_neg (by omega)]
  exact (stageLatched_roundDone h (p.setScan { p.scan with position := 0 })).between
    (itemKept_runs i (setScan_frame ..)) (.refl i _)

/-- In a routine run it is handed on from the part that has also advanced the position. -/
theorem routineConversion_judged {run : RoutineRun} (hmode : p.scan.mode = .routineRun) (hrun : p.scan.run = some run)
    (hentry : p.cfg.routineList[p.scan.position]? = some ch) :
    conversionJudged ch p (conversionCompletes raw p) ∧
      (conversionCompletes raw p).scan.results = (storeResult ch raw p).scan.results ∧
      ∀ i : WearNo, i.val ≤ 2 → itemKept i (advancePosition (storeResult ch raw p)) (conversionCompletes raw p) := by
  have hcfg : (advancePosition (storeResult ch raw p)).cfg = p.cfg := (advancePosition_frame _).same .cfg (by decide)
  have hscan := advancePosition_scan (storeResult ch raw p)
  have htold := derateChangeSet_conversion raw p
  rw [conversionCompletes_of_routineRun hmode hrun hentry] at htold ⊢
  have hafter (i : WearNo) : itemKept i (routineResult ch raw p) (countEntry run (routineResult ch raw p)) :=
    itemKept_runs i (countEntry_frame ..)
  obtain ⟨-, hresults, hmonitors⟩ := countEntry_runsMoved run (routineResult ch raw p)
  rw [routineResult_results] at hresults
  generalize countEntry run (routineResult ch raw p) = q at *
  unfold routineResult at hafter hmonitors
  refine ⟨conversionJudged_of_handResult hcfg (by rw [hscan]; rfl) (fun i hi => ?_) hafter (by rw [hresults, hscan]) ?_
    hmonitors htold, hresults, fun i hi => (itemKept_wearResult_lining hi _).trans (hafter i)⟩
  · exact (itemKept_runs i (setScan_frame ..)).trans (itemKept_advancePosition (.inl hi))
  · rw [hresults, storeResult_result_self]

/-- Settles O28: in a routine run the position advances, with the linings' stages at its end, before the result is
handed on. -/
theorem conversionsCountWear : Obligations.ConversionsCountWear := by
  intro raw s hrunning common linings
  refine ⟨fun ch rest hmode => ?_, fun run ch hmode hrun hentry => ?_⟩
  · obtain ⟨hjudged, hlinings⟩ := eventConversion_judged (raw := raw) hmode
    exact ⟨_, exec_of_whenRunning hrunning rfl, hjudged, fun i l r h => hlinings i (liningSensors_le h)⟩
  · obtain ⟨hjudged, hresults, hlinings⟩ := routineConversion_judged (raw := raw) hmode hrun hentry
    have hstored (i : WearNo) : itemKept i s.part (storeResult ch raw s.part) := itemKept_runs i (setScan_frame ..)
    refine ⟨_, exec_of_whenRunning hrunning rfl, hjudged, fun hmore i l r h => ?_, fun hlast i l r h => ?_⟩
    · exact (((hstored i).trans (itemKept_advancePosition (.inr hmore))).trans (hlinings i (liningSensors_le h))).item
    · dsimp only
      rw [hresults]
      exact (stageLatched_advancePosition (p := storeResult ch raw s.part) h hlast).between (hstored i)
        (hlinings i (liningSensors_le h))

end Sys2Proof.Machine
end

