-- ==== Sys2Proof/Proofs/BrakeArrivals.lean ====
section
/-! SUPPORT. Several sources evaluated one after another (R43, R50), and with them a BRAKE_STATUS (R31, R33, R108, R150)
and the breaks of a hold (R107, R108). -/

set_option Elab.async false

namespace Sys2Proof.Machine

variable {p q : Part} {src : Source} {l : List Source} {d : BrakeData} {e : Event}

/-! ### Sources evaluated one after another -/

/-- The sources of a list evaluated in turn. -/
def evalEach (l : List Source) (p : Part) : Part := l.foldl (fun q src => evalSource src q) p

theorem evalEach_frame (l : List Source) (p : Part) : changesOnly [.auth, .ports] p (evalEach l p) := by
  induction l generalizing p with
  | nil => exact .refl _ p
  | cons src l ih => exact (evalSource_frame src p).seq (ih _)

theorem evalEach_gains (l : List Source) (p : Part) : portsOnlyGainEvents p (evalEach l p) := by
  induction l generalizing p with
  | nil => exact .refl p
  | cons src l ih => exact (evalSource_gains src p).trans (ih _)

theorem evalEach_flag (l : List Source) (src : Source) (p : Part) : (evalEach l p).auth.flags.get src =
    if src ∈ l then requested src p else p.auth.flags.get src := by
  induction l generalizing p with
  | nil => rfl
  | cons src' l ih =>
    have hself : requested src (evalSource src' p) = requested src p := requested_congr (evalSource_frame src' p)
    refine (ih _).trans ?_
    rw [hself, evalSource_flags]
    by_cases heq : src = src'
    · subst heq
      simp [SourceFlags.get_set_self]
    · simp [heq, SourceFlags.get_set_other _ _ heq]

theorem evalEach_released (l : List Source) (p : Part) :
    entriesReleased (fun src => decide (src ∈ l) && !requested src p) p (evalEach l p) := by
  induction l generalizing p with
  | nil => exact (entriesReleased.refl p).congr fun src => by simp
  | cons src' l ih =>
    refine ((evalSource_released src' p).trans (ih _) (evalEach_gains l _)).congr fun src => ?_
    rw [requested_congr (evalSource_frame src' p)]
    by_cases heq : src = src' <;> by_cases hmem : src ∈ l <;> simp [heq, hmem]

theorem SourceFlags.eq_of_get {f g : SourceFlags} (h : ∀ src, f.get src = g.get src) : f = g := by
  cases f
  cases g
  congr 1
  exacts [h .safeStop, h .slip, h .blend, h .hold, h .limp, h .traction]

/-! ### The stages of a BRAKE_STATUS -/

/-- The part when the frame is stored and the part state judged. -/
def brakeStored (d : BrakeData) (p : Part) : Part := readyCheck (storeBrake d p)

/-- The part when the arbiter has evaluated the sources that read the brake partner. -/
def brakeEvaluated (d : BrakeData) (p : Part) : Part := evalEach [.safeStop, .slip, .blend, .limp] (brakeStored d p)

/-- The part when the hold controller has judged the speed. -/
def brakeRolled (d : BrakeData) (p : Part) : Part := holdRoll (brakeEvaluated d p)

theorem evalBrakeSources_eq (p : Part) : evalBrakeSources p = evalEach [.safeStop, .slip, .blend, .limp] p := rfl

theorem brakeArrival_eq (d : BrakeData) (p : Part) : brakeArrival d p = speedArrival (brakeRolled d p) := by
  rw [brakeArrival, brakeRolled, brakeEvaluated, evalBrakeSources_eq, brakeStored]

theorem brakeStored_frame (d : BrakeData) (p : Part) : changesOnly [.image, .partState] p (brakeStored d p) :=
  (storeBrake_frame d p).trans (readyCheck_frame _)

theorem brakeEvaluated_frame (d : BrakeData) (p : Part) :
    changesOnly [.auth, .ports] (brakeStored d p) (brakeEvaluated d p) := evalEach_frame ..

theorem brakeRolled_frame (d : BrakeData) (p : Part) : changesOnly holdBlocks (brakeEvaluated d p) (brakeRolled d p) :=
  holdRoll_frame _

theorem speedArrival_frame (p : Part) : changesOnly [.cal, .scan] p (speedArrival p) := by
  unfold speedArrival
  exact .ite (ceaseStanding_frame p) (.refl _ p)

/-- The blocks that the arbiter's and the hold controller's part of an arrival reach. -/
theorem brakeRolled_frame' (d : BrakeData) (p : Part) :
    changesOnly [.image, .partState, .auth, .hold, .gen, .ports] p (brakeRolled d p) :=
  ((brakeStored_frame d p).trans (n := [.image, .partState, .auth, .ports]) (brakeEvaluated_frame d p)).trans
    (brakeRolled_frame d p)

theorem brakeStored_image (d : BrakeData) (p : Part) :
    (brakeStored d p).image = { p.image with brake := ⟨d, p.time.now, .fresh⟩ } :=
  (readyCheck_frame (storeBrake d p)).same .image (by decide)

theorem brakeArrival_image (d : BrakeData) (p : Part) :
    (brakeArrival d p).image = { p.image with brake := ⟨d, p.time.now, .fresh⟩ } := by
  have hsame : (brakeArrival d p).image = (brakeStored d p).image :=
    (((brakeEvaluated_frame d p).trans (n := holdBlocks) (brakeRolled_frame d p)).trans
      (n := [.auth, .hold, .gen, .scan, .cal, .account, .ports]) (speedArrival_frame _)).same .image (by decide)
  rw [hsame, brakeStored_image]

theorem effV_brakeEvaluated (d : BrakeData) (p : Part) : effV (brakeEvaluated d p) = d.v := by
  have himage : (brakeEvaluated d p).image = (brakeStored d p).image :=
    (brakeEvaluated_frame d p).same .image (by decide)
  rw [effV, himage, brakeStored_image]

theorem brakeEvaluated_hold (d : BrakeData) (p : Part) : (brakeEvaluated d p).hold = p.hold :=
  ((brakeStored_frame d p).trans (n := [.image, .partState, .auth, .ports]) (brakeEvaluated_frame d p)).same .hold
    (by decide)

theorem effV_brakeRolled (d : BrakeData) (p : Part) : effV (brakeRolled d p) = d.v := by
  have himage : (brakeRolled d p).image = (brakeEvaluated d p).image :=
    (brakeRolled_frame d p).same .image (by decide)
  rw [effV, himage]
  exact effV_brakeEvaluated d p

theorem brakeRolled_of_rolling (hstate : p.hold.state ≠ .drive) (hv : 5 ≤ d.v) :
    brakeRolled d p = breakHold (setEvent .holdRoll (brakeEvaluated d p)) := by
  rw [brakeRolled, holdRoll, effV_brakeEvaluated, brakeEvaluated_hold]
  exact if_pos (Bool.and_eq_true_iff.mpr ⟨decide_eq_true hstate, decide_eq_true hv⟩)

theorem brakeRolled_of_not_rolling (h : ¬ (5 ≤ d.v ∧ p.hold.state ≠ .drive)) : brakeRolled d p = brakeEvaluated d p := by
  rw [brakeRolled, holdRoll, effV_brakeEvaluated, brakeEvaluated_hold]
  refine if_neg fun hif => h ?_
  obtain ⟨hstate, hv⟩ := Bool.and_eq_true_iff.mp hif
  exact ⟨of_decide_eq_true hv, of_decide_eq_true hstate⟩

theorem brakeRolled_changes (hstate : p.hold.state ≠ .drive) (hv : 5 ≤ d.v) :
    brakeRolled d p = changeHold .drive none (setEvent .holdRoll (brakeEvaluated d p)) := by
  have hhold : (setEvent .holdRoll (brakeEvaluated d p)).hold = p.hold := brakeEvaluated_hold d p
  rw [brakeRolled_of_rolling hstate hv, breakHold_of_hold (by rw [hhold]; exact hstate)]

theorem brakeRolled_moved (hstate : p.hold.state ≠ .drive) (hv : 5 ≤ d.v) :
    holdMoved .drive (setEvent .holdRoll (brakeEvaluated d p)) (brakeRolled d p) := by
  rw [brakeRolled_changes hstate hv]
  exact holdMoved_changeHold ..

theorem speedArrival_brakeRolled (d : BrakeData) (p : Part) : speedArrival (brakeRolled d p) =
    if 5 ≤ d.v then ceaseStanding (brakeRolled d p) else brakeRolled d p := by
  rw [speedArrival, effV_brakeRolled]
  rfl

/-! ### The request flags -/

theorem requested_brakeStored (d : BrakeData) (p : Part) :
    requested .safeStop (brakeStored d p) = (anyLineActive p || d.emergency) ∧
      requested .slip (brakeStored d p) = (d.slip2 || d.slip3) ∧
      requested .blend (brakeStored d p) = (p.blend.episode && decide (p.image.drive.data.direction = .forward) &&
        decide (p.cfg.num .vMinRegen ≤ d.v)) ∧
      requested .limp (brakeStored d p) = false := by
  have hframe := brakeStored_frame d p
  have hlines : (brakeStored d p).lines = p.lines := hframe.same .lines (by decide)
  have hblend : (brakeStored d p).blend = p.blend := hframe.same .blend (by decide)
  have hcfg : (brakeStored d p).cfg = p.cfg := hframe.same .cfg (by decide)
  refine ⟨?_, ?_, ?_, ?_⟩
  · rw [requested_safeStop, anyLineActive, hlines, brakeStored_image]
    rfl
  · simp only [requested, effSlip, brakeStored_image]
  · simp only [requested, effDirection, effV, Part.fresh, hblend, hcfg, brakeStored_image]
    simp [Image.freshness]
  · simp only [requested, Part.fresh, brakeStored_image]
    rfl

theorem brakeEvaluated_flags (d : BrakeData) (p : Part) : (brakeEvaluated d p).auth.flags =
    { p.auth.flags with
      safeStop := anyLineActive p || d.emergency
      slip := d.slip2 || d.slip3
      blend := p.blend.episode && decide (p.image.drive.data.direction = .forward) &&
        decide (p.cfg.num .vMinRegen ≤ d.v)
      limp := false } := by
  obtain ⟨hsafe, hslip, hblend, hlimp⟩ := requested_brakeStored d p
  have hauth : (brakeStored d p).auth = p.auth := (brakeStored_frame d p).same .auth (by decide)
  refine SourceFlags.eq_of_get fun src => ?_
  rw [brakeEvaluated, evalEach_flag, hauth]
  cases src <;> simp [SourceFlags.get, hsafe, hslip, hblend, hlimp]

/-- A rolling vehicle breaks its hold (R43, R108). -/
theorem brakeRolled_flags (d : BrakeData) (p : Part) : (brakeRolled d p).auth.flags =
    { (brakeEvaluated d p).auth.flags with
      hold := if 5 ≤ d.v ∧ p.hold.state ≠ .drive then false else (brakeEvaluated d p).auth.flags.hold } := by
  by_cases hrolls : 5 ≤ d.v ∧ p.hold.state ≠ .drive
  · obtain ⟨hv, hstate⟩ := hrolls
    rw [(brakeRolled_moved hstate hv).flags, if_pos ⟨hv, hstate⟩]
    rfl
  · rw [brakeRolled_of_not_rolling hrolls, if_neg hrolls]

theorem brakeEvaluated_released (d : BrakeData) (p : Part) : entriesReleased
    (fun src => decide (src ∈ [Source.safeStop, .slip, .blend, .limp]) && !(brakeEvaluated d p).auth.flags.get src)
    p (brakeEvaluated d p) := by
  refine ((evalEach_released [.safeStop, .slip, .blend, .limp] (brakeStored d p)).after (brakeStored_frame d p)
    (.of_frame (brakeStored_frame d p)) (evalEach_gains ..)).congr fun src => ?_
  rw [brakeEvaluated, evalEach_flag]
  by_cases hmem : src ∈ [Source.safeStop, .slip, .blend, .limp] <;> simp [hmem]

theorem brakeRolled_released (d : BrakeData) (p : Part) : entriesReleased
    (fun src => (src ≠ .traction && src ≠ .hold && !(brakeRolled d p).auth.flags.get src) ||
      (src = .hold && decide (5 ≤ d.v ∧ p.hold.state ≠ .drive))) p (brakeRolled d p) := by
  have hbefore := brakeEvaluated_released d p
  have hflag (src : Source) (h : src ≠ .hold) :
      (brakeRolled d p).auth.flags.get src = (brakeEvaluated d p).auth.flags.get src := by
    rw [brakeRolled_flags]
    cases src <;> first | rfl | exact absurd rfl h
  by_cases hrolls : 5 ≤ d.v ∧ p.hold.state ≠ .drive
  · obtain ⟨hv, hstate⟩ := hrolls
    have hset := (hbefore.frame (setEvent_frame .holdRoll _) (setEvent_gains ..) (setEvent_gainsNo (by decide))).trans
      (brakeRolled_moved hstate hv).released (by rw [brakeRolled_of_rolling hstate hv]; exact breakHold_gains _)
    refine hset.congr fun src => ?_
    cases src <;> simp [hflag, hv, hstate]
  · refine (brakeRolled_of_not_rolling hrolls ▸ hbefore).congr fun src => ?_
    cases src <;> simp [hflag, hrolls]

/-! ### The settlements of the obligations -/

theorem brakeArrival_kept (d : BrakeData) (p : Part) :
    (brakeArrival d p).auth = (brakeRolled d p).auth ∧ (brakeArrival d p).hold = (brakeRolled d p).hold ∧
      (brakeArrival d p).gen = (brakeRolled d p).gen ∧ (brakeArrival d p).ports = (brakeRolled d p).ports := by
  have h : changesOnly [.cal, .scan] (brakeRolled d p) (brakeArrival d p) := by
    rw [brakeArrival_eq]
    exact speedArrival_frame _
  exact ⟨h.same .auth (by decide), h.same .hold (by decide), h.same .gen (by decide), h.same .ports (by decide)⟩

theorem brakeDataOf_eq (v m slipCapA slipCapB : BitVec 16) (flags : Byte) : brakeDataOf v m slipCapA slipCapB flags =
    { v := min v.toNat 1000
      m := max 12000 (min m.toNat 30000)
      slip2 := flags.getLsbD 0
      slip3 := flags.getLsbD 1
      slipCapA := min slipCapA.toNat 2600
      slipCapB := min slipCapB.toNat 2600
      lowAdhesion := flags.getLsbD 2
      emergency := flags.getLsbD 3 } := by
  simp only [brakeDataOf, clampNat_zero, flagBit]
  rfl

/-- Settles O8: image, part state, arbiter, hold controller and scanner in their order. -/
theorem brakeStatusTaken : Obligations.BrakeStatusTaken := by
  intro v m slipCapA slipCapB flags s hrun
  have hdata := brakeDataOf_eq v m slipCapA slipCapB flags
  have hv : (brakeDataOf v m slipCapA slipCapB flags).v = min v.toNat 1000 := by rw [hdata]
  have hexec : exec (.brakeStatus v m slipCapA slipCapB flags) s =
      .next ⟨s.pending, brakeArrival (brakeDataOf v m slipCapA slipCapB flags) s.part⟩ := exec_of_whenRunning hrun rfl
  refine ⟨_, hexec, rfl, ?_⟩
  dsimp only
  have hrolling : 5 ≤ (brakeDataOf v m slipCapA slipCapB flags).v ↔ 5 ≤ v.toNat := by rw [hv]; omega
  have hflags := brakeRolled_flags (brakeDataOf v m slipCapA slipCapB flags) s.part
  have hreleased := brakeRolled_released (brakeDataOf v m slipCapA slipCapB flags) s.part
  have hframe := brakeRolled_frame' (brakeDataOf v m slipCapA slipCapB flags) s.part
  have hmoves := speedArrival_frame (brakeRolled (brakeDataOf v m slipCapA slipCapB flags) s.part)
  have hevaluated := brakeEvaluated_flags (brakeDataOf v m slipCapA slipCapB flags) s.part
  have himage := brakeArrival_image (brakeDataOf v m slipCapA slipCapB flags) s.part
  have harrival := brakeArrival_eq (brakeDataOf v m slipCapA slipCapB flags) s.part
  obtain ⟨hauth, -⟩ := brakeArrival_kept (brakeDataOf v m slipCapA slipCapB flags) s.part
  rw [hdata] at himage
  refine ⟨himage, ?ready, ⟨?flags, ?released⟩, brakeArrival_gains _ _, brakeArrival_frame _ _,
    fun hslow => ?stands, fun hfast => ?rolls⟩
  case ready =>
    refine readyAfter_of_stored (q := storeBrake (brakeDataOf v m slipCapA slipCapB flags) s.part) rfl
      (fun other h => by cases other <;> first | rfl | exact absurd rfl h) rfl ?_
    rw [harrival]
    exact (((brakeEvaluated_frame _ _).trans (n := holdBlocks) (brakeRolled_frame _ _)).trans
      (n := [.auth, .hold, .gen, .scan, .cal, .account, .ports]) hmoves).same .partState (by decide)
  case flags =>
    rw [hauth, hflags, hevaluated]
    simp only [hrolling]
    simp only [hdata]
  case released =>
    rw [hauth, harrival]
    simp only [hrolling] at hreleased
    exact hreleased.frame hmoves (.of_frame hmoves) (.of_frame hmoves)
  case stands =>
    have hrest : ¬ (5 ≤ (brakeDataOf v m slipCapA slipCapB flags).v) := by rw [hv]; omega
    rw [harrival, speedArrival_brakeRolled, if_neg hrest, brakeRolled_of_not_rolling fun h => hrest h.1]
    exact (brakeStored_frame _ _).trans (brakeEvaluated_frame _ _)
  case rolls =>
    rw [harrival, speedArrival_brakeRolled, if_pos (hrolling.mpr hfast)]
    exact (standingCeased_ceaseStanding _).congr (hframe.same .scan (by decide)) (hframe.same .cal (by decide))
      (hframe.same .cfg (by decide)) rfl rfl

/-! ### The breaks of a hold -/

/-- The hold controller back in DRIVE, as a break leaves it (R108). -/
theorem holdMoved.no_entry (h : holdMoved .drive p q) : q.auth.flags.hold = false ∧ ∀ e ∈ q.auth.stack, e.source ≠ .hold := by
  obtain ⟨hstack, -⟩ := h.released
  refine ⟨by rw [h.flags]; rfl, fun e he heq => ?_⟩
  rw [hstack] at he
  have hkept := (List.mem_filter.mp he).2
  simp [heq] at hkept

/-- A DRIVE_STATUS with a break event (R107, R108). -/
theorem driveArrival_of_break {d : DriveData} (hstate : p.hold.state ≠ .drive) (hbreak : p.cfg.num .breakPedal ≤ d.pedal ∨
    d.holdRequest = false ∨ d.direction ≠ p.image.drive.data.direction) :
    (driveArrival d p).hold = ⟨.drive, p.time.now, none, false, false, false⟩ ∧
      (driveArrival d p).gen.startRequest = false ∧ (driveArrival d p).auth.flags.hold = false ∧
      (∀ e ∈ (driveArrival d p).auth.stack, e.source ≠ .hold) ∧ hasEvent .holdChange .pd (driveArrival d p) := by
  have hheld := driveHeld_of_break hstate hbreak
  have hdrive : (driveHeld d p).hold.state = .drive := by rw [hheld, changeHold_hold]
  have hmoved : holdMoved .drive (driveStored d p) (driveHeld d p) := hheld ▸ holdMoved_changeHold ..
  obtain ⟨hstack, -⟩ := driveArrival_released d p
  refine ⟨?_, ?_, ?_, fun e he heq => ?_, hasEvent_driveArrival hmoved.event⟩
  · rw [driveArrival_hold, hheld, changeHold_driveStored_hold]
    simp
  · rw [driveArrival_startRequest, hheld, changeHold_gen]
    simp
  · rw [driveArrival_flags, hdrive]
    exact (if_neg hstate.symm).trans (decide_eq_false (not_not_intro rfl))
  · rw [hstack] at he
    have hkept := (List.mem_filter.mp he).2
    simp [heq, hstate, hdrive] at hkept

/-- A BRAKE_STATUS at rolling speed (R107, R108). -/
theorem brakeArrival_of_rolling (hstate : p.hold.state ≠ .drive) (hv : 5 ≤ d.v) :
    (brakeArrival d p).hold = ⟨.drive, p.time.now, none, false, false, false⟩ ∧
      (brakeArrival d p).gen.startRequest = false ∧ (brakeArrival d p).auth.flags.hold = false ∧
      (∀ e ∈ (brakeArrival d p).auth.stack, e.source ≠ .hold) ∧ hasEvent .holdChange .pd (brakeArrival d p) ∧
      hasEvent .holdRoll .pd (brakeArrival d p) := by
  obtain ⟨hauth, hhold, hgen, hports⟩ := brakeArrival_kept d p
  have hmoved := brakeRolled_moved hstate hv
  have hchanges := brakeRolled_changes hstate hv
  obtain ⟨hflag, hentries⟩ := hmoved.no_entry
  have hevent (e : Event) (h : hasEvent e .pd (brakeRolled d p)) : hasEvent e .pd (brakeArrival d p) := by
    unfold hasEvent Part.port at *
    rwa [hports]
  have htime : (setEvent .holdRoll (brakeEvaluated d p)).time = p.time :=
    ((brakeStored_frame d p).trans (n := [.image, .partState, .auth, .ports]) (brakeEvaluated_frame d p)).same .time
      (by decide)
  rw [hauth, hhold, hgen]
  refine ⟨?_, ?_, hflag, hentries, hevent _ hmoved.event, hevent _ ?_⟩
  · rw [hchanges, changeHold_hold, htime]
    simp
  · rw [hchanges, changeHold_gen]
    simp
  · rw [hchanges]
    exact (hasEvent_setEvent .holdRoll _ rfl).of_gains (changeHold_gains ..)

/-- Settles O11. -/
theorem holdBreaks : Obligations.HoldBreaks := by
  intro s hrun hstate
  refine ⟨fun pedal aDem direction flags hbreak => ⟨_, exec_of_whenRunning hrun rfl, ?_⟩,
    fun v m slipCapA slipCapB flags hv => ⟨_, exec_of_whenRunning hrun rfl, ?_⟩⟩
  · refine driveArrival_of_break hstate ?_
    simp only [driveDataOf, clampNat_zero]
    exact hbreak
  · refine brakeArrival_of_rolling hstate ?_
    rw [brakeDataOf_eq]
    exact Nat.le_min.mpr ⟨hv, by decide⟩

end Sys2Proof.Machine
end

