-- ==== Sys2Proof/Proofs/PartnerSilence.lean ====
section
/-! SUPPORT. A partner that falls silent (R34, R36 to R40, R43, R50, R122), and the start window (R205). -/

set_option Elab.async false

namespace Sys2Proof.Machine

variable {p q : Part} {partner other : Partner} {f : Freshness}

/-! ### The image -/

theorem handStale_image (partner : Partner) (p : Part) : (handStale partner p).image = p.image := by
  cases partner with
  | drive => exact (driveSilent_frame p).same .image (by decide)
  | storage | generator => rfl
  | brake => exact (brakeSources_frame p).same .image (by decide)

theorem handLost_image (partner : Partner) (p : Part) : (handLost partner p).image = p.image := by
  cases partner with
  | drive => exact (driveSilent_frame p).same .image (by decide)
  | storage => rfl
  | generator => exact (generatorLost_frame p).same .image (by decide)
  | brake => exact (brakeSources_frame p).same .image (by decide)

theorem becomeStale_image (partner : Partner) (p : Part) :
    (becomeStale partner p).image = p.image.setFreshness partner .stale := handStale_image ..

theorem becomeLost_image (partner : Partner) (p : Part) :
    (becomeLost partner p).image = p.image.setFreshness partner .lost := handLost_image ..

theorem freshness_setFreshness (im : Image) (partner other : Partner) (f : Freshness) :
    (im.setFreshness partner f).freshness other = if other = partner then f else im.freshness other := by
  cases partner <;> cases other <;> rfl

theorem stampOf_setFreshness (im : Image) (partner other : Partner) (f : Freshness) :
    (im.setFreshness partner f).stampOf other = im.stampOf other := by
  cases partner <;> cases other <;> rfl

/-! ### A silent drive partner -/

theorem driveSilent_released (h : p.fresh .drive ≠ .fresh) : entriesReleased
    (fun src => src = .traction || (src = .hold && p.hold.state ≠ .drive)) p (driveSilent p) := by
  have hrequest : requested .traction p = false := by simp [requested, h]
  have hhold : (evalSource .traction p).hold = p.hold := (evalSource_frame .traction p).same .hold (by decide)
  refine ((evalSource_released .traction p).trans (breakHold_released _) (breakHold_gains _)).congr fun src => ?_
  rw [hrequest, hhold]
  simp

theorem breakHold_flags (p : Part) : ∀ src, src ≠ .hold → (breakHold p).auth.flags.get src = p.auth.flags.get src := by
  intro src h
  unfold breakHold
  split
  · rfl
  · rw [changeHold_flags]
    cases src <;> first | rfl | exact absurd rfl h

theorem driveSilent_traction (h : p.fresh .drive ≠ .fresh) : (driveSilent p).auth.flags.traction = false := by
  have hrequest : requested .traction p = false := by simp [requested, h]
  have hkept := breakHold_flags (evalSource .traction p) .traction (by decide)
  rw [evalSource_flags, hrequest] at hkept
  exact hkept

theorem driveSilent_hold (p : Part) : (driveSilent p).hold.state = .drive := breakHold_state _

/-! ### A lost brake partner -/

theorem brakeSilent_eq (p : Part) :
    evalSource .limp (evalSource .blend (evalSource .slip p)) = evalEach [.slip, .blend, .limp] p := rfl

theorem requested_of_brakeLost (h : p.fresh .brake = .lost) :
    requested .limp p = true ∧ requested .slip p = false ∧ requested .blend p = false := by
  have hslip : effSlip p = ⟨false, false⟩ := by
    unfold effSlip
    rw [show p.image.brake.freshness = .lost from h]
  refine ⟨by simp [requested, h], ?_, by simp [requested, h]⟩
  simp [requested, hslip]

theorem becomeLost_brake (p : Part) :
    becomeLost .brake p = evalEach [.slip, .blend, .limp] (setFreshness .brake .lost p) := brakeSilent_eq _

theorem becomeLost_brake_flag (src : Source) (p : Part) : (becomeLost .brake p).auth.flags.get src =
    if src ∈ [Source.slip, .blend, .limp] then decide (src = .limp) else p.auth.flags.get src := by
  obtain ⟨hlimp, hslip, hblend⟩ := requested_of_brakeLost (p := setFreshness .brake .lost p) rfl
  have hauth : (setFreshness .brake .lost p).auth = p.auth := rfl
  rw [becomeLost_brake, evalEach_flag, hauth]
  cases src <;> simp [hlimp, hslip, hblend]

theorem becomeLost_brake_released (p : Part) :
    entriesReleased (fun src => src = .slip || src = .blend) p (becomeLost .brake p) := by
  obtain ⟨hlimp, hslip, hblend⟩ := requested_of_brakeLost (p := setFreshness .brake .lost p) rfl
  rw [becomeLost_brake]
  refine ((evalEach_released _ _).after (setFreshness_frame .brake .lost p) (.of_frame (setFreshness_frame ..))
    (evalEach_gains ..)).congr fun src => ?_
  cases src <;> simp [hlimp, hslip, hblend]

theorem becomeLost_brake_frame (p : Part) : changesOnly [.image, .auth, .ports] p (becomeLost .brake p) :=
  (setFreshness_frame ..).trans (brakeSources_frame _)

/-! ### A lost generator partner -/

theorem generatorLost_of_failed (h : p.gen.link = .failed ∨ p.gen.link = .lockedOut) : generatorLost p = p := by
  unfold generatorLost
  obtain h | h := h <;> rw [h]

theorem generatorLost_of_other (hfailed : p.gen.link ≠ .failed) (hlocked : p.gen.link ≠ .lockedOut) :
    generatorLost p = enterFailed false p := by
  unfold generatorLost
  split
  · next h => exact absurd h hfailed
  · next h => exact absurd h hlocked
  all_goals rfl

/-- The loss is not counted, so a link with less than three failures fails (R122). -/
theorem generatorLost_gen (hfailures : p.gen.failures ≠ 3) (hlocked : p.gen.link ≠ .lockedOut) :
    (generatorLost p).gen.link = .failed ∧ (generatorLost p).gen.failures = p.gen.failures := by
  by_cases hfailed : p.gen.link = .failed
  · rw [generatorLost_of_failed (.inl hfailed)]
    exact ⟨hfailed, rfl⟩
  · rw [generatorLost_of_other hfailed hlocked, enterFailed_link, enterFailed_failures]
    exact ⟨if_neg hfailures, rfl⟩

/-! ### The start window -/

theorem lostIfNever_image (partner : Partner) (p : Part) : (lostIfNever partner p).image =
    if p.fresh partner = .never then p.image.setFreshness partner .lost else p.image := by
  unfold lostIfNever
  split
  · exact becomeLost_image ..
  · rfl

theorem lostIfNever_fresh (partner other : Partner) (p : Part) : (lostIfNever partner p).fresh other =
    if other = partner ∧ p.fresh other = .never then .lost else p.fresh other := by
  unfold Part.fresh
  rw [lostIfNever_image]
  split
  · next h =>
    rw [freshness_setFreshness]
    by_cases heq : other = partner
    · subst heq
      rw [if_pos rfl, if_pos ⟨rfl, h⟩]
    · rw [if_neg heq, if_neg fun h => heq h.1]
  · next h => exact (if_neg fun ⟨heq, hnever⟩ => h (heq ▸ hnever)).symm

theorem lostIfNever_stamp (partner other : Partner) (p : Part) :
    (lostIfNever partner p).image.stampOf other = p.image.stampOf other := by
  rw [lostIfNever_image]
  split
  · exact stampOf_setFreshness ..
  · rfl

theorem lostIfNever_of_never (h : p.fresh partner = .never) : lostIfNever partner p = becomeLost partner p := if_pos h

/-- The part when every partner but the brake partner is judged at the end of the start window. -/
def threeLost (p : Part) : Part := lostIfNever .generator (lostIfNever .storage (lostIfNever .drive p))

theorem startWindowExpires_eq (p : Part) :
    startWindowExpires p = (lostIfNever .brake (threeLost p)).setPartState .ready := rfl

theorem startWindow_fresh (other : Partner) (p : Part) : (startWindowExpires p).fresh other =
    if p.fresh other = .never then .lost else p.fresh other := by
  have hsame : (startWindowExpires p).fresh other = (lostIfNever .brake (threeLost p)).fresh other := by
    rw [startWindowExpires_eq, Part.fresh, Part.fresh, Part.setPartState_image]
  rw [hsame, threeLost]
  simp only [lostIfNever_fresh]
  cases other <;> simp

theorem startWindow_stamp (other : Partner) (p : Part) :
    (startWindowExpires p).image.stampOf other = p.image.stampOf other := by
  rw [startWindowExpires_eq, Part.setPartState_image, threeLost]
  simp only [lostIfNever_stamp]

theorem startWindow_limp (h : p.fresh .brake = .never) : (startWindowExpires p).auth.flags.limp = true := by
  have hnever : (threeLost p).fresh .brake = .never := by
    rw [threeLost]
    simp only [lostIfNever_fresh, h]
    decide
  rw [startWindowExpires_eq, Part.setPartState_auth, lostIfNever_of_never hnever]
  exact becomeLost_brake_flag .limp _

/-- Drive and storage partners leave the link where it is (R36, R37). -/
theorem lostIfNever_link (h : partner = .drive ∨ partner = .storage) (p : Part) :
    (lostIfNever partner p).gen.link = p.gen.link ∧ (lostIfNever partner p).gen.failures = p.gen.failures := by
  obtain rfl | rfl := h
  · have hbroken (q : Part) : (breakHold q).gen.link = q.gen.link ∧ (breakHold q).gen.failures = q.gen.failures := by
      unfold breakHold
      split
      · exact ⟨rfl, rfl⟩
      · rw [changeHold_gen]
        exact ⟨rfl, rfl⟩
    unfold lostIfNever
    split
    · have hgen : (evalSource .traction (setFreshness .drive .lost p)).gen = p.gen :=
        ((setFreshness_frame .drive .lost p).trans (n := [.image, .auth, .ports]) (evalSource_frame ..)).same .gen (by decide)
      have hsilent := hbroken (evalSource .traction (setFreshness .drive .lost p))
      rw [hgen] at hsilent
      exact hsilent
    · exact ⟨rfl, rfl⟩
  · unfold lostIfNever
    split <;> exact ⟨rfl, rfl⟩

theorem becomeLost_generator (hlink : p.gen.link = .awaiting) (hfailures : p.gen.failures = 0) :
    (becomeLost .generator p).gen.link = .failed ∧ (becomeLost .generator p).gen.failures = 0 ∧
      hasEvent .gensetFault .pd (becomeLost .generator p) := by
  have hfailed : becomeLost .generator p = enterFailed false (setFreshness .generator .lost p) :=
    generatorLost_of_other (p := setFreshness .generator .lost p) (fun h => nomatch hlink.symm.trans h)
      (fun h => nomatch hlink.symm.trans h)
  have hcount : failuresAfter false (setFreshness .generator .lost p) = 0 := hfailures
  rw [hfailed, enterFailed_link, enterFailed_failures, hcount]
  exact ⟨rfl, rfl, hasEvent_enterFailed rfl⟩

theorem startWindow_generator (hnever : p.fresh .generator = .never) (hlink : p.gen.link = .awaiting)
    (hfailures : p.gen.failures = 0) : (startWindowExpires p).gen.link = .failed ∧
      (startWindowExpires p).gen.failures = 0 ∧ hasEvent .gensetFault .pd (startWindowExpires p) := by
  have hbefore : (lostIfNever .storage (lostIfNever .drive p)).gen.link = .awaiting ∧
      (lostIfNever .storage (lostIfNever .drive p)).gen.failures = 0 := by
    obtain ⟨hlink1, hfailures1⟩ := lostIfNever_link (.inl rfl) p
    obtain ⟨hlink2, hfailures2⟩ := lostIfNever_link (.inr rfl) (lostIfNever .drive p)
    rw [hlink2, hlink1, hfailures2, hfailures1]
    exact ⟨hlink, hfailures⟩
  have hnever' : (lostIfNever .storage (lostIfNever .drive p)).fresh .generator = .never := by
    simp only [lostIfNever_fresh, hnever]
    decide
  obtain ⟨hfailed, hcount, hevent⟩ := becomeLost_generator hbefore.1 hbefore.2
  rw [← lostIfNever_of_never hnever', ← threeLost] at hfailed hcount hevent
  have hafter : changesOnly [.image, .auth, .ports] (threeLost p) (lostIfNever .brake (threeLost p)) := by
    unfold lostIfNever
    exact .ite (becomeLost_brake_frame _) (.refl _ _)
  have hgen : (lostIfNever .brake (threeLost p)).gen = (threeLost p).gen := hafter.same .gen (by decide)
  rw [startWindowExpires_eq, Part.setPartState_gen, hgen]
  exact ⟨hfailed, hcount, (hevent.of_gains ((portsOnlyGainEvents_controlClosed _).lostIfNever (.refl _))).of_gains
    (.of_frame (setPartState_frame ..))⟩

theorem becomeStale_brake_frame (p : Part) : changesOnly [.image, .auth, .ports] p (becomeStale .brake p) :=
  (setFreshness_frame ..).trans (brakeSources_frame _)

/-- Settles O45: the image, then the treatment of the partner that fell silent. -/
theorem partnersFallSilent : Obligations.PartnersFallSilent := by
  refine ⟨fun partner s hrun => ⟨fun hfresh hlimit => ?_, fun hstale hlimit => ?_⟩, fun s hrun hstarting hwindow => ?_⟩
  · have hdue : staleDue partner s.part = true :=
      Bool.and_eq_true_iff.mpr ⟨decide_eq_true hfresh, decide_eq_true hlimit⟩
    refine ⟨_, exec_of_whenDue hrun hdue rfl, becomeStale_image .., ?drive, ?others, ?brake, becomeStale_frame ..⟩
    case drive =>
      rintro rfl
      have hsilent : (setFreshness .drive .stale s.part).fresh .drive ≠ .fresh := fun h => (nomatch h)
      have hreleased := driveSilent_released hsilent
      refine ⟨driveSilent_traction hsilent, driveSilent_hold _, hreleased.after (setFreshness_frame ..)
        (.of_frame (setFreshness_frame ..)) ((evalSource_gains ..).trans (breakHold_gains _)), ?_⟩
      rw [effPedal, becomeStale_image]
      rfl
    case others => rintro (rfl | rfl) <;> exact setFreshness_frame ..
    case brake =>
      rintro rfl
      exact becomeStale_brake_frame _
  · have hdue : lostDue partner s.part = true :=
      Bool.and_eq_true_iff.mpr ⟨decide_eq_true hstale, decide_eq_true hlimit⟩
    refine ⟨_, exec_of_whenDue hrun hdue rfl, becomeLost_image .., ?drive, ?storage, ?brake, ?generator, ?locked,
      becomeLost_frame ..⟩
    case drive =>
      rintro rfl
      exact ⟨driveSilent_traction fun h => (nomatch h), driveSilent_hold _⟩
    case storage =>
      rintro rfl
      exact setFreshness_frame ..
    case brake =>
      rintro rfl
      exact ⟨becomeLost_brake_flag .limp _, becomeLost_brake_flag .slip _, becomeLost_brake_flag .blend _,
        becomeLost_brake_released _, becomeLost_brake_frame _⟩
    case generator =>
      rintro rfl hfailures hlocked
      exact generatorLost_gen (p := setFreshness .generator .lost s.part) hfailures hlocked
    case locked =>
      rintro rfl hlocked
      have hkept := generatorLost_of_failed (p := setFreshness .generator .lost s.part) (.inr hlocked)
      show (generatorLost (setFreshness .generator .lost s.part)).gen = s.part.gen
      rw [hkept]
      rfl
  · have hdue : startWindowDue s.part = true := by
      refine Bool.and_eq_true_iff.mpr ⟨decide_eq_true hstarting, decide_eq_true ?_⟩
      simpa [elapsed, Part.now, Config.startWindow] using hwindow
    exact ⟨_, exec_of_whenDue hrun hdue rfl, rfl, fun other => startWindow_fresh other _,
      fun other => startWindow_stamp other _, startWindow_limp, startWindow_generator, startWindowExpires_frame _⟩

end Sys2Proof.Machine
end

