-- ==== Sys2Proof/Proofs/SettlementTerms.lean ====
section
/-! SUPPORT. What a settlement takes at its beginning (R1 to R5, R36 to R40, R77, R83) and the terms it forms of it
(R6, R7, R9 to R11, R15). -/

set_option Elab.async false

namespace Sys2Proof.Machine

variable {p : Part}

/-! ### The partners by their freshness -/

theorem effPedal_eq (p : Part) : effPedal p =
    if p.image.drive.freshness = .stale ∨ p.image.drive.freshness = .lost then 0 else p.image.drive.data.pedal := by
  unfold effPedal
  cases p.image.drive.freshness <;> rfl

theorem effDisLim_eq (p : Part) : effDisLim p = if p.image.storage.data.contactorOpen then 0
    else if p.image.storage.freshness = .lost then p.image.disCopy else p.image.storage.data.pDisLim := by
  unfold effDisLim
  cases p.image.storage.freshness <;> rfl

theorem effChgLim_eq (p : Part) : effChgLim p = if p.image.storage.data.contactorOpen then 0
    else if p.image.storage.freshness = .lost then p.image.chgCopy else p.image.storage.data.pChgLim := by
  unfold effChgLim
  cases p.image.storage.freshness <;> rfl

theorem effGenAvail_eq (p : Part) : effGenAvail p =
    if p.image.generator.freshness = .lost then 0 else p.image.generator.data.pGenAvail := by
  unfold effGenAvail
  cases p.image.generator.freshness <;> rfl

theorem effSlip_eq (p : Part) : effSlip p = if p.image.brake.freshness = .lost then ⟨false, false⟩
    else ⟨p.image.brake.data.slip2, p.image.brake.data.slip3⟩ := by
  unfold effSlip
  cases p.image.brake.freshness <;> rfl

theorem slipping_iff (p : Part) : ((effSlip p).a || (effSlip p).b) = true ↔ p.image.brake.freshness ≠ .lost ∧
    (p.image.brake.data.slip2 = true ∨ p.image.brake.data.slip3 = true) := by
  rw [effSlip_eq]
  split
  · simp [*]
  · simp [*]

/-! ### Monitors, linings and the battery -/

theorem anyTripped_iff {a : MonitorAction} : anyTripped a p = true ↔
    ∃ k : MonitorNo, p.cfg.monitors[k].action = a ∧ p.scan.monitors[k].state = .tripped := by
  simp [anyTripped]

theorem anyWorn_iff {l : PerAxle Level} : anyWorn l = true ↔ l.axle1 ≠ .ok ∨ l.axle2 ≠ .ok ∨ l.axle3 ≠ .ok := by
  simp [anyWorn, wornLevel, or_assoc]

theorem slotNow_eq (p : Part) : slotNow p = if p.image.brake.data.lowAdhesion then 1
    else if p.cfg.num .socFull ≤ p.image.storage.data.soc then 3
    else if p.wear[0].level ≠ .ok ∨ p.wear[1].level ≠ .ok ∨ p.wear[2].level ≠ .ok then 2 else 0 := by
  have hworn : anyWorn (liningLevels p) = true ↔
      p.wear[0].level ≠ .ok ∨ p.wear[1].level ≠ .ok ∨ p.wear[2].level ≠ .ok := anyWorn_iff
  simp only [slotNow, selectSlot, hworn, batteryFull, decide_eq_true_eq]
  rfl

theorem promotedSlot_active (s : Slot) : (promotedSlot s).active = s.pending.getD s.active := by
  unfold promotedSlot
  cases h : s.pending <;> rfl

theorem passProgram_eq (p : Part) : passProgram p = if p.blend.episode then p.slots[slotNow p].active
    else p.slots[slotNow p].pending.getD p.slots[slotNow p].active := by
  rw [passProgram, promotedSlot_active]

theorem passProgram_of_slot {slot : SlotNo} (h : slotNow p = slot) : passProgram p =
    if p.blend.episode then p.slots[slot].active else p.slots[slot].pending.getD p.slots[slot].active := by
  subst h
  exact passProgram_eq p

/-- Settles O32, field by field. -/
theorem settlementInputsTaken : Obligations.SettlementInputsTaken := by
  intro hold p i drive storage brake sensed worn slipping full slot
  have hslot : slotNow p = slot := slotNow_eq p
  refine ⟨rfl, rfl, rfl, rfl, effPedal_eq p, rfl, rfl, rfl, rfl, rfl, effDisLim_eq p, effChgLim_eq p, effGenAvail_eq p,
    rfl, rfl, rfl, effSlip_eq p, fun motor => ?motors, rfl, rfl, anyTripped_iff, rfl, rfl, rfl, hslot, ?program, rfl, rfl,
    slipping_iff p, anyWorn_iff, decide_eq_true_iff, anyTripped_iff⟩
  case motors => cases motor <;> exact ⟨rfl, rfl, rfl, inService_iff⟩
  case program => exact passProgram_of_slot hslot

/-! ### The terms of the stages -/

theorem weight_eq (i : SettleInputs) : i.weight = if i.soc ≤ i.socLow then 0 else if i.socHigh ≤ i.soc then 1000
    else (i.soc - i.socLow) * 1000 / (i.socHigh - i.socLow) := rfl

theorem pGenEff_eq (i : SettleInputs) : i.pGenEff =
    if (i.link = .run ∨ i.link = .unloading) ∧ i.quietZone = false then i.pGenAvail else 0 := by
  simp [SettleInputs.pGenEff]

theorem pReq_eq (i : SettleInputs) : i.pReq =
    if i.base = some .limp then i.pedalPower * i.factors.dTrac / 1000 * 250 / 1000
    else if i.base = some .traction then i.pedalPower * i.factors.dTrac / 1000 else 0 := rfl

theorem lowers_iff (i : SettleInputs) : (i.slipGoverns && tractive i.base) = true ↔
    i.governing = some .slip ∧ (i.base = some .traction ∨ i.base = some .limp) := by
  simp [SettleInputs.slipGoverns, tractive]

theorem cm_get (i : SettleInputs) (motor : Motor) : i.cm.get motor =
    let cap := motoringCap i.items.nFloor (i.tl.get motor) (i.motors.get motor)
    if i.slipGoverns && tractive i.base then
      slippedMotoring i.items.nFloor (i.slip.get motor) (i.slipCap.get motor) (i.motors.get motor) cap
    else cap := by
  unfold SettleInputs.cm
  cases motor <;> dsimp only <;> split <;> rfl

theorem cg_get (i : SettleInputs) (motor : Motor) :
    i.cg.get motor = generatingCap (i.tl.get motor) (i.motors.get motor) := by
  cases motor <;> rfl

/-- Settles O33, term by term. -/
theorem settlementTermsFormed : Obligations.SettlementTermsFormed := by
  intro i low high pedalPower derated lowers
  refine ⟨rfl, rfl, weight_eq i, rfl, rfl, pGenEff_eq i, rfl, pReq_eq i, fun motor => ?_, fun _ _ _ => rfl⟩
  intro m tl cap slipCap
  have htl : i.tl.get motor = tl := by cases motor <;> rfl
  refine ⟨htl, fun hout => ⟨?_, ?_⟩, fun hin => ⟨?_, ?_⟩⟩
  · rw [cm_get]
    simp [motoringCap, slippedMotoring, show (i.motors.get motor).inService = false from hout]
  · rw [cg_get, generatingCap, show (i.motors.get motor).inService = false from hout]
    rfl
  · rw [cg_get, generatingCap, show (i.motors.get motor).inService = true from hin, htl]
    rfl
  · have hcap : motoringCap i.items.nFloor (i.tl.get motor) (i.motors.get motor) = cap := by
      rw [motoringCap, show (i.motors.get motor).inService = true from hin, htl]
      rfl
    rw [cm_get, hcap, ite_and]
    simp only [lowers_iff, slippedMotoring]
    rfl

end Sys2Proof.Machine
end

