-- ==== Sys2Proof/Proofs/BlendPass.lean ====
section
/-! SUPPORT. The blend pass (R83 to R89) and the regeneration that a settlement takes from it (R12, R13). -/

set_option Elab.async false

namespace Sys2Proof.Machine

variable {i : PassInputs} {w : PassValues} {m n k : Nat} {s : BlendStep}

/-! ### The operators -/

theorem takeAmount_eq (m : Nat) (w : PassValues) : takeAmount m w =
    if m = 255 then min w.rem (w.cap - w.reg) else min (min w.rem (w.cap - w.reg)) m := by
  rw [takeAmount, Nat.min_assoc]

theorem stepEffect_step (i : PassInputs) (m : Nat) (last : Bool) (w : PassValues) : stepEffect i ⟨.step, m, last⟩ w =
    { w with rem := w.rem + (w.reg - (i.regPrev + m)), reg := min w.reg (i.regPrev + m) } := by
  show (if i.regPrev + m < w.reg then _ else w) = _
  split
  · rw [Nat.min_eq_right (by omega)]
  · rw [Nat.min_eq_left (by omega), Nat.sub_eq_zero_of_le (by omega)]
    rfl

theorem scaled_le (hm : m ≤ 128) (cap : Nat) : cap * m / 128 ≤ cap :=
  Nat.div_le_of_le_mul (by rw [Nat.mul_comm cap]; exact Nat.mul_le_mul_right cap hm)

theorem fadeCap_le (m v cap : Nat) : fadeCap m v cap ≤ cap := by
  unfold fadeCap
  split
  · next h => exact Nat.div_le_of_le_mul (by rw [Nat.mul_comm cap]; exact Nat.mul_le_mul_right cap h.le)
  · exact Nat.le_refl cap

/-- What every legal step keeps: deceleration is moved between the three places and none is lost, the ceiling does not
rise, and REG stays within it (R83 to R88). -/
structure passKept (w w' : PassValues) : Prop where
  total : w'.rem + w'.reg + w'.fri = w.rem + w.reg + w.fri
  cap : w'.cap ≤ w.cap
  reg : w'.reg ≤ max w.reg w.cap

theorem stepEffect_kept (hlegal : modifierOk s.op s.modifier = true) : passKept w (stepEffect i s w) := by
  obtain ⟨op, m, last⟩ := s
  cases op with
  | floor =>
    refine ⟨?_, Nat.le_refl _, Nat.le_max_left ..⟩
    show w.rem - min w.rem m + w.reg + (w.fri + min w.rem m) = _
    omega
  | take =>
    have hroom : takeAmount m w ≤ w.rem ∧ takeAmount m w ≤ w.cap - w.reg := by
      unfold takeAmount
      split <;> omega
    refine ⟨?_, Nat.le_refl _, ?_⟩
    · show w.rem - takeAmount m w + (w.reg + takeAmount m w) + w.fri = _
      omega
    · show w.reg + takeAmount m w ≤ max w.reg w.cap
      omega
  | scale => exact ⟨rfl, scaled_le (of_decide_eq_true hlegal) _, Nat.le_max_left ..⟩
  | fade => exact ⟨rfl, fadeCap_le .., Nat.le_max_left ..⟩
  | step =>
    rw [stepEffect_step]
    refine ⟨?_, Nat.le_refl _, ?_⟩ <;> dsimp only <;> omega
  | skipSlip | skipWorn | skipHot | skipFull => exact ⟨rfl, Nat.le_refl _, Nat.le_max_left ..⟩
  | rest =>
    refine ⟨?_, Nat.le_refl _, Nat.le_max_left ..⟩
    show w.rem - w.rem + w.reg + (w.fri + w.rem) = _
    omega

/-! ### The steps in turn -/

theorem runSteps_skip (i : PassInputs) (l : List BlendStep) (k : Nat) (w : PassValues) (n : Nat) :
    runSteps i l k w n = runSteps i (l.drop k) 0 w n := by
  induction l generalizing k with
  | nil => cases k <;> rfl
  | cons s l ih =>
    cases k with
    | zero => rfl
    | succ k => exact ih k

/-- The condition of a skip operator holds. -/
def skips (i : PassInputs) (s : BlendStep) : Prop :=
  (s.op = .skipSlip ∧ i.slip = true) ∨ (s.op = .skipWorn ∧ i.worn = true) ∨
    (s.op = .skipHot ∧ i.hot = true) ∨ (s.op = .skipFull ∧ i.full = true)

theorem stepSkips_of_skips (h : skips i s) : stepSkips i s = s.modifier := by
  unfold stepSkips
  obtain ⟨hop, hc⟩ | ⟨hop, hc⟩ | ⟨hop, hc⟩ | ⟨hop, hc⟩ := h <;> rw [hop] <;> exact if_pos hc

theorem stepSkips_of_not (h : ¬ skips i s) : stepSkips i s = 0 := by
  unfold stepSkips
  unfold skips at h
  cases hop : s.op <;> simp_all

/-- Settles O41. -/
theorem blendOperatorsAct : Obligations.BlendOperatorsAct := by
  refine ⟨?operators, fun i s w hlegal => ?kept, ?order, fun i program aDem aCap w n => ⟨rfl, fun h => ?ends⟩⟩
  case operators =>
    intro i m last w after room taken limit
    have htake : after .take = { w with rem := w.rem - taken, reg := w.reg + taken } := by
      show w.toRegen (takeAmount m w) = _
      rw [takeAmount_eq]
      rfl
    have hrest : after .rest = { w with rem := 0, fri := w.fri + w.rem } := by
      show w.toFriction w.rem = _
      rw [PassValues.toFriction, Nat.sub_self]
    exact ⟨rfl, htake, rfl, rfl, stepEffect_step i m last w, hrest, rfl, rfl, rfl, rfl⟩
  case kept =>
    obtain ⟨htotal, hcap, hreg⟩ := stepEffect_kept (i := i) (w := w) hlegal
    exact ⟨htotal, hcap, hreg⟩
  case order =>
    intro i s rest w n skipping
    show (if s.last then _ else runSteps i rest (stepSkips i s) (stepEffect i s w) (n + 1)) = _
    congr 1
    by_cases h : skipping
    · rw [if_pos h, stepSkips_of_skips h, runSteps_skip]
    · rw [if_neg h, stepSkips_of_not h]
  case ends =>
    unfold runPass
    rw [h]

/-! ### A pass of legal steps -/

theorem runSteps_kept {l : List BlendStep} (hlegal : programLegal l) {aDem aCap : Nat}
    (htotal : w.rem + w.reg + w.fri = aDem) (hreg : w.reg ≤ aCap) (hcap : w.cap ≤ aCap) :
    (runSteps i l k w n).1.rem + (runSteps i l k w n).1.reg + (runSteps i l k w n).1.fri = aDem ∧
      (runSteps i l k w n).1.reg ≤ aCap ∧ (runSteps i l k w n).2 ≤ n + l.length := by
  induction l generalizing k w n with
  | nil => exact ⟨htotal, hreg, Nat.le_refl _⟩
  | cons s l ih =>
    have hrest : programLegal l := fun s hs => hlegal s (List.mem_cons_of_mem _ hs)
    cases k with
    | succ k =>
      obtain ⟨h1, h2, h3⟩ := ih hrest (k := k) (n := n) htotal hreg hcap
      exact ⟨h1, h2, Nat.le_trans h3 (Nat.le_succ _)⟩
    | zero =>
      obtain ⟨htotal', hcap', hreg'⟩ := stepEffect_kept (i := i) (w := w) (hlegal s List.mem_cons_self)
      have htotal2 : (stepEffect i s w).rem + (stepEffect i s w).reg + (stepEffect i s w).fri = aDem := htotal'.trans htotal
      have hreg2 : (stepEffect i s w).reg ≤ aCap := by omega
      have hcap2 : (stepEffect i s w).cap ≤ aCap := by omega
      rw [List.length_cons]
      by_cases hlast : s.last = true
      · rw [runSteps, if_pos hlast]
        exact ⟨htotal2, hreg2, by omega⟩
      · obtain ⟨h1, h2, h3⟩ := ih hrest (k := stepSkips i s) (n := n + 1) htotal2 hreg2 hcap2
        rw [runSteps, if_neg hlast]
        exact ⟨h1, h2, by omega⟩

/-- A pass of legal steps places the whole demand, within its ceiling (R83, R89). -/
theorem runPass_places {program : List BlendStep} (hlegal : programLegal program) (aDem aCap : Nat) :
    (runPass i program aDem aCap).reg + (runPass i program aDem aCap).fri = aDem ∧
      (runPass i program aDem aCap).reg ≤ aCap ∧ (runPass i program aDem aCap).steps ≤ program.length := by
  obtain ⟨htotal, hreg, hsteps⟩ := runSteps_kept (i := i) (w := ⟨aDem, 0, 0, aCap⟩) (k := 0) (n := 0) hlegal
    (aDem := aDem) (aCap := aCap) rfl (Nat.zero_le _) (Nat.le_refl _)
  unfold runPass
  dsimp only
  exact ⟨by omega, hreg, by omega⟩

/-! ### The regeneration of a settlement -/

namespace SettleInputs

variable {i : SettleInputs}

theorem decelOf_power (i : SettleInputs) (power : Nat) {a : Nat} (h : a ≤ i.decelOf power) :
    a * i.m * i.v / 360000 ≤ power := by
  have hle : a ≤ power * 360000 / (i.m * i.v) := by
    unfold decelOf at h
    split at h
    · exact Nat.le_trans h (Nat.zero_le _)
    · exact Nat.le_trans h (Nat.min_le_left ..)
  refine Nat.div_le_of_le_mul ?_
  calc a * i.m * i.v = a * (i.m * i.v) := Nat.mul_assoc ..
    _ ≤ power * 360000 / (i.m * i.v) * (i.m * i.v) := Nat.mul_le_mul_right _ hle
    _ ≤ power * 360000 := Nat.div_mul_le_self ..
    _ = 360000 * power := Nat.mul_comm ..

theorem aCap_eq (i : SettleInputs) : i.aCap = if i.aDem = 0 then 0 else i.decelOf i.rEff := by
  by_cases h : i.aDem = 0 <;> simp [aCap, episode, h]

theorem regApplied_eq (i : SettleInputs) : i.regApplied = if i.aDem = 0 ∨ i.base ≠ some .blend then 0
    else if i.governing = some .slip then min i.passResult.reg i.aSlip else i.passResult.reg := by
  by_cases h : i.aDem = 0 <;> by_cases hbase : i.base = some .blend <;>
    simp [regApplied, episode, slipGoverns, h, hbase]

theorem regApplied_le_pass (i : SettleInputs) : i.regApplied ≤ i.passResult.reg := by
  rw [regApplied_eq]
  split
  · exact Nat.zero_le _
  · split
    · exact Nat.min_le_left ..
    · exact Nat.le_refl _

theorem rg_le_rEff (h : i.regApplied ≤ i.aCap) : i.rg ≤ i.rEff := by
  rw [aCap_eq] at h
  split at h
  · have hzero : i.rg = 0 := by
      rw [rg, Nat.le_zero.mp h, Nat.zero_mul, Nat.zero_mul, Nat.zero_div]
    omega
  · exact i.decelOf_power i.rEff h

end SettleInputs

/-- Settles O40. -/
theorem regenerationWithinCeiling : Obligations.RegenerationWithinCeiling := by
  intro i room decel lowered pass
  have hslip : i.decelOf (i.cgSlipped.a + i.cgSlipped.b) = decel (lowered .a + lowered .b) := rfl
  refine ⟨rfl, i.aCap_eq, ?_, rfl, fun hlegal => ⟨fun aDem aCap => runPass_places hlegal aDem aCap, ?_⟩⟩
  · rw [← hslip]
    exact i.regApplied_eq
  · obtain ⟨htotal, hreg, -⟩ := runPass_places (i := i.pass) hlegal i.aDem i.aCap
    have hpass : i.regApplied ≤ (runPass i.pass i.program i.aDem i.aCap).reg := i.regApplied_le_pass
    have hcap : i.regApplied ≤ i.aCap := Nat.le_trans hpass hreg
    exact ⟨hcap, by omega, SettleInputs.rg_le_rEff hcap⟩

end Sys2Proof.Machine
end

