-- ==== Sys2Proof/Proofs/TorqueOrders.lean ====
section
/-! SUPPORT. The torque commands: the split, the orders by base and the check against the motor link (R62 to R66). -/

set_option Elab.async false

namespace Sys2Proof.Machine

variable {total share : Nat} {caps : PerMotor Nat} {w : Working} {o : TorqueOrder} {link : MotorLink} {s : Settling}
  {state : PartState} {motor : Motor} {shareA : Nat}

/-! ### The split -/

theorem splitPower_le (h : total ≤ caps.a + caps.b) (motor : Motor) :
    (splitPower total share caps).get motor ≤ caps.get motor := by
  have hboth : (splitPower total share caps).a ≤ caps.a ∧ (splitPower total share caps).b ≤ caps.b := by
    unfold splitPower
    dsimp only
    split
    · exact ⟨by dsimp only; omega, Nat.le_refl _⟩
    · split
      · exact ⟨Nat.le_refl _, by dsimp only; omega⟩
      · exact ⟨by dsimp only; omega, by dsimp only; omega⟩
  cases motor
  · exact hboth.1
  · exact hboth.2

theorem splitPower_total (hshare : share ≤ 1000) :
    (splitPower total share caps).a + (splitPower total share caps).b = total := by
  have hpart : total * share / 1000 ≤ total :=
    Nat.div_le_of_le_mul (by rw [Nat.mul_comm 1000]; exact Nat.mul_le_mul_left total hshare)
  unfold splitPower
  dsimp only
  generalize total * share / 1000 = a at hpart ⊢
  split
  · dsimp only
    omega
  · split <;> dsimp only <;> omega

/-! ### The orders by base -/

theorem regenCaps_get (r : AccountRecord) (w : Working) (motor : Motor) : (regenCaps r w).get motor =
    if r.governing = some .slip ∧ w.slip.get motor = true then
      min (w.cg.get motor) (w.slipCap.get motor * w.n.get motor * 10 / 9549)
    else w.cg.get motor := by
  rw [ite_and]
  unfold regenCaps
  split
  · cases motor <;> rfl
  · rfl

/-- The order for a motor by its share of T (R64). -/
theorem motoringOrders_get (s : Settling) (shareA : Nat) (motor : Motor) : (motoringOrders s shareA).get motor =
    motorOrder s.working ((splitPower s.record.t shareA s.working.cm).get motor) (s.working.n.get motor) s.nFloor := by
  cases motor <;> rfl

/-- The order for a motor by its share of Rg (R65). -/
theorem regenOrders_get (s : Settling) (shareA : Nat) (motor : Motor) : (regenOrders s shareA).get motor =
    generateOrder s.working ((splitPower s.record.rg shareA (regenCaps s.record s.working)).get motor)
      (s.working.n.get motor) := by
  cases motor <;> rfl

theorem plannedOrders_of_disabled (h : state = .starting ∨ s.record.base = some .safeStop) :
    (plannedOrders state shareA s).get motor = disableOrder s.working := by
  unfold plannedOrders
  split
  · cases motor <;> rfl
  · next hstate =>
    rw [h.resolve_left hstate]
    cases motor <;> rfl

theorem plannedOrders_of_idle (hstate : state = .ready) (h : s.record.base = none ∨ s.record.base = some .hold) :
    (plannedOrders state shareA s).get motor = zeroOrder s.working := by
  unfold plannedOrders
  rw [if_neg (by rw [hstate]; exact fun h => (nomatch h))]
  obtain h | h := h <;> rw [h] <;> cases motor <;> rfl

theorem plannedOrders_of_traction (hstate : state = .ready)
    (h : s.record.base = some .traction ∨ s.record.base = some .limp) :
    plannedOrders state shareA s = motoringOrders s shareA := by
  unfold plannedOrders
  rw [if_neg (by rw [hstate]; exact fun h => (nomatch h))]
  obtain h | h := h <;> rw [h]

theorem plannedOrders_of_blend (hstate : state = .ready) (h : s.record.base = some .blend) :
    plannedOrders state shareA s = regenOrders s shareA := by
  unfold plannedOrders
  rw [if_neg (by rw [hstate]; exact fun h => (nomatch h)), h]

/-- Every order disables or zeroes with torque 0, or takes its motor's share of T or of Rg. -/
theorem plannedOrders_cases (state : PartState) (shareA : Nat) (s : Settling) (motor : Motor) :
    (plannedOrders state shareA s).get motor = disableOrder s.working ∨
      (plannedOrders state shareA s).get motor = zeroOrder s.working ∨
      (plannedOrders state shareA s).get motor = (motoringOrders s shareA).get motor ∨
      (plannedOrders state shareA s).get motor = (regenOrders s shareA).get motor := by
  unfold plannedOrders
  split
  · exact .inl (by cases motor <;> rfl)
  · split
    · exact .inl (by cases motor <;> rfl)
    · exact .inr (.inl (by cases motor <;> rfl))
    · exact .inr (.inl (by cases motor <;> rfl))
    · exact .inr (.inl (by cases motor <;> rfl))
    · exact .inr (.inr (.inl rfl))
    · exact .inr (.inr (.inl rfl))
    · exact .inr (.inr (.inr rfl))

/-! ### The check against the motor link -/

theorem checkedOrder_of_disable (h : o.mode = .disable) : checkedOrder link w o = o := by rw [checkedOrder, h]

theorem checkedOrder_of_zero (h : o.mode = .zero ∨ (o.mode ≠ .disable ∧ link.inService = false)) :
    checkedOrder link w o = zeroOrder w := by
  unfold checkedOrder
  cases hmode : o.mode <;> simp_all

theorem checkedOrder_of_motor (h : o.mode = .motor) (hin : link.inService = true) :
    checkedOrder link w o = { o with torque := min o.torque link.tMot } := by
  rw [checkedOrder, h]
  exact if_pos hin

theorem checkedOrder_of_generate (h : o.mode = .generate) (hin : link.inService = true) :
    checkedOrder link w o = { o with torque := min o.torque link.tGen } := by
  rw [checkedOrder, h]
  exact if_pos hin

/-- An order is only lowered, and to what the inverter reports for its mode; out of service nothing but DISABLE and
ZERO is left. -/
theorem checkedOrder_bounds (link : MotorLink) (w : Working) (o : TorqueOrder) :
    (checkedOrder link w o).torque ≤ o.torque ∧
      ((checkedOrder link w o).mode = .motor → (checkedOrder link w o).torque ≤ link.tMot) ∧
      ((checkedOrder link w o).mode = .generate → (checkedOrder link w o).torque ≤ link.tGen) ∧
      (link.inService = false → (o.mode = .disable → o.torque = 0) → (checkedOrder link w o).torque = 0) := by
  by_cases hdisable : o.mode = .disable
  · rw [checkedOrder_of_disable hdisable]
    exact ⟨Nat.le_refl _, fun h => (nomatch hdisable.symm.trans h), fun h => (nomatch hdisable.symm.trans h),
      fun _ h => h hdisable⟩
  by_cases hzero : o.mode = .zero ∨ link.inService = false
  · rw [checkedOrder_of_zero (hzero.imp_right fun h => ⟨hdisable, h⟩)]
    exact ⟨Nat.zero_le _, fun h => (nomatch h), fun h => (nomatch h), fun _ _ => rfl⟩
  obtain ⟨hmode, hin⟩ := not_or.mp hzero
  have hin' : link.inService = true := Bool.of_not_eq_false hin
  cases h : o.mode with
  | disable => exact absurd h hdisable
  | zero => exact absurd h hmode
  | motor =>
    rw [checkedOrder_of_motor h hin']
    exact ⟨Nat.min_le_left .., fun _ => Nat.min_le_right .., fun h' => (nomatch h.symm.trans h'), fun h => absurd h hin⟩
  | generate =>
    rw [checkedOrder_of_generate h hin']
    exact ⟨Nat.min_le_left .., fun h' => (nomatch h.symm.trans h'), fun _ => Nat.min_le_right .., fun h => absurd h hin⟩

/-! ### The torque of a share -/

/-- A power within what a torque gives at a speed needs no more than that torque at that speed or above (R9, R64). -/
theorem torqueOf_le {power torque n speed : Nat} (h : power ≤ powerOf torque n) (hn : n ≤ speed) :
    torqueOf power speed ≤ torque := by
  refine Nat.div_le_of_le_mul ?_
  calc power * 9549 ≤ torque * n * 10 / 9549 * 9549 := Nat.mul_le_mul_right _ h
    _ ≤ torque * n * 10 := Nat.div_mul_le_self ..
    _ ≤ torque * speed * 10 := Nat.mul_le_mul_right _ (Nat.mul_le_mul_left _ hn)
    _ = 10 * speed * torque := by ring

theorem powerOf_mono {a b : Nat} (h : a ≤ b) (n : Nat) : powerOf a n ≤ powerOf b n :=
  Nat.div_le_div_right (Nat.mul_le_mul_right _ (Nat.mul_le_mul_right _ h))

namespace SettleInputs

variable {i : SettleInputs}

theorem cm_le (i : SettleInputs) (motor : Motor) :
    i.cm.get motor ≤ powerOf (i.tl.get motor) (max (i.motors.get motor).n i.items.nFloor) := by
  have hcap : motoringCap i.items.nFloor (i.tl.get motor) (i.motors.get motor) ≤
      powerOf (i.tl.get motor) (max (i.motors.get motor).n i.items.nFloor) := by
    unfold motoringCap
    split
    · exact powerOf_mono (Nat.min_le_left ..) _
    · exact Nat.zero_le _
  rw [cm_get]
  dsimp only
  split
  · unfold slippedMotoring
    split
    · exact Nat.le_trans (Nat.min_le_left ..) hcap
    · exact hcap
  · exact hcap

theorem cg_le (i : SettleInputs) (motor : Motor) :
    i.cg.get motor ≤ powerOf (i.tl.get motor) (i.motors.get motor).n := by
  rw [cg_get, generatingCap]
  split
  · exact powerOf_mono (Nat.min_le_left ..) _
  · exact Nat.zero_le _

/-- The traction grant lies within the motoring caps (R14). -/
theorem t_le_caps (i : SettleInputs) : i.t ≤ i.cm.a + i.cm.b := by
  unfold t
  split
  · exact Nat.zero_le _
  · exact Nat.le_trans (Nat.min_le_right ..) (Nat.min_le_right ..)

/-- Rg lies within the generating caps, as SLIP lowers them while it governs (R12, R13, R65). -/
theorem rg_le_caps (hlegal : programLegal i.program) :
    i.rg ≤ i.cg.a + i.cg.b ∧ (i.governing = some .slip → i.rg ≤ i.cgSlipped.a + i.cgSlipped.b) := by
  obtain ⟨-, hreg, -⟩ := runPass_places (i := i.pass) hlegal i.aDem i.aCap
  have hcap : i.regApplied ≤ i.aCap := Nat.le_trans i.regApplied_le_pass hreg
  refine ⟨Nat.le_trans (rg_le_rEff hcap) (Nat.min_le_right ..), fun hslip => i.decelOf_power _ ?_⟩
  rw [regApplied_eq, if_pos hslip]
  split
  · exact Nat.zero_le _
  · exact Nat.min_le_right ..

end SettleInputs

/-! ### The orders of a settlement -/

section Settled

variable {hold : HoldState} {senseHeld : Bool} {p : Part}

theorem regenCaps_settlingOf (hold : HoldState) (senseHeld : Bool) (p : Part) :
    regenCaps (settlingOf hold senseHeld p).record (settlingOf hold senseHeld p).working =
      if (settleInputs hold p).governing = some .slip then (settleInputs hold p).cgSlipped
      else (settleInputs hold p).cg := rfl

/-- The shares of T and of Rg lie within the caps of their motors (R64, R65). -/
theorem shares_le (hlegal : programLegal (passProgram p)) (shareA : Nat) (motor : Motor) :
    let st := settlingOf hold senseHeld p
    (splitPower st.record.t shareA st.working.cm).get motor ≤ st.working.cm.get motor ∧
      (splitPower st.record.rg shareA (regenCaps st.record st.working)).get motor ≤
        (regenCaps st.record st.working).get motor := by
  obtain ⟨hrg, hslip⟩ := SettleInputs.rg_le_caps (i := settleInputs hold p) hlegal
  refine ⟨splitPower_le (settleInputs hold p).t_le_caps motor, splitPower_le ?_ motor⟩
  rw [regenCaps_settlingOf]
  split
  · next h => exact hslip h
  · exact hrg

theorem regenCaps_le (r : AccountRecord) (w : Working) (motor : Motor) : (regenCaps r w).get motor ≤ w.cg.get motor := by
  rw [regenCaps_get]
  split
  · exact Nat.min_le_left ..
  · exact Nat.le_refl _

/-- Before the check no torque is above the torque limit of its motor (R9, R64, R65). -/
theorem planned_torque_le (hlegal : programLegal (passProgram p)) (state : PartState) (shareA : Nat) (motor : Motor) :
    let st := settlingOf hold senseHeld p
    ((plannedOrders state shareA st).get motor).torque ≤ st.working.tl.get motor := by
  intro st
  have hn : st.working.n.get motor = ((settleInputs hold p).motors.get motor).n := by cases motor <;> rfl
  obtain ⟨hmotoring, hgenerating⟩ := shares_le (hold := hold) (senseHeld := senseHeld) hlegal shareA motor
  obtain h | h | h | h := plannedOrders_cases state shareA st motor
  · rw [h]
    exact Nat.zero_le _
  · rw [h]
    exact Nat.zero_le _
  · rw [h, motoringOrders_get, motorOrder]
    split
    · exact Nat.zero_le _
    · refine torqueOf_le (Nat.le_trans hmotoring ((settleInputs hold p).cm_le motor)) ?_
      rw [hn]
      exact Nat.le_refl _
  · rw [h, regenOrders_get, generateOrder]
    split
    · exact Nat.zero_le _
    · refine torqueOf_le (Nat.le_trans hgenerating (Nat.le_trans (regenCaps_le ..) ((settleInputs hold p).cg_le motor))) ?_
      rw [hn]
      exact Nat.le_max_left ..

theorem planned_disable_torque (state : PartState) (shareA : Nat) (s : Settling) (motor : Motor)
    (hmode : ((plannedOrders state shareA s).get motor).mode = .disable) :
    ((plannedOrders state shareA s).get motor).torque = 0 := by
  obtain h | h | h | h := plannedOrders_cases state shareA s motor
  · rw [h]
    rfl
  · rw [h]
    rfl
  · rw [h, motoringOrders_get, motorOrder] at hmode ⊢
    split at hmode
    · next hzero => rw [if_pos hzero]; rfl
    · exact TorqueMode.noConfusion hmode
  · rw [h, regenOrders_get, generateOrder] at hmode ⊢
    split at hmode
    · next hzero => rw [if_pos hzero]; rfl
    · exact TorqueMode.noConfusion hmode

end Settled

/-- Settles O42: the orders by base, the check, and the bounds of both. -/
theorem torqueCommandsBounded : Obligations.TorqueCommandsBounded := by
  intro state shareA motor link split regenCap regenCaps'
  have hcaps (st : Settling) : regenCaps' st = regenCaps st.record st.working := by
    have ha : (regenCaps st.record st.working).a = regenCap st .a := regenCaps_get st.record st.working .a
    have hb : (regenCaps st.record st.working).b = regenCap st .b := regenCaps_get st.record st.working .b
    show PerMotor.mk (regenCap st .a) (regenCap st .b) = _
    rw [← ha, ← hb]
  refine ⟨fun st => ?planned, fun w o => ⟨checkedOrder_of_disable, checkedOrder_of_zero, checkedOrder_of_motor,
    checkedOrder_of_generate⟩, fun hold senseHeld p hlegal => ?settled⟩
  case planned =>
    intro w planned motoring generating
    refine ⟨plannedOrders_of_disabled, fun hstate => ⟨plannedOrders_of_idle hstate, fun hbase => ?_, fun hbase => ?_⟩⟩
    · show (plannedOrders state shareA st).get motor = _
      rw [plannedOrders_of_traction hstate hbase, motoringOrders_get]
      rfl
    · show (plannedOrders state shareA st).get motor = _
      rw [plannedOrders_of_blend hstate hbase, regenOrders_get, ← hcaps]
      rfl
  case settled =>
    intro st motoring generating o
    obtain ⟨hlower, hmotor, hgenerate, hout⟩ := checkedOrder_bounds link st.working ((plannedOrders state shareA st).get motor)
    refine ⟨fun hshare => ?shares, Nat.le_trans hlower (planned_torque_le hlegal state shareA motor), hmotor, hgenerate,
      fun hdisabled => ?disables, fun hstate hbase => ?zeroes, fun h => hout h (planned_disable_torque state shareA st motor)⟩
    case shares =>
      obtain ⟨hma, hga⟩ := shares_le (hold := hold) (senseHeld := senseHeld) hlegal shareA .a
      obtain ⟨hmb, hgb⟩ := shares_le (hold := hold) (senseHeld := senseHeld) hlegal shareA .b
      rw [← hcaps] at hga hgb
      exact ⟨splitPower_total hshare, hma, hmb, splitPower_total hshare, hga, hgb⟩
    case disables =>
      have hplanned : (plannedOrders state shareA st).get motor = _ := plannedOrders_of_disabled hdisabled
      show (checkedOrder link st.working ((plannedOrders state shareA st).get motor)).mode = _
      rw [hplanned, checkedOrder_of_disable rfl]
      rfl
    case zeroes =>
      have hplanned : (plannedOrders state shareA st).get motor = _ := plannedOrders_of_idle hstate (.inr hbase)
      show (checkedOrder link st.working ((plannedOrders state shareA st).get motor)).mode = _
      rw [hplanned, checkedOrder_of_zero (.inl rfl)]
      rfl

end Sys2Proof.Machine
end

