-- ==== Sys2Proof/Proofs/SettlementBegins.lean ====
section
/-! SUPPORT. The beginning of a settlement: the acceptance test with a break by SAFE_STOP (R48, R51, R108), the episode
judged (R68 to R70, R150), and the record made of what stands then (R1, R2, R20, R22). -/

set_option Elab.async false

namespace Sys2Proof.Machine

variable {p q : Part} {aDem : Nat} {slot : SlotNo}

/-! ### The acceptance -/

theorem acceptOffer_kept (p : Part) : (acceptOffer p).hold = p.hold ∧ (acceptOffer p).gen = p.gen ∧
    (acceptOffer p).auth.flags = p.auth.flags ∧ (acceptOffer p).time = p.time := by
  have hframe := acceptOffer_frame p
  refine ⟨hframe.same .hold (by decide), hframe.same .gen (by decide), ?_, hframe.same .time (by decide)⟩
  unfold acceptOffer
  split
  · rfl
  · rw [pushSource_auth]

theorem acceptance_of_break (h : accepted p = some .safeStop) (hstate : p.hold.state ≠ .drive) :
    acceptance p = changeHold .drive none (acceptOffer p) := by
  obtain ⟨hhold, -⟩ := acceptOffer_kept p
  rw [acceptance, if_pos h, breakHold_of_hold (by rw [hhold]; exact hstate)]

theorem acceptance_of_keep (h : ¬ (accepted p = some .safeStop ∧ p.hold.state ≠ .drive)) :
    acceptance p = acceptOffer p := by
  obtain ⟨hhold, -⟩ := acceptOffer_kept p
  unfold acceptance
  split
  · next hsafe =>
    exact breakHold_of_drive (by rw [hhold]; exact not_not.mp fun hstate => h ⟨hsafe, hstate⟩)
  · rfl

/-- The entry of SAFE_STOP is the top, whatever leaves below it. -/
theorem acceptance_top (p : Part) :
    baseAuthority (acceptance p) = baseAuthority (acceptOffer p) ∧ governing (acceptance p) = governing (acceptOffer p) := by
  by_cases h : accepted p = some .safeStop ∧ p.hold.state ≠ .drive
  · obtain ⟨hsafe, hstate⟩ := h
    obtain ⟨hstack, -⟩ := changeHold_released .drive none (acceptOffer p)
    rw [acceptance_of_break hsafe hstate]
    unfold baseAuthority governing
    rw [hstack, acceptOffer_of_some hsafe, pushSource_auth]
    simp
  · rw [acceptance_of_keep h]
    exact ⟨rfl, rfl⟩

theorem acceptance_flags (p : Part) : (acceptance p).auth.flags = { p.auth.flags with
    hold := if accepted p = some .safeStop ∧ p.hold.state ≠ .drive then false else p.auth.flags.hold } := by
  obtain ⟨-, -, hflags, -⟩ := acceptOffer_kept p
  by_cases h : accepted p = some .safeStop ∧ p.hold.state ≠ .drive
  · obtain ⟨hsafe, hstate⟩ := h
    rw [acceptance_of_break hsafe hstate, changeHold_flags, hflags, if_pos ⟨hsafe, hstate⟩]
    rfl
  · rw [acceptance_of_keep h, hflags, if_neg h]

theorem acceptance_released (p : Part) : entriesReleased
    (fun src => src = .hold && decide (accepted p = some .safeStop ∧ p.hold.state ≠ .drive))
    (acceptOffer p) (acceptance p) := by
  by_cases h : accepted p = some .safeStop ∧ p.hold.state ≠ .drive
  · rw [acceptance_of_break h.1 h.2]
    exact (changeHold_released .drive none (acceptOffer p)).congr fun src => by simp [h]
  · rw [acceptance_of_keep h]
    exact (entriesReleased.refl _).congr fun src => by simp [h]

theorem acceptance_gains_offer (p : Part) : portsOnlyGainEvents (acceptOffer p) (acceptance p) := by
  unfold acceptance
  split
  · exact breakHold_gains _
  · exact .refl _

/-- What the acceptance leaves of everything that a settlement takes. -/
theorem acceptance_same (p : Part) : (acceptance p).image = p.image ∧ (acceptance p).cfg = p.cfg ∧
    (acceptance p).wear = p.wear ∧ (acceptance p).scan = p.scan ∧ (acceptance p).cal = p.cal ∧
    (acceptance p).blend = p.blend ∧ (acceptance p).slots = p.slots ∧ (acceptance p).account = p.account ∧
    (acceptance p).time = p.time := by
  have hframe : changesOnly [.hold, .gen, .auth, .ports] p (acceptance p) := acceptance_frame p
  exact ⟨hframe.same .image (by decide), hframe.same .cfg (by decide), hframe.same .wear (by decide),
    hframe.same .scan (by decide), hframe.same .cal (by decide), hframe.same .blend (by decide),
    hframe.same .slots (by decide), hframe.same .account (by decide), hframe.same .time (by decide)⟩

/-! ### The episode -/

/-- The episode turns: it starts or ends with this demand (R68). -/
abbrev episodeTurns (aDem : Nat) (p : Part) : Prop := p.blend.episode ≠ decide (aDem ≠ 0)

/-- The conditions of BLEND with the episode as this demand leaves it (R43). -/
abbrev blendAllowed (aDem : Nat) (p : Part) : Prop :=
  aDem ≠ 0 ∧ p.image.drive.data.direction = .forward ∧ p.cfg.num .vMinRegen ≤ p.image.brake.data.v ∧
    (p.image.brake.freshness = .fresh ∨ p.image.brake.freshness = .stale)

/-- The part at an episode start, its pending programs promoted (R69). -/
def promotedPart (p : Part) : Part :=
  setEventIf (anyPending p.slots) .programPromoted
    ((p.setBlend { p.blend with episode := true }).setSlots (promotedSlots p.slots))

theorem promotedPart_frame (p : Part) : changesOnly [.blend, .slots, .ports] p (promotedPart p) :=
  ((setBlend_frame p _).trans (n := [.blend, .slots]) (setSlots_frame _ _)).trans (setEventIf_frame ..)

theorem promotedPart_blend (p : Part) : (promotedPart p).blend = { p.blend with episode := true } :=
  (setEventIf_frame ..).same .blend (by decide)

theorem promotedPart_slots (p : Part) : (promotedPart p).slots = promotedSlots p.slots :=
  (setEventIf_frame ..).same .slots (by decide)

theorem judgeEpisode_of_start (hdem : aDem ≠ 0) (hnone : p.blend.episode = false) :
    judgeEpisode aDem p = ceaseStanding (evalSource .blend (promotedPart p)) := by
  unfold judgeEpisode
  rw [hnone]
  exact (if_neg Bool.false_ne_true).trans (if_neg hdem)

theorem judgeEpisode_of_end (hdem : aDem = 0) (hactive : p.blend.episode = true) :
    judgeEpisode aDem p = evalSource .blend (p.setBlend { p.blend with episode := false }) := by
  unfold judgeEpisode
  rw [hactive]
  exact (if_pos rfl).trans (if_pos hdem)

theorem judgeEpisode_of_steady (h : ¬ episodeTurns aDem p) : judgeEpisode aDem p = p := by
  have hsame : p.blend.episode = decide (aDem ≠ 0) := not_not.mp h
  unfold judgeEpisode
  by_cases hdem : aDem = 0 <;> simp [hsame, hdem]

theorem episodeTurns_cases (h : episodeTurns aDem p) :
    (aDem ≠ 0 ∧ p.blend.episode = false) ∨ (aDem = 0 ∧ p.blend.episode = true) := by
  unfold episodeTurns at h
  by_cases hdem : aDem = 0 <;> cases hepisode : p.blend.episode <;> simp_all

/-- The part at which the turn of the episode is handed to the arbiter. -/
def turnedPart (aDem : Nat) (p : Part) : Part :=
  if aDem = 0 then p.setBlend { p.blend with episode := false } else promotedPart p

theorem turnedPart_frame (aDem : Nat) (p : Part) : changesOnly [.blend, .slots, .ports] p (turnedPart aDem p) := by
  unfold turnedPart
  exact .ite (setBlend_frame p _).mono (promotedPart_frame p)

theorem turnedPart_gains (aDem : Nat) (p : Part) : portsOnlyGainEvents p (turnedPart aDem p) := by
  unfold turnedPart promotedPart
  split
  · exact .of_frame (setBlend_frame p _)
  · exact portsOnlyGainEvents.trans (.of_frame ((setBlend_frame p _).trans (n := [.blend, .slots]) (setSlots_frame _ _)))
      (setEventIf_gains ..)

theorem turnedPart_gainsNo (aDem : Nat) (p : Part) : gainsNo .authorityChange p (turnedPart aDem p) := by
  unfold turnedPart promotedPart
  split
  · exact .of_frame (setBlend_frame p _)
  · exact (gainsNo.of_frame ((setBlend_frame p _).trans (n := [.blend, .slots]) (setSlots_frame _ _))).trans
      (setEventIf_gainsNo (by decide))

theorem turnedPart_episode (aDem : Nat) (p : Part) : (turnedPart aDem p).blend = { p.blend with episode := decide (aDem ≠ 0) } := by
  unfold turnedPart
  split
  · next h => simp [h]
  · next h => rw [promotedPart_blend]; simp [h]

theorem judgeEpisode_of_turn (h : episodeTurns aDem p) : changesOnly [.cal, .scan]
    (evalSource .blend (turnedPart aDem p)) (judgeEpisode aDem p) := by
  unfold turnedPart
  obtain ⟨hdem, hnone⟩ | ⟨hdem, hactive⟩ := episodeTurns_cases h
  · rw [judgeEpisode_of_start hdem hnone, if_neg hdem]
    exact ceaseStanding_frame _
  · rw [judgeEpisode_of_end hdem hactive, if_pos hdem]
    exact .refl _ _

theorem requested_blend_iff (p : Part) : requested .blend p = true ↔ p.blend.episode = true ∧
    p.image.drive.data.direction = .forward ∧ p.cfg.num .vMinRegen ≤ p.image.brake.data.v ∧
    (p.image.brake.freshness = .fresh ∨ p.image.brake.freshness = .stale) := by
  unfold requested effDirection effV Part.fresh Image.freshness
  simp only [Bool.and_eq_true, Bool.or_eq_true, decide_eq_true_eq, and_assoc]

theorem requested_turnedPart (aDem : Nat) (p : Part) :
    requested .blend (turnedPart aDem p) = true ↔ blendAllowed aDem p := by
  have hframe := turnedPart_frame aDem p
  have himage : (turnedPart aDem p).image = p.image := hframe.same .image (by decide)
  have hcfg : (turnedPart aDem p).cfg = p.cfg := hframe.same .cfg (by decide)
  rw [requested_blend_iff, turnedPart_episode, himage, hcfg, blendAllowed, decide_eq_true_iff]

theorem judgeEpisode_flags (aDem : Nat) (p : Part) : (judgeEpisode aDem p).auth.flags = { p.auth.flags with
    blend := if episodeTurns aDem p then decide (blendAllowed aDem p) else p.auth.flags.blend } := by
  by_cases h : episodeTurns aDem p
  · have hkept : (judgeEpisode aDem p).auth = (evalSource .blend (turnedPart aDem p)).auth :=
      (judgeEpisode_of_turn h).same .auth (by decide)
    have hauth : (turnedPart aDem p).auth = p.auth := (turnedPart_frame aDem p).same .auth (by decide)
    have hrequest : requested .blend (turnedPart aDem p) = decide (blendAllowed aDem p) :=
      Bool.eq_iff_iff.mpr ((requested_turnedPart aDem p).trans decide_eq_true_iff.symm)
    rw [hkept, evalSource_flags, hauth, hrequest, if_pos h]
    rfl
  · rw [judgeEpisode_of_steady h, if_neg h]

theorem judgeEpisode_released (aDem : Nat) (p : Part) : entriesReleased
    (fun src => src = .blend && decide (episodeTurns aDem p ∧ ¬ blendAllowed aDem p)) p (judgeEpisode aDem p) := by
  by_cases h : episodeTurns aDem p
  · have hframe := judgeEpisode_of_turn h
    have hrequest : requested .blend (turnedPart aDem p) = decide (blendAllowed aDem p) :=
      Bool.eq_iff_iff.mpr ((requested_turnedPart aDem p).trans decide_eq_true_iff.symm)
    refine (((evalSource_released .blend (turnedPart aDem p)).after (turnedPart_frame aDem p) (turnedPart_gainsNo aDem p)
      (evalSource_gains ..)).frame hframe (.of_frame hframe) (.of_frame hframe)).congr fun src => ?_
    rw [hrequest, decide_eq_decide.mpr (and_iff_right h : episodeTurns aDem p ∧ ¬ blendAllowed aDem p ↔ _), decide_not]
  · rw [judgeEpisode_of_steady h]
    exact (entriesReleased.refl p).congr fun src => by
      rw [decide_eq_false (p := episodeTurns aDem p ∧ ¬ blendAllowed aDem p) fun h' => h h'.1, Bool.and_false]

theorem judgeEpisode_blend (aDem : Nat) (p : Part) :
    (judgeEpisode aDem p).blend = { p.blend with episode := decide (aDem ≠ 0) } := by
  by_cases h : episodeTurns aDem p
  · have hkept : (judgeEpisode aDem p).blend = (turnedPart aDem p).blend :=
      ((evalSource_frame .blend (turnedPart aDem p)).trans (n := [.auth, .ports, .cal, .scan])
        (judgeEpisode_of_turn h)).same .blend (by decide)
    rw [hkept, turnedPart_episode]
  · rw [judgeEpisode_of_steady h]
    show p.blend = { p.blend with episode := decide (aDem ≠ 0) }
    rw [← not_not.mp h]

theorem promotedSlots_get (slots : Vector Slot 4) (slot : SlotNo) : (promotedSlots slots)[slot] = promotedSlot slots[slot] := by
  match slot with
  | 0 | 1 | 2 | 3 => rfl

theorem anyPending_of_some {slots : Vector Slot 4} {program : List BlendStep} (h : slots[slot].pending = some program) :
    anyPending slots = true := by
  have hsome : slots[slot].pending.isSome = true := by rw [h]; rfl
  unfold anyPending
  simp only [Bool.or_eq_true]
  match slot, hsome with
  | 0, h => exact .inl (.inl (.inl h))
  | 1, h => exact .inl (.inl (.inr h))
  | 2, h => exact .inl (.inr h)
  | 3, h => exact .inr h

theorem judgeEpisode_slots_of_start (hdem : aDem ≠ 0) (hnone : p.blend.episode = false) :
    (judgeEpisode aDem p).slots = promotedSlots p.slots := by
  have hkept : (judgeEpisode aDem p).slots = (promotedPart p).slots := by
    rw [judgeEpisode_of_start hdem hnone]
    exact ((evalSource_frame .blend (promotedPart p)).trans (n := [.auth, .ports, .cal, .scan]) (ceaseStanding_frame _)).same
      .slots (by decide)
  rw [hkept, promotedPart_slots]

theorem hasEvent_judgeEpisode_of_start (hdem : aDem ≠ 0) (hnone : p.blend.episode = false)
    (h : anyPending p.slots = true) : hasEvent .programPromoted .pb (judgeEpisode aDem p) := by
  rw [judgeEpisode_of_start hdem hnone]
  exact ((hasEvent_setEventIf h rfl).of_gains (evalSource_gains ..)).of_gains (.of_frame (ceaseStanding_frame _))

theorem judgeEpisode_of_not_start (h : aDem = 0 ∨ p.blend.episode = true) :
    changesOnly [.blend, .auth, .ports] p (judgeEpisode aDem p) := by
  by_cases hturns : episodeTurns aDem p
  · obtain ⟨hdem, hnone⟩ | ⟨hdem, hactive⟩ := episodeTurns_cases hturns
    · exact absurd (h.resolve_left hdem) (by rw [hnone]; exact Bool.false_ne_true)
    · rw [judgeEpisode_of_end hdem hactive]
      exact (setBlend_frame p _).trans (evalSource_frame ..)
  · rw [judgeEpisode_of_steady hturns]
    exact .refl _ p

theorem judgeEpisode_standing (hdem : aDem ≠ 0) (hnone : p.blend.episode = false) :
    standingCeased p (judgeEpisode aDem p) := by
  have hframe : changesOnly [.blend, .slots, .auth, .ports] p (evalSource .blend (promotedPart p)) :=
    (promotedPart_frame p).trans (evalSource_frame ..)
  rw [judgeEpisode_of_start hdem hnone]
  exact (standingCeased_ceaseStanding _).congr (hframe.same .scan (by decide)) (hframe.same .cal (by decide))
    (hframe.same .cfg (by decide)) rfl rfl

/-! ### The part after the beginning -/

/-- The part when the offer is tested and the episode judged. -/
def judgedPart (p : Part) : Part := judgeEpisode p.image.drive.data.aDem (acceptance p)

theorem effADem_acceptance (p : Part) : effADem (acceptance p) = p.image.drive.data.aDem := by
  obtain ⟨himage, -⟩ := acceptance_same p
  rw [effADem, himage]

theorem slotNow_acceptance (p : Part) : slotNow (acceptance p) = slotNow p := by
  obtain ⟨himage, hcfg, hwear, -⟩ := acceptance_same p
  unfold slotNow batteryFull effLowAdhesion effSoc liningLevels
  rw [himage, hcfg, hwear]

theorem begunPart_eq (p : Part) : begunPart p =
    keepPass (settleInputs p.hold.state (acceptance p)) (slotNow p) (judgedPart p) := by
  rw [begunPart, judgedPart, effADem_acceptance, slotNow_acceptance]

theorem begun_frame (senseHeld : Bool) (p : Part) :
    changesOnly [.account, .blend] (judgedPart p) (beginSettlement senseHeld p) := by
  rw [beginSettlement_eq, begunPart_eq]
  exact (keepPass_frame ..).trans (setAccount_frame ..)

theorem beginSettlement_blend (senseHeld : Bool) (p : Part) : (beginSettlement senseHeld p).blend =
    (keepPass (settleInputs p.hold.state (acceptance p)) (slotNow p) (judgedPart p)).blend := by
  rw [beginSettlement_eq, Part.setAccount_blend, begunPart_eq]

theorem judgedPart_blend (p : Part) :
    (judgedPart p).blend = { p.blend with episode := decide (p.image.drive.data.aDem ≠ 0) } := by
  obtain ⟨-, -, -, -, -, hblend, -⟩ := acceptance_same p
  rw [judgedPart, judgeEpisode_blend, hblend]

theorem settleInputs_episode (hold : HoldState) (p : Part) :
    (settleInputs hold (acceptance p)).episode = decide (p.image.drive.data.aDem ≠ 0) := by
  have hdem : (settleInputs hold (acceptance p)).aDem = p.image.drive.data.aDem := effADem_acceptance p
  rw [SettleInputs.episode, hdem]

/-- The pass of an episode settlement is kept, and no other (R89). -/
theorem beginSettlement_latest (senseHeld : Bool) (p : Part) : (beginSettlement senseHeld p).blend.latest =
    if p.image.drive.data.aDem = 0 then p.blend.latest
    else some ⟨slotNow p, (settleInputs p.hold.state (acceptance p)).passResult.steps,
      (settleInputs p.hold.state (acceptance p)).passResult.reg,
      (settleInputs p.hold.state (acceptance p)).passResult.fri⟩ := by
  rw [beginSettlement_blend, keepPass, settleInputs_episode]
  by_cases h : p.image.drive.data.aDem = 0 <;> simp [h, judgedPart_blend]

theorem keepPass_episode (i : SettleInputs) (slot : SlotNo) (p : Part) :
    (keepPass i slot p).blend.episode = p.blend.episode ∧ (keepPass i slot p).blend.regPrev = p.blend.regPrev := by
  unfold keepPass
  split <;> exact ⟨rfl, rfl⟩

theorem beginSettlement_account (senseHeld : Bool) (p : Part) : (beginSettlement senseHeld p).account =
    { p.account with beginning := none, settling := some (settlingOf p.hold.state senseHeld (acceptance p)) } := by
  have hbegun : (begunPart p).account = p.account := (begunPart_frame p).same .account (by decide)
  rw [beginSettlement_eq, Part.setAccount_account, hbegun]

theorem auxNow_acceptance (p : Part) : auxNow (acceptance p) = auxNow p := by
  obtain ⟨-, -, -, hscan, -⟩ := acceptance_same p
  rw [auxNow, auxNow, senseOr0, senseOr0, senseOr0, senseOr0, hscan]

/-- The hold controller, the sequencer and the arbiter's HOLD part after the acceptance of SAFE_STOP in a hold (R108). -/
theorem acceptance_breaks (hsafe : accepted p = some .safeStop) (hstate : p.hold.state ≠ .drive) :
    (acceptance p).hold = ⟨.drive, p.time.now, none, false, false, false⟩ ∧ (acceptance p).gen.startRequest = false ∧
      hasEvent .holdChange .pd (acceptance p) := by
  obtain ⟨-, -, -, htime⟩ := acceptOffer_kept p
  rw [acceptance_of_break hsafe hstate, changeHold_hold, changeHold_gen, htime]
  refine ⟨?_, ?_, hasEvent_changeHold rfl⟩ <;> simp

/-- The program of an episode settlement stands in its slot once the episode is judged (R69, R83). -/
theorem passProgram_judged (hdem : p.image.drive.data.aDem ≠ 0) :
    passProgram (acceptance p) = (judgedPart p).slots[slotNow p].active := by
  obtain ⟨-, -, -, -, -, hblend, hslots, -⟩ := acceptance_same p
  have hslot := slotNow_acceptance p
  cases hepisode : p.blend.episode with
  | true =>
    have hkept : (judgedPart p).slots = (acceptance p).slots :=
      (judgeEpisode_of_not_start (.inr (by rw [hblend]; exact hepisode))).same .slots (by decide)
    rw [passProgram_of_slot hslot, hblend, hepisode, hkept]
    rfl
  | false =>
    have hstart : (judgedPart p).slots = promotedSlots (acceptance p).slots :=
      judgeEpisode_slots_of_start hdem (by rw [hblend]; exact hepisode)
    rw [passProgram_of_slot hslot, hblend, hepisode, hstart, promotedSlots_get, promotedSlot_active]
    rfl

theorem judgedPart_slot (hdem : p.image.drive.data.aDem ≠ 0) (hnone : p.blend.episode = false) (slot : SlotNo) :
    (∀ program, p.slots[slot].pending = some program →
      (judgedPart p).slots[slot] = ⟨program, none⟩ ∧ hasEvent .programPromoted .pb (judgedPart p)) ∧
    (p.slots[slot].pending = none → (judgedPart p).slots[slot] = p.slots[slot]) := by
  obtain ⟨-, -, -, -, -, hblend, hslots, -⟩ := acceptance_same p
  have hnone' : (acceptance p).blend.episode = false := by rw [hblend]; exact hnone
  have hpromoted : (judgedPart p).slots[slot] = promotedSlot p.slots[slot] := by
    rw [show (judgedPart p).slots = promotedSlots (acceptance p).slots from judgeEpisode_slots_of_start hdem hnone',
      promotedSlots_get, hslots]
  rw [hpromoted]
  refine ⟨fun program hpending => ⟨?_, hasEvent_judgeEpisode_of_start hdem hnone' ?_⟩, fun hpending => ?_⟩
  · rw [promotedSlot, hpending]
  · rw [hslots]
    exact anyPending_of_some hpending
  · rw [promotedSlot, hpending]

theorem judgedPart_flags (p : Part) : (judgedPart p).auth.flags = { p.auth.flags with
    hold := if accepted p = some .safeStop ∧ p.hold.state ≠ .drive then false else p.auth.flags.hold
    blend := if episodeTurns p.image.drive.data.aDem p then decide (blendAllowed p.image.drive.data.aDem p)
      else p.auth.flags.blend } := by
  obtain ⟨himage, hcfg, -, -, -, hblend, -⟩ := acceptance_same p
  rw [judgedPart, judgeEpisode_flags, acceptance_flags]
  simp only [episodeTurns, blendAllowed, himage, hcfg, hblend]

theorem judgedPart_released (p : Part) : entriesReleased
    (fun src => (src = .hold && decide (accepted p = some .safeStop ∧ p.hold.state ≠ .drive)) ||
      (src = .blend && decide (episodeTurns p.image.drive.data.aDem p ∧ ¬ blendAllowed p.image.drive.data.aDem p)))
    (acceptOffer p) (judgedPart p) := by
  obtain ⟨himage, hcfg, -, -, -, hblend, -⟩ := acceptance_same p
  have hjudged := judgeEpisode_released p.image.drive.data.aDem (acceptance p)
  simp only [episodeTurns, blendAllowed, himage, hcfg, hblend] at hjudged
  exact (acceptance_released p).trans hjudged ((portsOnlyGainEvents_controlClosed _).judgeEpisode (.refl _))

/-- Settles O31: the acceptance, the judgement of the episode, and the record made of the part between them. -/
theorem settlementBeginsOnWhatStands : Obligations.SettlementBeginsOnWhatStands := by
  intro senseHeld s hrun hbeginning hsettling q i st aDem
  obtain ⟨himage, hcfg, hwear, hscan, hcal, hblend, hslots, haccount, htime⟩ := acceptance_same s.part
  obtain ⟨hbase, hgoverning⟩ := acceptance_top s.part
  have hexec : exec .settlementBegin s = .next ⟨s.pending, beginSettlement senseHeld s.part⟩ := by
    have hdue : beginDue s.part = true := by rw [beginDue, hbeginning, hsettling]; rfl
    rw [exec_of_whenDue (f := beginWaiting) hrun hdue rfl, beginWaiting, hbeginning]
  have hframe := begun_frame senseHeld s.part
  have hflags := judgedPart_flags s.part
  have hreleased := judgedPart_released s.part
  have hjudged : changesOnly [.blend, .slots, .auth, .cal, .scan, .ports] (acceptance s.part) (judgedPart s.part) :=
    judgeEpisode_frame ..
  have hauth : (beginSettlement senseHeld s.part).auth = (judgedPart s.part).auth := hframe.same .auth (by decide)
  have hslots' : (beginSettlement senseHeld s.part).slots = (judgedPart s.part).slots := hframe.same .slots (by decide)
  have hhold : (beginSettlement senseHeld s.part).hold = (acceptance s.part).hold :=
    (hframe.same .hold (by decide) : (beginSettlement senseHeld s.part).hold = (judgedPart s.part).hold).trans
      (hjudged.same .hold (by decide))
  have hgen : (beginSettlement senseHeld s.part).gen = (acceptance s.part).gen :=
    (hframe.same .gen (by decide) : (beginSettlement senseHeld s.part).gen = (judgedPart s.part).gen).trans
      (hjudged.same .gen (by decide))
  refine ⟨_, hexec, beginSettlement_account .., ?record, (settleInputs_episode ..), effADem_acceptance _,
    auxNow_acceptance _, hbase, hgoverning, rfl, acceptance_link _, ?took, rfl, ?floor, ?ended, ?working,
    fun hdem hnone => ?stands, fun hkeep => ?kept, fun hsafe hstate => ?breaks, fun hsafe => ?steady, ?episode, ?regPrev,
    ?passPrev, fun hdem hnone slot => ?slots, fun hkeep => ?slotsKept, fun hdem => ⟨?program, ?latest⟩, fun hdem => ?older,
    ⟨?flags, ?released⟩, beginSettlement_gains .., beginSettlement_frame ..⟩
  case record =>
    show i.record (acceptance s.part).account.nextSeq senseHeld (acceptance s.part).time.now = _
    rw [haccount, htime]
  case took =>
    show (acceptance s.part).account.dump = _
    rw [haccount]
  case floor =>
    show (acceptance s.part).cfg.num .nFloor = _
    rw [hcfg]
  case ended =>
    show ((acceptance s.part).blend.episode && !i.episode) = _
    rw [hblend, show i.episode = _ from settleInputs_episode ..]
    simp [aDem]
  case working =>
    show i.working (liningLevels (acceptance s.part)) (senseOr0 (acceptance s.part) 16) (senseOr0 (acceptance s.part) 17) = _
    rw [liningLevels, senseOr0, senseOr0, hwear, hscan]
    rfl
  case stands =>
    have hstands : standingCeased (acceptance s.part) (judgedPart s.part) :=
      judgeEpisode_standing hdem (by rw [hblend]; exact hnone)
    exact hstands.congr hscan hcal hcfg (hframe.same .scan (by decide)) (hframe.same .cal (by decide))
  case kept =>
    have hkept : changesOnly [.blend, .auth, .ports] (acceptance s.part) (judgedPart s.part) :=
      judgeEpisode_of_not_start (by rw [hblend]; exact hkeep)
    have hall := hkept.trans (n := [.blend, .auth, .ports, .account]) hframe
    exact ⟨(hall.same .cal (by decide) : (beginSettlement senseHeld s.part).cal = _).trans hcal,
      (hall.same .scan (by decide) : (beginSettlement senseHeld s.part).scan = _).trans hscan⟩
  case breaks =>
    obtain ⟨hdrive, hrequest, hevent⟩ := acceptance_breaks hsafe hstate
    have hgains : portsOnlyGainEvents (acceptance s.part) (judgedPart s.part) :=
      (portsOnlyGainEvents_controlClosed _).judgeEpisode (.refl _)
    refine ⟨hhold.trans hdrive, ?_, ?_, (hevent.of_gains hgains).of_gains (.of_frame hframe)⟩
    · show (beginSettlement senseHeld s.part).gen.startRequest = false
      rw [hgen]
      exact hrequest
    · show (beginSettlement senseHeld s.part).auth.flags.hold = false
      rw [hauth, hflags]
      exact if_pos ⟨hsafe, hstate⟩
  case steady =>
    obtain ⟨hhold', hgen', -⟩ := acceptOffer_kept s.part
    have hkeep : acceptance s.part = acceptOffer s.part := acceptance_of_keep fun h => hsafe h.1
    rw [hkeep] at hhold hgen
    exact ⟨hhold.trans hhold', hgen.trans hgen'⟩
  case episode =>
    show (beginSettlement senseHeld s.part).blend.episode = _
    rw [beginSettlement_blend, (keepPass_episode ..).1, judgedPart_blend]
  case regPrev =>
    show (beginSettlement senseHeld s.part).blend.regPrev = _
    rw [beginSettlement_blend, (keepPass_episode ..).2, judgedPart_blend]
  case passPrev =>
    show (if (acceptance s.part).blend.episode then (acceptance s.part).blend.regPrev else 0) = _
    rw [hblend]
  case slots =>
    obtain ⟨hpending, hnone'⟩ := judgedPart_slot hdem hnone slot
    show (∀ program, s.part.slots[slot].pending = some program → (beginSettlement senseHeld s.part).slots[slot] = _ ∧ _) ∧
      (_ → (beginSettlement senseHeld s.part).slots[slot] = _)
    rw [hslots']
    refine ⟨fun program h => ?_, hnone'⟩
    obtain ⟨hslot, hevent⟩ := hpending program h
    exact ⟨hslot, hevent.of_gains (.of_frame hframe)⟩
  case slotsKept =>
    have hkept : (judgedPart s.part).slots = (acceptance s.part).slots :=
      (judgeEpisode_of_not_start (by rw [hblend]; exact hkeep)).same .slots (by decide)
    exact (hslots'.trans hkept).trans hslots
  case program =>
    show passProgram (acceptance s.part) = (beginSettlement senseHeld s.part).slots[slotNow s.part].active
    rw [hslots']
    exact passProgram_judged hdem
  case latest =>
    show (beginSettlement senseHeld s.part).blend.latest = _
    rw [beginSettlement_latest, if_neg hdem, SettleInputs.passResult,
      show (settleInputs s.part.hold.state (acceptance s.part)).aDem = aDem from effADem_acceptance _]
  case older =>
    show (beginSettlement senseHeld s.part).blend.latest = _
    rw [beginSettlement_latest, if_pos hdem]
  case flags =>
    show (beginSettlement senseHeld s.part).auth.flags = _
    rw [hauth, hflags]
  case released => exact hreleased.frame hframe (.of_frame hframe) (.of_frame hframe)

end Sys2Proof.Machine
end

