-- ==== Sys2Proof/Proofs/OverrideCode.lean ====
section
/-! SUPPORT. The override code and its lock (R130): the one write that sets them, and that no other command but a reset
changes them. -/

set_option Elab.async false

namespace Sys2Proof.Machine

variable {p q : Part} {code : Nat}

/-! ### What keeps a written code -/

/-- The code is written and locked. -/
def codeLocked (code : Nat) (p : Part) : Prop := p.derate.locked = true ∧ p.derate.overrideCode = code

theorem codeLocked_reads : readsOnly [.derate] (codeLocked code) := fun {p q} h hp => by
  have hderate : q.derate = p.derate := h .derate (by decide)
  unfold codeLocked
  rw [hderate]
  exact hp

theorem codeLocked_reformFactors (hp : codeLocked code p) : codeLocked code (reformFactors p) := by
  unfold codeLocked
  rw [reformFactors_derate]
  exact hp

theorem codeLocked_judgeItem {i : WearNo} (hp : codeLocked code p) : codeLocked code (judgeItem i p) := by
  have hset (it : WearItem) : codeLocked code (p.setWearItem i it) := codeLocked_reads.keeps (setWearItem_frame ..) hp
  by_cases hsame : formedLevel i p.wear[i] = p.wear[i].level
  · rw [judgeItem_of_same hsame]
    exact hset _
  · rw [judgeItem_of_change hsame, handOnLevel_eq]
    have htold {old new : Level} {it : WearItem} : codeLocked code (portsToldOfLevel i old new (p.setWearItem i it)) :=
      codeLocked_reads.keeps (portsToldOfLevel_frame ..) (hset it)
    split
    · exact codeLocked_reformFactors htold
    · exact htold

theorem codeLocked_setThermalSet {set : BitVec 8} (hp : codeLocked code p) : codeLocked code (setThermalSet set p) := by
  unfold setThermalSet thermalRises thermalEmpties
  dsimp only
  refine codeLocked_reformFactors ?_
  repeat' split
  all_goals exact hp

theorem codeLocked_resultClosed : ResultClosed (codeLocked code) where
  item _ hp := codeLocked_reads.keeps (setWearItem_frame ..) hp
  event hp := codeLocked_reads.keeps (setEvent_frame ..) hp
  judge hp := codeLocked_judgeItem hp
  scan hp := codeLocked_reads.keeps (setScan_frame ..) hp
  thermal hp := codeLocked_setThermalSet hp
  beginning hp := codeLocked_reads.keeps (arriveBeginning_frame ..) hp

theorem codeLocked_controlClosed : ControlClosed (codeLocked code) where
  blocks h hp := codeLocked_reads.keeps h hp
  event hp := codeLocked_reads.keeps (setEvent_frame ..) hp
  eval hp := codeLocked_reads.keeps (evalSource_frame ..) hp

theorem codeLocked_reconfigureMonitor {k : MonitorNo} {new : MonitorCfg} (hp : codeLocked code p) :
    codeLocked code (reconfigureMonitor k new p) := by
  have hcfg (c : ConfigStore) : codeLocked code (p.setCfg c) := hp
  unfold reconfigureMonitor
  dsimp only
  repeat' split
  · exact codeLocked_resultClosed.handReturn (codeLocked_resultClosed.scan (hcfg _))
  · exact codeLocked_resultClosed.scan (hcfg _)
  · exact codeLocked_setThermalSet (hcfg _)
  · exact codeLocked_setThermalSet (hcfg _)
  · exact hcfg _
  · exact hcfg _

theorem codeLocked_applyWrite {it : ConfigItem} {v : ConfigValue} (hp : codeLocked code p) :
    codeLocked code (applyWrite it v p) := by
  unfold applyWrite
  split
  · exact codeLocked_controlClosed.numWritten codeLocked_reformFactors hp
  · exact hp
  · exact hp
  · exact codeLocked_reads.keeps (replaceRoutineList_frame ..) hp
  · exact codeLocked_reconfigureMonitor hp
  · exact hp
  · exact codeLocked_reads.keeps (resetMaskWritten_frame ..) hp
  · exact hp

theorem writeOverrideCode_of_locked (h : p.derate.locked = true) (bytes : List Byte) :
    writeOverrideCode bytes p = refuse .locked p := if_pos h

/-- A locked code refuses every write of it; a write of another item does not reach it. -/
theorem codeLocked_configWrite {port : Port} {number : BitVec 16} {bytes : List Byte} (hp : codeLocked code p) :
    codeLocked code (configWrite port number bytes p).part := by
  have hwritten : codeLocked code (writeOverrideCode bytes p).part := by
    rw [writeOverrideCode_of_locked hp.1]
    exact hp
  unfold configWrite writeValue
  repeat' split
  all_goals first | exact hp | exact hwritten | exact codeLocked_applyWrite hp

theorem codeLocked_forceDerate {v : Byte} (hp : codeLocked code p) : codeLocked code (forceDerate v p).part := by
  unfold forceDerate
  split
  · exact codeLocked_reformFactors hp
  · exact codeLocked_reformFactors hp
  · exact hp

theorem codeLocked_effect {i : Instr} (h : resetsPart i = false) (hp : codeLocked code p) :
    codeLocked code (effect i p) := by
  have hports {q r : Part} (hq : changesOnly [.ports] q r) (hp : codeLocked code q) : codeLocked code r :=
    codeLocked_reads.keeps hq hp
  cases i with
  | configWrite => exact request_keeps hports hp (codeLocked_configWrite hp)
  | forceDerate => exact request_keeps hports hp (codeLocked_forceDerate hp)
  | wearWrite => exact request_keeps hports hp (codeLocked_resultClosed.wearWrite hp)
  | wearReset => exact request_keeps hports hp (codeLocked_resultClosed.wearReset hp)
  | armingTimerExpiry | clearingTimerExpiry => exact whenDue_keeps hp fun _ _ => codeLocked_reformFactors hp
  | conversionComplete => exact whenRunning_keeps hp fun _ => codeLocked_resultClosed.conversionCompletes hp
  | accountSettled =>
    refine whenRunning_keeps hp fun _ => ?_
    unfold settleCurrent
    split
    · exact codeLocked_reads.keeps (settlementFrames_frame ..) (codeLocked_controlClosed.settledPart
        codeLocked_resultClosed.toWearClosed (fun h hp => codeLocked_reads.keeps h hp) hp)
    · exact hp
  | _ => first | exact absurd h (by decide) | exact codeLocked_reads.keeps (effect_frame _ p) hp (by
      simp [effectBlocks, brakeBlocks, holdBlocks, silenceBlocks, driveBlocks, beginBlocks])

/-! ### The write that sets it -/

/-- The part with a code written and its factors formed again (R130). -/
def codeWritten (v : Nat) (p : Part) : Part :=
  reformFactors (p.setDerate { p.derate with overrideCode := v, locked := true })

theorem configWrite_overrideCode {port : Port} (hport : port = .pd ∨ port = .sv) (bytes : List Byte) (p : Part) :
    configWrite port 38#16 bytes p = writeOverrideCode bytes p := by
  obtain rfl | rfl := hport <;> rfl

theorem writeOverrideCode_of_open {v : Byte} (h : p.derate.locked = false) : writeOverrideCode [v] p =
    if v.toNat ≤ 7 then accept (codeWritten v.toNat p) else refuse .range p := by
  rw [writeOverrideCode, h]
  rfl

theorem codeWritten_gains (v : Nat) (p : Part) : portsOnlyGainEvents p (codeWritten v p) :=
  (portsOnlyGainEvents.of_frame (setDerate_frame p _)).trans (reformFactors_gains _)

theorem codeWritten_frame (v : Nat) (p : Part) : changesOnly [.derate, .ports] p (codeWritten v p) :=
  (setDerate_frame p _).trans (reformFactors_frame _)

theorem codeWritten_derate (v : Nat) (p : Part) :
    (codeWritten v p).derate.overrideCode = v ∧ (codeWritten v p).derate.locked = true := by
  rw [codeWritten, reformFactors_derate]
  exact ⟨rfl, rfl⟩

/-- Settles O17. -/
theorem overrideCodeWrittenOnce : Obligations.OverrideCodeWrittenOnce := by
  refine ⟨fun port code s htaken hport => ?_, fun i s t hexec hreset hlocked => ?_⟩
  · have heq := configWrite_overrideCode hport [code] s.part
    refine ⟨_, exec_of_request htaken rfl rfl rfl, fun hopen hcode => ?_, fun hopen hcode => ?_, fun hlocked => ?_⟩
    · have hwrite : configWrite port 38#16 [code] s.part = accept (codeWritten code.toNat s.part) := by
        rw [heq, writeOverrideCode_of_open hopen, if_pos hcode]
      obtain ⟨hvalue, hlock⟩ := codeWritten_derate code.toNat s.part
      have hreformed : factorsReformed s.part (codeWritten code.toNat s.part) := factorsReformed_reformFactors rfl rfl
      refine ⟨?_, ?_, ?_, replied_accept hwrite (tx_of_gains (codeWritten_gains ..)), ?_⟩ <;> rw [replyOn_accept hwrite]
      · exact hvalue
      · exact hlock
      · exact factorsReformed_queueOn hreformed
      · exact (codeWritten_frame ..).trans (queueOn_frame ..)
    · refine refusedWith_replyOn ?_
      rw [heq, writeOverrideCode_of_open hopen, if_neg (by omega)]
    · exact refusedWith_replyOn (heq.trans (writeOverrideCode_of_locked hlocked _))
  · rw [exec_eq_effect] at hexec
    obtain rfl : s.on (effect i) = t := Host.Outcome.next.inj hexec
    exact codeLocked_effect hreset ⟨hlocked, rfl⟩

end Sys2Proof.Machine
end

