-- ==== Sys2Proof/Proofs/ConfigValues.lean ====
section
/-! SUPPORT. The values that the bytes of a CONFIG_WRITE spell (R152, R194, R196), item form by item form, and what the
tests of a write make of them (R197, R198). -/

set_option Elab.async false

namespace Sys2Proof.Machine

variable {bytes : List Byte} {a b : Byte}

/-! ### Numbers in bytes -/

theorem numberOf_one (a : Byte) : numberOf [a] = a.toNat := by simp [numberOf]

theorem numberOf_two (a b : Byte) : numberOf [a, b] = 256 * a.toNat + b.toNat := by simp [numberOf]

theorem dec2_eq (a b : Byte) : dec2 a b = numberOf [a, b] := by
  have hb := b.isLt
  rw [numberOf_two, dec2, beWord, BitVec.toNat_append, ← Nat.shiftLeft_add_eq_or_of_lt hb, Nat.shiftLeft_eq]
  omega

theorem beWord_eq (a b : Byte) : beWord a b = BitVec.ofNat 16 (numberOf [a, b]) := by
  rw [← dec2_eq, dec2, BitVec.ofNat_toNat, BitVec.setWidth_eq]

theorem numberOf_two_lt (a b : Byte) : numberOf [a, b] < 65536 := by
  rw [← dec2_eq]
  exact (beWord a b).isLt

theorem dec2i_eq (a b : Byte) : dec2i a b = signedOf [a, b] := by
  have hnat : (beWord a b).toNat = numberOf [a, b] := dec2_eq a b
  rw [dec2i, BitVec.toInt_eq_toNat_cond, hnat, signedOf]
  split <;> split <;> omega

/-! ### Numbers of an item -/

/-- The length that a number's value has (R194, R196). -/
def numLength (i : NumItem) : Nat := if i.row.high ≤ 255 then 1 else 2

theorem numOfBytes_eq (high : Nat) (bytes : List Byte) : numOfBytes high bytes =
    if bytes.length = (if high ≤ 255 then 1 else 2) then some (numberOf bytes) else none := by
  match bytes with
  | [] => split <;> simp [numOfBytes]
  | [a] => by_cases h : high ≤ 255 <;> simp [numOfBytes, h, numberOf_one]
  | [a, b] => by_cases h : high ≤ 255 <;> simp [numOfBytes, h, dec2_eq]
  | a :: b :: c :: rest =>
    have hlength : (a :: b :: c :: rest).length ≠ (if high ≤ 255 then 1 else 2) := by
      simp only [List.length_cons]
      split <;> omega
    rw [if_neg hlength]
    rfl

theorem valueOf_num' (i : NumItem) (bytes : List Byte) : valueOf (.num i) bytes =
    if bytes.length = numLength i ∧ i.row.low ≤ numberOf bytes ∧ numberOf bytes ≤ i.row.high then
      some (.num (numberOf bytes)) else none := by
  rw [ite_and]
  simp only [valueOf, numOfBytes_eq, numLength]
  by_cases h : bytes.length = if i.row.high ≤ 255 then 1 else 2
  · simp [h, inRange]
  · simp [h]

theorem valueOf_axleShares (bytes : List Byte) : valueOf .axleShares bytes = if bytes.length = 6 then
    some (.shares ⟨numberOf (bytes.take 2), numberOf ((bytes.drop 2).take 2), numberOf (bytes.drop 4)⟩) else none := by
  unfold valueOf
  dsimp only
  split
  · simp [dec2_eq]
  · next hform =>
    refine (if_neg fun h => ?_).symm
    match bytes, h with
    | [a, b, c, d, e, f], _ => exact hform a b c d e f rfl

/-! ### Lists of channels -/

theorem channelOf_of_lt (h : b.toNat < 22) : channelOf b = some ⟨b.toNat, h⟩ := dif_pos h

theorem channelOf_of_ge (h : 22 ≤ b.toNat) : channelOf b = none := dif_neg (Nat.not_lt.mpr h)

theorem channelsOf_of_lt {l : List Byte} (h : ∀ b ∈ l, b.toNat < 22) :
    ∃ chs, channelsOf l = some chs ∧ chs.map (byteOf ·.val) = l := by
  induction l with
  | nil => exact ⟨[], rfl, rfl⟩
  | cons b l ih =>
    obtain ⟨chs, hchs, hmap⟩ := ih fun b hb => h b (List.mem_cons_of_mem _ hb)
    have hb : b.toNat < 22 := h b List.mem_cons_self
    have hbyte : byteOf b.toNat = b := BitVec.eq_of_toNat_eq (by simp [byteOf])
    refine ⟨⟨b.toNat, hb⟩ :: chs, ?_, ?_⟩
    · rw [channelsOf, channelOf_of_lt hb, hchs]
    · rw [List.map_cons, hmap, hbyte]

theorem channelsOf_of_ge {l : List Byte} (h : ∃ b ∈ l, 22 ≤ b.toNat) : channelsOf l = none := by
  induction l with
  | nil => simp at h
  | cons b l ih =>
    unfold channelsOf
    obtain ⟨b', hmem, hb'⟩ := h
    obtain rfl | htail := List.mem_cons.mp hmem
    · rw [channelOf_of_ge hb']
    · rw [ih ⟨b', htail, hb'⟩]
      cases channelOf b <;> rfl

/-- The count byte and the channel numbers of a list hold (R196). -/
def listFormed (bytes : List Byte) : Prop :=
  bytes ≠ [] ∧ numberOf (bytes.take 1) = bytes.length - 1 ∧ ∀ b ∈ bytes.drop 1, b.toNat < 22

theorem channelListOf_of_formed (h : listFormed bytes) :
    ∃ l, channelListOf bytes = some l ∧ l.map (byteOf ·.val) = bytes.drop 1 := by
  obtain ⟨hne, hcount, hchannels⟩ := h
  match bytes, hne with
  | n :: rest, _ =>
    obtain ⟨l, hl, hmap⟩ := channelsOf_of_lt hchannels
    have hn : n.toNat = rest.length := by simpa [numberOf_one] using hcount
    exact ⟨l, (if_pos hn).trans hl, hmap⟩

theorem channelListOf_of_not_formed (h : ¬ listFormed bytes) : channelListOf bytes = none := by
  match bytes with
  | [] => rfl
  | n :: rest =>
    by_cases hcount : n.toNat = rest.length
    · have hge : ∃ b ∈ rest, 22 ≤ b.toNat := by
        by_contra hall
        refine h ⟨(List.cons_ne_nil _ _), by simpa [numberOf_one] using hcount, fun b hb => ?_⟩
        exact Nat.lt_of_not_le fun hb' => hall ⟨b, hb, hb'⟩
      exact (if_pos hcount).trans (channelsOf_of_ge hge)
    · exact if_neg hcount

theorem listIll_iff {most : Nat} (h : 1 ≤ bytes.length) : listIll most bytes ↔
    ¬ listFormed bytes ∨ bytes.length < 2 ∨ most + 1 < bytes.length := by
  have hne : bytes ≠ [] := fun hnil => by rw [hnil] at h; exact absurd h (by decide)
  unfold listIll listFormed
  constructor
  · rintro (hshort | hlong | hcount | ⟨b, hb, hge⟩)
    · exact .inr (.inl hshort)
    · exact .inr (.inr hlong)
    · exact .inl fun hformed => hcount hformed.2.1
    · exact .inl fun hformed => absurd (hformed.2.2 b hb) (Nat.not_lt.mpr hge)
  · rintro (hformed | hshort | hlong)
    · by_contra hall
      simp only [not_or, not_exists, not_and, Nat.not_le, Decidable.not_not] at hall
      exact hformed ⟨hne, hall.2.2.1, fun b hb => hall.2.2.2 b hb⟩
    · exact .inl hshort
    · exact .inr (.inl hlong)

theorem length_of_spelled {l : List Channel} (h : l.map (byteOf ·.val) = bytes.drop 1) : l.length = bytes.length - 1 := by
  rw [← List.length_map (f := (byteOf ·.val)), h, List.length_drop]

theorem byteOf_channel_injective : Function.Injective fun ch : Channel => byteOf ch.val := fun c d h => by
  have hnat := congrArg BitVec.toNat h
  simp only [byteOf, BitVec.toNat_ofNat] at hnat
  have hc := c.isLt
  have hd := d.isLt
  exact Fin.ext (by omega)

theorem valueOf_routineList (h : 1 ≤ bytes.length) : (listIll 16 bytes → valueOf .routineList bytes = none) ∧
    (¬ listIll 16 bytes → ∃ l, valueOf .routineList bytes = some (.channels l) ∧
      l.map (byteOf ·.val) = bytes.drop 1) := by
  rw [listIll_iff h]
  unfold valueOf
  by_cases hformed : listFormed bytes
  · obtain ⟨l, hl, hmap⟩ := channelListOf_of_formed hformed
    have hlength := length_of_spelled hmap
    simp only [hl, Bool.and_eq_true, decide_eq_true_eq]
    refine ⟨fun hbad => if_neg fun hgood => ?_, fun hgood => ⟨l, if_pos ?_, hmap⟩⟩
    · have := hbad.resolve_left (not_not_intro hformed)
      omega
    · have := not_or.mp hgood
      omega
  · rw [channelListOf_of_not_formed hformed]
    exact ⟨fun _ => rfl, fun hgood => absurd (.inl hformed) hgood⟩

theorem valueOf_eventGroup (h : 1 ≤ bytes.length) :
    (listIll 4 bytes ∨ ¬ (bytes.drop 1).Nodup → valueOf .eventGroup bytes = none) ∧
    (¬ (listIll 4 bytes ∨ ¬ (bytes.drop 1).Nodup) → ∃ l, valueOf .eventGroup bytes = some (.channels l) ∧
      l.map (byteOf ·.val) = bytes.drop 1) := by
  rw [listIll_iff h]
  unfold valueOf
  by_cases hformed : listFormed bytes
  · obtain ⟨l, hl, hmap⟩ := channelListOf_of_formed hformed
    have hlength := length_of_spelled hmap
    have hnodup : l.Nodup ↔ (bytes.drop 1).Nodup := by
      rw [← hmap, List.nodup_map_iff byteOf_channel_injective]
    simp only [hl, Bool.and_eq_true, decide_eq_true_eq, hnodup]
    refine ⟨fun hbad => if_neg fun hgood => ?_, fun hgood => ⟨l, if_pos ?_, hmap⟩⟩
    · obtain hbad | hbad := hbad
      · have := hbad.resolve_left (not_not_intro hformed)
        omega
      · exact hbad hgood.2
    · obtain ⟨hlist, hnodup'⟩ := not_or.mp hgood
      have := not_or.mp hlist
      exact ⟨by omega, not_not.mp hnodup'⟩
  · rw [channelListOf_of_not_formed hformed]
    exact ⟨fun _ => rfl, fun hgood => absurd (.inl (.inl hformed)) hgood⟩

/-! ### Masks -/

theorem eventMaskOf_eq (m : BitVec 16) : eventMaskOf m = BitVec.ofNat 16 (m.toNat % 32768) := by
  apply BitVec.eq_of_toNat_eq
  rw [eventMaskOf, BitVec.toNat_and, show (0x7FFF#16).toNat = 2 ^ 15 - 1 from rfl, Nat.and_two_pow_sub_one_eq_mod,
    BitVec.toNat_ofNat]
  omega

theorem valueOf_enables (port : Port) (bytes : List Byte) : valueOf (.enables port) bytes =
    if bytes.length = 2 then some (.events (BitVec.ofNat 16 (numberOf bytes % 32768))) else none := by
  unfold valueOf
  dsimp only
  split
  · next a b =>
    rw [eventMaskOf_eq, show (beWord a b).toNat = numberOf [a, b] from dec2_eq a b]
    rfl
  · next hform =>
    refine (if_neg fun h => ?_).symm
    match bytes, h with
    | [a, b], _ => exact hform a b rfl

/-- A mask names only events that another has, bit by bit. -/
theorem mask_within_iff (n : Nat) (e : BitVec 16) : BitVec.ofNat 16 (n % 32768) &&& ~~~e = 0#16 ↔
    ∀ k ∈ List.range 15, n.testBit k = true → e.getLsbD k = true := by
  have hbit (k : Nat) (hk : k < 16) : (BitVec.ofNat 16 (n % 32768) &&& ~~~e).getLsbD k =
      (decide (k < 15) && n.testBit k && !e.getLsbD k) := by
    rw [BitVec.getLsbD_and, BitVec.getLsbD_not, BitVec.getLsbD_ofNat, show (32768 : Nat) = 2 ^ 15 from rfl,
      Nat.testBit_mod_two_pow]
    simp [hk]
  constructor
  · intro hzero k hk hn
    have hlt : k < 15 := List.mem_range.mp hk
    have := hbit k (by omega)
    rw [hzero] at this
    simpa [hlt, hn] using this.symm
  · intro hall
    refine BitVec.eq_of_getLsbD_eq fun k hk => ?_
    rw [hbit k hk]
    by_cases hlt : k < 15
    · cases hn : n.testBit k
      · simp
      · simp [hall k (List.mem_range.mpr hlt) hn]
    · simp [hlt]

theorem valueOf_resetMask (bytes : List Byte) : valueOf .resetMask bytes =
    if bytes.length = 1 then some (.lines (BitVec.ofNat 3 (numberOf bytes))) else none := by
  unfold valueOf
  dsimp only
  split
  · next a =>
    have hlow : a.extractLsb' 0 3 = BitVec.ofNat 3 (numberOf [a]) := by
      apply BitVec.eq_of_toNat_eq
      simp [numberOf_one]
    rw [hlow]
    rfl
  · next hform =>
    refine (if_neg fun h => ?_).symm
    match bytes, h with
    | [a], _ => exact hform a rfl

theorem resetMaskOk_iff (n : Nat) : resetMaskOk (BitVec.ofNat 3 n) = true ↔ ¬ (n % 8 = 1 ∨ n % 8 = 2 ∨ n % 8 = 4) := by
  have hne (k : Nat) (hk : k < 8) : BitVec.ofNat 3 n = BitVec.ofNat 3 k ↔ n % 8 = k := by
    rw [← BitVec.toNat_inj, BitVec.toNat_ofNat, BitVec.toNat_ofNat]
    omega
  have h1 := hne 1 (by decide)
  have h2 := hne 2 (by decide)
  have h4 := hne 4 (by decide)
  simp only [resetMaskOk, Bool.and_eq_true, decide_eq_true_eq, ne_eq, h1, h2, h4]
  tauto

/-! ### Monitors -/

theorem scopeOf_channel (h : b.toNat < 22) : scopeOf b = some (.channel ⟨b.toNat, h⟩) := by
  unfold scopeOf
  rw [if_neg (by omega), if_neg (by omega), if_neg (by omega), if_neg (by omega), channelOf_of_lt h]
  rfl

theorem scopeOf_none_iff (b : Byte) : scopeOf b = none ↔ 24 < b.toNat ∧ b.toNat ≠ 255 := by
  by_cases hchannel : b.toNat < 22
  · rw [scopeOf_channel hchannel]
    exact ⟨fun h => (nomatch h), fun h => by omega⟩
  · unfold scopeOf
    rw [channelOf_of_ge (Nat.not_lt.mp hchannel)]
    split_ifs with h1 h2 h3 h4 <;> simp <;> omega

theorem scopeByte_scopeOf {sc : Scope} (h : scopeOf b = some sc) : scopeByte sc = b := by
  by_cases hchannel : b.toNat < 22
  · rw [scopeOf_channel hchannel] at h
    obtain rfl := Option.some.inj h
    exact BitVec.eq_of_toNat_eq (by simp [scopeByte, byteOf])
  · unfold scopeOf at h
    rw [channelOf_of_ge (Nat.not_lt.mp hchannel)] at h
    apply BitVec.eq_of_toNat_eq
    split_ifs at h with h1 h2 h3 h4 <;> simp at h <;> subst h <;> simp [scopeByte, *]

theorem scopeChannels_scopeOf {sc : Scope} (h : scopeOf b = some sc) :
    (scopeChannels sc).map (·.val) = scopeBytes b.toNat := by
  by_cases hchannel : b.toNat < 22
  · rw [scopeOf_channel hchannel] at h
    obtain rfl := Option.some.inj h
    exact (if_pos (Nat.le_of_lt_succ hchannel)).symm
  · unfold scopeOf at h
    rw [channelOf_of_ge (Nat.not_lt.mp hchannel)] at h
    split_ifs at h with h1 h2 h3 h4 <;> simp at h <;> subst h <;> simp [scopeChannels, scopeBytes, *]

theorem actionOf_none_iff (b : Byte) : actionOf b = none ↔ 3 < b.toNat := by
  unfold actionOf
  split <;> simp_all
  omega

theorem actionByte_actionOf {act : MonitorAction} (h : actionOf b = some act) : actionByte act = b := by
  unfold actionOf at h
  apply BitVec.eq_of_toNat_eq
  split at h <;> simp at h <;> subst h <;> simp [actionByte, *]

theorem channelRange_eq (ch : Channel) : channelRange ch.val = (channelBase ch, channelBase ch + channelSpan ch - 1) := by
  revert ch
  decide

theorem thresholdOk_iff {sc : Scope} (h : scopeOf b = some sc) (z : Int) : thresholdOk sc z = true ↔
    ∀ ch ∈ scopeBytes b.toNat, (channelRange ch).1 ≤ z ∧ z ≤ (channelRange ch).2 := by
  rw [← scopeChannels_scopeOf h, List.forall_mem_map, thresholdOk, List.all_eq_true]
  refine forall₂_congr fun ch _ => ?_
  rw [channelRange_eq, Bool.and_eq_true, decide_eq_true_eq, decide_eq_true_eq]
  refine and_congr_right fun _ => ?_
  constructor <;> intro hz <;> dsimp only at hz ⊢ <;> omega

/-- The configuration that the nine bytes of a monitor item spell. -/
def monitorSpelled (bytes : List Byte) (c : MonitorCfg) : Prop :=
  scopeByte c.scope = bytes.getD 0 0#8 ∧ c.low = signedOf ((bytes.drop 1).take 2) ∧
  c.high = signedOf ((bytes.drop 3).take 2) ∧ c.hysteresis = numberOf ((bytes.drop 5).take 2) ∧
  c.persistence = (bytes.getD 7 0#8).toNat ∧ actionByte c.action = bytes.getD 8 0#8

theorem monitorOk_iff {sc : Scope} (h : scopeOf b = some sc) (low high : Int) (hyst pers : Nat) (act : MonitorAction) :
    monitorOk ⟨sc, low, high, hyst, pers, act⟩ = true ↔ (∀ ch ∈ scopeBytes b.toNat,
      ((channelRange ch).1 ≤ low ∧ low ≤ (channelRange ch).2) ∧ (channelRange ch).1 ≤ high ∧ high ≤ (channelRange ch).2) ∧
      low < high ∧ (hyst : Int) ≤ (high - low) / 2 ∧ 1 ≤ pers ∧ pers ≤ 15 := by
  unfold monitorOk
  simp only [Bool.and_eq_true, decide_eq_true_eq, thresholdOk_iff h]
  rw [show (∀ ch ∈ scopeBytes b.toNat, ((channelRange ch).1 ≤ low ∧ low ≤ (channelRange ch).2) ∧
      (channelRange ch).1 ≤ high ∧ high ≤ (channelRange ch).2) ↔
      (∀ ch ∈ scopeBytes b.toNat, (channelRange ch).1 ≤ low ∧ low ≤ (channelRange ch).2) ∧
      (∀ ch ∈ scopeBytes b.toNat, (channelRange ch).1 ≤ high ∧ high ≤ (channelRange ch).2) from
    ⟨fun hall => ⟨fun ch hch => (hall ch hch).1, fun ch hch => (hall ch hch).2⟩,
      fun hboth ch hch => ⟨hboth.1 ch hch, hboth.2 ch hch⟩⟩]
  simp only [and_assoc]
  refine and_congr_right fun _ => and_congr_right fun _ => and_congr_right fun hlt => and_congr_left fun _ => ?_
  omega

theorem monitorOf_of_not_length (h : bytes.length ≠ 9) : monitorOf bytes = none := by
  unfold monitorOf
  split
  · exact absurd rfl h
  · rfl

theorem valueOf_monitor (k : Fin 8) (bytes : List Byte) : (monitorIll bytes → valueOf (.monitor k) bytes = none) ∧
    (¬ monitorIll bytes → ∃ c, valueOf (.monitor k) bytes = some (.monitor c) ∧ monitorSpelled bytes c) := by
  by_cases hlength : bytes.length = 9
  · match bytes, hlength with
    | [s, l1, l0, h1, h0, y1, y0, per, act], _ =>
      have hill : monitorIll [s, l1, l0, h1, h0, y1, y0, per, act] ↔
          (24 < s.toNat ∧ s.toNat ≠ 255) ∨ 3 < act.toNat ∨ dec2i h1 h0 ≤ dec2i l1 l0 ∨
          (dec2i h1 h0 - dec2i l1 l0) / 2 < (dec2 y1 y0 : Int) ∨ per.toNat = 0 ∨ 15 < per.toNat ∨
          ∃ ch ∈ scopeBytes s.toNat, dec2i l1 l0 < (channelRange ch).1 ∨ (channelRange ch).2 < dec2i l1 l0 ∨
            dec2i h1 h0 < (channelRange ch).1 ∨ (channelRange ch).2 < dec2i h1 h0 := by
        unfold monitorIll
        simp [numberOf_one, dec2i_eq, dec2_eq]
      rw [hill]
      unfold valueOf monitorOf
      dsimp only
      cases hs : scopeOf s with
      | none => exact ⟨fun _ => rfl, fun hgood => absurd (.inl ((scopeOf_none_iff s).mp hs)) hgood⟩
      | some sc =>
        cases ha : actionOf act with
        | none => exact ⟨fun _ => rfl, fun hgood => absurd (.inr (.inl ((actionOf_none_iff act).mp ha))) hgood⟩
        | some action =>
          have hs' : ¬ (24 < s.toNat ∧ s.toNat ≠ 255) := fun hbad => by
            rw [(scopeOf_none_iff s).mpr hbad] at hs
            exact nomatch hs
          have ha' : ¬ 3 < act.toNat := fun hbad => by
            rw [(actionOf_none_iff act).mpr hbad] at ha
            exact nomatch ha
          have hok := monitorOk_iff hs (dec2i l1 l0) (dec2i h1 h0) (dec2 y1 y0) per.toNat action
          dsimp only
          refine ⟨fun hbad => if_neg fun hgood => ?_, fun hgood => ⟨_, if_pos (hok.mpr ?_), ?_⟩⟩
          · obtain ⟨hall, hlt, hhyst, hpers, hpers'⟩ := hok.mp hgood
            obtain hbad | hbad | hbad | hbad | hbad | hbad | ⟨ch, hch, hbad⟩ := hbad
            · exact hs' hbad
            · exact ha' hbad
            · omega
            · omega
            · omega
            · omega
            · have := hall ch hch
              omega
          · simp only [not_or, not_exists, not_and] at hgood
            obtain ⟨-, -, hlt, hhyst, hpers, hpers', hall⟩ := hgood
            refine ⟨fun ch hch => ?_, by omega, by omega, by omega, by omega⟩
            have := hall ch hch
            omega
          · exact ⟨scopeByte_scopeOf hs, dec2i_eq l1 l0, dec2i_eq h1 h0, dec2_eq y1 y0, rfl, actionByte_actionOf ha⟩
  · refine ⟨fun _ => ?_, fun hgood => absurd (.inl hlength) hgood⟩
    unfold valueOf
    rw [monitorOf_of_not_length hlength]

/-! ### The tests of a write -/

/-- A write whose bytes spell a value that the store takes. -/
def valueTaken (it : ConfigItem) (bytes : List Byte) (c : ConfigStore) (v : ConfigValue) : Prop :=
  valueOf it bytes = some v ∧ combinationOk it v c = true

/-- A write whose bytes spell no value, or one against R198. -/
def valueRefused (it : ConfigItem) (bytes : List Byte) (c : ConfigStore) : Prop :=
  valueOf it bytes = none ∨ ∃ v, valueOf it bytes = some v ∧ combinationOk it v c = false

/-- The value of an item's form that the bytes spell (R196). -/
def valueSpells (it : ConfigItem) (bytes : List Byte) (v : ConfigValue) : Prop :=
  match it with
  | .num _ => v = .num (numberOf bytes)
  | .axleShares => v = .shares ⟨numberOf (bytes.take 2), numberOf ((bytes.drop 2).take 2), numberOf (bytes.drop 4)⟩
  | .overrideCode => False
  | .eventGroup => ∃ l, v = .channels l ∧ l.map (byteOf ·.val) = bytes.drop 1
  | .routineList => ∃ l, v = .channels l ∧ l.map (byteOf ·.val) = bytes.drop 1
  | .monitor _ => ∃ c, v = .monitor c ∧ monitorSpelled bytes c
  | .enables _ => v = .events (BitVec.ofNat 16 (numberOf bytes % 32768))
  | .resetMask => v = .lines (BitVec.ofNat 3 (numberOf bytes))

/-- What the tests make of a write: refused when the bytes are ill, else taken with the value that they spell. -/
def valueTested (it : ConfigItem) (bytes : List Byte) (c : ConfigStore) : Prop :=
  (valueIll it bytes c → valueRefused it bytes c) ∧
  (¬ valueIll it bytes c → ∃ v, valueTaken it bytes c v ∧ valueSpells it bytes v)

variable {it : ConfigItem} {c : ConfigStore} {v : ConfigValue}

/-- The tests of an item whose one value for the bytes is known: its length and range, and the combination. -/
theorem valueTested_of_value {formed combined : Prop} [Decidable formed]
    (hvalue : valueOf it bytes = if formed then some v else none)
    (hcombination : combinationOk it v c = true ↔ combined)
    (hill : valueIll it bytes c ↔ ¬ formed ∨ ¬ combined) (hspells : valueSpells it bytes v) :
    valueTested it bytes c := by
  unfold valueTested valueRefused valueTaken
  rw [hill, hvalue]
  by_cases hformed : formed
  · rw [if_pos hformed]
    refine ⟨fun hbad => .inr ⟨v, rfl, ?_⟩, fun hgood => ⟨v, ⟨rfl, ?_⟩, hspells⟩⟩
    · exact Bool.eq_false_iff.mpr fun h => hbad.elim (· hformed) (· (hcombination.mp h))
    · exact hcombination.mpr (not_not.mp (not_or.mp hgood).2)
  · rw [if_neg hformed]
    exact ⟨fun _ => .inl rfl, fun hgood => absurd (.inl hformed) hgood⟩

/-- The tests of an item that no combination concerns. -/
theorem valueTested_of_form (hill : valueIll it bytes c → valueOf it bytes = none)
    (hgood : ¬ valueIll it bytes c → ∃ v, valueOf it bytes = some v ∧ valueSpells it bytes v)
    (hcombination : ∀ v, combinationOk it v c = true) : valueTested it bytes c :=
  ⟨fun hbad => .inl (hill hbad), fun hok =>
    let ⟨v, hv, hspells⟩ := hgood hok
    ⟨v, ⟨hv, hcombination v⟩, hspells⟩⟩

theorem socOk_iff (c : ConfigStore) : socOk c = true ↔ ¬ (c.num .socHigh < c.num .socLow + 50 ∨
    c.num .socStart ≤ c.num .socFloor ∨ c.num .socStop ≤ c.num .socStart) := by
  unfold socOk
  simp only [Bool.and_eq_true, decide_eq_true_eq]
  omega

theorem inSocWindow_iff (i : NumItem) : inSocWindow i = true ↔
    i ∈ [NumItem.socLow, .socHigh, .socStart, .socStop, .socFloor] := by
  cases i <;> decide

/-- One of the five SoC items takes a value that breaks a condition of R198. -/
def socBroken (i : NumItem) (d : ConfigStore) : Prop :=
  i ∈ [NumItem.socLow, .socHigh, .socStart, .socStop, .socFloor] ∧
    (d.num .socHigh < d.num .socLow + 50 ∨ d.num .socStart ≤ d.num .socFloor ∨ d.num .socStop ≤ d.num .socStart)

theorem combinationOk_num (i : NumItem) (n : Nat) :
    combinationOk (.num i) (.num n) c = true ↔ ¬ socBroken i (c.setNum i n) := by
  unfold socBroken
  rw [← inSocWindow_iff, not_and, ← socOk_iff, combinationOk, Bool.or_eq_true, Bool.not_eq_true', or_iff_not_imp_left,
    Bool.not_eq_false]

theorem valueIll_num_iff (i : NumItem) : valueIll (.num i) bytes c ↔
    ¬ (bytes.length = numLength i ∧ i.row.low ≤ numberOf bytes ∧ numberOf bytes ≤ i.row.high) ∨
    ¬ ¬ socBroken i (c.setNum i (numberOf bytes)) := by
  rw [not_not, not_and_or, not_and_or, Nat.not_le, Nat.not_le, or_assoc, or_assoc]
  exact Iff.rfl

theorem valueTested_num (i : NumItem) : valueTested (.num i) bytes c :=
  valueTested_of_value (valueOf_num' i bytes) (combinationOk_num i _) (valueIll_num_iff i) rfl

theorem valueTested_axleShares : valueTested .axleShares bytes c :=
  valueTested_of_value (combined := _ = 1000) (valueOf_axleShares bytes) decide_eq_true_iff Iff.rfl rfl

theorem valueTested_enables (other : Port) : valueTested (.enables other) bytes c := by
  refine valueTested_of_value (valueOf_enables other bytes) (decide_eq_true_iff.trans (mask_within_iff _ _)) ?_ rfl
  simp [valueIll]

theorem valueTested_resetMask : valueTested .resetMask bytes c := by
  refine valueTested_of_value (valueOf_resetMask bytes) (resetMaskOk_iff _) ?_ rfl
  rw [not_not]
  exact Iff.rfl

/-- The tests of every item but the override code, whose lock is judged first. -/
theorem valueTested_of_item (hit : it ≠ .overrideCode) (h : 1 ≤ bytes.length) (c : ConfigStore) :
    valueTested it bytes c := by
  cases it with
  | num i => exact valueTested_num i
  | axleShares => exact valueTested_axleShares
  | overrideCode => exact absurd rfl hit
  | eventGroup =>
    obtain ⟨hill, hgood⟩ := valueOf_eventGroup h
    exact valueTested_of_form hill (fun hok => (hgood hok).elim fun l ⟨hl, hmap⟩ => ⟨_, hl, l, rfl, hmap⟩) fun _ => rfl
  | routineList =>
    obtain ⟨hill, hgood⟩ := valueOf_routineList h
    exact valueTested_of_form hill (fun hok => (hgood hok).elim fun l ⟨hl, hmap⟩ => ⟨_, hl, l, rfl, hmap⟩) fun _ => rfl
  | monitor k =>
    obtain ⟨hill, hgood⟩ := valueOf_monitor k bytes
    exact valueTested_of_form hill (fun hok => (hgood hok).elim fun m ⟨hm, hspelled⟩ => ⟨_, hm, m, rfl, hspelled⟩)
      fun _ => rfl
  | enables other => exact valueTested_enables other
  | resetMask => exact valueTested_resetMask

theorem writeValue_of_refused {p : Part} (h : valueRefused it bytes p.cfg) : writeValue it bytes p = refuse .range p := by
  unfold writeValue
  obtain hnone | ⟨v, hv, hbad⟩ := h
  · rw [hnone]
  · rw [hv]
    exact if_pos (by simp [hbad])

theorem writeValue_of_taken {p : Part} (h : valueTaken it bytes p.cfg v) : writeValue it bytes p =
    if it.standing && !standing p then refuse .notStanding p else accept (applyWrite it v p) := by
  unfold writeValue
  rw [h.1]
  exact if_neg (by simp [h.2])

theorem configWrite_of_unknown {port : Port} {number : BitVec 16} (h : configItemOf number.toNat = none) (p : Part) :
    configWrite port number bytes p = refuse .unknownItem p := by
  rw [configWrite, h]

theorem configWrite_of_notPermitted {port : Port} {number : BitVec 16} (h : configItemOf number.toNat = some it)
    (howner : port ≠ it.owner) (hservice : port ≠ .sv) (p : Part) :
    configWrite port number bytes p = refuse .notPermitted p := by
  rw [configWrite, h]
  exact if_pos (by simp [howner, hservice])

theorem configWrite_of_permitted {port : Port} {number : BitVec 16} (h : configItemOf number.toNat = some it)
    (howner : port = it.owner ∨ port = .sv) (p : Part) : configWrite port number bytes p =
    if it = .overrideCode then writeOverrideCode bytes p else writeValue it bytes p := by
  rw [configWrite, h]
  refine if_neg ?_
  obtain rfl | rfl := howner <;> simp

/-- The items are numbered 1 to 64 (R196). -/
theorem configItemOf_none_iff (n : Nat) : configItemOf n = none ↔ n = 0 ∨ 64 < n := by
  by_cases hn : n ≤ 64
  · have hnumbers : ∀ n ∈ List.range 65, configItemOf n = none ↔ n = 0 := by decide
    rw [hnumbers n (List.mem_range.mpr (by omega))]
    omega
  · obtain ⟨k, rfl⟩ : ∃ k, n = k + 65 := ⟨n - 65, by omega⟩
    exact ⟨fun _ => by omega, fun _ => rfl⟩

theorem standing_iff (p : Part) : standing p = true ↔ ¬ (5 ≤ p.image.brake.data.v ∨ p.blend.episode = true) := by
  unfold standing effV
  rw [Bool.and_eq_true, decide_eq_true_eq, not_or, Nat.not_le]
  simp [Config.standingSpeed]

theorem configLengthOk_of_le (h : 1 ≤ bytes.length) (h' : bytes.length ≤ 20) : configLengthOk bytes = true := by
  simp [configLengthOk, h, h']

theorem writeOverrideCode_of_ill {p : Part} (hopen : p.derate.locked = false)
    (hill : bytes.length ≠ 1 ∨ 7 < numberOf bytes) : writeOverrideCode bytes p = refuse .range p := by
  match bytes with
  | [v] =>
    rw [writeOverrideCode_of_open hopen]
    refine if_neg fun hv => ?_
    rw [numberOf_one] at hill
    exact hill.elim (absurd rfl) (Nat.not_lt.mpr hv)
  | [] | _ :: _ :: _ =>
    unfold writeOverrideCode
    rw [hopen]
    rfl

/-- Settles O16. -/
theorem configWriteRefusals : Obligations.ConfigWriteRefusals := by
  intro port number bytes s htaken hshort hlong
  have hlength := configLengthOk_of_le hshort hlong
  refine ⟨configItemOf_none_iff _, _, exec_of_request htaken rfl hlength rfl, fun hnone => ?_, fun it hit howner hsv => ?_,
    fun it hit howner => ?_⟩
  · exact refusedWith_replyOn (configWrite_of_unknown hnone _)
  · exact refusedWith_replyOn (configWrite_of_notPermitted hit howner hsv _)
  · have hwrite := configWrite_of_permitted hit howner s.part (bytes := bytes)
    refine ⟨fun hcode hlocked => ?_, fun hopen hill => ?_, fun hcode hgood hstanding hmoves => ?_⟩ <;>
      refine refusedWith_replyOn (hwrite.trans ?_)
    · rw [if_pos hcode, writeOverrideCode_of_locked hlocked]
    · by_cases hcode : it = .overrideCode
      · rw [if_pos hcode]
        subst hcode
        exact writeOverrideCode_of_ill (hopen.resolve_left (not_not_intro rfl)) hill
      · rw [if_neg hcode]
        exact writeValue_of_refused ((valueTested_of_item hcode hshort _).1 hill)
    · obtain ⟨v, htaken, -⟩ := (valueTested_of_item hcode hshort s.part.cfg).2 hgood
      have hmoving : standing s.part = false :=
        Bool.eq_false_iff.mpr fun h => (standing_iff s.part).mp h hmoves
      rw [if_neg hcode, writeValue_of_taken htaken]
      exact if_pos (by rw [hstanding, hmoving]; rfl)

end Sys2Proof.Machine
end

