-- ==== Sys2Proof/Proofs/ConfigWrites.lean ====
section
/-! SUPPORT. What an accepted CONFIG_WRITE stores and does (R35, R43, R74, R109, R126, R147, R156, R203), item by
item. -/

set_option Elab.async false

namespace Sys2Proof.Machine

variable {p q : Part} {port : Port} {number : BitVec 16} {bytes : List Byte} {it : ConfigItem} {v : ConfigValue}

/-! ### An accepted write -/

theorem configWrite_of_taken (hit : configItemOf number.toNat = some it) (hcode : it ≠ .overrideCode)
    (howner : port = it.owner ∨ port = .sv) (hstanding : it.standing = true → standing p = true)
    (htaken : valueTaken it bytes p.cfg v) : configWrite port number bytes p = accept (applyWrite it v p) := by
  rw [configWrite_of_permitted hit howner, if_neg hcode, writeValue_of_taken htaken]
  refine if_neg fun h => ?_
  obtain ⟨hmust, hmoving⟩ := Bool.and_eq_true_iff.mp h
  rw [hstanding hmust] at hmoving
  exact absurd hmoving (by decide)

/-- The part after an accepted write: the write applied, and the answer queued. -/
def writeAnswered (port : Port) (it : ConfigItem) (v : ConfigValue) (p : Part) : Part :=
  queueOn port (.reply .configWrite .accepted none) (applyWrite it v p)

theorem exec_configWrite_taken {s : State} (hrequest : takesRequest port s.part)
    (hit : configItemOf number.toNat = some it) (hcode : it ≠ .overrideCode) (howner : port = it.owner ∨ port = .sv)
    (hshort : 1 ≤ bytes.length) (hlong : bytes.length ≤ 20) (hstanding : it.standing = true → standing s.part = true)
    (htaken : valueTaken it bytes s.part.cfg v) :
    exec (.configWrite port number bytes) s = .next ⟨s.pending, writeAnswered port it v s.part⟩ := by
  rw [exec_of_request hrequest rfl (configLengthOk_of_le hshort hlong) rfl,
    replyOn_accept (configWrite_of_taken hit hcode howner hstanding htaken), writeAnswered]

theorem writeAnswered_replied : replied port .configWrite .accepted none p (writeAnswered port it v p) := by
  have h := replied_accept (a := accept (applyWrite it v p)) (port := port) (kind := .configWrite) rfl
    (tx_of_gains (applyWrite_gains it v p))
  rwa [replyOn_accept rfl] at h

/-- The answer changes the ports alone. -/
theorem writeAnswered_frame {blocks all : List Block} (h : changesOnly blocks p (applyWrite it v p))
    (hall : ∀ b ∈ blocks, b ∈ all := by decide) (hports : .ports ∈ all := by decide) :
    changesOnly all p (writeAnswered port it v p) :=
  h.trans (queueOn_frame ..) hall fun _ hb => List.mem_singleton.mp hb ▸ hports

/-! ### The bytes of a number -/

/-- A number's value in the bytes of its item (R194, R196). -/
def numEncoded (i : NumItem) (n : Nat) : List Byte :=
  if i.row.high ≤ 255 then [BitVec.ofNat 8 n] else bytes2 (BitVec.ofNat 16 n)

theorem NumItem.high_le (i : NumItem) : i.row.high ≤ 65535 := by
  cases i <;> decide

theorem numberOf_bytes2 (w : BitVec 16) : numberOf (bytes2 w) = w.toNat := by
  have hw := w.isLt
  rw [bytes2, numberOf_two, hiByte, loByte, BitVec.extractLsb'_toNat, BitVec.extractLsb'_toNat, Nat.shiftRight_eq_div_pow,
    Nat.shiftRight_eq_div_pow]
  omega

theorem length_numEncoded (i : NumItem) (n : Nat) : (numEncoded i n).length = numLength i := by
  unfold numEncoded numLength
  split <;> rfl

theorem numberOf_numEncoded {i : NumItem} {n : Nat} (h : n ≤ i.row.high) : numberOf (numEncoded i n) = n := by
  unfold numEncoded
  split
  · rw [numberOf_one, BitVec.toNat_ofNat]
    omega
  · have hhigh := i.high_le
    rw [numberOf_bytes2, BitVec.toNat_ofNat]
    omega

theorem numLength_within (i : NumItem) : 1 ≤ numLength i ∧ numLength i ≤ 20 := by
  unfold numLength
  split <;> omega

theorem valueTaken_num {i : NumItem} {n : Nat} {c : ConfigStore} (hlow : i.row.low ≤ n) (hhigh : n ≤ i.row.high)
    (hsoc : inSocWindow i = true → socOk (c.setNum i n) = true) :
    valueTaken (.num i) (numEncoded i n) c (.num n) := by
  refine ⟨?_, ?_⟩
  · rw [valueOf_num', numberOf_numEncoded hhigh, length_numEncoded]
    exact if_pos ⟨rfl, hlow, hhigh⟩
  · rw [combinationOk, Bool.or_eq_true, Bool.not_eq_true', or_iff_not_imp_left, Bool.not_eq_false]
    exact hsoc

theorem exec_configWrite_num {s : State} {i : NumItem} {n : Nat} (hrequest : takesRequest port s.part)
    (hit : configItemOf number.toNat = some (.num i)) (howner : port = i.row.owner ∨ port = .sv)
    (hlow : i.row.low ≤ n) (hhigh : n ≤ i.row.high)
    (hsoc : inSocWindow i = true → socOk (s.part.cfg.setNum i n) = true)
    (hstanding : i.row.standing = true → standing s.part = true) :
    exec (.configWrite port number (numEncoded i n)) s =
      .next ⟨s.pending, writeAnswered port (.num i) (.num n) s.part⟩ := by
  obtain ⟨hshort, hlong⟩ := numLength_within i
  rw [← length_numEncoded i n] at hshort hlong
  exact exec_configWrite_taken hrequest hit (fun h => nomatch h) howner hshort hlong hstanding
    (valueTaken_num hlow hhigh hsoc)

theorem numApplied_frame (i : NumItem) (n : Nat) (p : Part) :
    changesOnly (.cfg :: writeBlocks) p (applyWrite (.num i) (.num n) p) :=
  (setCfg_frame p _).trans (numWritten_frame ..)

theorem numApplied_cfg (i : NumItem) (n : Nat) (p : Part) :
    (writeAnswered port (.num i) (.num n) p).cfg = p.cfg.setNum i n :=
  ((numWritten_frame i _).trans (n := writeBlocks) (queueOn_frame ..)).same .cfg (by decide)

/-! ### A monitor rewritten -/

theorem rejudged_false_iff (old new : MonitorCfg) : rejudged old new = false ↔ { old with action := new.action } = new := by
  obtain ⟨_, _, _, _, _, _⟩ := old
  obtain ⟨_, _, _, _, _, _⟩ := new
  simp [rejudged, and_assoc]

section
variable {k : MonitorNo} {new : MonitorCfg}

/-- The part with a monitor's configuration stored. -/
def monitorStored (k : MonitorNo) (new : MonitorCfg) (p : Part) : Part :=
  p.setCfg { p.cfg with monitors := p.cfg.monitors.set k new }

theorem thermalSetBecomes_of_stored {set : BitVec 8} (h : thermalSetBecomes set (monitorStored k new p) q) :
    thermalSetBecomes set p q := h

theorem thermalSetWithout_stored : thermalSetWithout k (monitorStored k new p) = thermalSetWithout k p := rfl

/-- A monitor that is judged afresh is inside, with its trip handed back. -/
theorem reconfigureMonitor_of_rejudged (h : rejudged p.cfg.monitors[k] new = true) : reconfigureMonitor k new p =
    if p.scan.monitors[k].state = .tripped then handReturn k p.cfg.monitors[k].action
      ((monitorStored k new p).setMonitor k { p.scan.monitors[k] with state := .inside, count := 0 })
    else (monitorStored k new p).setMonitor k { p.scan.monitors[k] with state := .inside, count := 0 } := if_pos h

/-- A monitor whose action alone is written keeps its state. -/
theorem reconfigureMonitor_of_action (h : rejudged p.cfg.monitors[k] new = false) : reconfigureMonitor k new p =
    if p.scan.monitors[k].state = .tripped && p.cfg.monitors[k].action ≠ new.action then
      if new.action = .thermalOverride then joinThermal k (monitorStored k new p)
      else if p.cfg.monitors[k].action = .thermalOverride then leaveThermal k (monitorStored k new p)
      else monitorStored k new p
    else monitorStored k new p := if_neg (Bool.eq_false_iff.mp h)

theorem monitorRewritten_of_rejudged (h : ¬ { p.cfg.monitors[k] with action := new.action } = new) :
    monitorRewritten k new p (reconfigureMonitor k new p) := by
  have hrejudged : rejudged p.cfg.monitors[k] new = true := by
    rw [← Bool.not_eq_false, rejudged_false_iff]
    exact h
  have hafter : ¬ (p.scan.monitors[k].state = .tripped ∧ new.action = .thermalOverride ∧ _) := fun hafter => h hafter.2.2
  unfold monitorRewritten
  rw [reconfigureMonitor_of_rejudged hrejudged]
  refine ⟨fun haction => absurd haction h, fun _ => ?_, fun hbefore => ?_, fun hboth => absurd hboth.2 hafter,
    fun hsame => ?_⟩
  · split
    · exact (handReturn_frame ..).same .scan (by decide)
    · rfl
  · obtain ⟨⟨htripped, haction⟩, -⟩ := hbefore
    rw [if_pos htripped, haction]
    rw [← thermalSetWithout_stored (new := new)]
    exact thermalSetBecomes_of_stored (thermalSetBecomes_handReturn k _ _)
  · split
    · next htripped =>
      have haction : p.cfg.monitors[k].action ≠ .thermalOverride := fun haction =>
        hafter (hsame.mp ⟨htripped, haction⟩)
      rw [handReturn_of_ne_thermalOverride haction]
      rfl
    · rfl

theorem monitorRewritten_of_action (h : { p.cfg.monitors[k] with action := new.action } = new) :
    monitorRewritten k new p (reconfigureMonitor k new p) := by
  unfold monitorRewritten
  rw [reconfigureMonitor_of_action ((rejudged_false_iff _ _).mpr h)]
  refine ⟨fun _ => ?_, fun hnot => absurd h hnot, fun hleft => ?_, fun hjoined => ?_, fun hsame => ?_⟩
  · repeat' split
    · exact (joinThermal_frame ..).same .scan (by decide)
    · exact (leaveThermal_frame ..).same .scan (by decide)
    · rfl
    · rfl
  · obtain ⟨⟨htripped, hold⟩, hafter⟩ := hleft
    have hnew : ¬ new.action = .thermalOverride := fun hnew => hafter ⟨htripped, hnew, h⟩
    have hchanged : p.cfg.monitors[k].action ≠ new.action := fun heq => hnew (heq.symm.trans hold)
    rw [if_pos (Bool.and_eq_true_iff.mpr ⟨decide_eq_true htripped, decide_eq_true hchanged⟩),
      if_neg hnew, if_pos hold]
    exact thermalSetBecomes_of_stored (thermalSetBecomes_setThermalSet _ _)
  · obtain ⟨hbefore, htripped, hnew, -⟩ := hjoined
    have hold : ¬ p.cfg.monitors[k].action = .thermalOverride := fun hold => hbefore ⟨htripped, hold⟩
    have hchanged : p.cfg.monitors[k].action ≠ new.action := fun heq => hold (heq.trans hnew)
    rw [if_pos (Bool.and_eq_true_iff.mpr ⟨decide_eq_true htripped, decide_eq_true hchanged⟩),
      if_pos hnew]
    exact thermalSetBecomes_of_stored (thermalSetBecomes_setThermalSet _ _)
  · split
    · next hchanged =>
      obtain ⟨htripped, hne⟩ : p.scan.monitors[k].state = .tripped ∧ p.cfg.monitors[k].action ≠ new.action := by
        simpa using hchanged
      have hneither : ¬ new.action = .thermalOverride ∧ ¬ p.cfg.monitors[k].action = .thermalOverride := by
        refine ⟨fun hnew => ?_, fun hold => ?_⟩
        · exact hne ((hsame.mpr ⟨htripped, hnew, h⟩).2.trans hnew.symm)
        · exact hne (hold.trans (hsame.mp ⟨htripped, hold⟩).2.1.symm)
      rw [if_neg hneither.1, if_neg hneither.2]
      rfl
    · rfl

theorem monitorRewritten_reconfigureMonitor (k : MonitorNo) (new : MonitorCfg) (p : Part) :
    monitorRewritten k new p (reconfigureMonitor k new p) := by
  by_cases h : { p.cfg.monitors[k] with action := new.action } = new
  · exact monitorRewritten_of_action h
  · exact monitorRewritten_of_rejudged h

theorem thermalSetBecomes_queueOn {set : BitVec 8} {f : OutFrame} (h : thermalSetBecomes set p q) :
    thermalSetBecomes set p (queueOn port f q) := by
  obtain ⟨hderate, hrise, hempty, hsame, hreformed⟩ := h
  exact ⟨hderate, hrise, hempty, hsame, factorsReformed_queueOn hreformed⟩

theorem monitorRewritten_queueOn {f : OutFrame} (h : monitorRewritten k new p q) :
    monitorRewritten k new p (queueOn port f q) := by
  obtain ⟨haction, hrejudged, hleft, hjoined, hsame⟩ := h
  exact ⟨haction, hrejudged, fun hif => thermalSetBecomes_queueOn (hleft hif),
    fun hif => thermalSetBecomes_queueOn (hjoined hif), hsame⟩

theorem reconfigureMonitor_cfg (k : MonitorNo) (new : MonitorCfg) (p : Part) :
    (reconfigureMonitor k new p).cfg = { p.cfg with monitors := p.cfg.monitors.set k new } :=
  (reconfigureMonitor_frame_stored k new p).same .cfg (by decide)

end

/-! ### The routine list and the reset mask -/

section
variable {l : List Channel} {kind : RunKind}

/-- The part with a new routine list stored, no run and the position at 0. -/
def listReplaced (l : List Channel) (p : Part) : Part :=
  (p.setCfg { p.cfg with routineList := l }).setScan { p.scan with run := none, position := 0 }

theorem replaceRoutineList_of_elsewhere (h : p.scan.mode ≠ .routineRun) : replaceRoutineList l p = listReplaced l p := by
  unfold replaceRoutineList
  dsimp only
  split
  · next hrun => exact absurd hrun h
  all_goals rfl

theorem replaceRoutineList_of_run (h : p.scan.mode = .routineRun) :
    replaceRoutineList l p = takePending (listReplaced l p) := by
  rw [replaceRoutineList, h]
  rfl

theorem replaceRoutineList_cfg (l : List Channel) (p : Part) :
    (replaceRoutineList l p).cfg = { p.cfg with routineList := l } := by
  by_cases h : p.scan.mode = .routineRun
  · rw [replaceRoutineList_of_run h]
    exact (takePending_frame _).same .cfg (by decide)
  · rw [replaceRoutineList_of_elsewhere h]
    rfl

theorem replaceRoutineList_scan_of_none (h : p.scan.mode = .routineRun) (hpending : p.scan.pending = none) :
    (replaceRoutineList l p).scan = { p.scan with mode := .idle, run := none, position := 0 } := by
  rw [replaceRoutineList_of_run h, takePending_of_none (p := listReplaced l p) hpending]
  rfl

theorem replaceRoutineList_scan_of_some (h : p.scan.mode = .routineRun) (hpending : p.scan.pending = some kind) :
    (replaceRoutineList l p).scan = { p.scan with
      mode := .routineRun
      pending := none
      position := 0
      run := some ⟨if kind = .ordinary then p.cfg.num .runLength else l.length, kind⟩ } := by
  rw [replaceRoutineList_of_run h, takePending_scan (p := listReplaced l p) hpending]
  rfl

end

theorem resetMaskWritten_watch (m : BitVec 3) (p : Part) : (resetMaskWritten m p).watch =
    { p.watch with state := if m ≠ 0#3 ∧ p.lines.bits &&& m ≠ m then .armed else .disarmed } := by
  have hwatch : (resetMaskWritten m p).watch =
    watchNext m (p.lines.bits &&& m = m) p.time.now { p.watch with state := .disarmed } := rfl
  rw [hwatch]
  unfold watchNext
  by_cases harmed : m ≠ 0#3 ∧ p.lines.bits &&& m ≠ m <;> simp [harmed]

/-! ### The store after a write -/

theorem writeAnswered_cfg : (writeAnswered port it v p).cfg = (applyWrite it v p).cfg :=
  (queueOn_frame ..).same .cfg (by decide)

theorem writeAnswered_scan : (writeAnswered port it v p).scan = (applyWrite it v p).scan :=
  (queueOn_frame ..).same .scan (by decide)

theorem writeAnswered_watch : (writeAnswered port it v p).watch = (applyWrite it v p).watch :=
  (queueOn_frame ..).same .watch (by decide)

/-- A write of an item of another form than a number reaches no block but the store, the watch, the derate unit, the
scanner and the ports. -/
theorem formApplied_frame (hnum : ∀ i, it ≠ .num i) (v : ConfigValue) (p : Part) :
    changesOnly [.cfg, .watch, .derate, .scan, .ports] p (applyWrite it v p) := by
  unfold applyWrite
  split
  · next i n => exact absurd rfl (hnum i)
  · exact (setCfg_frame p _).mono
  · exact (setCfg_frame p _).mono
  · exact (replaceRoutineList_frame ..).mono
  · exact (reconfigureMonitor_frame ..).mono
  · exact (setCfg_frame p _).mono
  · exact (resetMaskWritten_frame ..).mono
  · exact .refl _ p

theorem monitors_set_get (c : ConfigStore) (k : MonitorNo) (m : MonitorCfg) : (c.monitors.set k m)[k] = m :=
  Vector.getElem_set_self ..

/-- Settles O14. -/
theorem configWriteStores : Obligations.ConfigWriteStores := by
  intro port number s hrequest
  refine ⟨fun i n hit howner hlow hhigh hsoc hstanding => ?_, fun it bytes hit hnum hcode howner hshort hlong hgood
    hstanding => ?_⟩
  · have hcfg := numApplied_cfg (port := port) i n s.part
    refine ⟨_, exec_configWrite_num hrequest hit howner hlow hhigh hsoc hstanding, ?_, fun j hj => ?_, ?_, ?_, ?_, ?_, ?_,
      ?_, writeAnswered_replied, writeAnswered_frame (numApplied_frame i n s.part)⟩ <;> dsimp only <;> rw [hcfg]
    · exact num_setNum_self
    · exact num_setNum_other hj
    all_goals rfl
  · obtain ⟨v, htaken, hspells⟩ := (valueTested_of_item hcode hshort s.part.cfg).2 hgood
    refine ⟨_, exec_configWrite_taken hrequest hit hcode howner hshort hlong hstanding htaken, fun hform => ?axle,
      fun hform => ?event, fun hform => ?routine, fun k hform => ?monitor, fun other hform => ?enables,
      fun hform => ?mask, writeAnswered_replied, writeAnswered_frame (formApplied_frame hnum v s.part)⟩ <;>
      subst hform <;> unfold valueSpells at hspells <;> dsimp only at hspells ⊢
    case axle =>
      subst hspells
      exact ⟨writeAnswered_cfg, writeAnswered_frame (setCfg_frame ..)⟩
    case event =>
      obtain ⟨l, rfl, hl⟩ := hspells
      exact ⟨writeAnswered_cfg, hl, writeAnswered_frame (setCfg_frame ..)⟩
    case routine =>
      obtain ⟨l, rfl, hl⟩ := hspells
      rw [writeAnswered_scan, writeAnswered_cfg]
      have hcfg : (applyWrite .routineList (.channels l) s.part).cfg = _ := replaceRoutineList_cfg l s.part
      refine ⟨?_, ?_, fun hmode => ?_, fun hmode hpending => ?_, fun kind hmode hpending => ?_,
        writeAnswered_frame (replaceRoutineList_frame ..)⟩
      · rw [hcfg]
      · rw [hcfg]
        exact hl
      · exact congrArg Part.scan (replaceRoutineList_of_elsewhere hmode)
      · exact replaceRoutineList_scan_of_none hmode hpending
      · rw [← length_of_spelled hl]
        exact replaceRoutineList_scan_of_some hmode hpending
    case monitor =>
      obtain ⟨c, rfl, hscope, hlow, hhigh, hhyst, hpers, haction⟩ := hspells
      have hcfg : (writeAnswered port (.monitor k) (.monitor c) s.part).cfg =
          { s.part.cfg with monitors := s.part.cfg.monitors.set k c } :=
        writeAnswered_cfg.trans (reconfigureMonitor_cfg k c s.part)
      have hc : (writeAnswered port (.monitor k) (.monitor c) s.part).cfg.monitors[k] = c := by
        rw [hcfg]
        exact monitors_set_get _ k c
      rw [hc]
      exact ⟨hcfg, hscope, hlow, hhigh, hhyst, hpers, haction,
        monitorRewritten_queueOn (monitorRewritten_reconfigureMonitor k c s.part),
        writeAnswered_frame (reconfigureMonitor_frame ..)⟩
    case enables =>
      subst hspells
      exact ⟨writeAnswered_cfg, writeAnswered_frame (setCfg_frame ..)⟩
    case mask =>
      subst hspells
      exact ⟨writeAnswered_cfg, writeAnswered_watch.trans (resetMaskWritten_watch ..),
        writeAnswered_frame (resetMaskWritten_frame ..)⟩

end Sys2Proof.Machine
end

