-- ==== Sys2Proof/Proofs/ConfigActions.lean ====
section
/-! SUPPORT. What the write of a number does in the block that reads the item (R35, R43, R74, R109, R126, R147). -/

set_option Elab.async false

namespace Sys2Proof.Machine

variable {p q : Part} {port : Port} {partner : Partner} {i : NumItem} {n : Nat}

/-! ### A freshness limit -/

/-- The freshness that a partner is given by the limit in force (R35). -/
def judgedFreshness (partner : Partner) (p : Part) : Freshness :=
  if p.fresh partner = .fresh ∧ p.limitOf partner ≤ p.silence partner then
    (if 4 * p.limitOf partner ≤ p.silence partner then .lost else .stale)
  else if p.fresh partner = .stale ∧ 4 * p.limitOf partner ≤ p.silence partner then .lost
  else p.fresh partner

theorem staleDue_iff : staleDue partner p = true ↔ p.fresh partner = .fresh ∧ p.limitOf partner ≤ p.silence partner := by
  rw [staleDue, Bool.and_eq_true, decide_eq_true_eq, decide_eq_true_eq]

theorem lostDue_iff : lostDue partner p = true ↔
    p.fresh partner = .stale ∧ 4 * p.limitOf partner ≤ p.silence partner := by
  rw [lostDue, Bool.and_eq_true, decide_eq_true_eq, decide_eq_true_eq]

theorem becomeStale_fresh (partner : Partner) (p : Part) : (becomeStale partner p).fresh partner = .stale := by
  rw [Part.fresh, becomeStale_image, freshness_setFreshness, if_pos rfl]

theorem becomeStale_limit (partner : Partner) (p : Part) : (becomeStale partner p).limitOf partner = p.limitOf partner := by
  rw [Part.limitOf, (becomeStale_frame partner p).same .cfg (by decide)]
  rfl

theorem becomeStale_silence (partner : Partner) (p : Part) :
    (becomeStale partner p).silence partner = p.silence partner := by
  have htime := (becomeStale_frame partner p).same .time (by decide)
  rw [Part.silence, Part.since, Part.now, htime, becomeStale_image, stampOf_setFreshness]
  rfl

/-- The four outcomes of a judgement by a new limit: the partner stays, falls STALE, falls LOST, or falls STALE and
LOST at once. -/
theorem freshnessLimitWritten_cases (partner : Partner) (p : Part) :
    (judgedFreshness partner p = p.fresh partner ∧ freshnessLimitWritten partner p = p) ∨
    (judgedFreshness partner p = .stale ∧ freshnessLimitWritten partner p = becomeStale partner p) ∨
    (judgedFreshness partner p = .lost ∧ freshnessLimitWritten partner p = becomeLost partner p) ∨
    (judgedFreshness partner p = .lost ∧
      freshnessLimitWritten partner p = becomeLost partner (becomeStale partner p)) := by
  unfold freshnessLimitWritten judgedFreshness
  dsimp only
  by_cases hstale : p.fresh partner = .fresh ∧ p.limitOf partner ≤ p.silence partner
  · rw [if_pos hstale, if_pos (staleDue_iff.mpr hstale)]
    have hdue : lostDue partner (becomeStale partner p) = true ↔ 4 * p.limitOf partner ≤ p.silence partner := by
      rw [lostDue_iff, becomeStale_fresh, becomeStale_limit, becomeStale_silence]
      exact and_iff_right rfl
    by_cases hlost : 4 * p.limitOf partner ≤ p.silence partner
    · rw [if_pos hlost, if_pos (hdue.mpr hlost)]
      exact .inr (.inr (.inr ⟨rfl, rfl⟩))
    · rw [if_neg hlost, if_neg (mt hdue.mp hlost)]
      exact .inr (.inl ⟨rfl, rfl⟩)
  · rw [if_neg hstale, if_neg (mt staleDue_iff.mp hstale)]
    by_cases hlost : p.fresh partner = .stale ∧ 4 * p.limitOf partner ≤ p.silence partner
    · rw [if_pos hlost, if_pos (lostDue_iff.mpr hlost)]
      exact .inr (.inr (.inl ⟨rfl, rfl⟩))
    · rw [if_neg hlost, if_neg (mt lostDue_iff.mp hlost)]
      exact .inl ⟨rfl, rfl⟩

theorem setFreshness_self (im : Image) (partner : Partner) : im.setFreshness partner (im.freshness partner) = im := by
  cases partner <;> rfl

theorem setFreshness_again (im : Image) (partner : Partner) (f g : Freshness) :
    (im.setFreshness partner f).setFreshness partner g = im.setFreshness partner g := by
  cases partner <;> rfl

theorem freshnessLimitWritten_image (partner : Partner) (p : Part) :
    (freshnessLimitWritten partner p).image = p.image.setFreshness partner (judgedFreshness partner p) := by
  obtain ⟨hnext, hpart⟩ | ⟨hnext, hpart⟩ | ⟨hnext, hpart⟩ | ⟨hnext, hpart⟩ := freshnessLimitWritten_cases partner p <;>
    rw [hnext, hpart]
  · exact (setFreshness_self p.image partner).symm
  · exact becomeStale_image ..
  · exact becomeLost_image ..
  · rw [becomeLost_image, becomeStale_image, setFreshness_again]

/-- What the silence of the drive partner does: no TRACTION, and no hold. -/
def driveSilenced (p q : Part) : Prop :=
  q.auth.flags.traction = false ∧ q.hold.state = .drive ∧ (∀ e ∈ q.auth.stack, e.source ≠ .traction) ∧
    (p.hold.state ≠ .drive → hasEvent .holdChange .pd q)

theorem driveSilent_gains (p : Part) : portsOnlyGainEvents p (driveSilent p) :=
  (evalSource_gains ..).trans (breakHold_gains _)

theorem driveSilenced_driveSilent (h : p.fresh .drive ≠ .fresh) : driveSilenced p (driveSilent p) := by
  refine ⟨driveSilent_traction h, driveSilent_hold p, fun e he => ?_, fun hhold => ?_⟩
  · rw [(driveSilent_released h).1] at he
    have hkept := (List.mem_filter.mp he).2
    intro htraction
    simp [htraction] at hkept
  · have hstate : (evalSource .traction p).hold.state ≠ .drive := by
      rwa [(evalSource_frame .traction p).same .hold (by decide)]
    rw [driveSilent, breakHold_of_hold hstate]
    exact hasEvent_changeHold rfl

theorem driveSilenced_written (h : judgedFreshness .drive p ≠ p.fresh .drive) :
    driveSilenced p (freshnessLimitWritten .drive p) := by
  have hsilent (f : Freshness) (hf : f ≠ .fresh) (p : Part) : driveSilenced p (driveSilent (setFreshness .drive f p)) :=
    driveSilenced_driveSilent (p := setFreshness .drive f p) hf
  obtain ⟨hnext, -⟩ | ⟨-, hpart⟩ | ⟨-, hpart⟩ | ⟨-, hpart⟩ := freshnessLimitWritten_cases .drive p
  · exact absurd hnext h
  · rw [hpart]
    exact hsilent .stale (by decide) p
  · rw [hpart]
    exact hsilent .lost (by decide) p
  · rw [hpart]
    obtain ⟨-, -, -, hevent⟩ := hsilent .stale (by decide) p
    obtain ⟨htraction, hstate, hnone, -⟩ := hsilent .lost (by decide) (becomeStale .drive p)
    refine ⟨htraction, hstate, hnone, fun hhold => (hevent hhold).of_gains ?_⟩
    exact (portsOnlyGainEvents.of_frame (setFreshness_frame ..)).trans (driveSilent_gains _)

/-- What the silence of the brake partner does: LIMP exactly when it is LOST, which also drops SLIP and BLEND. -/
theorem brakeSilenced_written (h : judgedFreshness .brake p ≠ p.fresh .brake) :
    changesOnly [.image, .auth, .ports] p (freshnessLimitWritten .brake p) ∧
    (freshnessLimitWritten .brake p).auth.flags.limp = decide (judgedFreshness .brake p = .lost) ∧
    (judgedFreshness .brake p = .lost → (freshnessLimitWritten .brake p).auth.flags.slip = false ∧
      (freshnessLimitWritten .brake p).auth.flags.blend = false) := by
  have hlost (p : Part) : changesOnly [.image, .auth, .ports] p (becomeLost .brake p) ∧
      (becomeLost .brake p).auth.flags.limp = true ∧ (becomeLost .brake p).auth.flags.slip = false ∧
      (becomeLost .brake p).auth.flags.blend = false :=
    ⟨becomeLost_brake_frame p, becomeLost_brake_flag .limp p, becomeLost_brake_flag .slip p,
      becomeLost_brake_flag .blend p⟩
  obtain ⟨hnext, -⟩ | ⟨hnext, hpart⟩ | ⟨hnext, hpart⟩ | ⟨hnext, hpart⟩ := freshnessLimitWritten_cases .brake p
  · exact absurd hnext h
  · rw [hnext, hpart]
    exact ⟨becomeStale_brake_frame p, evalEach_flag [.slip, .blend, .limp] .limp (setFreshness .brake .stale p),
      fun hbad => (nomatch hbad)⟩
  · obtain ⟨hframe, hlimp, hothers⟩ := hlost p
    rw [hnext, hpart]
    exact ⟨hframe, hlimp, fun _ => hothers⟩
  · obtain ⟨hframe, hlimp, hothers⟩ := hlost (becomeStale .brake p)
    rw [hnext, hpart]
    exact ⟨(becomeStale_brake_frame p).seq hframe, hlimp, fun _ => hothers⟩

/-- What the loss of the generator partner does to the link (R38, R122). -/
def generatorFailed (p q : Part) : Prop :=
  (p.gen.link = .failed ∨ p.gen.link = .lockedOut → q.gen = p.gen) ∧
  (p.gen.link ≠ .failed → p.gen.link ≠ .lockedOut → p.gen.failures ≠ 3 →
    q.gen = { p.gen with
      link := .failed
      timer := some ⟨.retryDelay, p.time.now, p.cfg.num .retryDelay⟩ } ∧
    hasEvent .gensetFault .pg q)

theorem generatorFailed_generatorLost (p : Part) : generatorFailed p (generatorLost p) := by
  refine ⟨fun h => by rw [generatorLost_of_failed h], fun hfailed hlocked hcount => ?_⟩
  rw [generatorLost_of_other hfailed hlocked]
  refine ⟨?_, hasEvent_enterFailed rfl⟩
  have hsame : failuresAfter false p = p.gen.failures := rfl
  rw [enterFailed_gen, hsame, if_neg hcount]

theorem generatorFailed_becomeLost (p : Part) : generatorFailed p (becomeLost .generator p) :=
  generatorFailed_generatorLost (setFreshness .generator .lost p)

theorem becomeStale_generator (p : Part) : becomeStale .generator p = setFreshness .generator .stale p := rfl

theorem generatorSilenced_written (p : Part) :
    (judgedFreshness .generator p = .stale → (freshnessLimitWritten .generator p).gen = p.gen) ∧
    (judgedFreshness .generator p ≠ p.fresh .generator → judgedFreshness .generator p = .lost →
      generatorFailed p (freshnessLimitWritten .generator p)) := by
  obtain ⟨hnext, hpart⟩ | ⟨hnext, hpart⟩ | ⟨hnext, hpart⟩ | ⟨hnext, hpart⟩ :=
    freshnessLimitWritten_cases .generator p <;> rw [hnext, hpart]
  · exact ⟨fun _ => rfl, fun h => absurd rfl h⟩
  · exact ⟨fun _ => rfl, fun _ h => (nomatch h)⟩
  · exact ⟨fun h => (nomatch h), fun _ _ => generatorFailed_becomeLost p⟩
  · exact ⟨fun h => (nomatch h), fun _ _ => generatorFailed_becomeLost (setFreshness .generator .stale p)⟩

theorem freshnessLimitWritten_of_kept (h : judgedFreshness partner p = p.fresh partner) :
    freshnessLimitWritten partner p = p := by
  have hstale : ¬ staleDue partner p = true := fun hdue => by
    obtain ⟨hfresh, hlimit⟩ := staleDue_iff.mp hdue
    rw [judgedFreshness, if_pos ⟨hfresh, hlimit⟩, hfresh] at h
    split at h <;> exact nomatch h
  have hlost : ¬ lostDue partner p = true := fun hdue => by
    obtain ⟨hwas, hlimit⟩ := lostDue_iff.mp hdue
    rw [judgedFreshness, if_neg (mt staleDue_iff.mpr hstale), if_pos ⟨hwas, hlimit⟩, hwas] at h
    exact nomatch h
  unfold freshnessLimitWritten
  dsimp only
  rw [if_neg hstale, if_neg hlost]

theorem freshnessLimitWritten_kept (h : judgedFreshness partner p = p.fresh partner ∨ partner = .storage) :
    changesOnly [.image] p (freshnessLimitWritten partner p) := by
  by_cases hstorage : partner = .storage
  · subst hstorage
    obtain ⟨-, hpart⟩ | ⟨-, hpart⟩ | ⟨-, hpart⟩ | ⟨-, hpart⟩ := freshnessLimitWritten_cases .storage p <;> rw [hpart]
    · exact .refl _ p
    · exact setFreshness_frame ..
    · exact setFreshness_frame ..
    · exact (setFreshness_frame .storage .stale p).trans (setFreshness_frame .storage .lost _)
  · rw [freshnessLimitWritten_of_kept (h.resolve_right hstorage)]
    exact .refl _ p

/-! ### The hold timers -/

/-- What a promotion does (R103). -/
def promoted (p q : Part) : Prop :=
  q.hold = ⟨.layover, p.time.now, p.hold.rule, p.hold.latch, false, true⟩ ∧ hasEvent .holdChange .pd q

/-- What the end of a layover does outside a quiet zone (R104, R106). -/
def layoverEnded (p q : Part) : Prop :=
  q.hold = ⟨.holdRun, p.time.now, none, false, false, false⟩ ∧ hasEvent .holdChange .pd q ∧
  (p.gen.link = .off → q.gen.link = .startSent ∧ q.gen.startRequest = false) ∧
  (p.gen.link ≠ .off → q.gen.link = p.gen.link) ∧
  (p.gen.link = .stopSent → q.gen.startRequest = true)

theorem promoted_promote (p : Part) : promoted p (promote p) := by
  refine ⟨?_, hasEvent_changeHold rfl⟩
  rw [promote, changeHold_hold]
  simp

theorem layoverEnded_holdRunWithStart (p : Part) : layoverEnded p (holdRunWithStart p) :=
  ⟨holdRunWithStart_hold p, hasEvent_holdRunWithStart rfl, holdRunWithStart_link p⟩

theorem promotionDue_iff : promotionDue p = true ↔
    p.hold.promotion = true ∧ 1000 * p.cfg.num .layoverAfter ≤ (p.time.now - p.hold.entered).toNat := by
  rw [promotionDue, Bool.and_eq_true, promotionElapsed, decide_eq_true_eq]
  exact Iff.rfl

theorem layoverDue_iff : layoverDue p = true ↔
    p.hold.layover = true ∧ 1000 * p.cfg.num .layoverMax ≤ (p.time.now - p.hold.entered).toNat := by
  rw [layoverDue, Bool.and_eq_true, layoverElapsed_iff]

theorem expireHoldTimers_of_promotion (h : promotionDue p = true) : expireHoldTimers p = promote p := if_pos h

theorem expireHoldTimers_of_layover (h : ¬ promotionDue p = true) (hdue : layoverDue p = true) :
    expireHoldTimers p = if p.image.drive.data.quietZone then p.setHold { p.hold with layover := false }
      else holdRunWithStart p := (if_neg h).trans (if_pos hdue)

theorem expireHoldTimers_of_neither (h : ¬ promotionDue p = true) (hdue : ¬ layoverDue p = true) :
    expireHoldTimers p = p := (if_neg h).trans (if_neg hdue)

/-! ### The part after the write of a number -/

/-- The part with a number stored. -/
def numStored (i : NumItem) (n : Nat) (p : Part) : Part := p.setCfg (p.cfg.setNum i n)

theorem numStored_num (i j : NumItem) (n : Nat) (p : Part) :
    (numStored i n p).cfg.num j = if i = j then n else p.cfg.num j := by
  by_cases h : i = j
  · subst h
    rw [if_pos rfl]
    exact num_setNum_self
  · rw [if_neg h]
    exact num_setNum_other (Ne.symm h)

/-- The part after an accepted write of a number and its answer. -/
def numAnswered (port : Port) (i : NumItem) (n : Nat) (p : Part) : Part :=
  queueOn port (.reply .configWrite .accepted none) (numWritten i (numStored i n p))

theorem writeAnswered_num : writeAnswered port (.num i) (.num n) p = numAnswered port i n p := rfl

section
variable (port p)

theorem numAnswered_image : (numAnswered port i n p).image = (numWritten i (numStored i n p)).image :=
  (queueOn_frame ..).same .image (by decide)

theorem numAnswered_auth : (numAnswered port i n p).auth = (numWritten i (numStored i n p)).auth :=
  (queueOn_frame ..).same .auth (by decide)

theorem numAnswered_hold : (numAnswered port i n p).hold = (numWritten i (numStored i n p)).hold :=
  (queueOn_frame ..).same .hold (by decide)

theorem numAnswered_gen : (numAnswered port i n p).gen = (numWritten i (numStored i n p)).gen :=
  (queueOn_frame ..).same .gen (by decide)

theorem numAnswered_derate : (numAnswered port i n p).derate = (numWritten i (numStored i n p)).derate :=
  (queueOn_frame ..).same .derate (by decide)

theorem numAnswered_scan : (numAnswered port i n p).scan = (numWritten i (numStored i n p)).scan :=
  (queueOn_frame ..).same .scan (by decide)

end

theorem hasEvent_numAnswered {e : Event} {other : Port} (h : hasEvent e other (numWritten i (numStored i n p))) :
    hasEvent e other (numAnswered port i n p) := hasEvent_queueOn.mpr h

theorem numAnswered_frame {blocks all : List Block} (h : changesOnly blocks (numStored i n p)
    (numWritten i (numStored i n p))) (hblocks : ∀ b ∈ blocks, b ∈ all := by decide) (hcfg : .cfg ∈ all := by decide)
    (hports : .ports ∈ all := by decide) : changesOnly all p (numAnswered port i n p) :=
  ((setCfg_frame p _).trans h (fun _ hb => List.mem_singleton.mp hb ▸ hcfg) hblocks).trans (queueOn_frame ..)
    (fun _ hb => hb) fun _ hb => List.mem_singleton.mp hb ▸ hports

/-! ### The items that act at their write -/

theorem numWritten_freshItem (partner : Partner) (p : Part) :
    numWritten (freshItem partner) p = freshnessLimitWritten partner p := by
  cases partner <;> rfl

theorem judgedFreshness_numStored (partner : Partner) (n : Nat) (p : Part) :
    judgedFreshness partner (numStored (freshItem partner) n p) =
      if p.fresh partner = .fresh ∧ n ≤ p.silence partner then (if 4 * n ≤ p.silence partner then .lost else .stale)
      else if p.fresh partner = .stale ∧ 4 * n ≤ p.silence partner then .lost else p.fresh partner := by
  have hlimit : (numStored (freshItem partner) n p).limitOf partner = n := num_setNum_self
  rw [judgedFreshness, hlimit]
  rfl

theorem expireHoldTimers_written (p : Part) :
    (promotionDue p = true → promoted p (expireHoldTimers p)) ∧
    (¬ promotionDue p = true → layoverDue p = true → p.image.drive.data.quietZone = true →
      expireHoldTimers p = p.setHold { p.hold with layover := false }) ∧
    (¬ promotionDue p = true → layoverDue p = true → p.image.drive.data.quietZone = false →
      layoverEnded p (expireHoldTimers p)) ∧
    (¬ promotionDue p = true → ¬ layoverDue p = true → expireHoldTimers p = p) := by
  refine ⟨fun h => ?_, fun h hdue hzone => ?_, fun h hdue hzone => ?_, expireHoldTimers_of_neither⟩
  · rw [expireHoldTimers_of_promotion h]
    exact promoted_promote p
  · rw [expireHoldTimers_of_layover h hdue, if_pos hzone]
  · rw [expireHoldTimers_of_layover h hdue, if_neg (by simp [hzone])]
    exact layoverEnded_holdRunWithStart p

/-- The part with the promotion timer set as the deep_promotion item stands (R109). -/
def promotionSet (p : Part) : Part :=
  p.setHold { p.hold with promotion := p.hold.state = .holdQuiet && p.cfg.on .deepPromotion }

theorem deepPromotionWritten_of_due (h : promotionDue (promotionSet p) = true) :
    promoted p (deepPromotionWritten p) := (expireHoldTimers_written (promotionSet p)).1 h

theorem deepPromotionWritten_of_not_due (h : ¬ promotionDue (promotionSet p) = true) (hdue : ¬ layoverDue p = true) :
    deepPromotionWritten p = promotionSet p :=
  expireHoldTimers_of_neither (p := promotionSet p) h hdue

theorem evalSource_blend_not_requested (h : requested .blend p = false) :
    (evalSource .blend p).auth = ⟨{ p.auth.flags with blend := false }, p.auth.stack.filter (·.source ≠ .blend)⟩ ∧
    (∀ e, p.auth.stack.head? = some e → e.source = .blend → hasEvent .authorityChange .pd (evalSource .blend p)) := by
  obtain ⟨hstack, htop, -⟩ := evalSource_released .blend p
  rw [h] at hstack htop
  refine ⟨?_, fun e he hsource => htop e he (by simp [hsource])⟩
  rw [evalSource_of_not_requested h]
  exact (setEventIf_frame ..).same .auth (by decide)

/-- The items that another block reads at their write. -/
def actsAtWrite (i : NumItem) : Prop :=
  (∃ partner, i = freshItem partner) ∨ i ∈ [NumItem.vMinRegen, .layoverAfter, .layoverMax, .deepPromotion,
    .economyEnable, .economyCode, .routinePeriod]

theorem numWritten_of_stored (h : ¬ actsAtWrite i) (p : Part) : numWritten i p = p := by
  obtain ⟨hfresh, hlist⟩ := not_or.mp h
  cases i with
  | freshDrive => exact absurd ⟨.drive, rfl⟩ hfresh
  | freshStorage => exact absurd ⟨.storage, rfl⟩ hfresh
  | freshGenerator => exact absurd ⟨.generator, rfl⟩ hfresh
  | freshBrake => exact absurd ⟨.brake, rfl⟩ hfresh
  | vMinRegen | layoverAfter | layoverMax | deepPromotion | economyEnable | economyCode | routinePeriod =>
    exact absurd (by decide) hlist
  | _ => rfl

/-- Settles O15, item by item. -/
theorem configWriteActs : Obligations.ConfigWriteActs := by
  unfold Obligations.ConfigWriteActs
  intro port number i v s hrequest hit howner hlow hhigh hsoc hstanding p held promotes overdue
  have hafter : promotes ↔ p.hold.promotion = true ∧ 1000 * (numStored i v p).cfg.num .layoverAfter ≤ held := by
    rw [numStored_num]
  have hmax : overdue ↔ layoverDue (numStored i v p) = true := by
    rw [layoverDue_iff, numStored_num]
    exact Iff.rfl
  refine ⟨_, exec_configWrite_num hrequest hit howner hlow hhigh hsoc hstanding, ?_⟩
  rw [writeAnswered_num]
  refine ⟨?fresh, ?regen, ?layover, ?deep, ?economy, ?period, ?stored⟩
  case fresh =>
    rintro partner rfl silence before next
    have hnext : judgedFreshness partner (numStored (freshItem partner) v p) = next :=
      judgedFreshness_numStored partner v p
    have hwritten := numWritten_freshItem partner (numStored (freshItem partner) v p)
    rw [numAnswered_image, numAnswered_auth, numAnswered_hold, numAnswered_gen, hwritten]
    refine ⟨?_, fun hkept => ?_, fun hmoved hdrive => ?_, fun hmoved hbrake => ?_, fun hstale hgenerator => ?_,
      fun hmoved hlost hgenerator => ?_⟩
    · rw [freshnessLimitWritten_image, hnext]
      rfl
    · refine numAnswered_frame (blocks := [.image]) ?_
      rw [hwritten]
      exact freshnessLimitWritten_kept (by rw [hnext]; exact hkept)
    · subst hdrive
      obtain ⟨htraction, hstate, hnone, hevent⟩ :=
        driveSilenced_written (p := numStored (freshItem .drive) v p) (by rw [hnext]; exact hmoved)
      refine ⟨htraction, hstate, hnone, fun hhold => hasEvent_numAnswered ?_⟩
      rw [hwritten]
      exact hevent hhold
    · subst hbrake
      obtain ⟨hframe, hlimp, hothers⟩ :=
        brakeSilenced_written (p := numStored (freshItem .brake) v p) (by rw [hnext]; exact hmoved)
      rw [hnext] at hlimp hothers
      refine ⟨numAnswered_frame (blocks := [.image, .auth, .ports]) ?_, hlimp, hothers⟩
      rw [hwritten]
      exact hframe
    · subst hgenerator
      exact (generatorSilenced_written _).1 (hnext.trans hstale)
    · subst hgenerator
      obtain ⟨hstays, hfails⟩ := (generatorSilenced_written (numStored (freshItem .generator) v p)).2
        (by rw [hnext]; exact hmoved) (hnext.trans hlost)
      refine ⟨hstays, fun hfailed hlocked hcount => ?_⟩
      obtain ⟨hgen, hevent⟩ := hfails hfailed hlocked hcount
      refine ⟨hgen.trans ?_, hasEvent_numAnswered ?_⟩
      · rw [numStored_num, if_neg (by decide)]
        rfl
      · rw [hwritten]
        exact hevent
  case regen =>
    rintro rfl allowed
    have hallowed : requested .blend (numStored .vMinRegen v p) = true ↔ allowed := by
      rw [requested_blend_iff, numStored_num, if_pos rfl]
      exact Iff.rfl
    rw [numAnswered_auth]
    refine ⟨fun hyes => ?_, fun hno => ?_, numAnswered_frame (evalSource_frame .blend _)⟩
    · exact congrArg Part.auth (evalSource_of_requested (hallowed.mpr hyes))
    · obtain ⟨hauth, hevent⟩ := evalSource_blend_not_requested (Bool.eq_false_iff.mpr (mt hallowed.mp hno))
      exact ⟨hauth, fun e he hsource => hasEvent_numAnswered (hevent e he hsource)⟩
  case layover =>
    intro hi
    have hwritten : numWritten i (numStored i v p) = expireHoldTimers (numStored i v p) := by
      obtain rfl | rfl := hi <;> rfl
    have hdue : promotes ↔ promotionDue (numStored i v p) = true := by
      rw [promotionDue_iff]
      exact hafter
    obtain ⟨hpromoted, hzoned, hended, hneither⟩ := expireHoldTimers_written (numStored i v p)
    rw [numAnswered_hold, numAnswered_gen, hwritten]
    refine ⟨fun hyes => ?_, fun hno hover hzone => ?_, fun hno hover hzone => ?_, fun hno hnotover => ?_⟩
    · obtain ⟨hhold, hevent⟩ := hpromoted (hdue.mp hyes)
      exact ⟨hhold, hasEvent_numAnswered (by rw [hwritten]; exact hevent)⟩
    · have hcleared := hzoned (mt hdue.mpr hno) (hmax.mp hover) hzone
      refine ⟨congrArg Part.hold hcleared, numAnswered_frame (blocks := [.hold]) ?_⟩
      rw [hwritten, hcleared]
      exact setHold_frame ..
    · obtain ⟨hhold, hevent, hlink⟩ := hended (mt hdue.mpr hno) (hmax.mp hover) hzone
      exact ⟨hhold, hasEvent_numAnswered (by rw [hwritten]; exact hevent), hlink⟩
    · refine numAnswered_frame (blocks := []) ?_
      rw [hwritten, hneither (mt hdue.mpr hno) (mt hmax.mpr hnotover)]
      exact .refl _ _
  case deep =>
    rintro rfl hnotover
    have hwritten : numWritten .deepPromotion (numStored .deepPromotion v p) =
      deepPromotionWritten (numStored .deepPromotion v p) := rfl
    have hon : (numStored .deepPromotion v p).cfg.on .deepPromotion = decide (v ≠ 0) := by
      rw [ConfigStore.on, numStored_num, if_pos rfl]
    have htimer : (promotionSet (numStored .deepPromotion v p)).hold.promotion =
      (p.hold.state = .holdQuiet && decide (v ≠ 0)) := by rw [← hon]; rfl
    have hafter : (numStored .deepPromotion v p).cfg.num .layoverAfter = p.cfg.num .layoverAfter := by
      rw [numStored_num, if_neg (by decide)]
    have hdue : promotionDue (promotionSet (numStored .deepPromotion v p)) = true ↔
        (p.hold.state = .holdQuiet ∧ v ≠ 0) ∧ 1000 * p.cfg.num .layoverAfter ≤ held := by
      rw [promotionDue_iff, htimer, ← hafter]
      simp only [Bool.and_eq_true, decide_eq_true_eq]
      exact Iff.rfl
    have hset (h : ¬ promotionDue (promotionSet (numStored .deepPromotion v p)) = true) :
        (numAnswered port .deepPromotion v p).hold =
          { p.hold with promotion := (p.hold.state = .holdQuiet && decide (v ≠ 0)) } ∧
        changesOnly [.cfg, .hold, .ports] p (numAnswered port .deepPromotion v p) := by
      have hkept := deepPromotionWritten_of_not_due h (mt hmax.mpr hnotover)
      refine ⟨?_, numAnswered_frame (blocks := [.hold]) ?_⟩
      · rw [numAnswered_hold, hwritten, hkept, ← htimer]
        rfl
      · rw [hwritten, hkept]
        exact setHold_frame ..
    refine ⟨fun hoff => ?_, fun h1 hquiet helapsed => ?_, fun h1 hquiet hnotyet => ?_⟩
    · have hfalse : (p.hold.state = .holdQuiet && decide (v ≠ 0)) = false := by
        obtain h | h := hoff <;> simp [h]
      obtain ⟨hhold, hframe⟩ := hset fun h => by
        obtain ⟨⟨hquiet, hne⟩, -⟩ := hdue.mp h
        exact hoff.elim hne (· hquiet)
      rw [hfalse] at hhold
      exact ⟨hhold, hframe⟩
    · obtain ⟨hhold, hevent⟩ := deepPromotionWritten_of_due (hdue.mpr ⟨⟨hquiet, by omega⟩, helapsed⟩)
      rw [numAnswered_hold]
      exact ⟨hhold, hasEvent_numAnswered hevent⟩
    · have htrue : (p.hold.state = .holdQuiet && decide (v ≠ 0)) = true := by simp [hquiet, h1]
      obtain ⟨hhold, hframe⟩ := hset fun h => absurd (hdue.mp h).2 (Nat.not_le.mpr hnotyet)
      rw [htrue] at hhold
      exact ⟨hhold, hframe⟩
  case economy =>
    intro hi
    have hwritten : numWritten i (numStored i v p) = reformFactors (numStored i v p) := by
      obtain rfl | rfl := hi <;> rfl
    have hreformed : factorsReformed p (reformFactors (numStored i v p)) := factorsReformed_reformFactors rfl rfl
    refine ⟨?_, ?_, numAnswered_frame (blocks := [.derate, .ports]) ?_⟩
    · rw [← hwritten] at hreformed
      exact factorsReformed_queueOn hreformed
    · rw [numAnswered_derate, hwritten, reformFactors_derate]
      rfl
    · rw [hwritten]
      exact reformFactors_frame _
  case period =>
    rintro rfl
    exact ⟨numAnswered_scan .., numAnswered_frame (setScan_frame ..)⟩
  case stored =>
    intro hfresh hlist
    refine numAnswered_frame (blocks := []) ?_
    rw [numWritten_of_stored (not_or.mpr ⟨not_exists.mpr hfresh, hlist⟩)]
    exact .refl _ _

end Sys2Proof.Machine
end

