-- ==== Sys2Proof/Proofs/FrameLayer.lean ====
section
/-! SUPPORT. The frame layer: the six checks of R180 one by one, the frame that spells a command and its way back
through the checks and the payload layouts (R179, R181, R194). -/

set_option Elab.async false

namespace Sys2Proof.Machine

variable {line : Line} {bytes payload : List Byte} {k : Kind}

/-! ### Kinds -/

theorem kindOfByte_code (k : Kind) : kindOfByte k.code = some k := by
  cases k <;> rfl

theorem code_of_kindOfByte {b : Byte} (h : kindOfByte b = some k) : k.code = b := by
  unfold kindOfByte at h
  apply BitVec.eq_of_toNat_eq
  split at h <;> simp at h <;> subst h <;> simp [Kind.code, *]

theorem kindOfByte_of_none {b : Byte} (h : ∀ k : Kind, k.code ≠ b) : kindOfByte b = none := by
  cases hk : kindOfByte b with
  | none => rfl
  | some k => exact absurd (code_of_kindOfByte hk) (h k)

/-! ### The six checks -/

/-- A frame passes the length check: the receiver's 28 bytes, and the length byte (R178, R180). -/
abbrev lengthPasses (bytes : List Byte) : Prop :=
  4 ≤ bytes.length ∧ bytes.length ≤ 28 ∧ bytes.length = (bytes.getD 1 0#8).toNat + 4

/-- A frame's last two bytes are the CRC of the bytes before them (R179). -/
abbrev crcPasses (bytes : List Byte) : Prop :=
  bytes.drop (bytes.length - 2) = bytes2 (crc (bytes.take (bytes.length - 2)))

/-- What the check of permission makes of a kind on a line (R181). -/
def permissionVerdict (k : Kind) (line : Line) : FrameVerdict :=
  if k.takenOn line then .taken k
  else match line with
    | .port _ => if k.isRequest then .notPermitted k else .discarded .permission
    | .link _ => .discarded .permission

/-- What the checks of kind, length and permission make of a frame that passes the first three (R180). -/
def kindVerdict (line : Line) (bytes : List Byte) : FrameVerdict :=
  match kindOfByte (bytes.getD 0 0#8) with
  | none => .discarded .kind
  | some k => if !k.lengthOk (bytes.getD 1 0#8).toNat then .discarded .length else permissionVerdict k line

theorem checkFrame_eq (line : Line) (framing : Bool) (bytes : List Byte) : checkFrame line framing bytes =
    if framing then .discarded .framing
    else if ¬ lengthPasses bytes then .discarded .length
    else if ¬ crcPasses bytes then .discarded .crc
    else kindVerdict line bytes := by
  have hlength : (bytes.length < 4 || Config.maxFrameBytes < bytes.length ||
      bytes.length ≠ (bytes.getD 1 0#8).toNat + 4) = true ↔ ¬ lengthPasses bytes := by
    unfold lengthPasses
    simp only [Bool.or_eq_true, decide_eq_true_eq]
    unfold Config.maxFrameBytes
    omega
  have hkind : (match kindOfByte (bytes.getD 0 0#8) with
      | none => .discarded .kind
      | some k =>
        if !k.lengthOk (bytes.getD 1 0#8).toNat then .discarded .length
        else if k.takenOn line then .taken k
        else match line with
          | .port _ => if k.isRequest then .notPermitted k else .discarded .permission
          | .link _ => .discarded .permission) = kindVerdict line bytes := rfl
  exact if_congr Iff.rfl rfl (if_congr hlength rfl (if_congr Iff.rfl rfl hkind))

theorem checkFrame_of_framing : checkFrame line true bytes = .discarded .framing := by
  rw [checkFrame_eq, if_pos rfl]

theorem checkFrame_of_length (h : ¬ lengthPasses bytes) : checkFrame line false bytes = .discarded .length := by
  rw [checkFrame_eq, if_neg Bool.false_ne_true, if_pos h]

theorem checkFrame_of_crc (h : lengthPasses bytes) (hcrc : ¬ crcPasses bytes) :
    checkFrame line false bytes = .discarded .crc := by
  rw [checkFrame_eq, if_neg Bool.false_ne_true, if_neg (not_not_intro h), if_pos hcrc]

theorem checkFrame_of_passes (h : lengthPasses bytes) (hcrc : crcPasses bytes) :
    checkFrame line false bytes = kindVerdict line bytes := by
  rw [checkFrame_eq, if_neg Bool.false_ne_true, if_neg (not_not_intro h), if_neg (not_not_intro hcrc)]

theorem kindVerdict_of_none (h : ∀ k : Kind, k.code ≠ bytes.getD 0 0#8) :
    kindVerdict line bytes = .discarded .kind := by
  rw [kindVerdict, kindOfByte_of_none h]

theorem kindVerdict_of_kind (h : k.code = bytes.getD 0 0#8) : kindVerdict line bytes =
    if !k.lengthOk (bytes.getD 1 0#8).toNat then .discarded .length else permissionVerdict k line := by
  rw [kindVerdict, ← h, kindOfByte_code]

theorem permissionVerdict_of_taken (h : k.takenOn line = true) : permissionVerdict k line = .taken k := if_pos h

theorem permissionVerdict_of_request {port : Port} (h : k.takenOn (.port port) = false) (hrequest : k.isRequest = true) :
    permissionVerdict k (.port port) = .notPermitted k := by
  unfold permissionVerdict
  rw [if_neg (Bool.eq_false_iff.mp h)]
  exact if_pos hrequest

theorem permissionVerdict_of_other (h : k.takenOn line = false)
    (hother : (∃ motor, line = .link motor) ∨ k.isRequest = false) :
    permissionVerdict k line = .discarded .permission := by
  unfold permissionVerdict
  rw [if_neg (Bool.eq_false_iff.mp h)]
  obtain ⟨motor, rfl⟩ | hrequest := hother
  · rfl
  · cases line with
    | port port => exact if_neg (Bool.eq_false_iff.mp hrequest)
    | link motor => rfl

theorem takenOn_link {motor : Motor} (h : k.takenOn (.link motor) = true) : k = .invStatus := by
  cases k <;> first | rfl | exact nomatch h

theorem takenOn_of_permissionVerdict {j : Kind} (h : permissionVerdict j line = .taken k) : k.takenOn line = true := by
  unfold permissionVerdict at h
  by_cases htaken : j.takenOn line = true
  · rw [if_pos htaken] at h
    obtain rfl := FrameVerdict.taken.inj h
    exact htaken
  · rw [if_neg htaken] at h
    cases line with
    | port port => cases hrequest : j.isRequest <;> simp [hrequest] at h
    | link motor => exact nomatch h

theorem takenOn_of_taken {framing : Bool} (h : checkFrame line framing bytes = .taken k) : k.takenOn line = true := by
  rw [checkFrame_eq] at h
  split_ifs at h
  unfold kindVerdict at h
  split at h
  · exact nomatch h
  · split_ifs at h
    exact takenOn_of_permissionVerdict h

/-- What a discarded frame does: on a port its cause is recorded, on a motor link nothing happens. -/
theorem frameJudged_of_discarded {framing : Bool} {cause : FrameCause}
    (h : checkFrame line framing bytes = .discarded cause) (p : Part) : frameJudged line framing bytes p =
      match line with
      | .port port => portFrameError port cause p
      | .link _ => p := by
  unfold frameJudged
  rw [h]
  cases line <;> rfl

/-- Settles O5, check by check. -/
theorem badFrameIsRecorded : Obligations.BadFrameIsRecorded := by
  unfold Obligations.BadFrameIsRecorded
  intro line framing bytes s hrun n lengthByte verdict
  refine ⟨?framing, ?checks, ?link, ?discarded⟩
  case framing =>
    rintro rfl
    exact checkFrame_of_framing
  case checks =>
    rintro rfl
    refine ⟨fun hlength => checkFrame_of_length fun h => ?_, fun hlow hhigh heq => ?_⟩
    · obtain ⟨hlow, hhigh, heq⟩ := h
      exact hlength.elim (Nat.not_lt.mpr hlow) (Or.rec (Nat.not_lt.mpr hhigh) (absurd heq))
    · have hpasses : lengthPasses bytes := ⟨hlow, hhigh, heq⟩
      refine ⟨checkFrame_of_crc hpasses, fun hcrc => ?_⟩
      have hverdict : verdict = kindVerdict line bytes := checkFrame_of_passes hpasses hcrc
      rw [hverdict]
      refine ⟨kindVerdict_of_none, fun k hk => ?_⟩
      rw [kindVerdict_of_kind hk]
      refine ⟨fun hbad => if_pos (by rw [hbad]; rfl), fun hok => ?_⟩
      rw [if_neg (by rw [hok]; decide)]
      refine ⟨permissionVerdict_of_taken, fun hnot hport hrequest => ?_, permissionVerdict_of_other⟩
      obtain ⟨port, rfl⟩ := hport
      exact permissionVerdict_of_request hnot hrequest
  case link =>
    rintro k motor rfl htaken
    exact takenOn_link (takenOn_of_taken htaken)
  case discarded =>
    intro cause hcause
    have hexec := exec_of_whenRunning (i := .frameError line framing bytes) hrun rfl
    rw [frameJudged_of_discarded hcause] at hexec
    refine ⟨?_, ?_⟩
    · rintro motor rfl
      exact hexec
    · rintro port rfl
      exact ⟨_, hexec, portFrameError_recorded port cause s.part⟩

/-! ### The frame of a command -/

theorem beWord_bytes (w : BitVec 16) : beWord (hiByte w) (loByte w) = w := by
  apply BitVec.eq_of_toNat_eq
  rw [← dec2, dec2_eq, ← bytes2, numberOf_bytes2]

theorem stepPairs_stepBytes (steps : List (Byte × Byte)) : stepPairs (stepBytes steps) = steps := by
  induction steps with
  | nil => rfl
  | cons b rest ih =>
    obtain ⟨x, y⟩ := b
    rw [stepBytes, stepPairs, ih]

theorem length_stepBytes (steps : List (Byte × Byte)) : (stepBytes steps).length = 2 * steps.length := by
  induction steps with
  | nil => rfl
  | cons b rest ih =>
    obtain ⟨x, y⟩ := b
    simp only [stepBytes, List.length_cons, ih]
    omega

theorem length_frameOf (b : Byte) (payload : List Byte) : (frameOf b payload).length = payload.length + 4 := by
  simp [frameOf, bytes2]

/-- The bytes of a frame before its CRC. -/
def frameBody (b : Byte) (payload : List Byte) : List Byte := b :: BitVec.ofNat 8 payload.length :: payload

theorem take_frameOf (b : Byte) (payload : List Byte) :
    (frameOf b payload).take ((frameOf b payload).length - 2) = frameBody b payload := by
  rw [length_frameOf]
  exact List.take_left' (by simp)

theorem drop_frameOf (b : Byte) (payload : List Byte) :
    (frameOf b payload).drop ((frameOf b payload).length - 2) = bytes2 (crc (frameBody b payload)) := by
  rw [length_frameOf]
  exact List.drop_left' (by simp)

theorem framePayload_frameOf (b : Byte) (payload : List Byte) : framePayload (frameOf b payload) = payload := by
  rw [framePayload, take_frameOf]
  rfl

/-- A frame made of a kind and a payload of a permitted length passes to the check of permission. -/
theorem checkFrame_frameOf (hlong : payload.length ≤ 24) (hlength : k.lengthOk payload.length = true) :
    checkFrame line false (frameOf k.code payload) = permissionVerdict k line := by
  have hbyte : ((frameOf k.code payload).getD 1 0#8).toNat = payload.length := by
    show (BitVec.ofNat 8 payload.length).toNat = payload.length
    rw [BitVec.toNat_ofNat]
    omega
  have hpasses : lengthPasses (frameOf k.code payload) := by
    rw [lengthPasses, hbyte, length_frameOf]
    omega
  have hcrc : crcPasses (frameOf k.code payload) := by
    rw [crcPasses, take_frameOf, drop_frameOf]
  rw [checkFrame_of_passes hpasses hcrc, kindVerdict_of_kind rfl, hbyte, hlength]
  rfl

/-- A frame of a kind and payload that spell a command on its line decodes to that command. -/
theorem decodeFrame_frameOf {i : Instr} (hlong : payload.length ≤ 24) (hlength : k.lengthOk payload.length = true)
    (hline : k.takenOn line = true ∨ (∃ port, line = .port port) ∧ k.isRequest = true)
    (hcommand : commandOf k line payload = some i) : decodeFrame line false (frameOf k.code payload) = some i := by
  rw [decodeFrame, checkFrame_frameOf hlong hlength, framePayload_frameOf]
  by_cases htaken : k.takenOn line = true
  · rw [permissionVerdict_of_taken htaken]
    exact hcommand
  · obtain ⟨⟨port, rfl⟩, hrequest⟩ := hline.resolve_left htaken
    rw [permissionVerdict_of_request (Bool.eq_false_iff.mpr htaken) hrequest]
    exact hcommand

theorem decodeFrame_request {port : Port} {i : Instr} (hrequest : k.isRequest = true) (hlong : payload.length ≤ 24)
    (hlength : k.lengthOk payload.length = true) (hcommand : requestOf k port payload = some i) :
    decodeFrame (.port port) false (frameOf k.code payload) = some i :=
  decodeFrame_frameOf hlong hlength (.inr ⟨⟨port, rfl⟩, hrequest⟩) (by
    rw [← hcommand]
    cases k <;> first | rfl | exact nomatch hrequest)

/-- Settles O4: the layout of each kind, taken apart and put together again. -/
theorem frameRoundTrip : Obligations.FrameRoundTrip := by
  intro i line bytes hwell hframe
  cases i with
  | driveStatus p a d f =>
    obtain ⟨rfl, rfl⟩ := Prod.mk.inj (Option.some.inj hframe)
    exact decodeFrame_frameOf (by simp [bytes2]) rfl (.inl rfl) (by simp [commandOf, bytes2, beWord_bytes])
  | storageStatus x d c f =>
    obtain ⟨rfl, rfl⟩ := Prod.mk.inj (Option.some.inj hframe)
    exact decodeFrame_frameOf (by simp [bytes2]) rfl (.inl rfl) (by simp [commandOf, bytes2, beWord_bytes])
  | genStatus r p =>
    obtain ⟨rfl, rfl⟩ := Prod.mk.inj (Option.some.inj hframe)
    exact decodeFrame_frameOf (by simp [bytes2]) rfl (.inl rfl) (by simp [commandOf, bytes2, beWord_bytes])
  | brakeStatus v m a b f =>
    obtain ⟨rfl, rfl⟩ := Prod.mk.inj (Option.some.inj hframe)
    exact decodeFrame_frameOf (by simp [bytes2]) rfl (.inl rfl) (by simp [commandOf, bytes2, beWord_bytes])
  | invStatus motor n t g f =>
    obtain ⟨rfl, rfl⟩ := Prod.mk.inj (Option.some.inj hframe)
    exact decodeFrame_frameOf (by simp [bytes2]) rfl (.inl rfl) (by simp [commandOf, bytes2, beWord_bytes])
  | read port item index part =>
    obtain ⟨rfl, rfl⟩ := Prod.mk.inj (Option.some.inj hframe)
    exact decodeFrame_request rfl (by simp [bytes2]) rfl (congrArg (fun w => some (Instr.read port item w part)) (beWord_bytes index))
  | configWrite port item value =>
    obtain ⟨rfl, rfl⟩ := Prod.mk.inj (Option.some.inj hframe)
    obtain ⟨hshort, hlong⟩ : 1 ≤ value.length ∧ value.length ≤ 20 := by
      simpa [Instr.wellFormed, configLengthOk] using hwell
    have hlength : (bytes2 item ++ value).length = value.length + 2 := by simp [bytes2]
    refine decodeFrame_request rfl (by omega) ?_ (congrArg (fun w => some (Instr.configWrite port w value)) (beWord_bytes item))
    rw [hlength]
    simp [Kind.lengthOk, hshort, hlong]
  | clearStatus port mask =>
    obtain ⟨rfl, rfl⟩ := Prod.mk.inj (Option.some.inj hframe)
    exact decodeFrame_request rfl (by simp [bytes2]) rfl (congrArg (fun w => some (Instr.clearStatus port w)) (beWord_bytes mask))
  | loadBlend port slot first steps =>
    obtain ⟨rfl, rfl⟩ := Prod.mk.inj (Option.some.inj hframe)
    obtain ⟨hshort, hlong⟩ : 1 ≤ steps.length ∧ steps.length ≤ 8 := by
      simpa [Instr.wellFormed, stepsLengthOk] using hwell
    have hlength : (slot :: first :: stepBytes steps).length = 2 * steps.length + 2 := by
      simp [length_stepBytes]
    refine decodeFrame_request rfl (by omega) ?_ (congrArg (fun l => some (Instr.loadBlend port slot first l))
      (stepPairs_stepBytes steps))
    rw [hlength]
    simp only [Kind.lengthOk, Bool.and_eq_true, decide_eq_true_eq]
    omega
  | ackWarning port item =>
    obtain ⟨rfl, rfl⟩ := Prod.mk.inj (Option.some.inj hframe)
    exact decodeFrame_request rfl (by simp) rfl rfl
  | forceDerate port value =>
    obtain ⟨rfl, rfl⟩ := Prod.mk.inj (Option.some.inj hframe)
    exact decodeFrame_request rfl (by simp) rfl rfl
  | wearWrite port item presence fields =>
    obtain ⟨rfl, rfl⟩ := Prod.mk.inj (Option.some.inj hframe)
    have hlong : fields.length ≤ 13 := by simpa [Instr.wellFormed, wearLengthOk] using hwell
    have hlength : (item :: presence :: fields).length = fields.length + 2 := rfl
    refine decodeFrame_request rfl (by omega) ?_ rfl
    rw [hlength]
    simp [Kind.lengthOk, hlong]
  | wearReset port item =>
    obtain ⟨rfl, rfl⟩ := Prod.mk.inj (Option.some.inj hframe)
    exact decodeFrame_request rfl (by simp) rfl rfl
  | calibrate port =>
    obtain ⟨rfl, rfl⟩ := Prod.mk.inj (Option.some.inj hframe)
    exact decodeFrame_request rfl (by simp) rfl rfl
  | clearLockout port =>
    obtain ⟨rfl, rfl⟩ := Prod.mk.inj (Option.some.inj hframe)
    exact decodeFrame_request rfl (by simp) rfl rfl
  | _ => exact nomatch hframe

end Sys2Proof.Machine
end

