-- ==== Sys2Proof/Proofs/ProgramLoads.lean ====
section
/-! SUPPORT. LOAD_BLEND: a program taken whole or in two parts, and a refused frame (R76 to R80). -/

set_option Elab.async false

namespace Sys2Proof.Machine

variable {p q : Part} {port : Port} {slot : SlotNo} {steps : List BlendStep} {a : Option Assembly}

theorem assemblyOf_setAssembly (hport : port = .pb ∨ port = .sv) (a : Option Assembly) (p : Part) :
    assemblyOf port (setAssembly port a p).blend = a := by
  obtain rfl | rfl := hport <;> rfl

theorem assemblyOf_setAssembly_other {other : Port} (h : other ≠ port) (a : Option Assembly) (p : Part) :
    assemblyOf other (setAssembly port a p).blend = assemblyOf other p.blend := by
  cases port <;> cases other <;> first | rfl | exact absurd rfl h

theorem setAssembly_kept (port : Port) (a : Option Assembly) (p : Part) :
    (setAssembly port a p).blend.episode = p.blend.episode ∧ (setAssembly port a p).blend.regPrev = p.blend.regPrev := by
  cases port <;> exact ⟨rfl, rfl⟩

/-- The part with a program taken into a slot and the port's assembly closed. -/
def programTaken (port : Port) (slot : SlotNo) (program : List BlendStep) (p : Part) : Part :=
  takeProgram slot program (setAssembly port none p)

theorem programTaken_slots (port : Port) (slot : SlotNo) (program : List BlendStep) (p : Part) :
    (programTaken port slot program p).slots = p.slots.set slot (loadedSlot p.blend.episode program p.slots[slot]) := by
  have hslots : (setAssembly port none p).slots = p.slots := (setAssembly_frame ..).same .slots (by decide)
  rw [programTaken, takeProgram, (setAssembly_kept port none p).1, hslots]
  rfl

theorem programTaken_blend (port : Port) (slot : SlotNo) (program : List BlendStep) (p : Part) :
    (programTaken port slot program p).blend = (setAssembly port none p).blend := rfl

theorem programTaken_frame (port : Port) (slot : SlotNo) (program : List BlendStep) (p : Part) :
    changesOnly [.slots, .blend] p (programTaken port slot program p) :=
  (setAssembly_frame ..).trans (takeProgram_frame ..)

/-! ### The parts of a load -/

theorem loadFirst_of_whole (h : endsLast steps = true) :
    loadFirst port slot steps p = accept (programTaken port slot steps p) := if_pos h

theorem loadFirst_of_opening (h : endsLast steps = false) (hlength : steps.length = 8) :
    loadFirst port slot steps p = accept (setAssembly port (some ⟨slot, steps⟩) p) :=
  (if_neg (Bool.eq_false_iff.mp h)).trans (if_pos hlength)

theorem loadFirst_of_short (h : endsLast steps = false) (hlength : steps.length ≠ 8) :
    loadFirst port slot steps p = refuseLoad port p :=
  (if_neg (Bool.eq_false_iff.mp h)).trans (if_neg hlength)

theorem loadNext_of_open {held : List BlendStep} (hopen : assemblyOf port p.blend = some ⟨slot, held⟩)
    (h : endsLast steps = true) : loadNext port slot steps p = accept (programTaken port slot (held ++ steps) p) := by
  rw [loadNext, hopen]
  exact if_pos (by rw [h]; simp)

theorem loadNext_of_unfit (h : endsLast steps = false ∨
    ∀ a, assemblyOf port p.blend = some a → a.slot ≠ slot) : loadNext port slot steps p = refuseLoad port p := by
  unfold loadNext
  split
  · rfl
  · next a hopen =>
    refine if_neg fun hfit => ?_
    obtain ⟨hslot, hends⟩ := Bool.and_eq_true_iff.mp hfit
    obtain h | h := h
    · rw [h] at hends
      exact nomatch hends
    · exact h a hopen (of_decide_eq_true hslot)

/-! ### The frame's tests -/

theorem slotOf_of_lt {b : Byte} (h : b.toNat < 4) : slotOf b = some ⟨b.toNat, h⟩ := dif_pos h

theorem slotOf_of_ge {b : Byte} (h : 4 ≤ b.toNat) : slotOf b = none := dif_neg (Nat.not_lt.mpr h)

theorem length_of_stepsOf : ∀ {bytes : List (Byte × Byte)} {steps : List BlendStep}, stepsOf bytes = some steps →
    steps.length = bytes.length
  | [], steps, h => by
    obtain rfl := Option.some.inj h
    rfl
  | b :: bytes, steps, h => by
    obtain ⟨s, l, -, hl, rfl⟩ := stepsOf_cons_eq_some h
    rw [List.length_cons, List.length_cons, length_of_stepsOf hl]

theorem slotOf_val (slot : SlotNo) : slotOf (BitVec.ofNat 8 slot.val) = some slot := by
  revert slot
  decide

variable {slotByte first : Byte} {bytes : List (Byte × Byte)}

theorem loadBlend_first (hslot : slotOf slotByte = some slot) (hsteps : stepsOf bytes = some steps)
    (hflags : lastFlagsOk steps = true) : loadBlend port slotByte 1#8 bytes p = loadFirst port slot steps p := by
  rw [loadBlend, hslot, hsteps]
  exact if_neg (by rw [hflags]; decide)

theorem loadBlend_next (hslot : slotOf slotByte = some slot) (hsteps : stepsOf bytes = some steps)
    (hflags : lastFlagsOk steps = true) : loadBlend port slotByte 9#8 bytes p = loadNext port slot steps p := by
  rw [loadBlend, hslot, hsteps]
  exact if_neg (by rw [hflags]; decide)

/-- A test of R80 fails. -/
def loadIll (port : Port) (slot first : Byte) (bytes : List (Byte × Byte)) (p : Part) : Prop :=
  4 ≤ slot.toNat ∨ (first ≠ 1#8 ∧ first ≠ 9#8) ∨ stepsOf bytes = none ∨
    (∃ steps, stepsOf bytes = some steps ∧ (lastFlagsOk steps = false ∨
      (first = 9#8 ∧ endsLast steps = false) ∨
      (first = 1#8 ∧ endsLast steps = false ∧ steps.length < 8))) ∨
    (first = 9#8 ∧ ∀ a, assemblyOf port p.blend = some a → a.slot.val ≠ slot.toNat)

theorem loadBlend_of_otherPart (h1 : first ≠ 1#8) (h9 : first ≠ 9#8) :
    loadBlend port slotByte first bytes p = refuseLoad port p := by
  have hne (n : Nat) (hn : n < 256) (h : first ≠ BitVec.ofNat 8 n) : first.toNat ≠ n := fun heq =>
    h (BitVec.eq_of_toNat_eq (by rw [heq, BitVec.toNat_ofNat]; omega))
  have h1' := hne 1 (by decide) h1
  have h9' := hne 9 (by decide) h9
  unfold loadBlend
  split
  · split
    · rfl
    · split
      · next h => exact absurd h h1'
      · next h => exact absurd h h9'
      · rfl
  · rfl

/-- A frame that fails a test of R80 is refused. -/
theorem loadBlend_of_ill (h : loadIll port slotByte first bytes p) :
    loadBlend port slotByte first bytes p = refuseLoad port p := by
  by_cases hslot : 4 ≤ slotByte.toNat
  · rw [loadBlend, slotOf_of_ge hslot]
  cases hsteps : stepsOf bytes with
  | none =>
    unfold loadBlend
    rw [hsteps]
    split <;> first | rfl | (next heq => exact nomatch heq)
  | some steps =>
    have hslot' := slotOf_of_lt (Nat.lt_of_not_le hslot)
    by_cases hflags : lastFlagsOk steps = true
    case neg =>
      rw [loadBlend, hslot', hsteps]
      exact if_pos (by simpa using hflags)
    by_cases hfirst : first = 1#8
    · subst hfirst
      obtain hbad | ⟨hbad, -⟩ | hbad | ⟨steps', hsteps', hbad | ⟨hbad, -⟩ | ⟨-, hends, hlength⟩⟩ | ⟨hbad, -⟩ := h
      · exact absurd hbad hslot
      · exact absurd rfl hbad
      · exact nomatch hbad.symm.trans hsteps
      · obtain rfl := Option.some.inj (hsteps.symm.trans hsteps')
        rw [hflags] at hbad
        exact nomatch hbad
      · exact absurd hbad (by decide)
      · obtain rfl := Option.some.inj (hsteps.symm.trans hsteps')
        rw [loadBlend_first hslot' hsteps hflags]
        exact loadFirst_of_short hends (by omega)
      · exact absurd hbad (by decide)
    · by_cases hnext : first = 9#8
      · subst hnext
        rw [loadBlend_next hslot' hsteps hflags]
        apply loadNext_of_unfit
        obtain hbad | ⟨-, hbad⟩ | hbad | ⟨steps', hsteps', hbad | ⟨-, hends⟩ | ⟨hbad, -⟩⟩ | ⟨-, hother⟩ := h
        · exact absurd hbad hslot
        · exact absurd rfl hbad
        · exact nomatch hbad.symm.trans hsteps
        · obtain rfl := Option.some.inj (hsteps.symm.trans hsteps')
          rw [hflags] at hbad
          exact nomatch hbad
        · obtain rfl := Option.some.inj (hsteps.symm.trans hsteps')
          exact .inl hends
        · exact absurd hbad (by decide)
        · exact .inr fun a ha heq => hother a ha (congrArg Fin.val heq)
      · exact loadBlend_of_otherPart hfirst hnext

/-! ### The answer -/

/-- An accepted load: what it makes of the part, and its answer. -/
theorem loadAnswered {s : State} {answered : Part} (hrequest : takesRequest port s.part) (hport : port = .pb ∨ port = .sv)
    (hshort : 1 ≤ bytes.length) (hlong : bytes.length ≤ 8)
    (hload : loadBlend port slotByte first bytes s.part = accept answered)
    (hframe : changesOnly [.slots, .blend] s.part answered) :
    exec (.loadBlend port slotByte first bytes) s =
      .next ⟨s.pending, queueOn port (.reply .loadBlend .accepted none) answered⟩ ∧
    replied port .loadBlend .accepted none s.part (queueOn port (.reply .loadBlend .accepted none) answered) := by
  have hkind : Kind.loadBlend.requestOn port = true := by obtain rfl | rfl := hport <;> rfl
  have hexec := exec_of_request (owner := loadBlend port slotByte first bytes) hrequest hkind
    (stepsLengthOk_of_le hshort hlong) (i := .loadBlend port slotByte first bytes) rfl
  rw [replyOn_accept hload] at hexec
  have hreplied := replied_accept (port := port) (kind := .loadBlend) hload (tx_of_frame hframe)
  rw [replyOn_accept hload] at hreplied
  exact ⟨hexec, hreplied⟩

theorem queueOn_kept (f : OutFrame) (p : Part) : (queueOn port f p).slots = p.slots ∧ (queueOn port f p).blend = p.blend :=
  ⟨(queueOn_frame port f p).same .slots (by decide), (queueOn_frame port f p).same .blend (by decide)⟩

/-- A program is in its slot, active or pending, with its port's assembly closed and all else kept. -/
def programLoaded (port : Port) (slot : SlotNo) (program : List BlendStep) (p q : Part) : Prop :=
  q.slots[slot] = (if p.blend.episode then { p.slots[slot] with pending := some program } else ⟨program, none⟩) ∧
  (∀ other : SlotNo, other ≠ slot → q.slots[other] = p.slots[other]) ∧
  assemblyOf port q.blend = none ∧
  (∀ other, other ≠ port → assemblyOf other q.blend = assemblyOf other p.blend) ∧
  q.blend.episode = p.blend.episode ∧ q.blend.regPrev = p.blend.regPrev

theorem programLoaded_queueOn (hport : port = .pb ∨ port = .sv) (slot : SlotNo) (program : List BlendStep) (f : OutFrame)
    (p : Part) : programLoaded port slot program p (queueOn port f (programTaken port slot program p)) := by
  obtain ⟨hslots, hblend⟩ := queueOn_kept (port := port) f (programTaken port slot program p)
  unfold programLoaded
  rw [hslots, hblend, programTaken_slots, programTaken_blend]
  refine ⟨?_, fun other h => ?_, assemblyOf_setAssembly hport none p, fun other h => assemblyOf_setAssembly_other h none p,
    setAssembly_kept port none p⟩
  · exact (Vector.getElem_set_self ..).trans rfl
  · exact Vector.getElem_set_ne slot.isLt other.isLt (Fin.val_ne_of_ne h.symm)

/-- Settles O19: a program whole, opened, and completed; then a frame that fails a test. -/
theorem loadBlendTakesOrRefuses : Obligations.LoadBlendTakesOrRefuses := by
  refine ⟨fun port slot bytes steps s hrequest hport hshort hlong hsteps hflags => ⟨fun hends => ?whole,
    fun hlength hends => ?opening, fun held hopen hends => ?completed⟩,
    fun port slot first bytes s hrequest hport hshort hlong hill => ?refused⟩
  case whole =>
    have hload : loadBlend port (BitVec.ofNat 8 slot.val) 1#8 bytes s.part =
        accept (programTaken port slot steps s.part) :=
      (loadBlend_first (slotOf_val slot) hsteps hflags).trans (loadFirst_of_whole hends)
    obtain ⟨hexec, hreplied⟩ := loadAnswered hrequest hport hshort hlong hload (programTaken_frame ..)
    obtain ⟨hslot, hslots, hnone, hothers, hepisode, hreg⟩ := programLoaded_queueOn hport slot steps _ s.part
    exact ⟨_, hexec, hslot, hslots, hnone, hothers, hepisode, hreg, hreplied,
      (programTaken_frame ..).trans (queueOn_frame ..)⟩
  case opening =>
    have hload : loadBlend port (BitVec.ofNat 8 slot.val) 1#8 bytes s.part =
        accept (setAssembly port (some ⟨slot, steps⟩) s.part) :=
      (loadBlend_first (slotOf_val slot) hsteps hflags).trans
        (loadFirst_of_opening hends ((length_of_stepsOf hsteps).trans hlength))
    obtain ⟨hexec, hreplied⟩ := loadAnswered hrequest hport hshort hlong hload (setAssembly_frame ..).mono
    refine ⟨_, hexec, ?_, fun other h => ?_, hreplied, (setAssembly_frame ..).trans (queueOn_frame ..)⟩ <;> dsimp only <;>
      rw [(queueOn_kept ..).2]
    · exact assemblyOf_setAssembly hport _ s.part
    · exact assemblyOf_setAssembly_other h _ s.part
  case completed =>
    have hload : loadBlend port (BitVec.ofNat 8 slot.val) 9#8 bytes s.part =
        accept (programTaken port slot (held ++ steps) s.part) :=
      (loadBlend_next (slotOf_val slot) hsteps hflags).trans (loadNext_of_open hopen hends)
    obtain ⟨hexec, hreplied⟩ := loadAnswered hrequest hport hshort hlong hload (programTaken_frame ..)
    obtain ⟨hslot, hslots, hnone, -⟩ := programLoaded_queueOn hport slot (held ++ steps) _ s.part
    exact ⟨_, hexec, hslot, hslots, hnone, hreplied, (programTaken_frame ..).trans (queueOn_frame ..)⟩
  case refused =>
    have hload := loadBlend_of_ill (p := s.part) hill
    have hkind : Kind.loadBlend.requestOn port = true := by obtain rfl | rfl := hport <;> rfl
    have hexec := exec_of_request (owner := loadBlend port slot first bytes) hrequest hkind
      (stepsLengthOk_of_le hshort hlong) (i := .loadBlend port slot first bytes) rfl
    rw [hload, show replyOn port .loadBlend (refuseLoad port s.part) =
      queueOn port (.reply .loadBlend .range none) (setAssembly port none s.part) from rfl] at hexec
    refine ⟨_, hexec, ?_, fun other h => ?_, ?_, (setAssembly_frame ..).trans (queueOn_frame ..)⟩ <;> dsimp only
    · rw [(queueOn_kept ..).2]
      exact assemblyOf_setAssembly hport none s.part
    · rw [(queueOn_kept ..).2]
      exact assemblyOf_setAssembly_other h none s.part
    · exact replyOn_replied port .loadBlend (refuseLoad port s.part) s.part (tx_of_frame (setAssembly_frame ..))

end Sys2Proof.Machine
end

