-- ==== Sys2Proof/Proofs/ReadAnswers.lean ====
section
/-! SUPPORT. READ: the encoders of the model and the bytes of the manual (R179, R194), what an item and its index name
(R191, R192), and the answers in parts (R191). -/

set_option Elab.async false

namespace Sys2Proof.Machine

variable {p : Part} {port : Port} {item : Byte} {index : BitVec 16}

/-! ### Bytes -/

theorem enc1_eq (n : Nat) : enc1 n = [byteOf n] := rfl

theorem encFlag_eq (b : Bool) : encFlag b = [byteOf b.toNat] := rfl

theorem bytes2_eq (w : BitVec 16) : bytes2 w = twoBytes w.toNat := by
  have hhi : hiByte w = byteOf (w.toNat / 256) := by
    apply BitVec.eq_of_toNat_eq
    rw [hiByte, byteOf, BitVec.extractLsb'_toNat, BitVec.toNat_ofNat, Nat.shiftRight_eq_div_pow]
  have hlo : loByte w = byteOf w.toNat := by
    apply BitVec.eq_of_toNat_eq
    rw [loByte, byteOf, BitVec.extractLsb'_toNat, BitVec.toNat_ofNat, Nat.shiftRight_zero]
  rw [bytes2, hhi, hlo, twoBytes]

theorem byteOf_mod (n : Nat) : byteOf (n % 256) = byteOf n := by
  apply BitVec.eq_of_toNat_eq
  simp [byteOf]

/-- Two bytes of a number are those of its rest below 65536. -/
theorem twoBytes_mod (n : Nat) : twoBytes (n % 65536) = twoBytes n := by
  have hhi : n % 65536 / 256 = n / 256 % 256 := by omega
  have hlo : n % 65536 % 256 = n % 256 := by omega
  rw [twoBytes, hhi, byteOf_mod, ← byteOf_mod (n % 65536), hlo, byteOf_mod, twoBytes]

theorem enc2_eq (n : Nat) : enc2 n = twoBytes n := by
  rw [enc2, bytes2_eq, BitVec.toNat_ofNat]
  exact twoBytes_mod n

theorem enc4_eq (w : BitVec 32) : enc4 w = fourBytes w.toNat := by
  have hw := w.isLt
  have hhi : w.toNat >>> 16 % 2 ^ 16 = w.toNat / 65536 := by
    rw [Nat.shiftRight_eq_div_pow]
    omega
  rw [enc4, bytes2_eq, bytes2_eq, BitVec.extractLsb'_toNat, BitVec.extractLsb'_toNat, hhi, Nat.shiftRight_zero, fourBytes]
  exact congrArg (twoBytes (w.toNat / 65536) ++ ·) (twoBytes_mod _)

theorem enc2i_eq (z : Int) : enc2i z = twoSigned z := by
  rw [enc2i, bytes2_eq, BitVec.toNat_ofInt, twoSigned]
  rfl

/-- The byte of a source or NONE (R194). -/
def sourceByte : Option Source → Byte
  | none => 255#8
  | some src => byteOf src.ctorIdx

theorem encSource_eq (o : Option Source) : encSource o = [sourceByte o] := by
  cases o <;> rfl

theorem encAccountFlags_eq (f : AccountFlags) : encAccountFlags f = [byteOf (f.overdraw.toNat + 2 * f.overcharge.toNat +
    4 * f.senseHeld.toNat + 8 * f.episode.toNat + 16 * f.dump.toNat)] := by
  refine congrArg (fun n => [byteOf n]) ?_
  show f.overdraw.toNat + 2 * (f.overcharge.toNat + 2 * (f.senseHeld.toNat + 2 * (f.episode.toNat +
    2 * (f.dump.toNat + 2 * 0)))) = _
  omega

theorem encList_eq {α : Type} {enc form : α → List Byte} (h : ∀ a, enc a = form a) (l : List α) :
    encList enc l = byteOf l.length :: l.flatMap form := by
  rw [encList, funext h, enc1_eq]
  rfl

/-! ### The items whose content is spelled out -/

theorem encRecord_eq (r : AccountRecord) : encRecord r = recordForm r := by
  unfold encRecord recordForm
  rw [encAccountFlags_eq, encSource_eq, encSource_eq, enc4_eq, enc4_eq, enc2_eq, enc2_eq, funext enc2_eq]
  simp only [AccountRecord.flows, enc1_eq, HoldState.code, List.flatMap_def, List.map_cons, List.map_nil,
    List.flatten_cons, List.flatten_nil, List.append_assoc, List.append_nil, List.cons_append, List.nil_append]
  rfl

theorem encScope_eq (sc : Scope) : enc1 sc.code = [scopeByte sc] := by
  cases sc <;> rfl

theorem encAction_eq (a : MonitorAction) : enc1 a.ctorIdx = [actionByte a] := by
  cases a <;> rfl

theorem encMonitorCfg_eq (c : MonitorCfg) : encMonitorCfg c = monitorForm c := by
  rw [encMonitorCfg, encScope_eq, encAction_eq, enc2i_eq, enc2i_eq, enc2_eq, enc1_eq, monitorForm]
  simp

theorem encWarning_eq (w : Warning) : encWarning w =
    [byteOf w.item.val, byteOf w.level.ctorIdx] ++ fourBytes w.raised.toNat ++ [byteOf w.acknowledged.toNat] := by
  rw [encWarning, enc4_eq]
  rfl

theorem configBytes_eq (it : ConfigItem) (p : Part) : configBytes it p = configForm it p := by
  cases it with
  | num i =>
    have hform : configBytes (.num i) p = if i.row.high ≤ 255 then enc1 (p.cfg.num i) else enc2 (p.cfg.num i) := rfl
    rw [hform, enc1_eq, enc2_eq]
    rfl
  | axleShares =>
    have hform : configBytes .axleShares p = enc2 p.cfg.axleShares.axle1 ++ enc2 p.cfg.axleShares.axle2 ++
      enc2 p.cfg.axleShares.axle3 := rfl
    rw [hform, enc2_eq, enc2_eq, enc2_eq]
    rfl
  | overrideCode | resetMask => rfl
  | eventGroup | routineList =>
    refine (encList_eq (form := fun ch : Channel => [byteOf ch.val]) (fun _ => rfl) _).trans ?_
    exact congrArg (byteOf _ :: ·) List.map_eq_flatMap.symm
  | monitor k => exact encMonitorCfg_eq _
  | enables other => exact bytes2_eq _

theorem accountLast_of_none (h : p.account.current = none) : accountLast p = [0#8] := by
  rw [accountLast, h]
  rfl

theorem accountLast_of_some {r : AccountRecord} {w : Working} (h : p.account.current = some (r, w)) :
    accountLast p = 1#8 :: recordForm r := by
  rw [accountLast, h, ← encRecord_eq]
  rfl

/-! ### What a READ names -/

/-- The refusal of a READ target. -/
def refusalOf : ReadTarget → Option ReplyCode
  | .unknownItem => some .unknownItem
  | .badIndex => some .range
  | _ => none

/-- The refusal of an index that is no place of its item (R192). -/
theorem refusalOf_indexed {n : Nat} {x : Nat} (target : x < n → ReadTarget) (htarget : ∀ h, refusalOf (target h) = none) :
    refusalOf (if h : x < n then target h else .badIndex) = if n ≤ x then some .range else none := by
  by_cases h : x < n
  · rw [dif_pos h, htarget h, if_neg (Nat.not_le.mpr h)]
  · rw [dif_neg h, if_pos (Nat.not_lt.mp h)]
    rfl

theorem refusalOf_config (n : Nat) : refusalOf (match configItemOf n with
    | some it => .config it
    | none => .unknownItem) = if n = 0 ∨ 64 < n then some .unknownItem else none := by
  by_cases h : n = 0 ∨ 64 < n
  · rw [(configItemOf_none_iff n).mpr h, if_pos h]
    rfl
  · obtain ⟨it, hit⟩ := Option.ne_none_iff_exists'.mp (mt (configItemOf_none_iff n).mp h)
    rw [hit, if_neg h]
    rfl

theorem refusalOf_readTarget (item : Byte) (index : BitVec 16) :
    refusalOf (readTarget item index) = readRefusal item index := by
  unfold readTarget readRefusal
  dsimp only
  split
  case h_7 h => exact (refusalOf_indexed _ fun _ => rfl).trans (by simp [h])
  case h_8 h => exact (refusalOf_indexed _ fun _ => rfl).trans (by simp [h])
  case h_9 h => exact (refusalOf_indexed _ fun _ => rfl).trans (by simp [h])
  case h_11 h => exact (refusalOf_indexed _ fun _ => rfl).trans (by simp [h])
  case h_12 h => exact (refusalOf_config _).trans (by simp [h])
  case h_15 =>
    refine (if_pos (.inl ?_)).symm
    simp only [imp_false] at *
    omega
  all_goals
    next h =>
    simp [h, refusalOf]

theorem readItem_eq (part : Byte) : readItem port item index part p =
    match refusalOf (readTarget item index) with
    | some code => refuse code p
    | none =>
      if part = 0#8 then readFirst port item index (readContent port (readTarget item index) p) p
      else readLater port item index part p := by
  unfold readItem
  cases readTarget item index <;> rfl

theorem readItem_of_refused {code : ReplyCode} {part : Byte} (h : readRefusal item index = some code) :
    readItem port item index part p = refuse code p := by
  rw [readItem_eq, refusalOf_readTarget, h]

theorem readItem_of_first (h : readRefusal item index = none) : readItem port item index 0#8 p =
    readFirst port item index (readContent port (readTarget item index) p) p := by
  rw [readItem_eq, refusalOf_readTarget, h]
  exact if_pos rfl

theorem readItem_of_later {part : Byte} (h : readRefusal item index = none) (hpart : part ≠ 0#8) :
    readItem port item index part p = readLater port item index part p := by
  rw [readItem_eq, refusalOf_readTarget, h]
  exact if_neg hpart

theorem readTarget_monitor {k : MonitorNo} (h : index.toNat = k.val) : readTarget 7#8 index = .monitor k := by
  obtain ⟨k, hk⟩ := k
  obtain rfl : index.toNat = k := h
  exact dif_pos hk

theorem readTarget_config {it : ConfigItem} (h : configItemOf index.toNat = some it) :
    readTarget 11#8 index = .config it := by
  show (match configItemOf index.toNat with
    | some it => ReadTarget.config it
    | none => .unknownItem) = _
  rw [h]

theorem monitorAnswer_eq (k : MonitorNo) (p : Part) : monitorAnswer k p = monitorForm p.cfg.monitors[k] ++
    [byteOf p.scan.monitors[k].state.ctorIdx, byteOf p.scan.monitors[k].count] ++
    twoBytes p.scan.monitors[k].trips ++ fourBytes p.scan.monitors[k].tripStamp.toNat := by
  rw [monitorAnswer, encMonitorCfg_eq, enc1_eq, enc1_eq, enc2_eq, enc4_eq]
  simp

theorem portAnswer_eq (port : Port) (p : Part) : portAnswer port p = twoBytes (p.port port).status.toNat ++
    twoBytes (p.cfg.enables.get port).toNat ++
    [byteOf (attention p port).toNat, (p.port port).causes, byteOf (p.port port).waitingReplies] ++
    [Partner.drive, .storage, .generator, .brake].map (fun partner => byteOf (p.fresh partner).ctorIdx) ++
    [byteOf p.links.a.freshness.ctorIdx, byteOf p.links.b.freshness.ctorIdx, byteOf p.partState.ctorIdx] := by
  rw [portAnswer, bytes2_eq, bytes2_eq]
  simp [enc1_eq, encFlag_eq]

theorem encOption_ite {α : Type} (enc : α → List Byte) (c : Prop) [Decidable c] (a : α) :
    encOption enc (if c then some a else none) = if c then 1#8 :: enc a else [0#8] := by
  split <;> rfl

theorem resetAnswer_eq (p : Part) : resetAnswer p =
    [byteOf p.cause.cause.ctorIdx, byteOf p.cause.lost.toNat] ++ twoBytes p.cause.count ++
    [byteOf p.partState.ctorIdx] ++
    (if p.partState = .starting then 1#8 :: twoBytes (2000 - p.time.now.toNat) else [0#8]) ++
    [byteOf p.watch.state.ctorIdx, byteOf p.cfg.resetMask.toNat] ++
    (if p.watch.state = .timing then [1#8, byteOf (100 - (p.time.now - p.watch.since).toNat)] else [0#8]) := by
  have hwindow : p.left 0#32 Config.startWindow = 2000 - p.time.now.toNat := by
    simp [Part.left, Part.since, Part.now, elapsed, Config.startWindow]
  have hhold : p.left p.watch.since Config.combinationHold = 100 - (p.time.now - p.watch.since).toNat := rfl
  rw [resetAnswer, encOption_ite, encOption_ite, hwindow, hhold, enc2_eq, enc2_eq]
  simp [enc1_eq, encFlag_eq]

/-- The content made for a READ is the one that the manual spells out. -/
theorem answerContent_readContent (port : Port) (item : Byte) (index : BitVec 16) (p : Part) :
    answerContent port item index p (readContent port (readTarget item index) p) := by
  refine ⟨?_, ?_, ?_, ?_, ?_, ?_, ?_, ?_⟩
  · rintro rfl hnone
    exact accountLast_of_none hnone
  · rintro r w rfl hsome
    exact accountLast_of_some hsome
  · rintro rfl
    exact encList_eq encRecord_eq _
  · rintro k rfl hk
    rw [readTarget_monitor hk]
    exact monitorAnswer_eq k p
  · rintro rfl
    exact encList_eq encWarning_eq _
  · rintro it rfl hit
    rw [readTarget_config hit]
    exact configBytes_eq it p
  · rintro rfl
    exact portAnswer_eq port p
  · rintro rfl
    exact resetAnswer_eq p

/-! ### The answer in parts -/

theorem readLater_of_part {part : Byte} {content : List Byte}
    (hsnap : (p.port port).snapshot = some ⟨item, usedIndex item index, content⟩)
    (hpart : part.toNat < partCount content) :
    readLater port item index part p = ⟨p, .accepted, some (partOf item index part content)⟩ := by
  rw [readLater, hsnap]
  exact if_pos (by simp [hpart])

theorem readLater_of_other {part : Byte} (h : ∀ snap, (p.port port).snapshot = some snap → snap.item = item →
    snap.index = usedIndex item index → partCount snap.content ≤ part.toNat) :
    readLater port item index part p = refuse .range p := by
  unfold readLater
  split
  · rfl
  · next snap hsnap =>
    refine if_neg fun hfit => ?_
    simp only [Bool.and_eq_true, decide_eq_true_eq] at hfit
    obtain ⟨⟨hitem, hindex⟩, hpart⟩ := hfit
    exact absurd (h snap hsnap hitem hindex) (Nat.not_le.mpr hpart)

/-- The part with a snapshot on a port. -/
def snapshotTaken (port : Port) (snap : Snapshot) (p : Part) : Part :=
  p.setPort port { p.port port with snapshot := some snap }

theorem port_snapshotTaken_self (port : Port) (snap : Snapshot) (p : Part) :
    (snapshotTaken port snap p).port port = { p.port port with snapshot := some snap } := port_setPort_self ..

theorem port_snapshotTaken_other {other : Port} (snap : Snapshot) (p : Part) (h : other ≠ port) :
    (snapshotTaken port snap p).port other = p.port other := port_setPort_other _ _ h

theorem readFirst_eq (port : Port) (item : Byte) (index : BitVec 16) (content : List Byte) (p : Part) :
    replyOn port .read (readFirst port item index content p) =
      queueOn port (.reply .read .accepted (some ⟨item, index, 0#8, BitVec.ofNat 8 (partCount content), content.take 17⟩))
        (snapshotTaken port ⟨item, usedIndex item index, content⟩ p) := rfl

/-- What the first part of an answer leaves on its port: the snapshot and the reply, and nothing else. -/
theorem readFirst_answered (port : Port) (item : Byte) (index : BitVec 16) (content : List Byte) (p : Part) :
    let q := replyOn port .read (readFirst port item index content p)
    (q.port port).snapshot = some ⟨item, usedIndex item index, content⟩ ∧
    replied port .read .accepted
      (some ⟨item, index, 0#8, BitVec.ofNat 8 (partCount content), content.take 17⟩) p q ∧
    (q.port port).status = (p.port port).status ∧
    (q.port port).causes = (p.port port).causes ∧
    (∀ other, other ≠ port → q.port other = p.port other) ∧
    changesOnly [.ports] p q := by
  intro q
  have hself : q.port port = { p.port port with
      snapshot := some ⟨item, usedIndex item index, content⟩
      tx := (p.port port).tx.enqueue (.reply .read .accepted
        (some ⟨item, index, 0#8, BitVec.ofNat 8 (partCount content), content.take 17⟩)) } := by
    show (replyOn port .read (readFirst port item index content p)).port port = _
    rw [readFirst_eq, port_queueOn_self, port_snapshotTaken_self]
  have hothers (other : Port) (h : other ≠ port) : q.port other = p.port other := by
    show (replyOn port .read (readFirst port item index content p)).port other = _
    rw [readFirst_eq, port_queueOn_other _ _ h, port_snapshotTaken_other _ _ h]
  unfold replied
  rw [hself]
  exact ⟨rfl, ⟨rfl, fun other h => congrArg PortState.tx (hothers other h)⟩, rfl, rfl, hothers,
    (setPort_frame ..).seq (queueOn_frame ..)⟩

/-- Settles O13. -/
theorem readAnswersInParts : Obligations.ReadAnswersInParts := by
  intro port item index s hrequest
  have hkind : Kind.read.requestOn port = true := rfl
  have hexec (part : Byte) : exec (.read port item index part) s =
      .next ⟨s.pending, replyOn port .read (readItem port item index part s.part)⟩ :=
    exec_of_request hrequest hkind rfl rfl
  refine ⟨fun code part hcode => ⟨_, hexec part, refusedWith_replyOn (readItem_of_refused hcode)⟩,
    fun hnone => ⟨?first, fun part hpart => ?later⟩⟩
  case first =>
    have hfirst := hexec 0#8
    rw [readItem_of_first hnone] at hfirst
    generalize hcontent : readContent port (readTarget item index) s.part = content at hfirst
    have hcontents : answerContent port item index s.part content := hcontent ▸ answerContent_readContent ..
    refine ⟨_, content, hfirst, rfl, hcontents, readFirst_answered port item index content s.part⟩
  case later =>
    have hlater := hexec part
    rw [readItem_of_later hnone hpart] at hlater
    refine ⟨_, hlater, fun content hsnap hcount => ?_, fun hother => refusedWith_replyOn (readLater_of_other hother)⟩
    dsimp only
    rw [readLater_of_part hsnap hcount]
    rfl

end Sys2Proof.Machine
end
